-- ==== Sys2Proof/Word.lean ====
section
/-! DEFINITION. The word types of the part: 16-bit words, bytes, 21-bit word addresses, the 32-bit timestamp. -/

namespace Sys2Proof

/-- A 16-bit unit of the bank (00, Terms). -/
abbrev Word := BitVec 16

/-- A console byte, or one byte lane of a word. -/
abbrev Byte := BitVec 8

/-- A word address of the bank: 0x000000 to 0x1FFFFF (00, Part at a glance). -/
abbrev Addr := BitVec 21

/-- The centisecond count (R38). -/
abbrev Stamp := BitVec 32

/-- A line number, 0 to 31 (00, Conventions). -/
abbrev LineNo := Fin 32

/-- A moment, in periods of the reference clock (MODEL, DESIGN CHOICE, log 2). -/
abbrev Moment := Nat

/-- A timer: stopped, or running with the moment of its expiry. -/
abbrev Timer := Option Moment

end Sys2Proof
end

