-- ==== Sys2Proof/Syntax.lean ====
section
/-! DEFINITION. The commands of the part: one constructor for each row of spec/opcode_table.json. -/

namespace Sys2Proof

/-- The byte lanes a host write strobes: both, the high lane alone, or the low lane alone (R1). -/
inductive Lanes where
  | both
  | high
  | low
deriving DecidableEq, Repr

/-- The direction of a host access, and what a write carries (R1). -/
inductive AccessOp where
  | read
  | write (lanes : Lanes) (data : Word)
deriving DecidableEq, Repr

/-- One host access: its word address and its direction (R1). -/
structure HostAccess where
  addr : Addr
  op : AccessOp
deriving DecidableEq, Repr

/-- The operand of HOST_ACCESS_COMPLETE. The table has no row for the arrival of an access that no other row names, and none for
events that come together (DESIGN CHOICE, log 4). -/
inductive HostEvent where
  /-- A host access arrives. -/
  | arrives (a : HostAccess)
  /-- A host access arrives together with the next command's event, so that one grant is made for both (R15). -/
  | arrivesTogether (a : HostAccess)
  /-- The host access that the Memory Port serves completes, and the host issues `following` at that moment, if any (R15). -/
  | completes (following : Option HostAccess)
deriving DecidableEq, Repr

/-- The operand of PROBE_WINDOW_END: the line, and whether a falling edge of its receive input comes together with the 5 s expiry
and is taken after it (R158). The table has no row for events that come together (DESIGN CHOICE, log 36). -/
structure ProbeExpiry where
  line : LineNo
  edge : Bool
deriving DecidableEq, Repr

/-- The commands. `line` is the line concerned, `lanes` and `data` what a host write strobes and carries, `wait` the
reference periods that pass before an edge is taken (logs 2, 31). -/
inductive Instr where
  | powerOn
  | pinReset
  | pinResetEffect
  | handsOffAsserted
  | handsOffDeasserted
  | gateWrite (lanes : Lanes) (data : Word)
  | setupReadComplete
  | closingWriteComplete
  | blockedWrite (addr : Addr) (lanes : Lanes) (data : Word)
  | attentionEnable (lanes : Lanes) (data : Word)
  | forceSet
  | forceClear
  | disarm
  | baseAcknowledge (lanes : Lanes) (mask : Word)
  | timestampHighRead
  | timestampLowRead
  | counterTick
  | modeRequestOff (line : LineNo) (lanes : Lanes) (data : Word)
  | modeRequestListen (line : LineNo) (lanes : Lanes) (data : Word)
  | modeRequestListenResume (line : LineNo) (lanes : Lanes) (data : Word)
  | modeRequestDrive (line : LineNo) (lanes : Lanes) (data : Word)
  | modeRequestUnknown (line : LineNo) (lanes : Lanes) (data : Word)
  | close (line : LineNo) (lanes : Lanes) (data : Word)
  | flush (line : LineNo) (lanes : Lanes) (data : Word)
  | probe (line : LineNo) (lanes : Lanes) (data : Word)
  | probeApply (line : LineNo) (lanes : Lanes) (data : Word)
  | discardTx (line : LineNo) (lanes : Lanes) (data : Word)
  | resetCounts (line : LineNo) (lanes : Lanes) (data : Word)
  | commandUnknown (line : LineNo) (lanes : Lanes) (data : Word)
  | lineAcknowledge (line : LineNo) (lanes : Lanes) (mask : Word)
  | settingsWrite (line : LineNo) (word : Fin 22) (lanes : Lanes) (data : Word)
  | frameWrite (line : LineNo) (lanes : Lanes) (data : Word)
  | rateDivisorWrite (line : LineNo) (lanes : Lanes) (data : Word)
  | rateFractionWrite (line : LineNo) (lanes : Lanes) (data : Word)
  | breakPolicyWrite (line : LineNo) (lanes : Lanes) (data : Word)
  | attentionThresholdWrite (line : LineNo) (lanes : Lanes) (data : Word)
  | coalesceTimeWrite (line : LineNo) (lanes : Lanes) (data : Word)
  | quietTimeWrite (line : LineNo) (lanes : Lanes) (data : Word)
  | attentionMaskWrite (line : LineNo) (lanes : Lanes) (data : Word)
  | probeResultRead
  | windowWrite (line : LineNo) (word : Fin 16) (lanes : Lanes) (data : Word)
  | windowRead (line : LineNo) (word : Fin 16)
  | sizeWordRead
  | retireByRead
  | holdExpiry
  | writerSelect
  | reclaimReadReturn
  | recordWordComplete
  | commit
  | walkReadReturn
  | reportWriteComplete
  | hostAccessComplete (event : HostEvent)
  | settleExpiry (line : LineNo)
  | releaseExpiry (line : LineNo)
  | markHoldEnd (line : LineNo)
  | dataByteComplete (line : LineNo)
  | breakSpaceEnd (line : LineNo)
  | breakMarkEnd (line : LineNo)
  | pauseEnd (line : LineNo)
  | rxFallingEdge (line : LineNo) (wait : Nat)
  | rxRisingEdge (line : LineNo) (wait : Nat)
  | startBit (line : LineNo)
  | byteArrival (line : LineNo)
  | breakStart (line : LineNo)
  | gapTimerExpiry (line : LineNo)
  | quietExpiry (line : LineNo)
  | signalInvalid (line : LineNo)
  | signalValid (line : LineNo)
  | lineOpen (line : LineNo)
  | lineRestored (line : LineNo)
  | stuck (line : LineNo)
  | leaseLapse (line : LineNo)
  | coalesceExpiry (line : LineNo)
  | probeWindowEnd (expiry : ProbeExpiry)
  | resetRelease
  | walkReadComplete
deriving DecidableEq, Repr

end Sys2Proof
end

