-- ==== Sys2Proof/Decode.lean ====
section
/-! DEFINITION. The decoding of the table's words. No row of spec/opcode_table.json gives bits: a command of this block is an
event, not a word, so no word spells one (log 27). -/

namespace Sys2Proof

/-- The command that a word spells by the table's bits: none, since no row gives bits. -/
def decodeTableWord (_nbits _w : Nat) : Option Instr := none

end Sys2Proof
end

