-- ==== Sys2Proof/Config.lean ====
section
/-! DEFINITION. What the implementation fixes: the reference clock, the identity, what an unwritten byte reads as.
The spec leaves no result value open, so no constant here is a free value. -/

namespace Sys2Proof.Config

/-- Reference periods in one centisecond: 29.4912 MHz divided by 100 (11.7, R38). -/
def periodsPerCentisecond : Nat := 294912

/-- Reference periods in one second (11.7). -/
def periodsPerSecond : Nat := 29491200

/-- Reference periods for which an asynchronous input holds its new level before the change is taken (R172). -/
def holdPeriods : Nat := 2

/-- The family code of base-block word 35 (R37). -/
def familyCode : Word := 0xEB32

/-- The revision of base-block word 36 (R37). -/
def revision : Word := 1

/-- What a byte of the SRAM that nothing has written reads as (DESIGN CHOICE, unsafe, log 5). -/
def unwrittenByte : Byte := 0

end Sys2Proof.Config
end

