-- ==== Sys2Proof/Machine/State.lean ====
section
/-! DEFINITION. The state of the part, block by block as 00 (Block overview) names them, the SRAM bank behind it, and the queue
of commands that wait. State is plain data; `State.reset` is the machine after power-on (R40). What the spec computes from other
state (protection, ring-due, attention flags, summaries, outputs) is held once and computed where it is read (log 24). -/

namespace Sys2Proof.Machine

/-! ## Reasons a step can stop -/

/-- No event of the spec stops the part, so there is no fault. -/
inductive Fault
deriving DecidableEq, Repr

/-- Why a command has no meaning. -/
inductive Refusal where
  /-- Raised by `exec` for a row that has no meaning yet; safe. No row is refused. -/
  | notModelled (mnemonic : String)
deriving DecidableEq, Repr

/-! ## Names the spec gives -/

/-- The level of a console line: mark is idle, space is active (00, Terms). -/
inductive Level where
  | mark
  | space
deriving DecidableEq, Repr

/-- The part state (R21). -/
inductive PartState where
  | dormant
  | arming
  | armed
  | disarming
deriving DecidableEq, Repr

/-- The reset cause (R37). -/
inductive ResetCause where
  | powerOn
  | resetPin
deriving DecidableEq, Repr

/-- The reason of a blocked write (R10). -/
inductive BlockedReason where
  | none
  | setupLocked
  | reportWord
  | locked
  | range
  | ringProtected
deriving DecidableEq, Repr

/-- The line state (R57). -/
inductive LineState where
  | off
  | listen
  | settle
  | drive
  | drain
  | release
deriving DecidableEq, Repr

/-- Where a line in "RELEASE" goes when its guard expires (R67). -/
inductive Target where
  | listen
  | off
deriving DecidableEq, Repr

/-- The causes a "MODE" event names; the first four are also the release causes (R67, R69). -/
inductive ModeCause where
  | request
  | dropEntry
  | quiesce
  | disarm
  | settleDone
  | fresh
  | resumed
  | ringUntrusted
deriving DecidableEq, Repr

/-- The outcome of a mode request or a command (R47, R50). -/
inductive RequestOutcome where
  | none
  | accepted
  | done
  | refusedState
  | refusedBusy
  | refusedHeld
  | badSettings
  | unknown
deriving DecidableEq, Repr

/-- The parity of a frame (R41). -/
inductive Parity where
  | none
  | even
  | odd
deriving DecidableEq, Repr

/-- The format of a frame (R41, R81). -/
structure FrameFormat where
  dataBits : Nat
  parity : Parity
  stopBits : Nat
deriving DecidableEq, Repr

/-! ## Receiver and Assembler -/

/-- A received byte and its error mark (R82). -/
structure RxByte where
  value : Byte
  error : Bool
deriving DecidableEq, Repr

/-- A frame under way: its format and bit time, the moment of its start bit's change to space, the levels sampled after the
start bit so far, and the last change from mark to space within it (R81, R82). -/
structure FrameRun where
  format : FrameFormat
  bitTime : Nat
  edge : Moment
  samples : List Level
  lastFall : Moment
deriving DecidableEq, Repr

/-- The receiver state (R81). "HUNT" may have a candidate start bit, by the moment of its edge; a space run has its start, its
frame time and a byte withheld; a break has the start of its run and its reached-"STUCK" mark. -/
inductive Receiver where
  | stopped
  | hunt (candidate : Option Moment)
  | frame (run : FrameRun)
  | spaceRun (start : Moment) (frameTime : Nat) (withheld : Option RxByte)
  | brk (start : Moment) (reachedStuck : Bool)
deriving DecidableEq, Repr

/-- The contents of an assembly buffer that is not "FREE" (R87). -/
structure Contents where
  bytes : List Byte
  errors : Nat
  firstError : Option Nat
  stamp : Stamp
deriving DecidableEq, Repr

/-- An assembly buffer (R87). -/
inductive Buffer where
  | free
  | opened (c : Contents)
  | closed (c : Contents)
  | writing (c : Contents)
deriving DecidableEq, Repr

/-- The event kinds of records (R103, 11.6). -/
inductive EventKind where
  | mode
  | activity
  | breakSeen
  | stuck
  | lineOpen
  | lineRestored
  | overrun
  | gap
  | fenceDone
  | probeDone
  | leaseBroken
deriving DecidableEq, Repr

/-- An event: its kind, its details A to D and its timestamp (R93). -/
structure Event where
  kind : EventKind
  a : Word
  b : Word
  c : Word
  d : Word
  stamp : Stamp
deriving DecidableEq, Repr

/-- A job of a line's job list (R93). -/
inductive Job where
  | data (buffer : Fin 2)
  | event (e : Event)
deriving DecidableEq, Repr

/-- A job the Capture Writer has taken; an event job holds the dropped-events count it took (R123). -/
inductive TakenJob where
  | data (buffer : Fin 2)
  | event (e : Event) (dropped : Word)
deriving DecidableEq, Repr

/-! ## Ring Manager -/

/-- The lease: closed, or open with the size S, live until a moment or lapsed (R109). -/
inductive Lease where
  | closed
  | opened (size : Nat) (lapse : Timer)
deriving DecidableEq, Repr

/-- The coalesce state (R163). -/
inductive Coalesce where
  | stopped
  | running (expiry : Moment)
  | expired
deriving DecidableEq, Repr

/-- The ring state of a line (06, table of state). -/
structure Ring where
  w : Nat
  r : Nat
  occupied : Nat
  count : Nat
  nextSeq : Word
  padStart : Option Nat
  lease : Lease
  discardRecords : Word
  discardBytes : Word
  coalesce : Coalesce
deriving DecidableEq, Repr

/-- The ring state is absent before the line's first entry to "LISTEN", unknown while resuming is set, present after (R100). -/
inductive RingState where
  | absent
  | unknown
  | present (ring : Ring)
deriving DecidableEq, Repr

/-- A resume walk past its first step: the pointers read, the words walked from R to W, and where the walk stands (R115, R116). -/
structure WalkRun where
  w : Nat
  r : Nat
  nextSeq : Word
  words : Nat
  pos : Nat
  remaining : Nat
  found : Nat
  lastSeq : Option Word
  pad : Option Nat
deriving DecidableEq, Repr

/-- A resume walk: its first step, or a further step (R115, R116). -/
inductive Walk where
  | pointers
  | records (run : WalkRun)
deriving DecidableEq, Repr

/-! ## Transmit Engine and Rate Probe -/

/-- The kinds of a transmit entry (08, 8.2). -/
inductive EntryKind where
  | data
  | brk
  | pause
  | rate
  | fence
  | drop
deriving DecidableEq, Repr

/-- A transmit entry (R138). -/
structure Entry where
  kind : EntryKind
  value : Byte
deriving DecidableEq, Repr

/-- The acting entry, with how far it has gone: a frame being sent, the space or the trailing mark of an admitted break, a
pause (08, table of state). -/
inductive Acting where
  | byte (format : FrameFormat) (bitTime : Nat) (start : Moment) (value : Byte)
  | breakSpace (until_ : Moment) (markTime : Nat)
  | breakMark (until_ : Moment)
  | pause (until_ : Moment)
deriving DecidableEq, Repr

/-- The fence tallies (R147). -/
structure Tallies where
  lost : Word
  refused : Word
  sent : Word
deriving DecidableEq, Repr

/-- A rate probe under way: its mode and its window (R157). -/
structure Probe where
  apply : Bool
  start : Moment
  edges : Nat
  shortest : Option Nat
  run : Option Moment
deriving DecidableEq, Repr

/-- The mode status word (R47). -/
structure ModeStatus where
  request : Byte
  outcome : RequestOutcome
  offset : Nat
deriving DecidableEq, Repr

/-- The command status word (R50). -/
structure CommandStatus where
  command : Byte
  outcome : RequestOutcome
deriving DecidableEq, Repr

/-! ## A line -/

/-- The state of one line in its blocks: Line Controller, Receiver and Assembler, Ring Manager, Transmit Engine, Rate Generator
and Probe, and the Capture Writer's parked and retained job of the line. -/
structure Line where
  shadow : Vector Word 22
  state : LineState
  target : Target
  releaseCause : ModeCause
  heldHandsOff : Bool
  heldForced : Bool
  settleTimer : Timer
  releaseTimer : Timer
  releaseGuard : Nat
  openCondition : Bool
  stuckCondition : Bool
  invalidRun : Timer
  validRun : Timer
  spaceTimer : Timer
  modeStatus : ModeStatus
  commandStatus : CommandStatus
  flags : Word
  counters : Vector Word 7
  breakCredit : Bool
  receiver : Receiver
  buffers : Vector Buffer 2
  payloadLimit : Nat
  gapTimer : Timer
  jobs : List Job
  droppedEvents : Word
  quietTimer : Timer
  quiet : Bool
  quietStart : Moment
  ring : RingState
  walk : Option Walk
  parked : Option TakenJob
  retained : Option TakenJob
  queue : List Entry
  acting : Option Acting
  tallies : Tallies
  fenceTag : Byte
  effDivisor : Nat
  effFraction : Nat
  generatorStart : Moment
  probe : Option Probe
  probeResult : Word
deriving DecidableEq, Repr

/-- A line at entry to "ARMED" (R27, R41, R57 and the tables of state of 03 to 09), but for the held reason "HANDS_OFF". A line
that does not exist is kept at these values too (DESIGN CHOICE, log 26). `generatorStart`, the moment of the generator's last restart,
is 0 until the effective rate is first set, `quietStart` until the first entry to "LISTEN", and `releaseGuard` until the first entry
to "RELEASE": no rule gives a value for any of them before that (DESIGN CHOICE, log 37). Neither does one for `payloadLimit` before
the first entry to "LISTEN" (DESIGN CHOICE, log 26). -/
def Line.initial : Line where
  shadow := Vector.replicate 22 0
  state := .off
  target := .listen
  releaseCause := .request
  heldHandsOff := false
  heldForced := false
  settleTimer := none
  releaseTimer := none
  releaseGuard := 0
  openCondition := false
  stuckCondition := false
  invalidRun := none
  validRun := none
  spaceTimer := none
  modeStatus := ⟨0, .none, 0⟩
  commandStatus := ⟨0, .none⟩
  flags := 0
  counters := Vector.replicate 7 0
  breakCredit := false
  receiver := .stopped
  buffers := Vector.replicate 2 .free
  payloadLimit := 0
  gapTimer := none
  jobs := []
  droppedEvents := 0
  quietTimer := none
  quiet := false
  quietStart := 0
  ring := .absent
  walk := none
  parked := none
  retained := none
  queue := []
  acting := none
  tallies := ⟨0, 0, 0⟩
  fenceTag := 0
  effDivisor := 0
  effFraction := 0
  generatorStart := 0
  probe := none
  probeResult := 0

/-! ## The bus, the port, the writers -/

/-- The address map in force in "ARMED" and "DISARMING" (R2). Ring ranges are computed from the protected lines (R7). -/
structure AddressMap where
  regionBase : Addr
  lineCount : Nat
deriving DecidableEq, Repr

/-- A window write under transmit hold (R13, R148). -/
structure HeldWrite where
  line : LineNo
  entry : Entry
  access : HostAccess
  expiry : Moment
deriving DecidableEq, Repr

/-- A report word: of the base block, or of a line's LCB (R17). -/
inductive ReportWord where
  | base (word : Nat)
  | lcb (line : LineNo) (word : Nat)
deriving DecidableEq, Repr

/-- The access the Memory Port serves (R14). -/
inductive Serving where
  | host (a : HostAccess)
  | report (word : ReportWord) (addr : Addr) (value : Word)
  | setupRead (word : Nat)
  | reclaimRead (addr : Addr)
  | walkRead (addr : Addr)
  | recordWord (addr : Addr) (data : Word)
deriving DecidableEq, Repr

/-- The Memory Port (R15). The waiting internal request is computed from its requesters. -/
structure Port where
  passOver : Nat
  allowance : Nat
  serving : Option Serving
  waiting : Option HostAccess
deriving DecidableEq, Repr

/-- Where a record is laid: the start of the pad before it, if any, and its own offset (R124). -/
structure Placement where
  pad : Option Nat
  offset : Nat
deriving DecidableEq, Repr

/-- A record under way: the job, whether the record is the "GAP" in front of it, where the job's record goes, the record's
sequence, size and pad, and the ring words still to complete, the presented one first (R127, R131). -/
structure Writing where
  job : TakenJob
  isGap : Bool
  place : Placement
  seq : Word
  size : Nat
  pad : Option Nat
  todo : List (Nat × Word)
deriving DecidableEq, Repr

/-- Where the job in flight stands (07, table of state): a reclaim read with the R noted and whether it has been overtaken, a
record being written, or a walk step with the words read so far and, once the walk has been abandoned, the address of the read
that was presented then (log 22). -/
inductive Stage where
  | reclaimRead (job : TakenJob) (noted : Nat) (overtaken : Bool)
  | writing (w : Writing)
  | walkStep (got : List Word) (abandoned : Option Addr)
deriving DecidableEq, Repr

/-- The job in flight and its line (07, table of state). -/
structure Flight where
  line : LineNo
  stage : Stage
deriving DecidableEq, Repr

/-- The Capture Writer (07, table of state). -/
structure Writer where
  flight : Option Flight
  pointer : Option LineNo
deriving DecidableEq, Repr

/-- The blocked-write record (R10). -/
structure BlockedRecord where
  count : Word
  addr : Addr
  reason : BlockedReason
  latched : Bool
deriving DecidableEq, Repr

/-- The blocked-write record after power-on, after a pin reset and at entry to "ARMING" (R10). -/
def BlockedRecord.initial : BlockedRecord := ⟨0, 0, .none, false⟩

/-- The moments at which the part last took a change of each asynchronous input, none before the first (R172). -/
structure TakenChanges where
  rx : Vector (Option Moment) 32
  sv : Vector (Option Moment) 32
  handsOff : Option Moment
  reset : Option Moment
deriving DecidableEq, Repr

/-- The part: every block of 00 (Block overview). -/
structure Part where
  state : PartState
  gateProgress : Nat
  checkValue : Option Word
  setupCopy : List Word
  resetCause : ResetCause
  attentionEnable : Bool
  forced : Bool
  handsOff : Bool
  counter : Stamp
  nextTick : Timer
  captured : Option Word
  blocked : BlockedRecord
  closing : Bool
  resetLow : Bool
  resetPending : Bool
  map : Option AddressMap
  held : Option HeldWrite
  hostWait : Bool
  readData : Word
  port : Port
  reports : List (ReportWord × Word)
  writer : Writer
  rxPin : Vector Level 32
  svPin : Vector Bool 32
  taken : TakenChanges
  markHold : Vector Timer 32
  lines : Vector Line 32
  now : Moment
deriving DecidableEq, Repr

/-- The part after power-on (R2, R10, R15, R17, R40, R78). The input levels, the read data and `now` are the model's
(DESIGN CHOICE, logs 2, 7, 8), and no input has changed (log 31). -/
def Part.reset : Part where
  state := .dormant
  gateProgress := 0
  checkValue := none
  setupCopy := []
  resetCause := .powerOn
  attentionEnable := false
  forced := false
  handsOff := false
  counter := 0
  nextTick := none
  captured := none
  blocked := BlockedRecord.initial
  closing := false
  resetLow := false
  resetPending := false
  map := none
  held := none
  hostWait := false
  readData := 0
  port := ⟨0, 1, none, none⟩
  reports := []
  writer := ⟨none, none⟩
  rxPin := Vector.replicate 32 .mark
  svPin := Vector.replicate 32 true
  taken := ⟨Vector.replicate 32 none, Vector.replicate 32 none, none, none⟩
  markHold := Vector.replicate 32 none
  lines := Vector.replicate 32 Line.initial
  now := 0

/-- The SRAM as (cell, byte) pairs in canonical form (logs 5, 6). -/
abbrev Memory := List Host.Cell

/-- The machine: the part, the bank behind it, and the commands that wait, first in, first out. -/
structure State where
  part : Part
  mem : Memory
  pending : List Instr
deriving DecidableEq, Repr

/-- The machine right after power-on (R40): nothing is listed in memory, no command waits. -/
def State.reset : State where
  part := Part.reset
  mem := []
  pending := []

end Sys2Proof.Machine
end

