-- ==== Sys2Proof/Machine/Operands.lean ====
section
/-! DEFINITION. Operands and layouts: byte lanes, bit fields, the code tables of 11.6, frame formats, transmit entries, times in
reference periods, the rate table, the CRC. -/

namespace Sys2Proof.Machine

/-! ## Addresses -/

/-- The gate word (R3). -/
def gateAddr : Addr := 0x1FFFFF

/-- The first word of the base block (R4). -/
def baseAddr : Addr := 0x1FFF00

/-- Base-block word `w`. -/
def baseWordAddr (w : Nat) : Addr := baseAddr + BitVec.ofNat 21 w

/-- Word `w` of LCB `i`: region base + 64 i + w (R5). -/
def lcbAddr (region : Addr) (i : LineNo) (w : Nat) : Addr := region + BitVec.ofNat 21 (64 * i.val + w)

/-- Word `w` of window `i`: region base + 2048 + 16 i + w (R6). -/
def windowAddr (region : Addr) (i : LineNo) (w : Nat) : Addr := region + BitVec.ofNat 21 (2048 + 16 * i.val + w)

/-! ## Byte lanes and bit fields -/

/-- The strobed lanes of `old` replaced by those of `new` (R9). -/
def mergeLanes (lanes : Lanes) (old new : Word) : Word :=
  match lanes with
  | .both => new
  | .high => (new &&& 0xFF00) ||| (old &&& 0x00FF)
  | .low => (old &&& 0xFF00) ||| (new &&& 0x00FF)

/-- A mask whose unstrobed lane is taken as zero (R9). -/
def laneMask (lanes : Lanes) (mask : Word) : Word := mergeLanes lanes 0 mask

/-- A flag as bit `n` of a word. -/
def bitIf (c : Bool) (n : Nat) : Word := if c then BitVec.ofNat 16 (2 ^ n) else 0

/-- A number as a word. -/
def word (n : Nat) : Word := BitVec.ofNat 16 n

/-- The high byte of a word. -/
def hiByte (w : Word) : Byte := (w >>> 8).truncate 8

/-- The low byte of a word. -/
def loByte (w : Word) : Byte := w.truncate 8

/-- A word from its high and low byte. -/
def wordOfBytes (hi lo : Byte) : Word := (hi.zeroExtend 16 <<< 8) ||| lo.zeroExtend 16

/-- The high half of a timestamp. -/
def stampHigh (t : Stamp) : Word := (t >>> 16).truncate 16

/-- The low half of a timestamp. -/
def stampLow (t : Stamp) : Word := t.truncate 16

/-- A 16-bit count increased by `n`, saturating at 65535 (00, Quantities). -/
def satAdd (a : Word) (n : Nat) : Word := if 65535 ≤ a.toNat + n then 65535 else a + BitVec.ofNat 16 n

/-- A number as a 16-bit count that saturates at 65535. -/
def satWord (n : Nat) : Word := satAdd 0 n

/-! ## Times in reference periods (log 14) -/

/-- `ms` milliseconds in reference periods, rounded up. -/
def msPeriods (ms : Nat) : Nat := (ms * Config.periodsPerCentisecond + 9) / 10

/-- `us` microseconds in reference periods, rounded up. -/
def usPeriods (us : Nat) : Nat := (us * Config.periodsPerCentisecond + 9999) / 10000

/-- `n` units of 10 ms in reference periods. -/
def csPeriods (n : Nat) : Nat := n * Config.periodsPerCentisecond

/-- `n` seconds in reference periods. -/
def secondPeriods (n : Nat) : Nat := n * Config.periodsPerSecond

/-! ## Code tables (11.6) -/

def PartState.code : PartState → Word
  | .dormant => 1
  | .arming => 2
  | .armed => 3
  | .disarming => 4

def ResetCause.code : ResetCause → Word
  | .powerOn => 1
  | .resetPin => 2

def BlockedReason.code : BlockedReason → Word
  | .none => 0
  | .setupLocked => 1
  | .reportWord => 2
  | .locked => 3
  | .range => 4
  | .ringProtected => 5

def LineState.code : LineState → Word
  | .off => 0
  | .listen => 1
  | .drive => 3
  | .settle => 4
  | .drain => 5
  | .release => 6

def ModeCause.code : ModeCause → Word
  | .request => 1
  | .dropEntry => 2
  | .quiesce => 3
  | .disarm => 4
  | .settleDone => 5
  | .fresh => 6
  | .resumed => 7
  | .ringUntrusted => 8

def RequestOutcome.code : RequestOutcome → Word
  | .none => 0
  | .accepted => 1
  | .done => 2
  | .refusedState => 3
  | .refusedBusy => 4
  | .refusedHeld => 5
  | .badSettings => 6
  | .unknown => 7

def EventKind.code : EventKind → Word
  | .mode => 0x10
  | .activity => 0x11
  | .breakSeen => 0x12
  | .stuck => 0x13
  | .lineOpen => 0x14
  | .lineRestored => 0x15
  | .overrun => 0x16
  | .gap => 0x17
  | .fenceDone => 0x18
  | .probeDone => 0x19
  | .leaseBroken => 0x1A

/-- The kind code of a "DATA" record. -/
def dataKind : Word := 0x01

/-- The kind code of a "PAD". -/
def padKind : Word := 0x0F

/-- The results of validation (R26); "OK" is 1. -/
inductive SetupResult where
  | ok
  | badCheck
  | badRegion
  | badLines
  | badHold
  | badAllowance
deriving DecidableEq, Repr

def SetupResult.code : SetupResult → Word
  | .ok => 1
  | .badCheck => 2
  | .badRegion => 3
  | .badLines => 4
  | .badHold => 5
  | .badAllowance => 6

/-- The reasons a walk fails (R118); "SIZE" and "EXTENT" are also those of a corrupt ring (R130). -/
inductive WalkReason where
  | pointers
  | kind
  | line
  | pad
  | size
  | sequence
  | extent
deriving DecidableEq, Repr

def WalkReason.code : WalkReason → Word
  | .pointers => 1
  | .kind => 2
  | .line => 3
  | .pad => 4
  | .size => 5
  | .sequence => 6
  | .extent => 7

/-- The results of a probe (R158, R160). -/
inductive ProbeResult where
  | found
  | tooFew
  | noMatch
  | abandoned
deriving DecidableEq, Repr

def ProbeResult.code : ProbeResult → Word
  | .found => 1
  | .tooFew => 2
  | .noMatch => 3
  | .abandoned => 4

/-- LCB word 45: rate index in bits 3-0, result code in bits 10-8 (11.3). -/
def ProbeResult.toWord (r : ProbeResult) (index : Nat) : Word := word index ||| (r.code <<< 8)

/-! ## Frames (R81, 11.3) -/

/-- The frame word holds only codes that R41 lists, and 0 outside its fields (R44, R170). -/
def frameValid (w : Word) : Bool :=
  w &&& 0xFCC0 == 0 && (w &&& 0xF == 7 || w &&& 0xF == 8) && (w >>> 4) &&& 3 != 3 &&
    ((w >>> 8) &&& 3 == 1 || (w >>> 8) &&& 3 == 2)

/-- The format a valid frame word gives. -/
def FrameFormat.ofWord (w : Word) : FrameFormat where
  dataBits := (w &&& 0xF).toNat
  parity := if (w >>> 4) &&& 3 == 1 then .even else if (w >>> 4) &&& 3 == 2 then .odd else .none
  stopBits := ((w >>> 8) &&& 3).toNat

/-- The parity bits of a frame: 0 or 1. -/
def FrameFormat.parityBits (f : FrameFormat) : Nat := if f.parity = .none then 0 else 1

/-- The bits of a frame after its start bit. -/
def FrameFormat.bitsAfterStart (f : FrameFormat) : Nat := f.dataBits + f.parityBits + f.stopBits

/-- The bits of a frame, start bit included (R81). -/
def FrameFormat.bits (f : FrameFormat) : Nat := 1 + f.bitsAfterStart

/-- Mark is 1. -/
def Level.bit : Level → Bool
  | .mark => true
  | .space => false

/-- A bit as a level. -/
def levelOf (b : Bool) : Level := if b then .mark else .space

/-- The low `n` bits of a byte, least significant first (R81, R140). -/
def dataBitsOf (n : Nat) (v : Byte) : List Bool := (List.range n).map v.getLsbD

/-- The parity bit that gives the data bits the parity (R82, R140). -/
def parityBitOf (p : Parity) (bits : List Bool) : Bool :=
  match p with
  | .odd => !(bits.foldl xor false)
  | _ => bits.foldl xor false

/-- The levels of a frame in order: start bit, data bits, parity bit, stop bits (R140). -/
def frameLevels (f : FrameFormat) (v : Byte) : List Level :=
  let bits := dataBitsOf f.dataBits v
  .space :: (bits.map levelOf ++ (if f.parity = .none then [] else [levelOf (parityBitOf f.parity bits)]) ++
    List.replicate f.stopBits .mark)

/-- A byte from its bits, least significant first. -/
def byteOfBits (bits : List Bool) : Byte :=
  BitVec.ofNat 8 (bits.foldr (fun b n => b.toNat + 2 * n) 0)

/-- A complete frame's byte and error mark from the levels sampled after the start bit (R82). -/
def deframe (f : FrameFormat) (samples : List Level) : RxByte :=
  let bits := (samples.take f.dataBits).map Level.bit
  let parityLevels := (samples.drop f.dataBits).take f.parityBits
  let stops := samples.drop (f.dataBits + f.parityBits)
  let parityError := parityLevels.any fun l => l.bit != parityBitOf f.parity bits
  { value := byteOfBits bits, error := parityError || stops.contains .space }

/-! ## Transmit entries (11.5, R170) -/

/-- The kind code of an entry word, if it is one of the six. -/
def EntryKind.ofCode (k : Byte) : Option EntryKind :=
  match k.toNat with
  | 0 => some .data
  | 1 => some .brk
  | 2 => some .pause
  | 3 => some .rate
  | 4 => some .fence
  | 5 => some .drop
  | _ => none

/-- An entry word that passes tests 4 to 6 of R136: a known kind, a BREAK or PAUSE above 0, a RATE below 12. -/
def Entry.ofWord (w : Word) : Option Entry :=
  match EntryKind.ofCode (hiByte w) with
  | none => none
  | some k =>
    let v := loByte w
    if (k == .brk || k == .pause) && v == 0 then none
    else if k == .rate && decide (12 ≤ v.toNat) then none
    else some ⟨k, v⟩

/-! ## Rates (09) -/

/-- The divisor of rate-table index `k` (R155). -/
def rateDivisor (k : Nat) : Nat :=
  [6144, 3072, 1536, 768, 384, 192, 96, 48, 32, 16, 8, 4].getD k 0

/-- The bit time of a rate in reference periods (R153). -/
def bitTimeOf (divisor fraction : Nat) : Nat := 16 * divisor + fraction

/-- The distance of rate-table index `k`'s bit time from a run of `i` periods (R158). -/
def rateDistance (k i : Nat) : Nat :=
  let t := bitTimeOf (rateDivisor k) 0
  (t - i) + (i - t)

/-- The rate-table index whose bit time is nearest `i`; between two equally near, the lower (R158). -/
def nearestRate (i : Nat) : Nat :=
  (List.range 12).foldl (fun best k => if rateDistance k i < rateDistance best i then k else best) 0

/-- The classification of a probe window with `e` edges and the shortest run (R158). -/
def classifyProbe (e : Nat) (shortest : Option Nat) : ProbeResult × Nat :=
  match shortest with
  | none => (.tooFew, 0)
  | some i =>
    if e < 8 then (.tooFew, 0)
    else
      match (List.range 12).find? fun k => decide (20 * rateDistance k i ≤ i) with
      | some k => (.found, k)
      | none => (.noMatch, nearestRate i)

/-- The reported shortest run, in units of 16 reference periods, 0 when no run was completed (R158). -/
def reportedRun (shortest : Option Nat) : Word := satWord (shortest.getD 0 / 16)

/-! ## The CRC (R24, R171) -/

/-- One bit of the CRC: polynomial x^16 + x^12 + x^5 + 1, most significant bit first. -/
def crcBit (r : Word) (b : Bool) : Word :=
  if r.getMsbD 0 != b then (r <<< 1) ^^^ 0x1021 else r <<< 1

/-- One word of the CRC, most significant bit first. -/
def crcWord (r w : Word) : Word := (List.range 16).foldl (fun r k => crcBit r (w.getMsbD k)) r

/-- The CRC of a list of words, from 0xFFFF, with no final inversion. -/
def crc (ws : List Word) : Word := ws.foldl crcWord 0xFFFF

end Sys2Proof.Machine
end

