-- ==== Sys2Proof/Machine/Flags.lean ====
section
/-! DEFINITION. Flags and the words that report them: settings fields of the shadow, latched flags, live conditions, ring-due,
the line attention flag, the summaries, the attention output, protection, the driver. -/

namespace Sys2Proof.Machine

/-! ## Lines of the part and their settings -/

/-- Line `i` of the part. -/
def Part.line (p : Part) (i : LineNo) : Line := p.lines[i]

/-- Line `i` exists: the map in force counts it (R2, 00 "line count"). -/
def Part.hasLine (p : Part) (i : LineNo) : Bool :=
  match p.map with
  | none => false
  | some m => decide (i.val < m.lineCount)

/-- Shadow word `w` as a number (R41). -/
def Line.setting (l : Line) (w : Fin 22) : Nat := l.shadow[w].toNat

/-- The ring base: 65536 times word 7 plus word 8 (R41). -/
def Line.ringBase (l : Line) : Nat := 65536 * l.setting 7 + l.setting 8

/-- The ring size in words: 256 times word 9 (R100). -/
def Line.ringSize (l : Line) : Nat := 256 * l.setting 9

/-- The frame format of the shadow (R41). -/
def Line.frame (l : Line) : FrameFormat := FrameFormat.ofWord l.shadow[3]

/-- The bit time of the effective rate (R153). -/
def Line.bitTime (l : Line) : Nat := bitTimeOf l.effDivisor l.effFraction

/-- The frame time: bits of the frame times the bit time (R81). -/
def Line.frameTime (l : Line) : Nat := l.frame.bits * l.bitTime

/-- "RESUMING": a resume walk is under way (R58). -/
def Line.resuming (l : Line) : Bool := l.walk.isSome

/-- "PROBING": a rate probe is under way (R58). -/
def Line.probing (l : Line) : Bool := l.probe.isSome

/-- The size of every "DATA" record of the session: 9 + L/2, made even (R104). -/
def Line.dataSize (l : Line) : Nat :=
  let n := 9 + l.payloadLimit / 2
  n + n % 2

/-! ## Latched flags (R54) -/

/-- The nine latched flags of LCB word 35. -/
inductive Flag where
  | activity
  | fenceDone
  | probeReady
  | lineOpen
  | stuck
  | overrun
  | leaseBroken
  | ringReset
  | headerMismatch
deriving DecidableEq, Repr

/-- The position of a flag in word 35 (11.3). -/
def Flag.position : Flag → Nat
  | .activity => 0
  | .fenceDone => 1
  | .probeReady => 2
  | .lineOpen => 3
  | .stuck => 4
  | .overrun => 5
  | .leaseBroken => 6
  | .ringReset => 7
  | .headerMismatch => 8

/-- A latched flag of the line. -/
def Line.flag (l : Line) (f : Flag) : Bool := l.flags.getLsbD f.position

/-- The mask of one flag. -/
def Flag.mask (f : Flag) : Word := BitVec.ofNat 16 (2 ^ f.position)

/-- The fault flags: "OPEN" to "HEADER_MISMATCH" (R33, R54). -/
def faultMask : Word := 0x01F8

/-- The line holds a latched fault flag (R33). -/
def Line.hasFault (l : Line) : Bool := l.flags &&& faultMask != 0

/-- The flags after an acknowledgement: those of the mask cleared, "OPEN" and "STUCK" set again while their live condition
holds (R55). -/
def Line.acknowledged (l : Line) (mask : Word) : Word :=
  (l.flags &&& ~~~mask) |||
    (if l.openCondition && mask.getLsbD Flag.lineOpen.position then Flag.lineOpen.mask else 0) |||
    (if l.stuckCondition && mask.getLsbD Flag.stuck.position then Flag.stuck.mask else 0)

/-! ## Ring-due and the line attention flag -/

/-- Ring-due holds for a ring: by the threshold, or by an expired coalesce state (R163). -/
def Ring.due (r : Ring) (threshold : Nat) : Bool :=
  (decide (0 < threshold) && decide (threshold ≤ r.count)) || r.coalesce == .expired

/-- Ring-due of a line; clear while the ring state is absent or unknown (R163, R165). -/
def Line.ringDue (l : Line) : Bool :=
  match l.ring with
  | .present r => r.due (l.setting 15)
  | _ => false

/-- A kind of the line's attention mask is set: 0 "RING", 1 "ACTIVITY", 2 "FAULT", 3 "FENCE", 4 "PROBE" (11.3). -/
def Line.attends (l : Line) (kind : Nat) : Bool := l.shadow[21].getLsbD kind

/-- The line attention flag (R162). -/
def Line.attention (l : Line) : Bool :=
  (l.attends 0 && l.ringDue) || (l.attends 1 && l.flag .activity) || (l.attends 2 && l.hasFault) ||
    (l.attends 3 && l.flag .fenceDone) || (l.attends 4 && l.flag .probeReady)

/-- Live conditions, LCB word 36 (R75, 11.3). -/
def Line.liveConditions (l : Line) : Word :=
  bitIf l.openCondition 0 ||| bitIf l.stuckCondition 1 ||| bitIf l.ringDue 2 ||| bitIf l.breakCredit 3

/-! ## Summaries and the attention output -/

/-- Some existing line holds a latched fault flag: "LINE_FAULT" (R33). -/
def Part.lineFault (p : Part) : Bool := (List.finRange 32).any fun i => p.hasLine i && (p.line i).hasFault

/-- The summary flags, base-block word 37 (R33). -/
def Part.summaryFlags (p : Part) : Word :=
  bitIf p.handsOff 0 ||| bitIf p.forced 1 ||| bitIf p.lineFault 2 ||| bitIf p.blocked.latched 3

/-- One half of a summary: the flags of 16 lines from line `16 * half`; an absent line's position is clear (R166, R167). -/
def Part.summaryHalf (p : Part) (f : Line → Bool) (half : Nat) : Word :=
  (List.finRange 32).foldl
    (fun w i => if i.val / 16 = half then w ||| bitIf (p.hasLine i && f (p.line i)) (i.val % 16) else w) 0

/-- Some line's attention flag is set (R168). -/
def Part.anyAttention (p : Part) : Bool := (List.finRange 32).any fun i => p.hasLine i && (p.line i).attention

/-- The attention output is asserted (R168). -/
def Part.attentionOutput (p : Part) : Bool :=
  (p.state == .armed || p.state == .disarming) && p.attentionEnable && (p.anyAttention || p.blocked.latched)

/-- The ATTN# pin is driven low: the output is asserted and RST# is not low (R172). -/
def Part.attnLow (p : Part) : Bool := p.attentionOutput && !p.resetLow

/-! ## Work and protection -/

/-- The Capture Writer's job in flight is the line's. -/
def Part.inFlight (p : Part) (i : LineNo) : Bool :=
  match p.writer.flight with
  | none => false
  | some f => f.line == i

/-- The line has a pending, parked, retained or in-flight job (R7). -/
def Part.hasWork (p : Part) (i : LineNo) : Bool :=
  !(p.line i).jobs.isEmpty || (p.line i).parked.isSome || (p.line i).retained.isSome || p.inFlight i

/-- The line is protected: it is not in "OFF", or it still has a job (R7). -/
def Part.isProtected (p : Part) (i : LineNo) : Bool :=
  p.hasLine i && ((p.line i).state != .off || p.hasWork i)

/-- The line's receiver and watches are active: it exists and is not in "OFF" (R57). -/
def Part.active (p : Part) (i : LineNo) : Bool := p.hasLine i && (p.line i).state != .off

/-- The line's receive side regards its input: active, and the open condition clear (R73). -/
def Part.listening (p : Part) (i : LineNo) : Bool := p.active i && !(p.line i).openCondition

/-- The ring of the line is live: present, protected, not resuming (R100). -/
def Part.liveRing (p : Part) (i : LineNo) : Option Ring :=
  match (p.line i).ring with
  | .present r => if p.isProtected i then some r else none
  | _ => none

/-! ## The driver -/

/-- The line states in which the driver is enabled (R76). -/
def LineState.driving : LineState → Bool
  | .settle => true
  | .drive => true
  | .drain => true
  | .release => true
  | _ => false

/-- DEN of line `i`: the line state enables the driver, or the reset mark-hold does (R76, R79, log 20). -/
def Part.driverEnabled (p : Part) (i : LineNo) : Bool := (p.line i).state.driving || (p.markHold[i]).isSome

/-- TXD of line `i` at the present moment: mark, but for the bits of a byte and the space of an admitted break; mark while DEN
is low (R76, R140, R142, R172). -/
def Part.transmitLevel (p : Part) (i : LineNo) : Level :=
  if p.driverEnabled i then
    match (p.line i).acting with
    | some (.byte f bt start v) => (frameLevels f v).getD ((p.now - start) / bt) .mark
    | some (.breakSpace _ _) => .space
    | _ => .mark
  else .mark

/-! ## Words of the report halves -/

/-- The line state word, LCB word 32 (11.3). -/
def Line.stateWord (l : Line) : Word :=
  l.state.code ||| bitIf l.resuming 4 ||| bitIf l.probing 5 ||| bitIf l.heldHandsOff 8 ||| bitIf l.heldForced 9

/-- The mode status word, LCB word 33 (11.3). -/
def ModeStatus.toWord (m : ModeStatus) : Word :=
  m.request.zeroExtend 16 ||| (m.outcome.code <<< 8) ||| (word m.offset <<< 11)

/-- The command status word, LCB word 34 (11.3). -/
def CommandStatus.toWord (m : CommandStatus) : Word := m.command.zeroExtend 16 ||| (m.outcome.code <<< 8)

/-- The pad start, or 0xFFFF for none (11.3). -/
def padWord (pad : Option Nat) : Word :=
  match pad with
  | none => 0xFFFF
  | some n => word n

/-- Ring words 37 to 42 of a ring (R119). -/
def Ring.report (r : Ring) : Nat → Word
  | 37 => word r.w
  | 38 => word r.r
  | 39 => word r.count
  | 40 => r.nextSeq
  | 41 => padWord r.padStart
  | 42 => word r.occupied
  | _ => 0

/-- The present value of an LCB report word (03, 3.7). -/
def Line.report (l : Line) (w : Nat) : Word :=
  if w = 32 then l.stateWord
  else if w = 33 then l.modeStatus.toWord
  else if w = 34 then l.commandStatus.toWord
  else if w = 35 then l.flags
  else if w = 36 then l.liveConditions
  else if w ≤ 42 then (match l.ring with | .present r => r.report w | _ => 0)
  else if w = 43 then word l.effDivisor
  else if w = 44 then word l.effFraction
  else if w = 45 then l.probeResult
  else if w ≤ 52 then l.counters.toList.getD (w - 46) 0
  else l.fenceTag.zeroExtend 16

/-- The present value of a base-block report word other than 33 (11.2). -/
def Part.baseReport (p : Part) (w : Nat) : Word :=
  if w = 32 then p.state.code
  else if w = 34 then p.resetCause.code
  else if w = 35 then Config.familyCode
  else if w = 36 then Config.revision
  else if w = 37 then p.summaryFlags
  else if w = 38 then p.summaryHalf Line.attention 0
  else if w = 39 then p.summaryHalf Line.attention 1
  else if w = 40 then p.summaryHalf (fun l => l.flag .activity) 0
  else if w = 41 then p.summaryHalf (fun l => l.flag .activity) 1
  else if w = 42 then p.blocked.count
  else if w = 43 then (p.blocked.addr >>> 16).truncate 16
  else if w = 44 then p.blocked.addr.truncate 16
  else p.blocked.reason.code

end Sys2Proof.Machine
end

