-- ==== Sys2Proof/Machine/Ops.lean ====
section
/-! DEFINITION. The named operations over memory, lines and reports, and the arbitration of the Memory Port. A block has no
exception entry: an error or an event is a change of these. -/

namespace Sys2Proof.Machine

/-! ## Memory -/

/-- Read one byte cell; a cell not listed reads as the unwritten byte (log 5). -/
def Memory.readByte : Memory → Nat → Byte
  | [], _ => Config.unwrittenByte
  | (k, b) :: rest, a => if k = a then b else Memory.readByte rest a

/-- Put a byte in front of a list, unless it reads the same when it is not listed. -/
def Memory.cons (a : Nat) (b : Byte) (m : Memory) : Memory := if b = Config.unwrittenByte then m else (a, b) :: m

/-- Write one byte cell, keeping the canonical form. -/
def Memory.writeByte : Memory → Nat → Byte → Memory
  | [], a, b => Memory.cons a b []
  | (k, c) :: rest, a, b =>
    if a < k then Memory.cons a b ((k, c) :: rest)
    else if a = k then Memory.cons a b rest
    else (k, c) :: Memory.writeByte rest a b

/-- The canonical form: cells strictly rising, none equal to the unwritten byte. -/
def Memory.wf : Memory → Bool
  | [] => true
  | (k, b) :: rest =>
    b != Config.unwrittenByte && (match rest with | [] => true | (j, _) :: _ => decide (k < j)) && Memory.wf rest

/-- The byte cell of a word's low lane (log 6). -/
def lowCell (a : Addr) : Nat := 2 * a.toNat

/-- The byte cell of a word's high lane (log 6). -/
def highCell (a : Addr) : Nat := 2 * a.toNat + 1

/-- Read one word of the bank. -/
def Memory.readWord (m : Memory) (a : Addr) : Word :=
  wordOfBytes (Memory.readByte m (highCell a)) (Memory.readByte m (lowCell a))

/-- Write the strobed lanes of one word of the bank (R1). -/
def Memory.writeLanes (m : Memory) (a : Addr) (lanes : Lanes) (d : Word) : Memory :=
  match lanes with
  | .both => Memory.writeByte (Memory.writeByte m (lowCell a) (loByte d)) (highCell a) (hiByte d)
  | .high => Memory.writeByte m (highCell a) (hiByte d)
  | .low => Memory.writeByte m (lowCell a) (loByte d)

/-- What the access that the port serves does to the bank, and the word a read returns (R11, R14). -/
def Memory.access (m : Memory) : Serving → Memory × Word
  | .host ⟨a, .read⟩ => (m, Memory.readWord m a)
  | .host ⟨a, .write lanes d⟩ => (Memory.writeLanes m a lanes d, 0)
  | .report _ a v => (Memory.writeLanes m a .both v, 0)
  | .setupRead w => (m, Memory.readWord m (baseWordAddr w))
  | .reclaimRead a => (m, Memory.readWord m a)
  | .walkRead a => (m, Memory.readWord m a)
  | .recordWord a d => (Memory.writeLanes m a .both d, 0)

/-! ## Time and lines -/

/-- An input whose last change was taken at `last` can take another at the moment `t`: it has held its level for two reference
periods (R172). -/
def canTake (last : Option Moment) (t : Moment) : Bool :=
  match last with
  | none => true
  | some u => decide (u + Config.holdPeriods ≤ t)

/-- The first moment, from `now` on, at which an input whose last change was taken at `last` can take another (R172, log 31). -/
def firstTake (last : Option Moment) (now : Moment) : Moment :=
  match last with
  | none => now
  | some u => max now (u + Config.holdPeriods)

/-- Bring `now` up to the moment `t` (log 2). -/
def Part.at (p : Part) (t : Moment) : Part := { p with now := max p.now t }

/-- Replace line `i`. -/
def Part.setLine (p : Part) (i : LineNo) (l : Line) : Part := { p with lines := p.lines.set i l }

/-- Change line `i`. -/
def Part.onLine (p : Part) (i : LineNo) (f : Line → Line) : Part := p.setLine i (f (p.line i))

/-- Do `f` for every existing line in line order. R27 gives that order to the arming reports. Where the lines take one quiesce, or
gain or lose a held reason together (R31, R32, R34), the spec gives none: that they do so in line order, and with it the order in
which words of different lines become pending, is the model's (DESIGN CHOICE, log 35). -/
def Part.forLines (p : Part) (f : LineNo → Part → Part) : Part :=
  (List.finRange 32).foldl (fun q i => if q.hasLine i then f i q else q) p

/-! ## Report Writer (R17) -/

/-- Queue a value for a report word: a pending update keeps its place and takes the new value, else it joins the end. -/
def queueUpdate (w : ReportWord) (v : Word) : List (ReportWord × Word) → List (ReportWord × Word)
  | [] => [(w, v)]
  | (k, u) :: rest => if k = w then (k, v) :: rest else (k, u) :: queueUpdate w v rest

/-- Queue a value for a report word. -/
def Part.queueValue (p : Part) (w : ReportWord) (v : Word) : Part := { p with reports := queueUpdate w v p.reports }

/-- Queue a base-block report word with its present value. -/
def Part.queueBase (p : Part) (w : Nat) : Part := p.queueValue (.base w) (p.baseReport w)

/-- Queue a base-block report word when a condition holds. -/
def Part.queueBaseIf (p : Part) (c : Bool) (w : Nat) : Part := if c then p.queueBase w else p

/-- Queue base-block report words in order. -/
def Part.queueBases (p : Part) (ws : List Nat) : Part := ws.foldl Part.queueBase p

/-- Queue, in order, those of the base-block report words `ws` whose value has changed since `before` (R17). -/
def Part.queueChanged (p before : Part) (ws : List Nat) : Part :=
  p.queueBases (ws.filter fun w => p.baseReport w != before.baseReport w)

/-- Queue an LCB report word of line `i` with its present value. -/
def Part.queueLcb (p : Part) (i : LineNo) (w : Nat) : Part := p.queueValue (.lcb i w) ((p.line i).report w)

/-- Queue LCB report words of line `i` in order. -/
def Part.queueLcbs (p : Part) (i : LineNo) (ws : List Nat) : Part := ws.foldl (fun q w => q.queueLcb i w) p

/-- Queue an LCB report word when a condition holds. -/
def Part.queueLcbIf (p : Part) (c : Bool) (i : LineNo) (w : Nat) : Part := if c then p.queueLcb i w else p

/-- Queue the part's summary words that a change of line `i` has changed since `before`: 37 for "LINE_FAULT" (R33), the activity
summary (R167), the attention summary (R166). The order among them is the model's (DESIGN CHOICE, log 12). -/
def Part.noteLine (p : Part) (i : LineNo) (before : Part) : Part :=
  let half := i.val / 16
  ((p.queueBaseIf (p.lineFault != before.lineFault) 37).queueBaseIf
    ((p.line i).flag .activity != (before.line i).flag .activity) (40 + half)).queueBaseIf
    ((p.line i).attention != (before.line i).attention) (38 + half)

/-- Queue word 36 and note the attention flag when ring-due of line `i` has changed since `before` (R163). -/
def Part.noteDue (p : Part) (i : LineNo) (before : Part) : Part :=
  (p.queueLcbIf ((p.line i).ringDue != (before.line i).ringDue) i 36).noteLine i before

/-! ## Flags, counters, tallies -/

/-- Set the latched flags of line `i` to `flags`; a change queues word 35 and the summaries that follow (R54). -/
def Part.changeFlags (p : Part) (i : LineNo) (flags : Word) : Part :=
  if flags = (p.line i).flags then p
  else ((p.onLine i fun l => { l with flags }).queueLcb i 35).noteLine i p

/-- Latch a flag (R54). -/
def Part.latch (p : Part) (i : LineNo) (f : Flag) : Part := p.changeFlags i ((p.line i).flags ||| f.mask)

/-- Clear a flag (R54). -/
def Part.unlatch (p : Part) (i : LineNo) (f : Flag) : Part := p.changeFlags i ((p.line i).flags &&& ~~~f.mask)

/-- Change the open and stuck conditions of line `i`; a change queues word 36 (R75). -/
def Part.setConditions (p : Part) (i : LineNo) (open_ stuck : Bool) : Part :=
  let l := p.line i
  let q := p.onLine i fun l => { l with openCondition := open_, stuckCondition := stuck }
  q.queueLcbIf (open_ != l.openCondition || stuck != l.stuckCondition) i 36

/-- The seven counters by their place after word 46 (R56). -/
inductive Counter where
  | overrunBytes
  | recordsDiscarded
  | recordsReclaimed
  | bytesSent
  | entriesLost
  | entriesRefused
  | breaksRefused
deriving DecidableEq, Repr

/-- The place of a counter: its report word is 46 plus this (R56). -/
def Counter.index : Counter → Fin 7
  | .overrunBytes => 0
  | .recordsDiscarded => 1
  | .recordsReclaimed => 2
  | .bytesSent => 3
  | .entriesLost => 4
  | .entriesRefused => 5
  | .breaksRefused => 6

/-- A counter of the line. -/
def Line.counter (l : Line) (c : Counter) : Word := l.counters[c.index]

/-- Increase a counter by `n`, saturating; a change queues its report word (R56). -/
def Part.count (p : Part) (i : LineNo) (c : Counter) (n : Nat) : Part :=
  let v := satAdd ((p.line i).counter c) n
  if v = (p.line i).counter c then p
  else (p.onLine i fun l => { l with counters := l.counters.set c.index v }).queueLcb i (46 + c.index.val)

/-- `n` entries lost: counter and fence tally (R147). -/
def Part.loseEntries (p : Part) (i : LineNo) (n : Nat) : Part :=
  (p.count i .entriesLost n).onLine i fun l => { l with tallies := { l.tallies with lost := satAdd l.tallies.lost n } }

/-- One entry refused: counter and fence tally (R147). -/
def Part.refuseEntry (p : Part) (i : LineNo) : Part :=
  (p.count i .entriesRefused 1).onLine i fun l =>
    { l with tallies := { l.tallies with refused := satAdd l.tallies.refused 1 } }

/-- One byte sent: counter and fence tally (R147). -/
def Part.byteSent (p : Part) (i : LineNo) : Part :=
  (p.count i .bytesSent 1).onLine i fun l => { l with tallies := { l.tallies with sent := satAdd l.tallies.sent 1 } }

/-- Set the break credit; a change queues word 36 (R46). -/
def Part.setCredit (p : Part) (i : LineNo) (c : Bool) : Part :=
  (p.onLine i fun l => { l with breakCredit := c }).queueLcbIf (c != (p.line i).breakCredit) i 36

/-- A setting of the effective rate: the generator restarts, words 43 and 44 are queued (R154, R156). -/
def Part.setRate (p : Part) (i : LineNo) (divisor fraction : Nat) : Part :=
  (p.onLine i fun l => { l with effDivisor := divisor, effFraction := fraction, generatorStart := p.now }).queueLcbs i
    [43, 44]

/-! ## The Memory Port (R14 to R16) -/

/-- Hand a host access to the Memory Port (R11). -/
def Part.forward (p : Part) (a : HostAccess) : Part := { p with port := { p.port with waiting := some a } }

/-- The address of a report word under the map in force (R17). -/
def Part.reportAddr (p : Part) : ReportWord → Addr
  | .base w => baseWordAddr w
  | .lcb i w =>
    match p.map with
    | some m => lcbAddr m.regionBase i w
    | none => baseWordAddr w

/-- The bank word of ring offset `k` of line `i` (R100). -/
def Part.ringAddr (p : Part) (i : LineNo) (k : Nat) : Addr := BitVec.ofNat 21 ((p.line i).ringBase + k)

/-- The read that a walk under way presents after `n` words of its step: report words 37, 38, 40, 41, 42, or the header at the
walk's position (R115, R116). -/
def Part.walkAddr (p : Part) (i : LineNo) (n : Nat) : Addr :=
  match (p.line i).walk with
  | some (.records run) => p.ringAddr i (run.pos + n)
  | _ => p.reportAddr (.lcb i ([37, 38, 40, 41, 42].getD n 42))

/-- The read or record word that the Setup and Time Unit or the Capture Writer presents (R14). A walk read presented when its walk
was abandoned stays presented at its own address (R133, log 22). -/
def Part.otherRequest (p : Part) : Option Serving :=
  if p.state = .arming ∧ p.setupCopy.length < 7 then some (.setupRead p.setupCopy.length)
  else
    match p.writer.flight with
    | some ⟨i, .reclaimRead _ noted _⟩ => some (.reclaimRead (p.ringAddr i (noted + 1)))
    | some ⟨i, .walkStep got none⟩ => some (.walkRead (p.walkAddr i got.length))
    | some ⟨_, .walkStep _ (some a)⟩ => some (.walkRead a)
    | some ⟨i, .writing w⟩ =>
      match w.todo with
      | (k, d) :: _ => some (.recordWord (p.ringAddr i k) d)
      | [] => none
    | none => none

/-- The internal access that is granted when the internal side is: a report write first, then reads, then record words (R16). -/
def Part.internalRequest (p : Part) : Option Serving :=
  match p.reports with
  | (w, v) :: _ => some (.report w (p.reportAddr w) v)
  | [] => p.otherRequest

/-- The internal side is granted: a report update leaves the pending set, and the pass-over count becomes 0 (R15, R17). -/
def Part.grantInternal (p : Part) (q : Serving) : Part :=
  { p with
    port := { p.port with serving := some q, passOver := 0 }
    reports := match q with | .report _ _ _ => p.reports.tail | _ => p.reports }

/-- The host side is granted, `passed` being the pass-over count afterwards (R15). -/
def Part.grantHost (p : Part) (a : HostAccess) (passed : Nat) : Part :=
  { p with port := { p.port with serving := some (.host a), waiting := none, passOver := passed } }

/-- Grant an access when the port is free (R15). -/
def Part.grant (p : Part) : Part :=
  match p.port.serving with
  | some _ => p
  | none =>
    match p.port.waiting, p.internalRequest with
    | none, none => p
    | some a, none => p.grantHost a p.port.passOver
    | none, some q => p.grantInternal q
    | some a, some q =>
      if p.port.passOver < p.port.allowance then p.grantHost a (p.port.passOver + 1) else p.grantInternal q

/-- Queue the closing write: base-block word 32 with the code of "DORMANT" (R28). -/
def Part.queueClosing (p : Part) : Part :=
  { p.queueValue (.base 32) PartState.dormant.code with closing := true }

/-- Every existing line is in "OFF" and has no job (R35). -/
def Part.drained (p : Part) : Bool :=
  (List.finRange 32).all fun i => !p.hasLine i || ((p.line i).state == .off && !p.hasWork i)

/-- The end of disarming: when every line is drained and the pending set is empty, the closing write starts (R35). -/
def Part.checkDisarmEnd (p : Part) : Part :=
  if p.state = .disarming ∧ p.closing = false ∧ p.reports = [] ∧ p.drained = true then p.queueClosing else p

/-- The wait output is asserted while an access waits or is held, and stays so until it completes (R13). -/
def Part.updateWait (p : Part) : Part :=
  { p with hostWait := p.hostWait || p.port.waiting.isSome || p.held.isSome }

/-- What follows every event: the conditions of R35 are looked at, and the port grants (R15). -/
def Part.arbitrate (p : Part) : Part := p.checkDisarmEnd.grant.checkDisarmEnd.updateWait

end Sys2Proof.Machine
end

