-- ==== Sys2Proof/Machine/Assemble.lean ====
section
/-! DEFINITION. The Assembler of a line: its two buffers, its job list, the offering of events, the placing of a received byte,
overrun (05, 5.3 to 5.6). -/

namespace Sys2Proof.Machine

/-- The contents of a buffer that is "OPEN". -/
def Buffer.openContents : Buffer → Option Contents
  | .opened c => some c
  | _ => none

/-- The "OPEN" buffer of a line, if any, with its contents (R87: at most one). -/
def Line.openBuffer (l : Line) : Option (Fin 2 × Contents) :=
  match l.buffers[0].openContents, l.buffers[1].openContents with
  | some c, _ => some (0, c)
  | none, some c => some (1, c)
  | none, none => none

/-- A "FREE" buffer, buffer 0 first (R88). -/
def Line.freeBuffer (l : Line) : Option (Fin 2) :=
  if l.buffers[0] = .free then some 0 else if l.buffers[1] = .free then some 1 else none

/-- Close the "OPEN" buffer: it becomes "CLOSED", its data job joins the list, the gap timer stops (R89). -/
def Line.closeOpen (l : Line) : Line :=
  match l.openBuffer with
  | none => l
  | some (b, c) =>
    { l with buffers := l.buffers.set b (.closed c), jobs := l.jobs ++ [.data b], gapTimer := none }

/-- The number of pending event jobs (R93). -/
def Line.pendingEvents (l : Line) : Nat :=
  (l.jobs.filter fun j => match j with | .event _ => true | .data _ => false).length

/-- Offer an event (R94): close the "OPEN" buffer, then queue the event job, or count the drop when 4 are pending. A line in
"OFF" neither queues nor tallies it. -/
def Line.offer (l : Line) (e : Event) : Line :=
  if l.state = .off then l
  else
    let l := l.closeOpen
    if l.pendingEvents < 4 then { l with jobs := l.jobs ++ [.event e] }
    else { l with droppedEvents := satAdd l.droppedEvents 1 }

/-- Offer an event of line `i` with the centisecond counter as its timestamp (R94). -/
def Part.offer (p : Part) (i : LineNo) (kind : EventKind) (a b c d : Word) : Part :=
  p.onLine i fun l => l.offer ⟨kind, a, b, c, d, p.counter⟩

/-- Close the "OPEN" buffer of line `i` (R89). -/
def Part.closeOpen (p : Part) (i : LineNo) : Part := p.onLine i Line.closeOpen

/-- An event job is the pending "OVERRUN" event (R97). -/
def Job.isOverrun : Job → Bool
  | .event e => e.kind == .overrun
  | .data _ => false

/-- An "OVERRUN" event job grown by one lost byte (R96, R97). -/
def Job.grown : Job → Job
  | .event e => if e.kind = .overrun then .event { e with a := satAdd e.a 1 } else .event e
  | .data b => .data b

/-- A byte is lost as an overrun: counter, flag, and the pending event grown or a new one offered (R97). -/
def Part.overrun (p : Part) (i : LineNo) : Part :=
  let p := (p.count i .overrunBytes 1).latch i .overrun
  if (p.line i).jobs.any Job.isOverrun then p.onLine i fun l => { l with jobs := l.jobs.map Job.grown }
  else p.offer i .overrun 1 0 0 0

/-- The byte is a line end under the line-end close in force; a byte in error never is (R91). -/
def Line.isLineEnd (l : Line) (b : RxByte) : Bool :=
  !b.error && ((l.shadow[13] == 1 && b.value == 0x0D) || (l.shadow[13] == 2 && b.value == 0x0A))

/-- The contents with a byte appended (R88). -/
def Contents.append (c : Contents) (b : RxByte) : Contents :=
  { c with
    bytes := c.bytes ++ [b.value]
    errors := if b.error then c.errors + 1 else c.errors
    firstError := if b.error && c.firstError.isNone then some c.bytes.length else c.firstError }

/-- Put the contents in buffer `k`, restart the gap timer, and test the closing causes: payload limit, then line end
(R88, R90, R91; a gap time of 0 leaves no timer running, log 18). -/
def Line.fill (l : Line) (k : Fin 2) (c : Contents) (b : RxByte) (now : Moment) : Line :=
  let gap := l.setting 12
  let l := { l with
    buffers := l.buffers.set k (.opened c)
    gapTimer := if gap = 0 then none else some (now + msPeriods gap) }
  if c.bytes.length = l.payloadLimit || l.isLineEnd b then l.closeOpen else l

/-- Place a received byte: append it, open a buffer with it, or lose it (R88). -/
def Part.placeByte (p : Part) (i : LineNo) (b : RxByte) : Part :=
  match (p.line i).openBuffer with
  | some (k, c) => p.onLine i fun l => l.fill k (c.append b) b p.now
  | none =>
    match (p.line i).freeBuffer with
    | some k => p.onLine i fun l => l.fill k (Contents.append ⟨[], 0, none, p.counter⟩ b) b p.now
    | none => p.overrun i

end Sys2Proof.Machine
end

