-- ==== Sys2Proof/Machine/Rings.lean ====
section
/-! DEFINITION. The Ring Manager: fresh, commit, pad skip, retire, reclaim, flush, lease, coalesce state (06, 10.2). -/

namespace Sys2Proof.Machine

/-- The values of a fresh ring (R102). -/
def Ring.fresh : Ring := ⟨0, 0, 0, 0, 0, none, .closed, 0, 0, .stopped⟩

/-- The offset `n` words after `k` in a ring of `size` words; the ring end is offset 0 (R100). -/
def wrapOffset (size k n : Nat) : Nat := if k + n = size then 0 else k + n

/-- A start or restart of the coalesce timer (R163). -/
def Coalesce.start (now time : Nat) : Coalesce := if time = 0 then .expired else .running (now + csPeriods time)

/-- The pad rule: when R stands at the pad start, R becomes 0 and the pad's words leave occupied (R108). -/
def Ring.skipPad (r : Ring) (size : Nat) : Ring :=
  match r.padStart with
  | some s => if r.r = s then { r with r := 0, occupied := r.occupied - (size - s), padStart := none } else r
  | none => r

/-- A commit of a record of `s` words with sequence `seq`, with or without a pad before it (R107, R164). -/
def Ring.commit (r : Ring) (size s : Nat) (pad : Option Nat) (seq : Word) (now time : Nat) : Ring :=
  let r := { r with
    count := r.count + 1
    nextSeq := seq + 1
    coalesce := if r.count = 0 then Coalesce.start now time else r.coalesce }
  match pad with
  | none => { r with w := wrapOffset size r.w s, occupied := r.occupied + s }
  | some k => Ring.skipPad { r with w := s, occupied := r.occupied + (size - k) + s, padStart := some k } size

/-- The removal of the record of `s` words at R, by retire or reclaim; the lease is closed after either (R111, R128, R164). -/
def Ring.remove (r : Ring) (size s : Nat) (now time : Nat) : Ring :=
  Ring.skipPad
    { r with
      r := wrapOffset size r.r s
      count := r.count - 1
      occupied := r.occupied - s
      lease := .closed
      coalesce := if r.count - 1 = 0 then .stopped else Coalesce.start now time } size

/-- A flush (R113). -/
def Ring.flush (r : Ring) : Ring :=
  { r with r := r.w, count := 0, occupied := 0, padStart := none, lease := .closed, coalesce := .stopped }

/-- The end E of the run of records that begins at R (R110). -/
def Ring.runEnd (r : Ring) (size : Nat) : Nat := if r.r < r.w then r.w else r.padStart.getD size

/-- A size read at R + 1 is valid (R110). -/
def Ring.sizeValid (r : Ring) (size s : Nat) : Bool :=
  s % 2 == 0 && decide (10 ≤ s) && decide (s ≤ 138) && decide (r.r + s ≤ r.runEnd size)

/-- The lease is open and live (R109). -/
def Lease.isLive : Lease → Bool
  | .opened _ (some _) => true
  | _ => false

/-- The lease is open, live or lapsed (R109). -/
def Lease.isOpen : Lease → Bool
  | .opened _ _ => true
  | .closed => false

/-- The ring values of line `i`, if its ring state is present. -/
def Line.ring? (l : Line) : Option Ring :=
  match l.ring with
  | .present r => some r
  | _ => none

/-- Give line `i` the ring values `r`. -/
def Part.setRing (p : Part) (i : LineNo) (r : Ring) : Part := p.onLine i fun l => { l with ring := .present r }

/-- A parked job becomes the line's retained job: the lease has closed or lapsed (R129). -/
def Part.unpark (p : Part) (i : LineNo) : Part :=
  p.onLine i fun l =>
    match l.parked with
    | some j => { l with parked := none, retained := some j }
    | none => l

/-- A reclaim read of line `i` in flight is overtaken: a retire, a flush, or the lease opened live (R128). -/
def Part.overtake (p : Part) (i : LineNo) : Part :=
  match p.writer.flight with
  | some ⟨k, .reclaimRead job noted _⟩ =>
    if k = i then { p with writer := { p.writer with flight := some ⟨k, .reclaimRead job noted true⟩ } } else p
  | _ => p

/-- The ring of line `i` is made fresh (R102). -/
def Part.makeFresh (p : Part) (i : LineNo) : Part :=
  (((p.setRing i Ring.fresh).unpark i).queueLcbs i [36, 37, 38, 39, 40, 41, 42]).noteLine i p

/-- A record of line `i` commits in its ring; W is queued last among the ring's words (R107). -/
def Part.commitRing (p : Part) (i : LineNo) (r : Ring) (s : Nat) (pad : Option Nat) (seq : Word) : Part :=
  let l := p.line i
  let r' := r.commit l.ringSize s pad seq p.now (l.setting 16)
  let q := (p.setRing i r').queueLcbs i [42, 39, 40]
  let q := (q.queueLcbIf pad.isSome i 41).queueLcbIf (r'.r != r.r) i 38
  let q := q.queueLcbIf ((q.line i).ringDue != l.ringDue) i 36
  (q.queueLcb i 37).noteLine i p

/-- The record of `s` words at R retires by the host's read (R111). -/
def Part.retire (p : Part) (i : LineNo) (r : Ring) (s : Nat) : Part :=
  let l := p.line i
  let r' := r.remove l.ringSize s p.now (l.setting 16)
  let q := (((p.setRing i r').unpark i).overtake i).queueLcbs i [38, 39, 42]
  (q.queueLcbIf (r'.padStart != r.padStart) i 41).noteDue i p

/-- The host's read of R + 1 returns `s` (R110): a valid size opens the lease, an invalid one latches "HEADER_MISMATCH". With a
lease time of 0 the lease is open and lapsed, so a job parked on it is unparked (R129, log 23). -/
def Part.readSize (p : Part) (i : LineNo) (r : Ring) (s : Nat) : Part :=
  let l := p.line i
  if r.count = 0 then p
  else if r.sizeValid l.ringSize s then
    let time := l.setting 17
    if time = 0 then (p.setRing i { r with lease := .opened s none }).unpark i
    else (p.setRing i { r with lease := .opened s (some (p.now + msPeriods time)) }).overtake i
  else p.latch i .headerMismatch

/-- A snooped read of ring offset `k` of line `i` returns `d` (R7, R110, R111). -/
def Part.snoopRing (p : Part) (i : LineNo) (k : Nat) (d : Word) : Part :=
  match p.liveRing i with
  | none => p
  | some r =>
    if k = r.r + 1 then p.readSize i r d.toNat
    else
      match r.lease with
      | .opened s _ => if k = r.r + s - 1 then p.retire i r s else p
      | .closed => p

/-- FLUSH is applied to the ring of line `i` (R113). -/
def Part.flushRing (p : Part) (i : LineNo) : Part :=
  match (p.line i).ring? with
  | none => p
  | some r => ((((p.setRing i r.flush).unpark i).overtake i).queueLcbs i [36, 38, 39, 41, 42]).noteLine i p

/-- The lapse time of the live lease of line `i` passes (R109). The spec leaves open whether the lease of an "OFF" line that is no
longer protected still lapses (R114); in the model it does (DESIGN CHOICE, log 34). -/
def Part.lapseLease (p : Part) (i : LineNo) : Part :=
  match (p.line i).ring? with
  | some r =>
    match r.lease with
    | .opened s (some t) => ((p.at t).setRing i { r with lease := .opened s none }).unpark i
    | _ => p
  | none => p

/-- The coalesce timer of line `i` runs out (R164). -/
def Part.expireCoalesce (p : Part) (i : LineNo) : Part :=
  match (p.line i).ring? with
  | some r =>
    match r.coalesce with
    | .running t => ((p.at t).setRing i { r with coalesce := .expired }).noteDue i p
    | _ => p
  | none => p

end Sys2Proof.Machine
end

