-- ==== Sys2Proof/Machine/Probes.lean ====
section
/-! DEFINITION. The rate probe of a line (09, 9.4 and 9.5). -/

namespace Sys2Proof.Machine

/-- A PROBE or PROBE_APPLY command is accepted: probing is set, "PROBE_READY" is cleared, words 32 and 35 are queued
(R53, R157). -/
def Part.startProbe (p : Part) (i : LineNo) (apply : Bool) : Part :=
  let q := (p.onLine i fun l => { l with probe := some ⟨apply, p.now, 0, none, none⟩ }).queueLcb i 32
  (q.unlatch i .probeReady).queueLcb i 35

/-- A result is delivered, in the order of R159. -/
def Part.deliverProbe (p : Part) (i : LineNo) (k : Probe) (result : ProbeResult) (index : Nat) : Part :=
  let p := (p.onLine i fun l => { l with probe := none }).queueLcb i 32
  let p := (p.onLine i fun l => { l with probeResult := result.toWord index }).queueLcb i 45
  let p := if k.apply && result == .found then p.setRate i (rateDivisor index) 0 else p
  let p := p.offer i .probeDone result.code (word index) (reportedRun k.shortest) (word k.edges)
  p.latch i .probeReady

/-- The window of a probe ends: the result is classified and delivered (R158). -/
def Part.endProbe (p : Part) (i : LineNo) (k : Probe) : Part :=
  let c := classifyProbe k.edges k.shortest
  p.deliverProbe i k c.1 c.2

/-- A probe under way on line `i` is abandoned (R160). -/
def Part.abandonProbe (p : Part) (i : LineNo) : Part :=
  match (p.line i).probe with
  | some k => p.deliverProbe i k .abandoned 0
  | none => p

/-- A falling edge at the present moment; the 64th ends the window (R157, R158). -/
def Part.probeFall (p : Part) (i : LineNo) : Part :=
  match (p.line i).probe with
  | none => p
  | some k =>
    if k.edges + 1 = 64 then p.endProbe i { k with edges := 64, run := none }
    else p.onLine i fun l => { l with probe := some { k with edges := k.edges + 1, run := some p.now } }

/-- The shorter of the shortest run held and a new run (R157). -/
def shorter (held : Option Nat) (n : Nat) : Option Nat :=
  match held with
  | none => some n
  | some m => if n < m then some n else some m

/-- A rising edge at the present moment ends a run that a counted edge began (R157). -/
def Line.probeRise (l : Line) (now : Moment) : Line :=
  match l.probe with
  | none => l
  | some k =>
    match k.run with
    | none => l
    | some t => { l with probe := some { k with run := none, shortest := shorter k.shortest (now - t) } }

/-- A run under way is dropped unmeasured when the open condition is set (R157). -/
def Line.probeDropRun (l : Line) : Line :=
  match l.probe with
  | none => l
  | some k => { l with probe := some { k with run := none } }

/-- A snooped read of LCB word 45 of line `i` returns `d`: equal to the result, it clears "PROBE_READY" (R161). -/
def Part.snoopProbe (p : Part) (i : LineNo) (d : Word) : Part :=
  if d = (p.line i).probeResult then p.unlatch i .probeReady else p

end Sys2Proof.Machine
end

