-- ==== Sys2Proof/Machine/Transmit.lean ====
section
/-! DEFINITION. The Transmit Engine of a line and the entry to "RELEASE" (08, 04 R66 to R68). -/

namespace Sys2Proof.Machine

/-- The longest hold in force, in microseconds: setup word 3 (R22, R148). -/
def Part.holdLimit (p : Part) : Nat := (p.setupCopy.getD 3 0).toNat

/-- The held write of line `i` is released and forwarded, its entry refused (R148). -/
def Part.refuseHeld (p : Part) (i : LineNo) : Part :=
  match p.held with
  | some h => if h.line = i then { (p.refuseEntry i) with held := none }.forward h.access else p
  | none => p

/-- The held write of line `i` is forwarded, its entry joins the end of the queue (R148). -/
def Part.takeHeld (p : Part) (i : LineNo) : Part :=
  match p.held with
  | some h =>
    if h.line = i then
      { (p.onLine i fun l => { l with queue := l.queue ++ [h.entry] }) with held := none }.forward h.access
    else p
  | none => p

/-- The acting entry is a DATA entry. -/
def Acting.isByte : Acting → Bool
  | .byte _ _ _ _ => true
  | _ => false

/-- A byte of the line is being sent. -/
def Line.sending (l : Line) : Bool := l.acting.any Acting.isByte

/-- The entries of the queue that have not begun to act (R150). -/
def Line.waitingEntries (l : Line) : Nat := l.queue.length - (if l.acting.isSome then 1 else 0)

/-- The queue after a discard: an acting DATA entry stays, everything else has left (R150). -/
def Line.discarded (l : Line) : Line :=
  if l.sending then { l with queue := l.queue.take 1 } else { l with queue := [], acting := none }

/-- The queue is discarded: entries not yet acting are counted lost, a held write is refused (R150). -/
def Part.discardQueue (p : Part) (i : LineNo) : Part :=
  ((p.onLine i Line.discarded).loseEntries i (p.line i).waitingEntries).refuseHeld i

/-- Entry to "RELEASE" (R67). The release timer starts at once when no byte is being sent; the guard is the one in force at
the entry (R45, log 19). -/
def Part.enterRelease (p : Part) (i : LineNo) (target : Target) (cause : ModeCause) : Part :=
  let guard_ := msPeriods ((p.line i).setting 20)
  let q := p.onLine i fun l =>
    { l with
      state := .release
      target := target
      releaseCause := cause
      settleTimer := none
      releaseGuard := guard_
      releaseTimer := if l.sending then none else some (p.now + guard_) }
  (q.discardQueue i).queueLcb i 32

/-- The head leaves the queue; a held write's entry then takes the room (R138, R148). -/
def Part.leaveHead (p : Part) (i : LineNo) : Part :=
  (p.onLine i fun l => { l with queue := l.queue.tail, acting := none }).takeHeld i

/-- The line's head begins to act as `a`. -/
def Part.setActing (p : Part) (i : LineNo) (a : Acting) : Part := p.onLine i fun l => { l with acting := some a }

/-- A BREAK entry is admitted by the policy and the credit (R141). -/
def Line.admitsBreak (l : Line) : Bool := l.shadow[6] == 1 || (l.shadow[6] == 2 && l.breakCredit)

/-- A BREAK entry at the head (R141, R142). -/
def Part.headBreak (p : Part) (i : LineNo) (v : Byte) : Part :=
  let l := p.line i
  if l.admitsBreak then
    let p := if l.shadow[6] = 2 then p.setCredit i false else p
    p.setActing i (.breakSpace (p.now + csPeriods v.toNat) l.frameTime)
  else ((p.count i .breaksRefused 1).refuseEntry i).leaveHead i

/-- A FENCE entry at the head, in the order of R145. -/
def Part.headFence (p : Part) (i : LineNo) (tag : Byte) : Part :=
  let t := (p.line i).tallies
  let p := p.offer i .fenceDone (tag.zeroExtend 16) t.lost t.refused t.sent
  let p := (p.onLine i fun l => { l with tallies := ⟨0, 0, 0⟩ }).latch i .fenceDone
  ((p.onLine i fun l => { l with fenceTag := tag }).queueLcb i 53).leaveHead i

/-- A DROP entry at the head (R146). -/
def Part.headDrop (p : Part) (i : LineNo) : Part :=
  (p.onLine i fun l => { l with queue := l.queue.tail, acting := none }).enterRelease i .listen .dropEntry

/-- The head entry begins to act at the present moment (R140 to R146). -/
def Part.beginEntry (p : Part) (i : LineNo) (e : Entry) : Part :=
  match e.kind with
  | .data => p.setActing i (.byte (p.line i).frame (p.line i).bitTime p.now e.value)
  | .brk => p.headBreak i e.value
  | .pause => p.setActing i (.pause (p.now + csPeriods e.value.toNat))
  | .rate => (p.setRate i (rateDivisor e.value.toNat) 0).leaveHead i
  | .fence => p.headFence i e.value
  | .drop => p.headDrop i

/-- The line's queue is sent in this state (R139). -/
def LineState.sends : LineState → Bool
  | .drive => true
  | .drain => true
  | _ => false

/-- Heads begin in turn until one takes time, the queue is empty, or the line stops driving; an empty queue ends "DRAIN"
(R66, R139). `fuel` bounds the number of entries that act at this one moment. -/
def Part.runHead (fuel : Nat) (p : Part) (i : LineNo) : Part :=
  match fuel with
  | 0 => p
  | fuel + 1 =>
    let l := p.line i
    if l.state.sends && l.acting.isNone then
      match l.queue with
      | [] => if l.state = .drain then p.enterRelease i .listen .request else p
      | e :: _ => Part.runHead fuel (p.beginEntry i e) i
    else p

/-- The head of the queue begins, and those behind it as far as they act at once. Every entry of the queue and one held entry
may leave, so the fuel does not run out. -/
def Part.advanceQueue (p : Part) (i : LineNo) : Part := Part.runHead ((p.line i).queue.length + 3) p i

/-- The acting entry of line `i` ends and leaves; the next begins (R139). -/
def Part.endEntry (p : Part) (i : LineNo) : Part := (p.leaveHead i).advanceQueue i

/-- The last stop bit of a byte ends (R140). In "RELEASE" the wire is then idle and the release timer starts (R67). -/
def Part.completeByte (p : Part) (i : LineNo) : Part :=
  match (p.line i).acting with
  | some (.byte f bt start _) =>
    let p := ((p.at (start + f.bits * bt)).byteSent i).leaveHead i
    if (p.line i).state = .release then
      p.onLine i fun l => { l with releaseTimer := some (p.now + l.releaseGuard) }
    else p.advanceQueue i
  | _ => p

/-- The space of an admitted break ends; mark follows for one frame time (R142). -/
def Part.endBreakSpace (p : Part) (i : LineNo) : Part :=
  match (p.line i).acting with
  | some (.breakSpace t m) =>
    let p := p.at t
    p.setActing i (.breakMark (p.now + m))
  | _ => p

/-- The trailing mark of an admitted break ends (R142). -/
def Part.endBreakMark (p : Part) (i : LineNo) : Part :=
  match (p.line i).acting with
  | some (.breakMark t) => (p.at t).endEntry i
  | _ => p

/-- A pause ends (R143). -/
def Part.endPause (p : Part) (i : LineNo) : Part :=
  match (p.line i).acting with
  | some (.pause t) => (p.at t).endEntry i
  | _ => p

/-- A window write arrives at line `i` (R136): refused, taken, held, or lost. Every one but a held write is forwarded at once. -/
def Part.windowArrives (p : Part) (i : LineNo) (lanes : Lanes) (d : Word) (a : HostAccess) : Part :=
  let l := p.line i
  if p.state = .disarming ∨ ¬(l.state = .settle ∨ l.state = .drive) ∨ lanes ≠ .both then (p.refuseEntry i).forward a
  else
    match Entry.ofWord d with
    | none => (p.refuseEntry i).forward a
    | some e =>
      if l.queue.length < 64 then
        let q := (p.onLine i fun l => { l with queue := l.queue ++ [e] }).forward a
        if l.state = .drive ∧ l.queue = [] then q.advanceQueue i else q
      else if p.holdLimit = 0 then (p.loseEntries i 1).forward a
      else { p with held := some ⟨i, e, a, p.now + usPeriods p.holdLimit⟩ }

/-- The hold of a window write expires: the entry is lost, the write forwarded (R148). -/
def Part.expireHold (p : Part) : Part :=
  match p.held with
  | some h => { ((p.at h.expiry).loseEntries h.line 1) with held := none }.forward h.access
  | none => p

/-- The word a window read returns (R137, 11.5). -/
def Part.windowWord (p : Part) (i : LineNo) : Word :=
  let l := p.line i
  word (64 - l.queue.length) |||
    bitIf (p.state == .armed && (l.state == .settle || l.state == .drive)) 15

end Sys2Proof.Machine
end

