-- ==== Sys2Proof/Machine/Lines.lean ====
section
/-! DEFINITION. The line state machine: entries to "LISTEN" and "OFF", settle and release, quiesce, line faults, mode requests
and their validation (04, 03 3.3). -/

namespace Sys2Proof.Machine

/-- A "MODE" event is offered for line `i` (R69). -/
def Part.offerMode (p : Part) (i : LineNo) (a : LineState) (cause : ModeCause) (c : Word) (d : LineState) : Part :=
  p.offer i .mode a.code cause.code c d.code

/-! ## Entry to "LISTEN" from "OFF" (R60, R61) -/

/-- The receiver starts from the level of the input, with the frame time then in force (R86). -/
def Line.startReceiver (l : Line) (level : Level) (now : Moment) : Line :=
  { l with
    receiver :=
      match level with
      | .mark => .hunt none
      | .space => .spaceRun now l.frameTime none
    spaceTimer :=
      match level with
      | .mark => none
      | .space => some (now + secondPeriods 2) }

/-- The quiet timer starts or restarts with the quiet time in force, the elapsed count at 0 (R98). -/
def Line.startQuiet (l : Line) (now : Moment) : Line :=
  { l with
    quiet := false
    quietStart := now
    quietTimer := if l.setting 18 = 0 then none else some (now + secondPeriods (l.setting 18)) }

/-- What the Assembler, the Receiver and the watches of a line do at its entry to "LISTEN" from "OFF" (R60, R73, R74, R86, R98). -/
def Line.enterListen (l : Line) (rx : Level) (sv : Bool) (now : Moment) : Line :=
  let l := { l with
    state := .listen
    payloadLimit := l.setting 11
    droppedEvents := 0
    invalidRun := if sv then none else some (now + msPeriods 100)
    validRun := none }
  (l.startReceiver rx now).startQuiet now

/-- What R60 and R61 have in common after the ring: the rate is loaded, the receiver and the watches start, no condition stands,
word 32 is queued. -/
def Part.startListening (p : Part) (i : LineNo) : Part :=
  let l := p.line i
  let p := p.setRate i (l.setting 4) (l.setting 5)
  ((p.onLine i fun l => l.enterListen p.rxPin[i] p.svPin[i] p.now).setConditions i false false).queueLcb i 32

/-- Entry to "LISTEN" fresh (R60). -/
def Part.enterFresh (p : Part) (i : LineNo) : Part :=
  ((p.makeFresh i).startListening i).offerMode i .listen .fresh 0 .off

/-- Entry to "LISTEN" with resuming set: the ring state is unknown until the walk ends (R61, R165). -/
def Part.enterResuming (p : Part) (i : LineNo) : Part :=
  ((p.onLine i fun l => { l with ring := .unknown, walk := some .pointers }).noteDue i p).startListening i

/-! ## Entry to "OFF" (R62, R63) -/

/-- Steps 3 to 6 of R63 on the line itself. -/
def Line.stop (l : Line) : Line :=
  { l with
    state := .off
    receiver := .stopped
    gapTimer := none
    quietTimer := none
    quiet := false
    invalidRun := none
    validRun := none
    spaceTimer := none
    settleTimer := none
    releaseTimer := none }

/-- Entry to "OFF" (R63). -/
def Part.enterOff (p : Part) (i : LineNo) (cause : ModeCause) : Part :=
  let from_ := (p.line i).state
  let p := (p.closeOpen i).offerMode i .off cause 0 from_
  ((p.onLine i Line.stop).setConditions i false false).queueLcb i 32

/-- A walk step of line `i` in flight is marked abandoned: its data will be discarded, and the read presented stays the one it is
(R133; that a read presented and not yet granted is still made is the model's reading, log 22). -/
def Part.abandonStep (p : Part) (i : LineNo) : Part :=
  match p.writer.flight with
  | some ⟨k, .walkStep got none⟩ =>
    if k = i then
      { p with writer := { p.writer with flight := some ⟨k, .walkStep got (some (p.walkAddr i got.length))⟩ } }
    else p
  | _ => p

/-- A walk under way on line `i` is abandoned (R62, R118). -/
def Part.abandonWalk (p : Part) (i : LineNo) : Part :=
  if (p.line i).resuming then
    ((((p.abandonStep i).onLine i fun l => { l with walk := none }).makeFresh i).latch i .ringReset)
  else p

/-- A line in "LISTEN" goes to "OFF": its probe or walk is abandoned first (R62). -/
def Part.listenToOff (p : Part) (i : LineNo) (cause : ModeCause) : Part :=
  ((p.abandonProbe i).abandonWalk i).enterOff i cause

/-! ## Settle and release (R64, R68) -/

/-- Entry to "SETTLE"; from then on the driver is the line's, not the mark-hold's (R64, R79, log 20). -/
def Part.enterSettle (p : Part) (i : LineNo) : Part :=
  let q := p.onLine i fun l => { l with state := .settle, settleTimer := some (p.now + msPeriods (l.setting 19)) }
  { q with markHold := q.markHold.set i none }.queueLcb i 32

/-- A line returns or comes to "DRIVE" with a "MODE" event (R64, R65). -/
def Part.enterDrive (p : Part) (i : LineNo) (cause : ModeCause) : Part :=
  let from_ := (p.line i).state
  let p := p.onLine i fun l => { l with state := .drive, settleTimer := none }
  (p.offerMode i .drive cause 0 from_).queueLcb i 32

/-- The settle timer expires: the line drives and the head begins (R64). -/
def Part.expireSettle (p : Part) (i : LineNo) : Part :=
  match (p.line i).settleTimer with
  | some t => if (p.line i).state = .settle then ((p.at t).enterDrive i .settleDone).advanceQueue i else p
  | none => p

/-- The release timer expires: the line goes to its target (R68). -/
def Part.expireRelease (p : Part) (i : LineNo) : Part :=
  match (p.line i).releaseTimer with
  | some t =>
    if (p.line i).state = .release then
      let p := p.at t
      match (p.line i).target with
      | .off => p.enterOff i (p.line i).releaseCause
      | .listen =>
        let q := p.onLine i fun l => { l with state := .listen, releaseTimer := none }
        (q.offerMode i .listen (q.line i).releaseCause 0 .release).queueLcb i 32
    else p
  | none => p

/-- A "LISTEN" request in "DRIVE": the line enters "DRAIN", and "RELEASE" at the same moment when nothing is left (R66). -/
def Part.enterDrain (p : Part) (i : LineNo) : Part :=
  let p := (p.onLine i fun l => { l with state := .drain }).refuseHeld i
  if (p.line i).queue = [] ∧ (p.line i).acting = none then p.enterRelease i .listen .request else p.queueLcb i 32

/-- A new target and release cause for a line in "RELEASE" (R59, R72). -/
def Part.retarget (p : Part) (i : LineNo) (target : Target) (cause : ModeCause) : Part :=
  p.onLine i fun l => { l with target := target, releaseCause := cause }

/-! ## Quiesce and held reasons (R70 to R72) -/

/-- Give line `i` its held reasons; a change queues word 32 (R71). -/
def Part.setHeld (p : Part) (i : LineNo) (handsOff forced : Bool) : Part :=
  let l := p.line i
  (p.onLine i fun l => { l with heldHandsOff := handsOff, heldForced := forced }).queueLcbIf
    (handsOff != l.heldHandsOff || forced != l.heldForced) i 32

/-- A line that drives, or settles to drive, or drains (R70). -/
def LineState.quiesced : LineState → Bool
  | .settle => true
  | .drive => true
  | .drain => true
  | _ => false

/-- The part of a quiesce with cause "QUIESCE" beyond the held reason (R70). -/
def Part.quiesceLine (p : Part) (i : LineNo) : Part :=
  if (p.line i).state.quiesced then p.enterRelease i .listen .quiesce else p

/-- A quiesce with cause "DISARM" (R72). -/
def Part.disarmLine (p : Part) (i : LineNo) : Part :=
  match (p.line i).state with
  | .off => p
  | .listen => p.listenToOff i .disarm
  | .release => p.retarget i .off .disarm
  | _ => p.enterRelease i .off .disarm

/-! ## Line faults (R73, R74) -/

/-- The duration of a break in centiseconds, rounded down, saturating (R85). -/
def breakDuration (start now : Moment) : Word := satWord ((now - start) / Config.periodsPerCentisecond)

/-- A received break under way ends with its "BREAK_SEEN" event (R85). -/
def Part.endReceivedBreak (p : Part) (i : LineNo) : Part :=
  match (p.line i).receiver with
  | .brk start reached => p.offer i .breakSeen (breakDuration start p.now) (bitIf reached 0) 0 0
  | _ => p

/-- The invalid-run timer of line `i` expires (R73, R74, R86, R157). That word 35 (with the summaries that follow the flag) becomes
pending before word 36 is the model's order: the spec sets none (DESIGN CHOICE, log 12). -/
def Part.lineOpens (p : Part) (i : LineNo) : Part :=
  match (p.line i).invalidRun with
  | some t =>
    if p.listening i then
      let p := (p.at t).endReceivedBreak i
      let p := p.onLine i fun l =>
        { l with receiver := .hunt none, invalidRun := none, spaceTimer := none }.probeDropRun
      let p := (p.latch i .lineOpen).setConditions i true false
      p.offer i .lineOpen 0 0 0 0
    else p
  | none => p

/-- The valid-run timer of line `i` expires (R73, R86). -/
def Part.lineRestores (p : Part) (i : LineNo) : Part :=
  match (p.line i).validRun with
  | some t =>
    if p.active i && (p.line i).openCondition then
      let p := p.at t
      let p := (p.onLine i fun l => { l with validRun := none }).setConditions i false false
      let p := p.offer i .lineRestored 0 0 0 0
      p.onLine i fun l => l.startReceiver p.rxPin[i] p.now
    else p
  | none => p

/-- The reached-"STUCK" mark of a break under way is set (R84). -/
def Receiver.reachStuck : Receiver → Receiver
  | .brk start _ => .brk start true
  | r => r

/-- The space-run timer of line `i` expires (R74). That word 35 (with the summaries that follow the flag) becomes pending before
word 36 is the model's order: the spec sets none (DESIGN CHOICE, log 12). -/
def Part.becomesStuck (p : Part) (i : LineNo) : Part :=
  match (p.line i).spaceTimer with
  | some t =>
    if p.listening i then
      let p := p.at t
      let p := p.onLine i fun l => { l with spaceTimer := none, receiver := l.receiver.reachStuck }
      let p := (p.latch i .stuck).setConditions i (p.line i).openCondition true
      p.offer i .stuck 0 0 0 0
    else p
  | none => p

/-- A change of the signal-valid input of line `i` is taken, at the first moment that R172 admits (log 31). -/
def Part.takeSv (p : Part) (i : LineNo) (v : Bool) : Part :=
  let t := firstTake p.taken.sv[i] p.now
  { p with now := t, svPin := p.svPin.set i v, taken := { p.taken with sv := p.taken.sv.set i (some t) } }

/-- The signal-valid input of line `i` becomes invalid (R73). -/
def Part.signalFalls (p : Part) (i : LineNo) : Part :=
  if p.svPin[i] then
    let p := p.takeSv i false
    if p.active i then
      p.onLine i fun l =>
        if l.openCondition then { l with validRun := none } else { l with invalidRun := some (p.now + msPeriods 100) }
    else p
  else p

/-- The signal-valid input of line `i` becomes valid (R73). -/
def Part.signalRises (p : Part) (i : LineNo) : Part :=
  if p.svPin[i] then p
  else
    let p := p.takeSv i true
    if p.active i then
      p.onLine i fun l =>
        if l.openCondition then { l with validRun := some (p.now + msPeriods 100) } else { l with invalidRun := none }
    else p

/-! ## Validation (R48, R49) -/

/-- The ranges `b` to `b + n - 1` and `c` to `c + k - 1` have no word in common. -/
def disjoint (b n c k : Nat) : Bool := decide (b + n ≤ c) || decide (c + k ≤ b)

/-- The ring of line `i` lies in place (R49). -/
def Part.ringInPlace (p : Part) (i : LineNo) : Bool :=
  let l := p.line i
  decide (l.ringBase + l.ringSize ≤ 0x1FFF00) &&
    (match p.map with
      | some m => disjoint l.ringBase l.ringSize m.regionBase.toNat 2560
      | none => true) &&
    (List.finRange 32).all fun j =>
      decide (j = i) || !p.isProtected j || disjoint l.ringBase l.ringSize (p.line j).ringBase (p.line j).ringSize

/-- The checks of R48 in their order, each with the offset it reports and whether it passes. -/
def Part.validationChecks (p : Part) (i : LineNo) : List (Nat × Bool) :=
  let l := p.line i
  let s := fun w => l.setting w
  [ (3, frameValid l.shadow[3]), (4, s 4 != 0 && decide (s 4 ≤ 4095)), (5, decide (s 5 ≤ 15)), (6, decide (s 6 ≤ 2)),
    (7, decide (s 7 ≤ 31)), (8, s 8 % 256 == 0), (9, s 9 != 0 && decide (s 9 ≤ 128)), (7, p.ringInPlace i),
    (10, decide (s 10 ≤ 1)), (11, decide (16 ≤ s 11) && decide (s 11 ≤ 256) && s 11 % 2 == 0) ] ++
  [ (12, decide (s 12 ≤ 255)), (15, decide (s 15 ≤ 255)), (16, decide (s 16 ≤ 255)), (17, decide (s 17 ≤ 255)),
    (18, decide (s 18 ≤ 255)), (13, decide (s 13 ≤ 2)), (14, decide (s 14 ≤ 7)), (19, s 19 != 0 && decide (s 19 ≤ 255)),
    (20, s 20 != 0 && decide (s 20 ≤ 255)), (21, decide (s 21 ≤ 31)) ]

/-- The offset of the first check that fails, if any (R48). -/
def Part.validate (p : Part) (i : LineNo) : Option Nat :=
  ((p.validationChecks i).find? fun c => !c.2).map Prod.fst

/-! ## Mode requests (R47, R59) -/

/-- A "LISTEN" or "LISTEN_RESUME" request in "OFF": busy while protected, else validated (R59). -/
def Part.requestFromOff (p : Part) (i : LineNo) (resume : Bool) : Part × RequestOutcome × Nat :=
  if p.isProtected i then (p, .refusedBusy, 0)
  else
    match p.validate i with
    | some offset => (p, .badSettings, offset)
    | none => (if resume then p.enterResuming i else p.enterFresh i, .accepted, 0)

/-- An "OFF" request (R59). -/
def Part.requestOff (p : Part) (i : LineNo) : Part × RequestOutcome × Nat :=
  match (p.line i).state with
  | .off => (p, .accepted, 0)
  | .listen => (p.listenToOff i .request, .accepted, 0)
  | .release => (p.retarget i .off .request, .accepted, 0)
  | _ => (p.enterRelease i .off .request, .accepted, 0)

/-- A "LISTEN" request (R59). -/
def Part.requestListen (p : Part) (i : LineNo) : Part × RequestOutcome × Nat :=
  match (p.line i).state with
  | .off => p.requestFromOff i false
  | .listen => (p, .accepted, 0)
  | .settle => (p.enterRelease i .listen .request, .accepted, 0)
  | .drive => (p.enterDrain i, .accepted, 0)
  | .drain => (p, .accepted, 0)
  | .release => (p.retarget i .listen .request, .accepted, 0)

/-- A "LISTEN_RESUME" request (R59). -/
def Part.requestResume (p : Part) (i : LineNo) : Part × RequestOutcome × Nat :=
  match (p.line i).state with
  | .off => p.requestFromOff i true
  | _ => (p, .refusedState, 0)

/-- A "DRIVE" request (R59). -/
def Part.requestDrive (p : Part) (i : LineNo) : Part × RequestOutcome × Nat :=
  let l := p.line i
  match l.state with
  | .off => (p, .refusedState, 0)
  | .listen =>
    if l.heldHandsOff || l.heldForced then (p, .refusedHeld, 0)
    else if l.resuming || l.probing then (p, .refusedBusy, 0)
    else (p.enterSettle i, .accepted, 0)
  | .drain => (p.enterDrive i .request, .accepted, 0)
  | .release => (p, .refusedBusy, 0)
  | _ => (p, .accepted, 0)

/-- The outcome and effect of a mode request of value `v` (R47). -/
def Part.decideRequest (p : Part) (i : LineNo) (v : Word) : Part × RequestOutcome × Nat :=
  if p.state = .disarming then (p, .refusedBusy, 0)
  else if v = 0 then p.requestOff i
  else if v = 1 then p.requestListen i
  else if v = 2 then p.requestResume i
  else if v = 3 then p.requestDrive i
  else (p, .unknown, 0)

/-- Take `v` into shadow word `w` of line `i` (R41). -/
def Part.setShadow (p : Part) (i : LineNo) (w : Fin 22) (v : Word) : Part :=
  p.onLine i fun l => { l with shadow := l.shadow.set w v }

/-- A mode request is taken: the shadow, the effect, then the mode status word (R47). -/
def Part.takeRequest (p : Part) (i : LineNo) (v : Word) : Part :=
  let d := (p.setShadow i 0 v).decideRequest i v
  (d.1.onLine i fun l => { l with modeStatus := ⟨loByte v, d.2.1, d.2.2⟩ }).queueLcb i 33

end Sys2Proof.Machine
end

