-- ==== Sys2Proof/Machine/Receive.lean ====
section
/-! DEFINITION. The Receiver of a line: edges of the receive input, start bits, frames, space runs and breaks, the gap timer and
the activity watch (05). A frame's levels are sampled at the middle of each bit; the samples that an edge passes are noted at
that edge (log 15). -/

namespace Sys2Proof.Machine

/-- The moment of the frame's sample `k`, the start bit's being sample 0 (R81, R82). -/
def FrameRun.sampleMoment (f : FrameRun) (k : Nat) : Moment := f.edge + k * f.bitTime + f.bitTime / 2

/-- The frame with every sample whose moment lies before `now` noted at level `v`. -/
def FrameRun.fill (f : FrameRun) (v : Level) (now : Moment) : FrameRun :=
  let due := min f.format.bitsAfterStart ((now - (f.edge + f.bitTime / 2) - 1) / f.bitTime)
  { f with samples := f.samples ++ List.replicate (due - f.samples.length) v }

/-- The frame with all its samples noted, those still open at level `v`. -/
def FrameRun.complete (f : FrameRun) (v : Level) : FrameRun :=
  { f with samples := f.samples ++ List.replicate (f.format.bitsAfterStart - f.samples.length) v }

/-- A complete frame has a framing error: a stop bit was sampled at space (R82). -/
def FrameRun.framingError (f : FrameRun) : Bool :=
  (f.samples.drop (f.format.dataBits + f.format.parityBits)).contains .space

/-- The frame time of a frame (R81). -/
def FrameRun.frameTime (f : FrameRun) : Nat := f.format.bits * f.bitTime

/-! ## Edges -/

/-- The receiver at a change from mark to space: a candidate start bit in "HUNT", unless the sample of an earlier candidate is
still to come (R81, log 16); a change within a frame is noted (R82). -/
def Receiver.fall (now : Moment) (bitTime : Nat) : Receiver → Receiver
  | .hunt none => .hunt (some now)
  | .hunt (some e) => if e + bitTime / 2 < now then .hunt (some now) else .hunt (some e)
  | .frame f => .frame { (f.fill .mark now) with lastFall := now }
  | r => r

/-- A change of the receive input of line `i` is taken at the moment `t` (R172). -/
def Part.takeRx (p : Part) (i : LineNo) (v : Level) (t : Moment) : Part :=
  { p with now := t, rxPin := p.rxPin.set i v, taken := { p.taken with rx := p.taken.rx.set i (some t) } }

/-- The receive input of line `i` goes from mark to space, `wait` periods after the present moment (R74, R81, R157). A change less
than two periods after the last is not taken (R172, log 31). -/
def Part.rxFalls (p : Part) (i : LineNo) (wait : Nat) : Part :=
  if p.rxPin[i] = .space ∨ canTake p.taken.rx[i] (p.now + wait) = false then p
  else
    let p := p.takeRx i .space (p.now + wait)
    if p.listening i then
      (p.onLine i fun l =>
        { l with
          spaceTimer := some (p.now + secondPeriods 2)
          receiver := l.receiver.fall p.now l.bitTime }).probeFall i
    else p

/-- The receiver at a change from space to mark (R82, R85). -/
def Part.receiverRises (p : Part) (i : LineNo) : Part :=
  match (p.line i).receiver with
  | .frame f => p.onLine i fun l => { l with receiver := .frame (f.fill .space p.now) }
  | .spaceRun _ _ withheld =>
    let p := p.onLine i fun l => { l with receiver := .hunt none }
    match withheld with
    | some b => p.placeByte i b
    | none => p
  | .brk _ _ => (p.endReceivedBreak i).onLine i fun l => { l with receiver := .hunt none }
  | _ => p

/-- The receive input of line `i` returns to mark, `wait` periods after the present moment (R74, R82, R85, R157). A change less
than two periods after the last is not taken (R172, log 31). -/
def Part.rxRises (p : Part) (i : LineNo) (wait : Nat) : Part :=
  if p.rxPin[i] = .mark ∨ canTake p.taken.rx[i] (p.now + wait) = false then p
  else
    let p := p.takeRx i .mark (p.now + wait)
    if p.listening i then
      let p := p.onLine i fun l => { (l.probeRise p.now) with spaceTimer := none }
      (p.setConditions i (p.line i).openCondition false).receiverRises i
    else p

/-! ## Start bits and bytes -/

/-- The seconds since the quiet timer last started (R98). -/
def Line.quietSeconds (l : Line) (now : Moment) : Word := satWord ((now - l.quietStart) / Config.periodsPerSecond)

/-- The activity watch at a start bit on a quiet line (R99). -/
def Part.noticeActivity (p : Part) (i : LineNo) : Part :=
  if (p.line i).quiet then
    (p.offer i .activity ((p.line i).quietSeconds p.now) 0 0 0).latch i .activity
  else p

/-- A start bit whose edge was at `e` is taken: its frame, format and bit time are fixed (R81, R83, R98, R99). -/
def Part.takeStartBit (p : Part) (i : LineNo) (e : Moment) : Part :=
  (p.noticeActivity i).onLine i fun l =>
    { (l.startQuiet p.now) with receiver := .frame ⟨l.frame, l.bitTime, e, [], e⟩ }

/-- The sample of a candidate start bit: a glitch, or a start bit (R81). Where the rate is set between the edge and the sample, the
spec does not say whose half bit counts; the model takes that of the rate in force at the sample, not before the present moment
(DESIGN CHOICE, log 33). -/
def Part.sampleStart (p : Part) (i : LineNo) : Part :=
  match (p.line i).receiver with
  | .hunt (some e) =>
    let p := p.at (e + (p.line i).bitTime / 2)
    if p.rxPin[i] = .space then p.takeStartBit i e
    else p.onLine i fun l => { l with receiver := .hunt none }
  | _ => p

/-- A complete frame `f` with the input at level `v`: the byte arrives or is withheld, and the receiver goes on (R82, log 17). -/
def Part.finishFrame (p : Part) (i : LineNo) (f : FrameRun) (v : Level) : Part :=
  let b := deframe f.format f.samples
  let go := fun r => p.onLine i fun l => { l with receiver := r }
  if f.framingError && v == .space then
    if f.samples.contains .mark then (go (.spaceRun f.lastFall f.frameTime none)).placeByte i b
    else go (.spaceRun f.edge f.frameTime (some b))
  else (go (.hunt none)).placeByte i b

/-- The last stop bit of a frame is sampled (R82, R88). -/
def Part.byteArrives (p : Part) (i : LineNo) : Part :=
  match (p.line i).receiver with
  | .frame f =>
    let p := p.at (f.sampleMoment f.format.bitsAfterStart)
    p.finishFrame i (f.complete p.rxPin[i]) p.rxPin[i]
  | _ => p

/-! ## Breaks, gaps, quiet -/

/-- A space run reaches its frame time: a received break starts (R84). -/
def Part.breakStarts (p : Part) (i : LineNo) : Part :=
  match (p.line i).receiver with
  | .spaceRun start frameTime _ =>
    ((p.at (start + frameTime)).closeOpen i).onLine i fun l =>
      { l with receiver := .brk start false, gapTimer := none }
  | _ => p

/-- The gap timer expires (R90). -/
def Part.gapExpires (p : Part) (i : LineNo) : Part :=
  match (p.line i).gapTimer with
  | some t => ((p.at t).closeOpen i).onLine i fun l => { l with gapTimer := none }
  | none => p

/-- The quiet timer expires (R98). -/
def Part.quietExpires (p : Part) (i : LineNo) : Part :=
  match (p.line i).quietTimer with
  | some t => (p.at t).onLine i fun l => { l with quietTimer := none, quiet := true }
  | none => p

/-- A falling edge that comes at the present moment is one that a probe counts: it is taken (R172), and no open condition holds
(R73, R157). -/
def Part.countsFall (p : Part) (i : LineNo) : Bool :=
  p.rxPin[i] == .mark && canTake p.taken.rx[i] p.now && p.listening i

/-- The probe as its window stands at the 5 s expiry, `counted` saying that a falling edge that it counts comes together with the
expiry. R158: where that edge is the 64th, either order gives the same edges, so it counts though the expiry is taken first. -/
def Probe.atExpiry (k : Probe) (counted : Bool) : Probe := if counted && k.edges == 63 then { k with edges := 64 } else k

/-- The probe window reaches its 5 s (R158); with `edge`, a falling edge comes together with the expiry (log 36). -/
def Part.probeTimesOut (p : Part) (i : LineNo) (edge : Bool) : Part :=
  match (p.line i).probe with
  | some k =>
    let p := p.at (k.start + secondPeriods 5)
    p.endProbe i (k.atExpiry (edge && p.countsFall i))
  | none => p

/-- The 5 s expiry, then the falling edge that comes together with it, if any (R158, log 36). -/
def Part.probeExpires (p : Part) (i : LineNo) (edge : Bool) : Part :=
  let p := p.probeTimesOut i edge
  if edge then p.rxFalls i 0 else p

end Sys2Proof.Machine
end

