-- ==== Sys2Proof/Machine/Settings.lean ====
section
/-! DEFINITION. Commands, acknowledgement and settings writes (03, 3.2, 3.4, 3.5). -/

namespace Sys2Proof.Machine

/-! ## Commands (R50 to R53) -/

/-- CLOSE (R51). -/
def Part.commandClose (p : Part) (i : LineNo) : Part × RequestOutcome := (p.closeOpen i, .done)

/-- FLUSH (R52). -/
def Part.commandFlush (p : Part) (i : LineNo) : Part × RequestOutcome :=
  if (p.line i).state = .off then (p, .refusedState)
  else if (p.line i).resuming then (p, .refusedBusy)
  else (p.flushRing i, .done)

/-- PROBE and PROBE_APPLY (R53). -/
def Part.commandProbe (p : Part) (i : LineNo) (apply : Bool) : Part × RequestOutcome :=
  if (p.line i).state = .listen then
    if (p.line i).probing || (p.line i).resuming then (p, .refusedBusy) else (p.startProbe i apply, .accepted)
  else (p, .refusedState)

/-- DISCARD_TX (R53, R150). A line in "DRAIN" whose wire is idle then leaves it (R66). -/
def Part.commandDiscard (p : Part) (i : LineNo) : Part × RequestOutcome :=
  if (p.line i).state.quiesced then
    let p := p.discardQueue i
    (if (p.line i).state = .drain ∧ (p.line i).queue = [] then p.enterRelease i .listen .request else p, .done)
  else (p, .refusedState)

/-- RESET_COUNTS (R51). -/
def Part.commandResetCounts (p : Part) (i : LineNo) : Part × RequestOutcome :=
  ((p.onLine i fun l => { l with counters := Vector.replicate 7 0 }).queueLcbs i [46, 47, 48, 49, 50, 51, 52], .done)

/-- The outcome and effect of a command of value `v` (R50). -/
def Part.decideCommand (p : Part) (i : LineNo) (v : Word) : Part × RequestOutcome :=
  if p.state = .disarming then (p, .refusedBusy)
  else if v = 1 then p.commandClose i
  else if v = 2 then p.commandFlush i
  else if v = 3 then p.commandProbe i false
  else if v = 4 then p.commandProbe i true
  else if v = 5 then p.commandDiscard i
  else if v = 6 then p.commandResetCounts i
  else (p, .unknown)

/-- A command is taken: the shadow, the effect, then the command status word (R50). -/
def Part.takeCommand (p : Part) (i : LineNo) (v : Word) : Part :=
  let d := (p.setShadow i 1 v).decideCommand i v
  (d.1.onLine i fun l => { l with commandStatus := ⟨loByte v, d.2⟩ }).queueLcb i 34

/-- An acknowledge mask is taken; word 35 is queued whether or not a flag changed (R55). -/
def Part.takeAcknowledge (p : Part) (i : LineNo) (mask : Word) : Part :=
  ((p.onLine i fun l => { l with flags := l.acknowledged mask }).queueLcb i 35).noteLine i p

/-! ## Settings writes (R42 to R46) -/

/-- The field may be written in the line's present state (R41 to R43). -/
def Part.writable (p : Part) (i : LineNo) (w : Fin 22) : Bool :=
  let s := (p.line i).state
  if w = 3 ∨ w = 4 ∨ w = 5 then s == .off || s == .listen
  else if w = 7 ∨ w = 8 ∨ w = 9 ∨ w = 10 then s == .off && !p.isProtected i
  else if w = 11 then s == .off
  else true

/-- The range check of R44. -/
def settingInRange (w : Fin 22) (v : Word) : Bool :=
  if w = 3 then frameValid v
  else if w = 4 then v != 0 && decide (v.toNat ≤ 4095)
  else if w = 5 then decide (v.toNat ≤ 15)
  else if w = 6 ∨ w = 13 then decide (v.toNat ≤ 2)
  else if w = 12 ∨ w = 15 ∨ w = 16 ∨ w = 17 ∨ w = 18 then decide (v.toNat ≤ 255)
  else if w = 14 then decide (v.toNat ≤ 7)
  else if w = 19 ∨ w = 20 then v != 0 && decide (v.toNat ≤ 255)
  else if w = 21 then decide (v.toNat ≤ 31)
  else true

/-- In "OFF", words 3 to 5 and 7 to 11 are taken without a range check (R42). -/
def Part.rangeChecked (p : Part) (i : LineNo) (w : Fin 22) : Bool :=
  !((p.line i).state == .off && (w == 3 || w == 4 || w == 5 || w == 7 || w == 8 || w == 9 || w == 10 || w == 11))

/-- The reason a settings write of merged value `v` is blocked, if it is: the lock first, then the range (R42, R43). -/
def Part.settingBlocked (p : Part) (i : LineNo) (w : Fin 22) (v : Word) : Option BlockedReason :=
  if !p.writable i w then some .locked
  else if p.rangeChecked i w && !settingInRange w v then some .range
  else none

/-- The merged value of a write to shadow word `w` (R9). -/
def Part.merged (p : Part) (i : LineNo) (w : Fin 22) (lanes : Lanes) (d : Word) : Word :=
  mergeLanes lanes (p.line i).shadow[w] d

/-- A frame word taken in "LISTEN" abandons a probe (R45, R160). -/
def Part.frameTaken (p : Part) (i : LineNo) : Part :=
  if (p.line i).state = .listen then p.abandonProbe i else p

/-- A divisor or fraction taken in "LISTEN": a probe is abandoned, then the shadow pair is the effective rate (R45, R156). -/
def Part.rateTaken (p : Part) (i : LineNo) : Part :=
  if (p.line i).state = .listen then
    let p := p.abandonProbe i
    p.setRate i ((p.line i).setting 4) ((p.line i).setting 5)
  else p

/-- A taken coalesce time of 0 makes a "RUNNING" coalesce state "EXPIRED" (R164). -/
def Line.coalesceTaken (l : Line) : Line :=
  match l.ring with
  | .present r =>
    match r.coalesce with
    | .running _ => if l.setting 16 = 0 then { l with ring := .present { r with coalesce := .expired } } else l
    | _ => l
  | _ => l

/-- A taken quiet time of 0 stops the quiet timer and clears the quiet flag (R98). -/
def Line.quietTaken (l : Line) : Line :=
  if l.setting 18 = 0 then { l with quietTimer := none, quiet := false } else l

/-- A setting is taken: the shadow holds it, and what R45 gives at that moment is done. -/
def Part.takeSetting (p : Part) (i : LineNo) (w : Fin 22) (v : Word) : Part :=
  let q := p.setShadow i w v
  if w = 3 then q.frameTaken i
  else if w = 4 ∨ w = 5 then q.rateTaken i
  else if w = 6 then (if v = 2 then q.setCredit i true else q)
  else if w = 15 then q.noteDue i p
  else if w = 16 then (q.onLine i Line.coalesceTaken).noteDue i p
  else if w = 18 then q.onLine i Line.quietTaken
  else if w = 21 then q.noteLine i p
  else q

end Sys2Proof.Machine
end

