-- ==== Sys2Proof/Machine/Writer.lean ====
section
/-! DEFINITION. The Capture Writer: records, the space check, keep and overwrite, writing and commit, selection, the steps of a
resume walk (06 6.2, 6.8; 07). -/

namespace Sys2Proof.Machine

/-! ## Records (R103 to R105, 11.4) -/

/-- Header word 0: kind code and line number. -/
def kindWord (kind : Word) (i : LineNo) : Word := (kind <<< 8) ||| word i.val

/-- The five header words of a record (R103). -/
def headerWords (kind : Word) (i : LineNo) (size : Nat) (seq : Word) (t : Stamp) : List Word :=
  [kindWord kind i, word size, seq, stampHigh t, stampLow t]

/-- The ten words of an event record (R105). -/
def eventWords (i : LineNo) (seq : Word) (e : Event) (dropped : Word) : List Word :=
  headerWords e.kind.code i 10 seq e.stamp ++ [e.a, e.b, e.c, e.d, dropped]

/-- The payload area of a "DATA" record: two bytes a word, the earlier in the high half, 0 beyond the bytes (R104). -/
def payloadWords (limit : Nat) (bytes : List Byte) : List Word :=
  (List.range (limit / 2)).map fun j => wordOfBytes (bytes.getD (2 * j) 0) (bytes.getD (2 * j + 1) 0)

/-- The words of a "DATA" record of payload limit `limit`, the check word last (R104, R171). -/
def dataWords (i : LineNo) (limit size : Nat) (seq : Word) (c : Contents) : List Word :=
  let ws := headerWords dataKind i size seq c.stamp ++
    [word c.bytes.length, word c.errors, padWord c.firstError] ++ payloadWords limit c.bytes ++
    List.replicate ((9 + limit / 2) % 2) 0
  ws ++ [crc ws]

/-- The contents a buffer holds; a "FREE" one holds nothing. -/
def Buffer.contents : Buffer → Contents
  | .free => ⟨[], 0, none, 0⟩
  | .opened c => c
  | .closed c => c
  | .writing c => c

/-- The size of a taken job's record (R124). -/
def Line.jobSize (l : Line) : TakenJob → Nat
  | .data _ => l.dataSize
  | .event _ _ => 10

/-- The words of a taken job's record (R131). -/
def Line.jobWords (l : Line) (i : LineNo) (seq : Word) : TakenJob → List Word
  | .data b => dataWords i l.payloadLimit l.dataSize seq l.buffers[b].contents
  | .event e dropped => eventWords i seq e dropped

/-- Words at successive ring offsets from `k`. -/
def wordsFrom (k : Nat) : List Word → List (Nat × Word)
  | [] => []
  | d :: rest => (k, d) :: wordsFrom (k + 1) rest

/-- The two header words of a pad that begins at `k` (R105). -/
def padWords (i : LineNo) (size : Nat) : Option Nat → List (Nat × Word)
  | none => []
  | some k => wordsFrom k [kindWord padKind i, word (size - k)]

/-! ## The space check (R124) -/

/-- Where a record of `s` words goes from offset `k`: at `k`, or after a pad at offset 0. -/
def placeFrom (size k s : Nat) : Placement := if size - k < s then ⟨some k, 0⟩ else ⟨none, k⟩

/-- The words of the pad before a placement. -/
def Placement.padSize (pl : Placement) (size : Nat) : Nat :=
  match pl.pad with
  | none => 0
  | some k => size - k

/-- A layout: the "GAP" if any, the record, and the words needed. -/
structure Layout where
  gap : Option Placement
  record : Placement
  need : Nat
deriving DecidableEq, Repr

/-- The layout of a record with no "GAP"; on an empty ring the pad at W is not counted. -/
def Ring.layoutRecord (r : Ring) (size s : Nat) : Layout :=
  let pl := placeFrom size r.w s
  ⟨none, pl, (if r.occupied = 0 then 0 else pl.padSize size) + s⟩

/-- The layout of a record after a "GAP" of 10 words. -/
def Ring.layoutGap (r : Ring) (size s : Nat) : Layout :=
  if r.occupied = 0 ∧ size - r.w < 10 + s then ⟨some ⟨some r.w, 0⟩, ⟨none, 10⟩, 10 + s⟩
  else
    let g := placeFrom size r.w 10
    let pl := placeFrom size (wrapOffset size g.offset 10) s
    ⟨some g, pl, g.padSize size + 10 + pl.padSize size + s⟩

/-- The layout of a record of `s` words (R124). -/
def Ring.layout (r : Ring) (size s : Nat) : Layout :=
  if r.discardRecords = 0 ∧ r.discardBytes = 0 then r.layoutRecord size s else r.layoutGap size s

/-- Replace the job in flight. -/
def Part.setFlight (p : Part) (f : Option Flight) : Part := { p with writer := { p.writer with flight := f } }

/-- The writing of a taken job's record starts (R131). -/
def Part.startRecord (p : Part) (i : LineNo) (r : Ring) (job : TakenJob) (pl : Placement) : Part :=
  let l := p.line i
  p.setFlight (some ⟨i, .writing
    { job := job, isGap := false, place := pl, seq := r.nextSeq, size := l.jobSize job, pad := pl.pad,
      todo := padWords i l.ringSize pl.pad ++ wordsFrom pl.offset (l.jobWords i r.nextSeq job) }⟩)

/-- The writing of a "GAP" starts: it takes the discard tally and the dropped-events tally (R127). -/
def Part.startGap (p : Part) (i : LineNo) (r : Ring) (job : TakenJob) (g pl : Placement) : Part :=
  let l := p.line i
  let ws := eventWords i r.nextSeq ⟨.gap, r.discardRecords, r.discardBytes, 0, 0, p.counter⟩ l.droppedEvents
  let p := p.onLine i fun l =>
    { l with ring := .present { r with discardRecords := 0, discardBytes := 0 }, droppedEvents := 0 }
  p.setFlight (some ⟨i, .writing
    { job := job, isGap := true, place := pl, seq := r.nextSeq, size := 10, pad := g.pad,
      todo := padWords i l.ringSize g.pad ++ wordsFrom g.offset ws }⟩)

/-- What the line takes back of a discarded job: a free buffer, or the dropped-events count (R126). -/
def Line.takeBack (l : Line) : TakenJob → Line
  | .data b => { l with buffers := l.buffers.set b .free }
  | .event _ dropped => { l with droppedEvents := satAdd l.droppedEvents dropped.toNat }

/-- The bytes of a discarded job that join the discard tally (R126). -/
def Line.lostBytes (l : Line) : TakenJob → Nat
  | .data b => l.buffers[b].contents.bytes.length
  | .event _ _ => 0

/-- Under "KEEP" a job that does not fit is discarded; the turn ends (R126). -/
def Part.discardJob (p : Part) (i : LineNo) (r : Ring) (job : TakenJob) : Part :=
  let l := p.line i
  let r' := { r with
    discardRecords := satAdd r.discardRecords 1
    discardBytes := satAdd r.discardBytes (l.lostBytes job) }
  let p := p.onLine i fun l => { (l.takeBack job) with ring := .present r' }
  (p.count i .recordsDiscarded 1).setFlight none

/-- Under "OVERWRITE" a job that does not fit is parked on a live lease, else the reclaim read is presented (R128, R129). -/
def Part.makeRoom (p : Part) (i : LineNo) (r : Ring) (job : TakenJob) : Part :=
  if r.lease.isLive then (p.onLine i fun l => { l with parked := some job }).setFlight none
  else p.setFlight (some ⟨i, .reclaimRead job r.r false⟩)

/-- The space check of a taken job and what follows it (R124). A line with a job has its ring state present. -/
def Part.spaceCheck (p : Part) (i : LineNo) (job : TakenJob) : Part :=
  let l := p.line i
  match l.ring? with
  | none => p.setFlight none
  | some r =>
    let lay := r.layout l.ringSize (l.jobSize job)
    if lay.need ≤ l.ringSize - r.occupied then
      match lay.gap with
      | none => p.startRecord i r job lay.record
      | some g => p.startGap i r job g lay.record
    else if l.shadow[10] = 1 then p.makeRoom i r job
    else p.discardJob i r job

/-! ## Reclaim (R128, R130) -/

/-- The reason of a corrupt ring (R130). R130 gives a condition for each of the two reasons and no precedence where both hold (a
size odd or outside 10 to 138 that also passes E); the model then gives "SIZE" (DESIGN CHOICE, log 38). -/
def corruptReason (s : Nat) : WalkReason :=
  if s % 2 = 1 ∨ s < 10 ∨ 138 < s then .size else .extent

/-- An invalid size makes the ring fresh (R130). -/
def Part.corruptRing (p : Part) (i : LineNo) (s : Nat) : Part :=
  let state := (p.line i).state
  ((p.makeFresh i).latch i .ringReset).offerMode i state .ringUntrusted (corruptReason s).code state

/-- The record of `s` words at R is reclaimed; a lapsed lease is broken (R128). -/
def Part.reclaim (p : Part) (i : LineNo) (r : Ring) (s : Nat) : Part :=
  let l := p.line i
  let seq := r.nextSeq - word r.count
  let r' := r.remove l.ringSize s p.now (l.setting 16)
  let q := ((p.setRing i r').queueLcbs i [38, 39, 42]).count i .recordsReclaimed 1
  let q := (q.queueLcbIf (r'.padStart != r.padStart) i 41).noteDue i p
  if r.lease.isOpen then (q.latch i .leaseBroken).offer i .leaseBroken seq 0 0 0 else q

/-- The reclaim read of line `i` returns `d` (R128). -/
def Part.reclaimReturns (p : Part) (i : LineNo) (job : TakenJob) (noted : Nat) (overtaken : Bool) (d : Word) : Part :=
  match (p.line i).ring? with
  | none => p.setFlight none
  | some r =>
    if overtaken ∨ r.r ≠ noted then p.spaceCheck i job
    else if r.sizeValid (p.line i).ringSize d.toNat then (p.reclaim i r d.toNat).spaceCheck i job
    else (p.corruptRing i d.toNat).spaceCheck i job

/-! ## Writing and commit (R131, R132) -/

/-- A word of the record under way completes and it is not the last: the next is presented (R131). -/
def Part.nextWord (p : Part) (i : LineNo) (w : Writing) : Part :=
  p.setFlight (some ⟨i, .writing { w with todo := w.todo.tail }⟩)

/-- The buffer of a written data job becomes "FREE" (R132). -/
def Line.freeJob (l : Line) : TakenJob → Line
  | .data b => { l with buffers := l.buffers.set b .free }
  | .event _ _ => l

/-- The last word of a record completes: it commits; a "GAP" is followed by its job's record, any other ends the turn
(R107, R127, R132). -/
def Part.commitRecord (p : Part) (i : LineNo) (w : Writing) : Part :=
  match (p.line i).ring? with
  | none => p.setFlight none
  | some r =>
    let q := p.commitRing i r w.size w.pad w.seq
    if w.isGap then
      match (q.line i).ring? with
      | some r' => q.startRecord i r' w.job w.place
      | none => q.setFlight none
    else (q.onLine i fun l => l.freeJob w.job).setFlight none

/-! ## Walk steps (R115 to R118, R133) -/

/-- The number of reads of the present step: five report words, or three header words. -/
def Line.stepReads (l : Line) : Nat :=
  match l.walk with
  | some (.records _) => 3
  | _ => 5

/-- A walk ends with failure (R118). -/
def Part.walkFails (p : Part) (i : LineNo) (reason : WalkReason) : Part :=
  let q := ((p.makeFresh i).latch i .ringReset).onLine i fun l => { l with walk := none }
  (q.queueLcb i 32).offerMode i .listen .ringUntrusted reason.code .off

/-- The ring a successful walk takes over (R117). -/
def WalkRun.ring (run : WalkRun) (now time : Nat) : Ring where
  w := run.w
  r := run.r
  occupied := run.words
  count := run.found
  nextSeq := match run.lastSeq with | none => run.nextSeq | some s => s + 1
  padStart := run.pad
  lease := .closed
  discardRecords := 0
  discardBytes := 0
  coalesce := if run.found = 0 then .stopped else Coalesce.start now time

/-- A walk ends with success (R117). -/
def Part.walkSucceeds (p : Part) (i : LineNo) (run : WalkRun) : Part :=
  let q := p.onLine i fun l => { l with ring := .present (run.ring p.now (l.setting 16)), walk := none }
  let q := (q.queueLcbs i [36, 37, 38, 39, 40, 41, 42]).noteLine i p
  (q.queueLcb i 32).offerMode i .listen .resumed (word run.found) .off

/-- The walk goes on from `run`, or ends with success when no words remain. -/
def Part.walkContinues (p : Part) (i : LineNo) (run : WalkRun) : Part :=
  if run.remaining = 0 then p.walkSucceeds i run else p.onLine i fun l => { l with walk := some (.records run) }

/-- The words from R to W by the pointers read (R115). -/
def walkWords (size w r occupied : Nat) : Nat :=
  if r < w then w - r else if w < r then size - r + w else occupied

/-- The checks of the first step (R115). -/
def pointersSound (size w r pad occupied : Nat) : Bool :=
  w % 2 == 0 && decide (w < size) && r % 2 == 0 && decide (r < size) &&
    (pad == 0xFFFF || (pad % 2 == 0 && decide (pad < size))) && (w != r || occupied == 0 || occupied == size)

/-- The first step's reads have all returned (R115). -/
def Part.walkPointers (p : Part) (i : LineNo) (w r seq pad occupied : Word) : Part :=
  let size := (p.line i).ringSize
  if pointersSound size w.toNat r.toNat pad.toNat occupied.toNat then
    let words := walkWords size w.toNat r.toNat occupied.toNat
    p.walkContinues i ⟨w.toNat, r.toNat, seq, words, r.toNat, words, 0, none, none⟩
  else p.walkFails i .pointers

/-- The kind code is that of an event kind (11.6). -/
def isEventKind (k : Nat) : Bool := decide (0x10 ≤ k) && decide (k ≤ 0x1A)

/-- The checks of R116 in their order: the reason of the first that fails. `k` and `n` are the kind and line of header word 0,
`s` the size, `seq` the sequence. -/
def WalkRun.check (run : WalkRun) (i : LineNo) (size k n s : Nat) (seq : Word) : Option WalkReason :=
  let isPad := k == padKind.toNat
  if !(k == dataKind.toNat || isPad || isEventKind k) then some .kind
  else if n ≠ i.val then some .line
  else if isPad && (run.pos == run.r || run.pad.isSome || run.pos + s != size) then some .pad
  else if (isEventKind k && s != 10) || (k == dataKind.toNat && (s % 2 == 1 || decide (s < 18) || decide (138 < s))) then
    some .size
  else if run.remaining < s ∨ size < run.pos + s then some .extent
  else if !isPad && run.lastSeq.isSome && run.lastSeq != some (seq - 1) then some .sequence
  else none

/-- The walk counts a record that passed (R116). -/
def WalkRun.counted (run : WalkRun) (size k s : Nat) (seq : Word) : WalkRun :=
  if k = padKind.toNat then { run with remaining := run.remaining - s, pos := 0, pad := some run.pos }
  else
    { run with
      remaining := run.remaining - s
      pos := wrapOffset size run.pos s
      found := run.found + 1
      lastSeq := some seq }

/-- The three reads of a further step have returned (R116, R171). -/
def Part.walkHeader (p : Part) (i : LineNo) (run : WalkRun) (h0 h1 seq : Word) : Part :=
  let size := (p.line i).ringSize
  let k := (hiByte h0).toNat
  match run.check i size k (loByte h0).toNat h1.toNat seq with
  | some reason => p.walkFails i reason
  | none => p.walkContinues i (run.counted size k h1.toNat seq)

/-- The checks and results of a step whose reads returned `got` (R115, R116). -/
def Part.walkStep (p : Part) (i : LineNo) (got : List Word) : Part :=
  match (p.line i).walk, got with
  | some .pointers, [w, r, seq, pad, occupied] => p.walkPointers i w r seq pad occupied
  | some (.records run), [h0, h1, seq] => p.walkHeader i run h0 h1 seq
  | _, _ => p

/-- A read of a walk step returns `d` (R133): an abandoned step ends its turn; the last read of a step is followed by its checks
and ends the turn; any other read is kept, and the next is presented. -/
def Part.walkReturns (p : Part) (i : LineNo) (got : List Word) (abandoned : Option Addr) (d : Word) : Part :=
  if abandoned.isSome then p.setFlight none
  else if got.length + 1 = (p.line i).stepReads then (p.setFlight none).walkStep i (got ++ [d])
  else p.setFlight (some ⟨i, .walkStep (got ++ [d]) none⟩)

/-! ## Selection (R121 to R123) -/

/-- What a line offers the writer. -/
inductive Work where
  | walk
  | retained (job : TakenJob)
  | listed (job : Job)
deriving DecidableEq, Repr

/-- The work a line offers an idle writer (R121). -/
def Line.work (l : Line) : Option Work :=
  if l.resuming then some .walk
  else if l.parked.isSome then none
  else
    match l.retained with
    | some job => some (.retained job)
    | none => l.jobs.head?.map .listed

/-- Line `i` exists and offers work. -/
def Part.offersWork (p : Part) (i : LineNo) : Bool := p.hasLine i && (p.line i).work.isSome

/-- The service level of a line (R122). -/
def Line.level (l : Line) : Nat := l.setting 14

/-- The highest service level among the lines that offer work, plus one; 0 when none does. -/
def Part.topLevel (p : Part) : Nat :=
  (List.finRange 32).foldl (fun top i => if p.offersWork i then max top ((p.line i).level + 1) else top) 0

/-- The lines in order after the round-robin pointer; the wrap over absent lines changes nothing (R122). -/
def Part.turnOrder (p : Part) : List LineNo :=
  match p.writer.pointer with
  | none => List.finRange 32
  | some k => (List.finRange 32).map fun j => k + 1 + j

/-- The line an idle writer selects (R122). -/
def Part.selected (p : Part) : Option LineNo :=
  p.turnOrder.find? fun i => p.offersWork i && (p.line i).level + 1 == p.topLevel

/-- A closed buffer becomes "WRITING" (R87). -/
def Buffer.toWriting : Buffer → Buffer
  | .closed c => .writing c
  | b => b

/-- The job at the front of the list is taken (R123). -/
def Part.takeListed (p : Part) (i : LineNo) (job : Job) : Part :=
  match job with
  | .data b =>
    (p.onLine i fun l => { l with jobs := l.jobs.tail, buffers := l.buffers.set b l.buffers[b].toWriting }).spaceCheck i
      (.data b)
  | .event e =>
    (p.onLine i fun l => { l with jobs := l.jobs.tail, droppedEvents := 0 }).spaceCheck i
      (.event e (p.line i).droppedEvents)

/-- A turn starts on a piece of work (R123, R133). -/
def Part.startTurn (p : Part) (i : LineNo) : Work → Part
  | .walk => p.setFlight (some ⟨i, .walkStep [] none⟩)
  | .retained job => (p.onLine i fun l => { l with retained := none }).spaceCheck i job
  | .listed job => p.takeListed i job

/-- An idle writer selects a line and starts a turn (R122). -/
def Part.writerSelects (p : Part) : Part :=
  match p.writer.flight, p.selected with
  | none, some i =>
    match (p.line i).work with
    | some work => ({ p with writer := { p.writer with pointer := some i } }).startTurn i work
    | none => p
  | _, _ => p

end Sys2Proof.Machine
end

