-- ==== Sys2Proof/Machine/Setup.lean ====
section
/-! DEFINITION. The Setup and Time Unit: the gate sequence, arming, the closing write, the control words, hands-off, the
blocked-write record, the centisecond counter, the resets (02; 01 R10, R20; 04 R78 to R80). -/

namespace Sys2Proof.Machine

/-! ## Blocked writes (R10) -/

/-- A blocked write to `addr` is recorded; its report words and word 37 are queued (R10, R33, log 13). -/
def Part.recordBlocked (p : Part) (addr : Addr) (reason : BlockedReason) : Part :=
  { p with blocked := ⟨satAdd p.blocked.count 1, addr, reason, true⟩ }.queueBases [42, 43, 44, 45, 37]

/-! ## Gate sequence (R23) -/

/-- What entry to "ARMING" changes, without its reports: the check value is kept, the blocked-write record is zeroed and
"BLOCKED_WRITE" cleared (R23, R25). -/
def Part.intoArming (p : Part) (check : Word) : Part :=
  { p with
    state := .arming
    gateProgress := 0
    checkValue := some check
    setupCopy := []
    blocked := BlockedRecord.initial }

/-- Entry to "ARMING" (R25): the words of the blocked-write record that the zeroing changes are queued (R17), word 37 when
"BLOCKED_WRITE" was set (R33), then word 32, in the order in which R25 names the changes (the reading log 32, the order log 12). -/
def Part.enterArming (p : Part) (check : Word) : Part :=
  ((p.intoArming check).queueChanged p [42, 43, 44, 45, 37]).queueBase 32

/-- Gate progress after a full-word value that is not the fourth (R23). -/
def nextProgress (progress : Nat) (v : Word) : Nat :=
  if v = 0x6C1E then 1
  else if progress = 1 ∧ v = 0x93A5 then 2
  else if progress = 2 ∧ v = 0x0F7D then 3
  else 0

/-- A write to the gate word: one gate event in "DORMANT"; while RST# is low progress stays 0 (R23, R172). -/
def Part.gateEvent (p : Part) (lanes : Lanes) (v : Word) : Part :=
  if p.state = .dormant ∧ p.resetLow = false then
    if lanes ≠ .both then { p with gateProgress := 0 }
    else if p.gateProgress = 3 then p.enterArming v
    else { p with gateProgress := nextProgress p.gateProgress v }
  else p

/-! ## Arming (R25 to R28) -/

/-- Setup word `w` of a copy, as a number. -/
def copyWord (copy : List Word) (w : Nat) : Nat := (copy.getD w 0).toNat

/-- The region base of a copy (R22). -/
def copyRegion (copy : List Word) : Nat := 65536 * copyWord copy 0 + copyWord copy 1

/-- The validation of the setup copy (R26). -/
def validateSetup (copy : List Word) (check : Word) : SetupResult :=
  if crc copy ≠ check then .badCheck
  else if 31 < copyWord copy 0 ∨ copyWord copy 1 % 256 ≠ 0 ∨ 0x1FFEFF < copyRegion copy + 2559 then .badRegion
  else if copyWord copy 2 = 0 ∨ 32 < copyWord copy 2 then .badLines
  else if 63 < copyWord copy 3 then .badHold
  else if copyWord copy 6 = 0 ∨ 64 < copyWord copy 6 then .badAllowance
  else .ok

/-- The LCB words that arming writes for each line, in order (R27). -/
def armingLcbWords : List Nat := [32, 33, 34, 35, 36] ++ (List.range 11).map (43 + ·)

/-- Entry to "ARMED" without the reports (R27). -/
def Part.comeIntoForce (p : Part) : Part :=
  let copy := p.setupCopy
  let n := copyWord copy 2
  { p with
    state := .armed
    checkValue := none
    map := some ⟨BitVec.ofNat 21 (copyRegion copy), n⟩
    port := { p.port with allowance := copyWord copy 6 }
    counter := (copy.getD 4 0).zeroExtend 32 <<< 16 ||| (copy.getD 5 0).zeroExtend 32
    nextTick := some (p.now + Config.periodsPerCentisecond)
    attentionEnable := false
    forced := false
    writer := ⟨none, none⟩
    lines := Vector.ofFn fun i =>
      if i.val < n then { Line.initial with heldHandsOff := p.handsOff } else Line.initial }

/-- Entry to "ARMED" (R27). -/
def Part.enterArmed (p : Part) : Part :=
  let p := p.comeIntoForce.queueValue (.base 33) SetupResult.ok.code
  let p := p.queueBases [34, 35, 36, 37, 38, 39, 40, 41, 42, 43, 44, 45]
  (p.forLines fun i q => q.queueLcbs i armingLcbWords).queueBase 32

/-- Validation and what follows it (R26 to R28). -/
def Part.validated (p : Part) : Part :=
  match validateSetup p.setupCopy (p.checkValue.getD 0) with
  | .ok => p.enterArmed
  | result => (p.queueValue (.base 33) result.code).queueClosing

/-- The data of a setup read (R25, R26). -/
def Part.setupData (p : Part) (d : Word) : Part :=
  let p := { p with setupCopy := p.setupCopy ++ [d] }
  if p.setupCopy.length = 7 then p.validated else p

/-- Entry to "DORMANT" (R36; the lines cease, R19). -/
def Part.enterDormant (p : Part) : Part :=
  { p with
    state := .dormant
    gateProgress := 0
    checkValue := none
    setupCopy := []
    nextTick := none
    captured := none
    attentionEnable := false
    forced := false
    closing := false
    map := none
    port := { p.port with allowance := 1 }
    writer := ⟨none, none⟩
    lines := Vector.replicate 32 Line.initial }

/-- A closing write has completed: with nothing pending the part enters "DORMANT", else the closing write is queued again
(R28). -/
def Part.closingDone (p : Part) : Part := if p.reports = [] then p.enterDormant else p.queueClosing

/-! ## Control words (R30 to R34) -/

/-- A full-word write to word 16 in "ARMED" or "DISARMING" (R30). -/
def Part.setAttentionEnable (p : Part) (v : Word) : Part :=
  if v = 0 then { p with attentionEnable := false }
  else if v = 1 then { p with attentionEnable := true }
  else p

/-- Word 37 is queued when the summary flags have changed since `before` (R33). -/
def Part.noteSummary (p before : Part) : Part := if p.summaryFlags = before.summaryFlags then p else p.queueBase 37

/-- A quiesce with cause "QUIESCE" and held reason "FORCED" reaches line `i` (R70). -/
def Part.forceLine (i : LineNo) (p : Part) : Part := (p.setHeld i (p.line i).heldHandsOff true).quiesceLine i

/-- Line `i` loses held reason "FORCED" (R71). -/
def Part.unforceLine (i : LineNo) (p : Part) : Part := p.setHeld i (p.line i).heldHandsOff false

/-- Forced quiesce becomes set (R31). -/
def Part.setForced (p : Part) : Part := ({ p with forced := true }.forLines Part.forceLine).noteSummary p

/-- Forced quiesce becomes clear (R31). -/
def Part.clearForced (p : Part) : Part := ({ p with forced := false }.forLines Part.unforceLine).noteSummary p

/-- A full-word write to word 17 in "ARMED" (R31). -/
def Part.forceWord (p : Part) (v : Word) : Part :=
  if v = 0xF0F0 then p.setForced else if v = 0x0F0F then p.clearForced else p

/-- Disarming starts (R34). -/
def Part.startDisarm (p : Part) : Part :=
  ({ p with state := .disarming }.queueBase 32).forLines fun i q => q.disarmLine i

/-- A full-word write to word 18 in "ARMED" (R34). -/
def Part.disarmWord (p : Part) (v : Word) : Part := if v = 0x2D71 then p.startDisarm else p

/-- The mask of an intercepted write to word 19 is taken; word 37 is queued whether or not a flag changed (R33). -/
def Part.baseAcknowledge (p : Part) (mask : Word) : Part :=
  { p with blocked := { p.blocked with latched := p.blocked.latched && !mask.getLsbD 3 } }.queueBase 37

/-! ## Hands-off (R32) -/

/-- A quiesce with cause "QUIESCE" and held reason "HANDS_OFF" reaches line `i` (R70). -/
def Part.handsOffLine (i : LineNo) (p : Part) : Part := (p.setHeld i true (p.line i).heldForced).quiesceLine i

/-- Line `i` loses held reason "HANDS_OFF" (R71). -/
def Part.handsOnLine (i : LineNo) (p : Part) : Part := p.setHeld i false (p.line i).heldForced

/-- The hands-off flag changes: word 37 is queued in every part state but "DORMANT" (R32, R33). -/
def Part.noteHandsOff (p before : Part) : Part := if p.state = .dormant then p else p.noteSummary before

/-- A change of the hands-off input is taken, at the first moment that R172 admits, and the flag follows it (R32, log 31). -/
def Part.takeHandsOff (p : Part) (v : Bool) : Part :=
  let t := firstTake p.taken.handsOff p.now
  { p with now := t, handsOff := v, taken := { p.taken with handsOff := some t } }

/-- The hands-off input becomes asserted (R32). Lines exist in "ARMED" and "DISARMING" alone. -/
def Part.assertHandsOff (p : Part) : Part :=
  if p.handsOff then p else ((p.takeHandsOff true).forLines Part.handsOffLine).noteHandsOff p

/-- The hands-off input becomes deasserted (R32). -/
def Part.releaseHandsOff (p : Part) : Part :=
  if p.handsOff then ((p.takeHandsOff false).forLines Part.handsOnLine).noteHandsOff p else p

/-! ## The centisecond counter (R38, R39) -/

/-- The end of a 10 ms interval (R38). -/
def Part.tick (p : Part) : Part :=
  match p.nextTick with
  | some t => { (p.at t) with counter := p.counter + 1, nextTick := some (t + Config.periodsPerCentisecond) }
  | none => p

/-- A substituted read of word 46 (R39). -/
def Part.readStampHigh (p : Part) : Part :=
  { p with readData := stampHigh p.counter, captured := some (stampLow p.counter) }

/-- A substituted read of word 47 (R39). -/
def Part.readStampLow (p : Part) : Part :=
  { p with readData := p.captured.getD (stampLow p.counter), captured := none }

/-! ## Resets (R20, R40, R78 to R80, R172) -/

/-- Power-on (R40, R78): everything as `Part.reset`; the levels of the inputs and the model's clock go on (log 25). -/
def Part.powerOn (p : Part) : Part :=
  { Part.reset with
    handsOff := p.handsOff
    resetLow := p.resetLow
    rxPin := p.rxPin
    svPin := p.svPin
    taken := p.taken
    now := p.now }

/-- The mark-hold of driver `i` after a pin reset: 100 ms for an enabled driver (R79). -/
def Part.holdAfterReset (p : Part) (i : LineNo) : Timer :=
  if p.driverEnabled i then some (p.now + msPeriods 100) else none

/-- The host's side of the port after a pin reset: an access in progress or waiting goes on, a held write is forwarded
(R20). -/
def Part.hostAfterReset (p : Part) : Port where
  passOver := 0
  allowance := 1
  serving :=
    match p.port.serving with
    | some (.host a) => some (.host a)
    | _ => none
  waiting :=
    match p.held with
    | some h => some h.access
    | none => p.port.waiting

/-- The pin reset takes effect (R20, R40, R79, R80, R152). -/
def Part.pinResetEffect (p : Part) : Part :=
  { Part.reset with
    resetCause := .resetPin
    handsOff := p.handsOff
    resetLow := p.resetLow
    hostWait := p.hostWait
    readData := p.readData
    port := p.hostAfterReset
    rxPin := p.rxPin
    svPin := p.svPin
    taken := p.taken
    markHold := Vector.ofFn p.holdAfterReset
    now := p.now }

/-- The port serves an internal access (R14). -/
def Part.servesInternal (p : Part) : Bool :=
  match p.port.serving with
  | none => false
  | some (.host _) => false
  | some _ => true

/-- A change of RST# is taken, at the first moment that R172 admits (log 31). -/
def Part.takeReset (p : Part) (low : Bool) : Part :=
  let t := firstTake p.taken.reset p.now
  { p with now := t, resetLow := low, taken := { p.taken with reset := some t } }

/-- RST# is taken as asserted: the reset takes effect at once, or waits for the internal access in progress (R20, R172,
log 10). -/
def Part.assertReset (p : Part) : Part :=
  if p.resetLow then p
  else if p.servesInternal then { p.takeReset true with resetPending := true }
  else (p.takeReset true).pinResetEffect

/-- RST# returns high (R172). -/
def Part.releaseReset (p : Part) : Part := if p.resetLow then p.takeReset false else p

/-- The reset mark-hold of driver `i` ends (R79). -/
def Part.endMarkHold (p : Part) (i : LineNo) : Part :=
  match p.markHold[i] with
  | some t => { (p.at t) with markHold := p.markHold.set i none }
  | none => p

end Sys2Proof.Machine
end

