-- ==== Sys2Proof/Machine/Bus.lean ====
section
/-! DEFINITION. The Bus Interposer and the completions at the Memory Port: the decode, blocked writes, the treatment of a host
access at its arrival, snooped reads, the requester's next step (01). -/

namespace Sys2Proof.Machine

/-! ## Decoding (R2 to R8) -/

/-- What an address names under the map in force (R2). -/
inductive Region where
  | gate
  | base (word : Nat)
  | lcb (line : LineNo) (word : Nat)
  | window (line : LineNo)
  | ring (line : LineNo) (offset : Nat)
  | plain
deriving DecidableEq, Repr

/-- The address lies in the ring of line `i`, which is protected (R7). -/
def Part.inRing (p : Part) (a : Addr) (i : LineNo) : Bool :=
  p.isProtected i && decide ((p.line i).ringBase ≤ a.toNat) &&
    decide (a.toNat < (p.line i).ringBase + (p.line i).ringSize)

/-- The protected ring an address lies in, else plain memory (R7, R8). -/
def Part.decodeRing (p : Part) (a : Addr) : Region :=
  match (List.finRange 32).find? (p.inRing a) with
  | some i => .ring i (a.toNat - (p.line i).ringBase)
  | none => .plain

/-- The word `k` of the console region (R5, R6): words of absent lines are plain memory. -/
def Part.decodeConsole (p : Part) (k : Nat) : Region :=
  if k < 2048 then
    let i : LineNo := Fin.ofNat 32 (k / 64)
    if p.hasLine i then .lcb i (k % 64) else .plain
  else
    let i : LineNo := Fin.ofNat 32 ((k - 2048) / 16)
    if p.hasLine i then .window i else .plain

/-- The decode of an address (R2). -/
def Part.decode (p : Part) (a : Addr) : Region :=
  if a = gateAddr then .gate
  else if baseAddr ≤ a then (if p.state = .dormant then .plain else .base (a.toNat - baseAddr.toNat))
  else
    match p.map with
    | none => .plain
    | some m =>
      if m.regionBase.toNat ≤ a.toNat ∧ a.toNat < m.regionBase.toNat + 2560 then
        p.decodeConsole (a.toNat - m.regionBase.toNat)
      else p.decodeRing a

/-- The part is "ARMED" or "DISARMING". -/
def PartState.inForce : PartState → Bool
  | .armed => true
  | .disarming => true
  | _ => false

/-! ## Blocked writes (R4, R5, R7, R9) -/

/-- The settings word of an LCB word number, for 3 to 21 (R41). -/
def settingWord (w : Nat) : Option (Fin 22) :=
  if h : w < 22 then (if 3 ≤ w then some ⟨w, h⟩ else none) else none

/-- The reason a host write to an LCB word is blocked, if it is (R5, R9). -/
def Part.lcbBlocked (p : Part) (i : LineNo) (w : Nat) (lanes : Lanes) (d : Word) : Option BlockedReason :=
  match settingWord w with
  | some k => p.settingBlocked i k (p.merged i k lanes d)
  | none => if 32 ≤ w ∧ w ≤ 55 then some .reportWord else none

/-- The reason a host write is blocked, if it is (R4, R5, R7). -/
def Part.writeBlocked (p : Part) (a : Addr) (lanes : Lanes) (d : Word) : Option BlockedReason :=
  match p.decode a with
  | .base w => if w ≤ 6 then some .setupLocked else if 32 ≤ w ∧ w ≤ 47 then some .reportWord else none
  | .lcb i w => p.lcbBlocked i w lanes d
  | .ring _ _ => some .ringProtected
  | _ => none

/-! ## The treatment of a host access (R1 to R9, R12) -/

/-- A host write to base-block word `w` that is not blocked (R4). -/
def Part.baseWrite (p : Part) (w : Nat) (lanes : Lanes) (d : Word) (a : HostAccess) : Part :=
  if w = 19 ∧ p.state.inForce = true then p.baseAcknowledge (laneMask lanes d)
  else if lanes ≠ .both then p.forward a
  else if w = 16 ∧ p.state.inForce = true then (p.setAttentionEnable d).forward a
  else if w = 17 ∧ p.state = .armed then (p.forceWord d).forward a
  else if w = 18 ∧ p.state = .armed then (p.disarmWord d).forward a
  else p.forward a

/-- A host write to LCB word `w` of line `i` that is not blocked (R5, R9). -/
def Part.lcbWrite (p : Part) (i : LineNo) (w : Nat) (lanes : Lanes) (d : Word) (a : HostAccess) : Part :=
  if w = 0 then (p.takeRequest i (p.merged i 0 lanes d)).forward a
  else if w = 1 then (p.takeCommand i (p.merged i 1 lanes d)).forward a
  else if w = 2 then p.takeAcknowledge i (laneMask lanes d)
  else
    match settingWord w with
    | some k => (p.takeSetting i k (p.merged i k lanes d)).forward a
    | none => p.forward a

/-- A host write arrives (R1). -/
def Part.writeArrives (p : Part) (addr : Addr) (lanes : Lanes) (d : Word) : Part :=
  let a : HostAccess := ⟨addr, .write lanes d⟩
  match p.writeBlocked addr lanes d with
  | some reason => p.recordBlocked addr reason
  | none =>
    match p.decode addr with
    | .gate => (p.gateEvent lanes d).forward a
    | .base w => p.baseWrite w lanes d a
    | .lcb i w => p.lcbWrite i w lanes d a
    | .window i => p.windowArrives i lanes d a
    | _ => p.forward a

/-- A host read arrives: substituted, or forwarded (R1, R4, R6). -/
def Part.readArrives (p : Part) (addr : Addr) : Part :=
  match p.decode addr with
  | .window i => { p with readData := p.windowWord i }
  | .base w =>
    if w = 46 ∧ p.state.inForce = true then p.readStampHigh
    else if w = 47 ∧ p.state.inForce = true then p.readStampLow
    else p.forward ⟨addr, .read⟩
  | _ => p.forward ⟨addr, .read⟩

/-- A host access arrives (R1). -/
def Part.hostArrives (p : Part) (a : HostAccess) : Part :=
  match a.op with
  | .read => p.readArrives a.addr
  | .write lanes d => p.writeArrives a.addr lanes d

/-- A host access is under way: served, waiting or held (R1). -/
def Part.busBusy (p : Part) : Bool :=
  (match p.port.serving with
    | some (.host _) => true
    | _ => false) || p.port.waiting.isSome || p.held.isSome

/-- The host issues an access; it cannot while one is under way (R1). -/
def Part.hostIssues (p : Part) (a : HostAccess) : Part := if p.busBusy then p else (p.hostArrives a).arbitrate

/-- The host issues `next` beside another event of the same moment; the grant is left to what follows that event (R1, R15). -/
def Part.hostFollows (p : Part) : Option HostAccess → Part
  | none => p
  | some a => if p.busBusy then p else p.hostArrives a

/-! ## Completions (R11, R12, R14) -/

/-- The Memory Port becomes free. -/
def Part.freePort (p : Part) : Part := { p with port := { p.port with serving := none } }

/-- A snooped read of `addr` returns `d` (R5, R7, R12). -/
def Part.snoop (p : Part) (addr : Addr) (d : Word) : Part :=
  match p.decode addr with
  | .ring i k => p.snoopRing i k d
  | .lcb i w => if w = 45 then p.snoopProbe i d else p
  | _ => p

/-- A host access completes at the SRAM, a read with `d`; the wait output is deasserted (R11 to R13). -/
def Part.hostCompletes (p : Part) (a : HostAccess) (d : Word) : Part :=
  match a.op with
  | .read => { p with readData := d, hostWait := false }.snoop a.addr d
  | .write _ _ => { p with hostWait := false }

/-- The host access the port serves. -/
def Part.servedHost (p : Part) : Option HostAccess :=
  match p.port.serving with
  | some (.host a) => some a
  | _ => none

/-- The address of the host read the port serves. -/
def Part.servedRead (p : Part) : Option Addr :=
  match p.servedHost with
  | some ⟨a, .read⟩ => some a
  | _ => none

/-- The part's next step at the completion of the access it served: `f`, or the pin reset that waited for it (R20); then the
port grants (R15). -/
def Part.completed (p : Part) (f : Part → Part) : Part :=
  (if p.resetPending then p.freePort.pinResetEffect else f p.freePort).arbitrate

/-- The access `q` that the port serves completes: its effect on the bank, and the step `f` of its requester with the data. -/
def State.complete (s : State) (q : Serving) (f : Word → Part → Part) : State :=
  let r := Memory.access s.mem q
  { s with part := s.part.completed (f r.2), mem := r.1 }

/-- The host access that the port serves completes, and the host issues `following` at that moment; then the port grants
(R15). -/
def State.completeHost (s : State) (following : Option HostAccess) : State :=
  match s.part.servedHost with
  | some a =>
    let r := Memory.access s.mem (.host a)
    { s with part := ((s.part.freePort.hostCompletes a r.2).hostFollows following).arbitrate, mem := r.1 }
  | none => s

/-- The served report write is the closing write (R28). -/
def Part.servesClosing (p : Part) : Bool :=
  match p.port.serving with
  | some (.report (.base 32) _ v) => p.closing && v == PartState.dormant.code
  | _ => false

/-- A host access that waits when the last closing write completes is served before the state changes (R19, log 11). -/
def State.serveWaiting (s : State) : State :=
  match s.part.port.waiting with
  | some a =>
    let r := Memory.access s.mem (.host a)
    { s with
      part := { s.part with port := { s.part.port with waiting := none } }.hostCompletes a r.2
      mem := r.1 }
  | none => s

/-- The closing write, served as `q`, completes (R28). -/
def State.completeClosing (s : State) (q : Serving) : State :=
  let t := { s with part := s.part.freePort, mem := (Memory.access s.mem q).1 }
  if s.part.resetPending then { t with part := t.part.pinResetEffect.arbitrate }
  else
    let t := if t.part.reports = [] then t.serveWaiting else t
    { t with part := t.part.closingDone.arbitrate }

end Sys2Proof.Machine
end

