-- ==== Sys2Proof/WellFormed.lean ====
section
/-! DEFINITION. Which operands a row of the table admits. The part itself takes any host access; these checks say when a
command's operands are those of the row it names. -/

namespace Sys2Proof

/-- A write of `data` with `lanes` can give a 16-bit field the value `code`: its strobed lanes agree with it (R9). -/
def laneAgrees (lanes : Lanes) (data code : Word) : Bool :=
  match lanes with
  | .both => data == code
  | .low => data &&& 0x00FF == code &&& 0x00FF
  | .high => data &&& 0xFF00 == code &&& 0xFF00

/-- The settings words that have no row of their own (the row SETTINGS_WRITE; R41). -/
def plainSettingsWord (w : Fin 22) : Bool :=
  [7, 8, 9, 10, 11, 12, 13, 14, 17, 19, 20].contains w

/-- The operands of a command are those of its row. -/
def Instr.wellFormed : Instr → Bool
  | .attentionEnable lanes data => lanes == .both && (data == 0 || data == 1)
  | .modeRequestOff _ lanes data => laneAgrees lanes data 0
  | .modeRequestListen _ lanes data => laneAgrees lanes data 1
  | .modeRequestListenResume _ lanes data => laneAgrees lanes data 2
  | .modeRequestDrive _ lanes data => laneAgrees lanes data 3
  | .modeRequestUnknown _ lanes data => lanes != .both || decide (3 < data.toNat)
  | .close _ lanes data => laneAgrees lanes data 1
  | .flush _ lanes data => laneAgrees lanes data 2
  | .probe _ lanes data => laneAgrees lanes data 3
  | .probeApply _ lanes data => laneAgrees lanes data 4
  | .discardTx _ lanes data => laneAgrees lanes data 5
  | .resetCounts _ lanes data => laneAgrees lanes data 6
  | .commandUnknown _ lanes data => lanes != .both || data == 0 || decide (6 < data.toNat)
  | .settingsWrite _ word _ _ => plainSettingsWord word
  | _ => true

end Sys2Proof
end

