-- ==== Sys2Proof/Machine/ExecHost.lean ====
section
/-! DEFINITION. The meanings of the commands that are host accesses: base-block writes and reads, mode requests, commands,
acknowledgements, settings writes, the transmit window. Each is the arrival of the access its row names; an access that cannot
arrive, or does not have what its row names, changes nothing (log 1). -/

namespace Sys2Proof.Machine

/-- What every meaning answers. -/
abbrev Answer := Host.Outcome State Fault Refusal

/-- An event of the part, after which the port grants (R15). -/
def State.event (s : State) (f : Part → Part) : Answer := .next { s with part := (f s.part).arbitrate }

/-- The host issues an access (R1). -/
def State.host (s : State) (a : HostAccess) : Answer := .next { s with part := s.part.hostIssues a }

/-- The region base in force, 0 when none is. -/
def Part.regionBase (p : Part) : Addr :=
  match p.map with
  | some m => m.regionBase
  | none => 0

/-- A host write to base-block word `w`. -/
def baseWriteTo (w : Nat) (lanes : Lanes) (d : Word) : HostAccess := ⟨baseWordAddr w, .write lanes d⟩

/-- A host write to word `w` of LCB `i`. -/
def Part.lcbWriteTo (p : Part) (i : LineNo) (w : Nat) (lanes : Lanes) (d : Word) : HostAccess :=
  ⟨lcbAddr p.regionBase i w, .write lanes d⟩

/-- The host writes word `w` of the LCB of an existing line when the merged value is one that `ok` admits (R9, log 28). -/
def State.lcbHost (s : State) (i : LineNo) (w : Fin 22) (lanes : Lanes) (d : Word) (ok : Word → Bool) : Answer :=
  if s.part.hasLine i && ok (s.part.merged i w lanes d) then s.host (s.part.lcbWriteTo i w.val lanes d) else .next s

/-- Any value. -/
def anyValue (_ : Word) : Bool := true

/-! ## Base block -/

/-- GATE_WRITE (R3, R23). -/
def execGateWrite (lanes : Lanes) (d : Word) (s : State) : Answer := s.host ⟨gateAddr, .write lanes d⟩

/-- BLOCKED_WRITE (R10): a write that the present state blocks. -/
def execBlockedWrite (addr : Addr) (lanes : Lanes) (d : Word) (s : State) : Answer :=
  if (s.part.writeBlocked addr lanes d).isSome then s.host ⟨addr, .write lanes d⟩ else .next s

/-- ATTENTION_ENABLE (R30): a write to word 16. -/
def execAttentionEnable (lanes : Lanes) (d : Word) (s : State) : Answer := s.host (baseWriteTo 16 lanes d)

/-- FORCE_SET (R31): 0xF0F0 to word 17. -/
def execForceSet (s : State) : Answer := s.host (baseWriteTo 17 .both 0xF0F0)

/-- FORCE_CLEAR (R31): 0x0F0F to word 17. -/
def execForceClear (s : State) : Answer := s.host (baseWriteTo 17 .both 0x0F0F)

/-- DISARM (R34): 0x2D71 to word 18. -/
def execDisarm (s : State) : Answer := s.host (baseWriteTo 18 .both 0x2D71)

/-- BASE_ACKNOWLEDGE (R33): a write to word 19. -/
def execBaseAcknowledge (lanes : Lanes) (mask : Word) (s : State) : Answer := s.host (baseWriteTo 19 lanes mask)

/-- TIMESTAMP_HIGH_READ (R39): a read of word 46. -/
def execTimestampHighRead (s : State) : Answer := s.host ⟨baseWordAddr 46, .read⟩

/-- TIMESTAMP_LOW_READ (R39): a read of word 47. -/
def execTimestampLowRead (s : State) : Answer := s.host ⟨baseWordAddr 47, .read⟩

/-! ## Mode requests (R47, R59) -/

/-- MODE_REQUEST_OFF. -/
def execModeRequestOff (i : LineNo) (lanes : Lanes) (d : Word) (s : State) : Answer := s.lcbHost i 0 lanes d (· == 0)

/-- MODE_REQUEST_LISTEN. -/
def execModeRequestListen (i : LineNo) (lanes : Lanes) (d : Word) (s : State) : Answer := s.lcbHost i 0 lanes d (· == 1)

/-- MODE_REQUEST_LISTEN_RESUME. -/
def execModeRequestListenResume (i : LineNo) (lanes : Lanes) (d : Word) (s : State) : Answer :=
  s.lcbHost i 0 lanes d (· == 2)

/-- MODE_REQUEST_DRIVE. -/
def execModeRequestDrive (i : LineNo) (lanes : Lanes) (d : Word) (s : State) : Answer := s.lcbHost i 0 lanes d (· == 3)

/-- MODE_REQUEST_UNKNOWN. -/
def execModeRequestUnknown (i : LineNo) (lanes : Lanes) (d : Word) (s : State) : Answer :=
  s.lcbHost i 0 lanes d fun v => decide (3 < v.toNat)

/-! ## Commands (R50 to R53) -/

/-- CLOSE. -/
def execClose (i : LineNo) (lanes : Lanes) (d : Word) (s : State) : Answer := s.lcbHost i 1 lanes d (· == 1)

/-- FLUSH. -/
def execFlush (i : LineNo) (lanes : Lanes) (d : Word) (s : State) : Answer := s.lcbHost i 1 lanes d (· == 2)

/-- PROBE. -/
def execProbe (i : LineNo) (lanes : Lanes) (d : Word) (s : State) : Answer := s.lcbHost i 1 lanes d (· == 3)

/-- PROBE_APPLY. -/
def execProbeApply (i : LineNo) (lanes : Lanes) (d : Word) (s : State) : Answer := s.lcbHost i 1 lanes d (· == 4)

/-- DISCARD_TX. -/
def execDiscardTx (i : LineNo) (lanes : Lanes) (d : Word) (s : State) : Answer := s.lcbHost i 1 lanes d (· == 5)

/-- RESET_COUNTS. -/
def execResetCounts (i : LineNo) (lanes : Lanes) (d : Word) (s : State) : Answer := s.lcbHost i 1 lanes d (· == 6)

/-- COMMAND_UNKNOWN. -/
def execCommandUnknown (i : LineNo) (lanes : Lanes) (d : Word) (s : State) : Answer :=
  s.lcbHost i 1 lanes d fun v => v == 0 || decide (6 < v.toNat)

/-- LINE_ACKNOWLEDGE (R55): a write to LCB word 2. -/
def execLineAcknowledge (i : LineNo) (lanes : Lanes) (mask : Word) (s : State) : Answer :=
  s.lcbHost i 2 lanes mask anyValue

/-! ## Settings writes (R42 to R46) -/

/-- SETTINGS_WRITE: a settings word that has no row of its own. -/
def execSettingsWrite (i : LineNo) (w : Fin 22) (lanes : Lanes) (d : Word) (s : State) : Answer :=
  if plainSettingsWord w then s.lcbHost i w lanes d anyValue else .next s

/-- FRAME_WRITE: word 3. -/
def execFrameWrite (i : LineNo) (lanes : Lanes) (d : Word) (s : State) : Answer := s.lcbHost i 3 lanes d anyValue

/-- RATE_DIVISOR_WRITE: word 4. -/
def execRateDivisorWrite (i : LineNo) (lanes : Lanes) (d : Word) (s : State) : Answer := s.lcbHost i 4 lanes d anyValue

/-- RATE_FRACTION_WRITE: word 5. -/
def execRateFractionWrite (i : LineNo) (lanes : Lanes) (d : Word) (s : State) : Answer := s.lcbHost i 5 lanes d anyValue

/-- BREAK_POLICY_WRITE: word 6. -/
def execBreakPolicyWrite (i : LineNo) (lanes : Lanes) (d : Word) (s : State) : Answer := s.lcbHost i 6 lanes d anyValue

/-- ATTENTION_THRESHOLD_WRITE: word 15. -/
def execAttentionThresholdWrite (i : LineNo) (lanes : Lanes) (d : Word) (s : State) : Answer :=
  s.lcbHost i 15 lanes d anyValue

/-- COALESCE_TIME_WRITE: word 16. -/
def execCoalesceTimeWrite (i : LineNo) (lanes : Lanes) (d : Word) (s : State) : Answer := s.lcbHost i 16 lanes d anyValue

/-- QUIET_TIME_WRITE: word 18. -/
def execQuietTimeWrite (i : LineNo) (lanes : Lanes) (d : Word) (s : State) : Answer := s.lcbHost i 18 lanes d anyValue

/-- ATTENTION_MASK_WRITE: word 21. -/
def execAttentionMaskWrite (i : LineNo) (lanes : Lanes) (d : Word) (s : State) : Answer := s.lcbHost i 21 lanes d anyValue

/-! ## Transmit window (R136, R137) -/

/-- WINDOW_WRITE: a write to a window word of an existing line. -/
def execWindowWrite (i : LineNo) (w : Fin 16) (lanes : Lanes) (d : Word) (s : State) : Answer :=
  if s.part.hasLine i then s.host ⟨windowAddr s.part.regionBase i w.val, .write lanes d⟩ else .next s

/-- WINDOW_READ: a read of a window word of an existing line. -/
def execWindowRead (i : LineNo) (w : Fin 16) (s : State) : Answer :=
  if s.part.hasLine i then s.host ⟨windowAddr s.part.regionBase i w.val, .read⟩ else .next s

end Sys2Proof.Machine
end

