-- ==== Sys2Proof/Machine/ExecLine.lean ====
section
/-! DEFINITION. The meanings of the commands of one line: its timers, what it sends, what it receives, its faults. A timer that
does not run expires without effect (log 1). -/

namespace Sys2Proof.Machine

/-! ## State and transmit timers -/

/-- SETTLE_EXPIRY (R64). -/
def execSettleExpiry (i : LineNo) (s : State) : Answer := s.event fun p => p.expireSettle i

/-- RELEASE_EXPIRY (R68). -/
def execReleaseExpiry (i : LineNo) (s : State) : Answer := s.event fun p => p.expireRelease i

/-- DATA_BYTE_COMPLETE (R140). -/
def execDataByteComplete (i : LineNo) (s : State) : Answer := s.event fun p => p.completeByte i

/-- BREAK_SPACE_END (R142). -/
def execBreakSpaceEnd (i : LineNo) (s : State) : Answer := s.event fun p => p.endBreakSpace i

/-- BREAK_MARK_END (R142). -/
def execBreakMarkEnd (i : LineNo) (s : State) : Answer := s.event fun p => p.endBreakMark i

/-- PAUSE_END (R143). -/
def execPauseEnd (i : LineNo) (s : State) : Answer := s.event fun p => p.endPause i

/-! ## Receiving -/

/-- RX_FALLING_EDGE (R74, R81, R157). -/
def execRxFallingEdge (i : LineNo) (wait : Nat) (s : State) : Answer := s.event fun p => p.rxFalls i wait

/-- RX_RISING_EDGE (R74, R82, R85, R157). -/
def execRxRisingEdge (i : LineNo) (wait : Nat) (s : State) : Answer := s.event fun p => p.rxRises i wait

/-- START_BIT (R81, R98, R99). -/
def execStartBit (i : LineNo) (s : State) : Answer := s.event fun p => p.sampleStart i

/-- BYTE_ARRIVAL (R82, R88). -/
def execByteArrival (i : LineNo) (s : State) : Answer := s.event fun p => p.byteArrives i

/-- BREAK_START (R84). -/
def execBreakStart (i : LineNo) (s : State) : Answer := s.event fun p => p.breakStarts i

/-- GAP_TIMER_EXPIRY (R90). -/
def execGapTimerExpiry (i : LineNo) (s : State) : Answer := s.event fun p => p.gapExpires i

/-- QUIET_EXPIRY (R98). -/
def execQuietExpiry (i : LineNo) (s : State) : Answer := s.event fun p => p.quietExpires i

/-- PROBE_WINDOW_END (R158). -/
def execProbeWindowEnd (e : ProbeExpiry) (s : State) : Answer := s.event fun p => p.probeExpires e.line e.edge

/-! ## Faults of the line (R73, R74) -/

/-- SIGNAL_INVALID. -/
def execSignalInvalid (i : LineNo) (s : State) : Answer := s.event fun p => p.signalFalls i

/-- SIGNAL_VALID. -/
def execSignalValid (i : LineNo) (s : State) : Answer := s.event fun p => p.signalRises i

/-- LINE_OPEN. -/
def execLineOpen (i : LineNo) (s : State) : Answer := s.event fun p => p.lineOpens i

/-- LINE_RESTORED. -/
def execLineRestored (i : LineNo) (s : State) : Answer := s.event fun p => p.lineRestores i

/-- STUCK. -/
def execStuck (i : LineNo) (s : State) : Answer := s.event fun p => p.becomesStuck i

/-! ## Ring timers -/

/-- LEASE_LAPSE (R109). -/
def execLeaseLapse (i : LineNo) (s : State) : Answer := s.event fun p => p.lapseLease i

/-- COALESCE_EXPIRY (R164). -/
def execCoalesceExpiry (i : LineNo) (s : State) : Answer := s.event fun p => p.expireCoalesce i

end Sys2Proof.Machine
end

