-- ==== Sys2Proof/Machine/ExecPart.lean ====
section
/-! DEFINITION. The meanings of the commands of the supply, the reset and rack inputs, and the 10 ms interval. -/

namespace Sys2Proof.Machine

/-- POWER_ON (R40, R78). The bank and the waiting commands are not the part's. -/
def execPowerOn (s : State) : Answer := s.event Part.powerOn

/-- PIN_RESET (R20, R172). -/
def execPinReset (s : State) : Answer := s.event Part.assertReset

/-- PIN_RESET_EFFECT (R20): the internal access in progress completes with a pin reset waiting. -/
def execPinResetEffect (s : State) : Answer :=
  if s.part.resetPending then
    match s.part.port.serving with
    | some q => .next (s.complete q fun _ p => p)
    | none => s.event Part.pinResetEffect
  else .next s

/-- RESET_RELEASE (R172). -/
def execResetRelease (s : State) : Answer := s.event Part.releaseReset

/-- HANDS_OFF_ASSERTED (R32, R70). -/
def execHandsOffAsserted (s : State) : Answer := s.event Part.assertHandsOff

/-- HANDS_OFF_DEASSERTED (R32, R71). -/
def execHandsOffDeasserted (s : State) : Answer := s.event Part.releaseHandsOff

/-- COUNTER_TICK (R38). -/
def execCounterTick (s : State) : Answer := s.event Part.tick

/-- MARK_HOLD_END (R79). -/
def execMarkHoldEnd (i : LineNo) (s : State) : Answer := s.event fun p => p.endMarkHold i

end Sys2Proof.Machine
end

