-- ==== Sys2Proof/Machine/ExecPort.lean ====
section
/-! DEFINITION. The meanings of the commands that are completions at the Memory Port, and the Capture Writer's selection. A
completion of an access that the port does not serve changes nothing (log 1). -/

namespace Sys2Proof.Machine

/-! ## Host accesses -/

/-- HOST_ACCESS_COMPLETE (R1, R11, R13, R15): the host access that the port serves completes, and the host's next may arrive at that
moment; or a host access arrives, alone or together with the next command's event (log 4). -/
def execHostAccessComplete (event : HostEvent) (s : State) : Answer :=
  match event with
  | .arrives a => s.host a
  | .arrivesTogether a => .next { s with part := s.part.hostFollows (some a) }
  | .completes following => .next (s.completeHost following)

/-- The served host read is of the probe result word of some line (R161). -/
def Part.readsProbe (p : Part) : Bool :=
  match p.servedRead with
  | some a =>
    match p.decode a with
    | .lcb _ w => w == 45
    | _ => false
  | none => false

/-- The served host read is of a live ring, at an offset that `ok` admits. -/
def Part.readsRing (p : Part) (ok : Ring → Nat → Bool) : Bool :=
  match p.servedRead with
  | some a =>
    match p.decode a with
    | .ring i k =>
      match p.liveRing i with
      | some r => ok r k
      | none => false
    | _ => false
  | none => false

/-- Offset R + 1 of a ring (R110). -/
def Ring.atSize (r : Ring) (k : Nat) : Bool := k == r.r + 1

/-- The last word of the record at R under an open lease (R111). -/
def Ring.atLast (r : Ring) (k : Nat) : Bool :=
  match r.lease with
  | .opened s _ => k == r.r + s - 1
  | .closed => false

/-- PROBE_RESULT_READ (R161). -/
def execProbeResultRead (s : State) : Answer := .next (if s.part.readsProbe then s.completeHost none else s)

/-- SIZE_WORD_READ (R110). -/
def execSizeWordRead (s : State) : Answer := .next (if s.part.readsRing Ring.atSize then s.completeHost none else s)

/-- RETIRE_BY_READ (R111). -/
def execRetireByRead (s : State) : Answer := .next (if s.part.readsRing Ring.atLast then s.completeHost none else s)

/-! ## Internal accesses -/

/-- SETUP_READ_COMPLETE (R25, R26). -/
def execSetupReadComplete (s : State) : Answer :=
  match s.part.port.serving with
  | some (.setupRead w) => .next (s.complete (.setupRead w) fun d p => p.setupData d)
  | _ => .next s

/-- REPORT_WRITE_COMPLETE (R17): any report write but the closing write. -/
def execReportWriteComplete (s : State) : Answer :=
  match s.part.port.serving with
  | some (.report w a v) =>
    if s.part.servesClosing then .next s else .next (s.complete (.report w a v) fun _ p => p)
  | _ => .next s

/-- CLOSING_WRITE_COMPLETE (R28, R36). -/
def execClosingWriteComplete (s : State) : Answer :=
  match s.part.port.serving with
  | some (.report w a v) => if s.part.servesClosing then .next (s.completeClosing (.report w a v)) else .next s
  | _ => .next s

/-- RECLAIM_READ_RETURN (R128, R130). -/
def execReclaimReadReturn (s : State) : Answer :=
  match s.part.port.serving, s.part.writer.flight with
  | some (.reclaimRead a), some ⟨i, .reclaimRead job noted overtaken⟩ =>
    .next (s.complete (.reclaimRead a) fun d p => p.reclaimReturns i job noted overtaken d)
  | _, _ => .next s

/-- RECORD_WORD_COMPLETE (R131): a word that is not the last of its record. -/
def execRecordWordComplete (s : State) : Answer :=
  match s.part.port.serving, s.part.writer.flight with
  | some (.recordWord a d), some ⟨i, .writing w⟩ =>
    if 1 < w.todo.length then .next (s.complete (.recordWord a d) fun _ p => p.nextWord i w) else .next s
  | _, _ => .next s

/-- COMMIT (R107, R132): the last word of a record. -/
def execCommit (s : State) : Answer :=
  match s.part.port.serving, s.part.writer.flight with
  | some (.recordWord a d), some ⟨i, .writing w⟩ =>
    if w.todo.length = 1 then .next (s.complete (.recordWord a d) fun _ p => p.commitRecord i w) else .next s
  | _, _ => .next s

/-- WALK_READ_COMPLETE (R133): a read that is not the last of its step, or of an abandoned step. -/
def execWalkReadComplete (s : State) : Answer :=
  match s.part.port.serving, s.part.writer.flight with
  | some (.walkRead a), some ⟨i, .walkStep got abandoned⟩ =>
    if abandoned.isSome ∨ got.length + 1 < (s.part.line i).stepReads then
      .next (s.complete (.walkRead a) fun d p => p.walkReturns i got abandoned d)
    else .next s
  | _, _ => .next s

/-- WALK_READ_RETURN (R116, R133): the last read of a step, or of an abandoned step. -/
def execWalkReadReturn (s : State) : Answer :=
  match s.part.port.serving, s.part.writer.flight with
  | some (.walkRead a), some ⟨i, .walkStep got abandoned⟩ =>
    if abandoned.isSome ∨ got.length + 1 = (s.part.line i).stepReads then
      .next (s.complete (.walkRead a) fun d p => p.walkReturns i got abandoned d)
    else .next s
  | _, _ => .next s

/-- WRITER_SELECT (R122). -/
def execWriterSelect (s : State) : Answer := s.event Part.writerSelects

/-- HOLD_EXPIRY (R148). -/
def execHoldExpiry (s : State) : Answer := s.event Part.expireHold

end Sys2Proof.Machine
end

