-- ==== Sys2Proof/Machine/Dispatch.lean ====
section
/-! DEFINITION. The dispatch: one arm per command, each a call of its meaning. -/

namespace Sys2Proof.Machine

/-- The effect of a command on everything but the queue. -/
def exec (i : Instr) (s : State) : Host.Outcome State Fault Refusal :=
  match i with
  | .powerOn => Sys2Proof.Machine.execPowerOn s
  | .pinReset => Sys2Proof.Machine.execPinReset s
  | .pinResetEffect => Sys2Proof.Machine.execPinResetEffect s
  | .handsOffAsserted => Sys2Proof.Machine.execHandsOffAsserted s
  | .handsOffDeasserted => Sys2Proof.Machine.execHandsOffDeasserted s
  | .gateWrite lanes d => Sys2Proof.Machine.execGateWrite lanes d s
  | .setupReadComplete => Sys2Proof.Machine.execSetupReadComplete s
  | .closingWriteComplete => Sys2Proof.Machine.execClosingWriteComplete s
  | .blockedWrite a lanes d => Sys2Proof.Machine.execBlockedWrite a lanes d s
  | .attentionEnable lanes d => Sys2Proof.Machine.execAttentionEnable lanes d s
  | .forceSet => Sys2Proof.Machine.execForceSet s
  | .forceClear => Sys2Proof.Machine.execForceClear s
  | .disarm => Sys2Proof.Machine.execDisarm s
  | .baseAcknowledge lanes m => Sys2Proof.Machine.execBaseAcknowledge lanes m s
  | .timestampHighRead => Sys2Proof.Machine.execTimestampHighRead s
  | .timestampLowRead => Sys2Proof.Machine.execTimestampLowRead s
  | .counterTick => Sys2Proof.Machine.execCounterTick s
  | .modeRequestOff k lanes d => Sys2Proof.Machine.execModeRequestOff k lanes d s
  | .modeRequestListen k lanes d => Sys2Proof.Machine.execModeRequestListen k lanes d s
  | .modeRequestListenResume k lanes d => Sys2Proof.Machine.execModeRequestListenResume k lanes d s
  | .modeRequestDrive k lanes d => Sys2Proof.Machine.execModeRequestDrive k lanes d s
  | .modeRequestUnknown k lanes d => Sys2Proof.Machine.execModeRequestUnknown k lanes d s
  | .close k lanes d => Sys2Proof.Machine.execClose k lanes d s
  | .flush k lanes d => Sys2Proof.Machine.execFlush k lanes d s
  | .probe k lanes d => Sys2Proof.Machine.execProbe k lanes d s
  | .probeApply k lanes d => Sys2Proof.Machine.execProbeApply k lanes d s
  | .discardTx k lanes d => Sys2Proof.Machine.execDiscardTx k lanes d s
  | .resetCounts k lanes d => Sys2Proof.Machine.execResetCounts k lanes d s
  | .commandUnknown k lanes d => Sys2Proof.Machine.execCommandUnknown k lanes d s
  | .lineAcknowledge k lanes m => Sys2Proof.Machine.execLineAcknowledge k lanes m s
  | .settingsWrite k w lanes d => Sys2Proof.Machine.execSettingsWrite k w lanes d s
  | .frameWrite k lanes d => Sys2Proof.Machine.execFrameWrite k lanes d s
  | .rateDivisorWrite k lanes d => Sys2Proof.Machine.execRateDivisorWrite k lanes d s
  | .rateFractionWrite k lanes d => Sys2Proof.Machine.execRateFractionWrite k lanes d s
  | .breakPolicyWrite k lanes d => Sys2Proof.Machine.execBreakPolicyWrite k lanes d s
  | .attentionThresholdWrite k lanes d => Sys2Proof.Machine.execAttentionThresholdWrite k lanes d s
  | .coalesceTimeWrite k lanes d => Sys2Proof.Machine.execCoalesceTimeWrite k lanes d s
  | .quietTimeWrite k lanes d => Sys2Proof.Machine.execQuietTimeWrite k lanes d s
  | .attentionMaskWrite k lanes d => Sys2Proof.Machine.execAttentionMaskWrite k lanes d s
  | .probeResultRead => Sys2Proof.Machine.execProbeResultRead s
  | .windowWrite k w lanes d => Sys2Proof.Machine.execWindowWrite k w lanes d s
  | .windowRead k w => Sys2Proof.Machine.execWindowRead k w s
  | .sizeWordRead => Sys2Proof.Machine.execSizeWordRead s
  | .retireByRead => Sys2Proof.Machine.execRetireByRead s
  | .holdExpiry => Sys2Proof.Machine.execHoldExpiry s
  | .writerSelect => Sys2Proof.Machine.execWriterSelect s
  | .reclaimReadReturn => Sys2Proof.Machine.execReclaimReadReturn s
  | .recordWordComplete => Sys2Proof.Machine.execRecordWordComplete s
  | .commit => Sys2Proof.Machine.execCommit s
  | .walkReadReturn => Sys2Proof.Machine.execWalkReadReturn s
  | .reportWriteComplete => Sys2Proof.Machine.execReportWriteComplete s
  | .hostAccessComplete e => Sys2Proof.Machine.execHostAccessComplete e s
  | .settleExpiry k => Sys2Proof.Machine.execSettleExpiry k s
  | .releaseExpiry k => Sys2Proof.Machine.execReleaseExpiry k s
  | .markHoldEnd k => Sys2Proof.Machine.execMarkHoldEnd k s
  | .dataByteComplete k => Sys2Proof.Machine.execDataByteComplete k s
  | .breakSpaceEnd k => Sys2Proof.Machine.execBreakSpaceEnd k s
  | .breakMarkEnd k => Sys2Proof.Machine.execBreakMarkEnd k s
  | .pauseEnd k => Sys2Proof.Machine.execPauseEnd k s
  | .rxFallingEdge k n => Sys2Proof.Machine.execRxFallingEdge k n s
  | .rxRisingEdge k n => Sys2Proof.Machine.execRxRisingEdge k n s
  | .startBit k => Sys2Proof.Machine.execStartBit k s
  | .byteArrival k => Sys2Proof.Machine.execByteArrival k s
  | .breakStart k => Sys2Proof.Machine.execBreakStart k s
  | .gapTimerExpiry k => Sys2Proof.Machine.execGapTimerExpiry k s
  | .quietExpiry k => Sys2Proof.Machine.execQuietExpiry k s
  | .signalInvalid k => Sys2Proof.Machine.execSignalInvalid k s
  | .signalValid k => Sys2Proof.Machine.execSignalValid k s
  | .lineOpen k => Sys2Proof.Machine.execLineOpen k s
  | .lineRestored k => Sys2Proof.Machine.execLineRestored k s
  | .stuck k => Sys2Proof.Machine.execStuck k s
  | .leaseLapse k => Sys2Proof.Machine.execLeaseLapse k s
  | .coalesceExpiry k => Sys2Proof.Machine.execCoalesceExpiry k s
  | .probeWindowEnd k => Sys2Proof.Machine.execProbeWindowEnd k s
  | .resetRelease => Sys2Proof.Machine.execResetRelease s
  | .walkReadComplete => Sys2Proof.Machine.execWalkReadComplete s

end Sys2Proof.Machine
end

