-- ==== Sys2Proof/Machine/Step.lean ====
section
/-! DEFINITION. One step: the command at the front of the queue, or one period of the reference clock when the queue is empty. -/

namespace Sys2Proof.Machine

/-- Take the command at the front and run it with the rest of the queue. On an empty queue nothing happens for one period of the
reference clock (DESIGN CHOICE, log 2). -/
def step (s : State) : Host.Outcome State Fault Refusal :=
  match s.pending with
  | [] => .next { s with part := { s.part with now := s.part.now + 1 } }
  | c :: rest => exec c { s with pending := rest }

/-- The state with the command that a word spells put at the front of the queue (log 27). -/
def State.withFetchWord (s : State) (nbits w : Nat) : State :=
  match decodeTableWord nbits w with
  | some c => { s with pending := c :: s.pending }
  | none => s

end Sys2Proof.Machine
end

