-- ==== Sys2Proof/Safety.lean ====
section
/-! DEFINITION. The vocabulary of the statements: what a state must be like for a command, what an event of one line may touch,
the line after the changes that several rules share, and the invariants of the machine. -/

namespace Sys2Proof.Machine

/-! ## When a host access can arrive -/

/-- No host access is under way, so the next can arrive (R1). -/
def Ready (s : State) : Prop := s.part.busBusy = false

/-- The map in force is one that validation let in: the console region ends below the base block, and there are 1 to 32 lines
(R22, R26). -/
def Part.MapSound (p : Part) : Prop :=
  match p.map with
  | some m => m.regionBase.toNat + 2559 ≤ 0x1FFEFF ∧ 1 ≤ m.lineCount ∧ m.lineCount ≤ 32
  | none => True

/-- The host can reach the block of line `i`: the bus is free, the line exists, the map is sound. -/
def Reaches (s : State) (i : LineNo) : Prop := Ready s ∧ s.part.hasLine i = true ∧ s.part.MapSound

/-- The answer of a command whose event makes the part `p`, after which the port grants (R15). -/
def answers (s : State) (p : Part) : Answer := .next { s with part := p.arbitrate }

/-- Disarming is due to end: no closing write is under way, nothing is pending, every line is in "OFF" with no job (R35). -/
def DisarmEnds (p : Part) : Prop :=
  p.state = .disarming ∧ p.closing = false ∧ p.reports = [] ∧
    ∀ i, p.hasLine i = true → (p.line i).state = .off ∧ p.hasWork i = false

/-! ## What an event of one line touches -/

/-- Everything of the part but its lines and its pending reports. -/
def Part.outside (p : Part) : Part := { p with lines := Vector.replicate 32 Line.initial, reports := [] }

/-- A report word that an event of line `i` may queue: a word of its LCB, or one of the summaries (R17, R33, R166, R167). -/
def ReportWord.concerns (i : LineNo) : ReportWord → Bool
  | .base w => decide (37 ≤ w) && decide (w ≤ 41)
  | .lcb j _ => j == i

/-- `q` differs from `p` in line `i` and in the reports that concern it, in nothing else. -/
def LineStep (i : LineNo) (p q : Part) : Prop :=
  q.outside = p.outside ∧ (∀ j, j ≠ i → q.line j = p.line j) ∧
    ∀ w v, ReportWord.concerns i w = false → ((w, v) ∈ q.reports ↔ (w, v) ∈ p.reports)

/-- `q` is `p` with line `i` become `l`, and the LCB words `ws` of the line pending with their present values. -/
def LineEvent (p q : Part) (i : LineNo) (l : Line) (ws : List Nat) : Prop :=
  LineStep i p q ∧ q.line i = l ∧ ∀ w ∈ ws, (ReportWord.lcb i w, l.report w) ∈ q.reports

/-- The value that an LCB report word of the line has now: words 32 to 53, the ring words 37 to 42 while the ring state is present
(R17, R102, R119). -/
def Line.reportValue? (l : Line) (w : Nat) : Option Word :=
  if 32 ≤ w ∧ w ≤ 53 ∧ ((37 ≤ w ∧ w ≤ 42) → l.ring?.isSome = true) then some (l.report w) else none

/-- The value that a report word has now (R17): base-block words 32 to 45 but the setup result 33, and the LCB words. -/
def Part.reportValue? (p : Part) : ReportWord → Option Word
  | .base w => if 32 ≤ w ∧ w ≤ 45 ∧ w ≠ 33 then some (p.baseReport w) else none
  | .lcb i w => (p.line i).reportValue? w

/-- Each report word that has a value in `q` is pending there with that value, unless neither the value nor what is pending for
the word differs from `p`: no change of a report word goes unreported, and nothing pending is lost (R17, R33, R54, R56, R119, R166,
R167). -/
def Reported (p q : Part) : Prop :=
  ∀ w v, q.reportValue? w = some v →
    (w, v) ∈ q.reports ∨ p.reportValue? w = some v ∧ ∀ u, (w, u) ∈ q.reports ↔ (w, u) ∈ p.reports

/-- A `LineEvent` of which every change of a report word is reported. -/
def NotedEvent (p q : Part) (i : LineNo) (l : Line) (ws : List Nat) : Prop := LineEvent p q i l ws ∧ Reported p q

/-- What is pending for a word that concerns no existing line, and is none of the base-block words `ws`, is the same in `q` as in
`p` (R17). -/
def KeepsPending (p q : Part) (ws : List Nat) : Prop :=
  ∀ w v, (∀ i, p.hasLine i = true → ReportWord.concerns i w = false) → (∀ k ∈ ws, w ≠ .base k) →
    ((w, v) ∈ q.reports ↔ (w, v) ∈ p.reports)

/-! ## The held write -/

/-- The write that the Transmit Engine of line `i` holds (R148). -/
def Part.heldFor (p : Part) (i : LineNo) : Option HeldWrite :=
  match p.held with
  | some h => if h.line = i then some h else none
  | none => none

/-- The part with the held write of line `i`, if any, released to the Memory Port (R148). -/
def Part.releaseHold (p : Part) (i : LineNo) : Part :=
  match p.heldFor i with
  | some h => { p with held := none, port := { p.port with waiting := some h.access } }
  | none => p

/-! ## A line after the changes that several rules share -/

/-- The line with one of its counters set. -/
def Line.setCounter (l : Line) (c : Counter) (v : Word) : Line := { l with counters := l.counters.set c.index v }

/-- `n` entries lost and `k` refused: counters and fence tallies (R56, R147). -/
def Line.tallied (l : Line) (n k : Nat) : Line :=
  { ((l.setCounter .entriesLost (satAdd (l.counter .entriesLost) n)).setCounter .entriesRefused
      (satAdd (l.counter .entriesRefused) k)) with
    tallies := ⟨satAdd l.tallies.lost n, satAdd l.tallies.refused k, l.tallies.sent⟩ }

/-- The number of held writes of line `i`: 0 or 1. -/
def Part.heldCount (p : Part) (i : LineNo) : Nat := if (p.heldFor i).isSome then 1 else 0

/-- The queue discarded (R150), `k` being the held writes refused: an acting DATA entry stays and goes on, every entry not yet
acting is lost. -/
def Line.dropQueue (l : Line) (k : Nat) : Line :=
  { (l.tallied (l.queue.length - (if l.acting.isSome then 1 else 0)) k) with
    queue := if l.sending then l.queue.take 1 else []
    acting := if l.sending then l.acting else none }

/-- The line at its entry to "RELEASE" at the moment `now` (R67, R150). -/
def Line.released (l : Line) (now : Moment) (target : Target) (cause : ModeCause) (k : Nat) : Line :=
  { l.dropQueue k with
    state := .release
    target := target
    releaseCause := cause
    settleTimer := none
    releaseGuard := msPeriods (l.setting 20)
    releaseTimer := if l.sending then none else some (now + msPeriods (l.setting 20)) }

/-- Line `i` after a quiesce with cause "QUIESCE" that gives it the held reasons `handsOff` and `forced` (R70). -/
def Part.quiesced (p : Part) (i : LineNo) (handsOff forced : Bool) : Line :=
  let l := { p.line i with heldHandsOff := handsOff, heldForced := forced }
  if l.state = .settle ∨ l.state = .drive ∨ l.state = .drain then l.released p.now .listen .quiesce (p.heldCount i) else l

/-- The line at its entry to "OFF" with no probe or walk under way, the counter at `stamp` (R63, R69). -/
def Line.wentOff (l : Line) (cause : ModeCause) (stamp : Stamp) : Line :=
  { (l.closeOpen.offer ⟨.mode, LineState.off.code, cause.code, 0, l.state.code, stamp⟩) with
    state := .off
    receiver := .stopped
    gapTimer := none
    quietTimer := none
    quiet := false
    invalidRun := none
    validRun := none
    spaceTimer := none
    settleTimer := none
    releaseTimer := none
    openCondition := false
    stuckCondition := false }

/-- The line at its entry to "LISTEN" from "OFF" at the moment `now`, with the input levels `rx` and `sv` (R60, R73, R74, R86,
R98, R156). -/
def Line.listening (l : Line) (rx : Level) (sv : Bool) (now : Moment) : Line :=
  { l with
    state := .listen
    effDivisor := l.setting 4
    effFraction := l.setting 5
    generatorStart := now
    payloadLimit := l.setting 11
    droppedEvents := 0
    openCondition := false
    stuckCondition := false
    invalidRun := if sv then none else some (now + 10 * 294912)
    validRun := none
    receiver :=
      if rx = .mark then .hunt none else .spaceRun now (l.frame.bits * bitTimeOf (l.setting 4) (l.setting 5)) none
    spaceTimer := if rx = .mark then none else some (now + 200 * 294912)
    quiet := false
    quietStart := now
    quietTimer := if l.setting 18 = 0 then none else some (now + l.setting 18 * 29491200) }

/-- The line after a probe has delivered `result` and `index` at the moment `now`, with the counter at `stamp` (R159): the probe
is idle, the result word holds the two, an applied rate is set, a "PROBE_DONE" event is offered, "PROBE_READY" is latched. -/
def Line.delivered (l : Line) (k : Probe) (result : ProbeResult) (index : Nat) (now : Moment) (stamp : Stamp) : Line :=
  let l := { l with probe := none, probeResult := result.toWord index }
  let l :=
    if k.apply = true ∧ result = .found then
      { l with effDivisor := rateDivisor index, effFraction := 0, generatorStart := now }
    else l
  let l := l.offer ⟨.probeDone, result.code, word index, reportedRun k.shortest, word k.edges, stamp⟩
  { l with flags := l.flags ||| 4 }

/-- A line whose parked job, if any, has become its retained job (R129). -/
def Line.unparked (l : Line) : Line :=
  match l.parked with
  | some j => { l with parked := none, retained := some j }
  | none => l

/-- A ring fresh, and a job parked on its lease unparked (R102, R129). -/
def Line.freshRing (l : Line) : Line := { l with ring := .present ⟨0, 0, 0, 0, 0, none, .closed, 0, 0, .stopped⟩ }.unparked

/-- The line after a probe under way, if any, is abandoned (R160). -/
def Line.unprobed (l : Line) (now : Moment) (stamp : Stamp) : Line :=
  match l.probe with
  | some k => l.delivered k .abandoned 0 now stamp
  | none => l

/-- The line after a resume walk under way, if any, is abandoned (R62, R118): a fresh ring, "RING_RESET". -/
def Line.unwalked (l : Line) : Line :=
  if l.walk.isSome then { l.freshRing with walk := none, flags := l.flags ||| 128 } else l

/-- The LCB words that the delivery of a probe's result changes (R159): 32 and 45, and 35 where "PROBE_READY" was clear. -/
def Line.probeReports (l : Line) : List Nat := [32, 45] ++ (if l.flags.getLsbD 2 then [] else [35])

/-- The LCB words that a change of the ring to fresh with "RING_RESET" queues (R102, R118). -/
def Line.freshReports (l : Line) : List Nat := [36, 37, 38, 39, 40, 41, 42] ++ (if l.flags.getLsbD 7 then [] else [35])

/-- The LCB words that entry to "OFF" from "LISTEN" queues: 32, and those of the probe or the walk that it abandons, 36 where a
condition stood (R62, R63, R118, R160). -/
def Line.offReports (l : Line) : List Nat :=
  32 :: (if l.probe.isSome then l.probeReports else []) ++ (if l.walk.isSome then l.freshReports else []) ++
    (if l.openCondition = true ∨ l.stuckCondition = true then [36] else [])

/-- The counter words that a discard of the queue changes, `k` being the held writes refused (R56, R150). -/
def Line.dropReports (l : Line) (k : Nat) : List Nat :=
  (if l.queue.length - (if l.acting.isSome then 1 else 0) = 0 ∨ l.counter .entriesLost = 65535 then [] else [50]) ++
    (if k = 0 ∨ l.counter .entriesRefused = 65535 then [] else [51])

/-- The part with the walk step of line `i` in flight, if any, marked abandoned by the abandonment of the walk under way: the read
it presents stays the one it is (R133, log 22). -/
def Part.stepDropped (p : Part) (i : LineNo) : Part :=
  match p.writer.flight with
  | some ⟨k, .walkStep got none⟩ =>
    if k = i ∧ (p.line i).walk.isSome = true then
      { p with writer := { p.writer with flight := some ⟨k, .walkStep got (some (p.walkAddr i got.length))⟩ } }
    else p
  | _ => p

/-- The part with a reclaim read of line `i` in flight, if any, overtaken (R128). -/
def Part.readOvertaken (p : Part) (i : LineNo) : Part :=
  match p.writer.flight with
  | some ⟨k, .reclaimRead job r overtaken⟩ =>
    { p with writer := { p.writer with flight := some ⟨k, .reclaimRead job r (overtaken || k == i)⟩ } }
  | _ => p

/-- The line with a mode request of value `v` taken (R47). -/
def Line.requested (l : Line) (v : Word) (outcome : RequestOutcome) (offset : Nat) : Line :=
  { l with shadow := l.shadow.set 0 v, modeStatus := ⟨loByte v, outcome, offset⟩ }

/-- The line with a command of value `v` taken (R50). -/
def Line.commanded (l : Line) (v : Word) (outcome : RequestOutcome) : Line :=
  { l with shadow := l.shadow.set 1 v, commandStatus := ⟨loByte v, outcome⟩ }

/-- The flags after an acknowledgement with mask `m` (R55): each of the mask cleared, "OPEN" and "STUCK" set again at once while
their conditions hold. -/
def Line.acknowledgedFlags (l : Line) (m : Word) : Word :=
  (l.flags &&& ~~~m) ||| (if l.openCondition = true ∧ m.getLsbD 3 = true then 8 else 0) |||
    (if l.stuckCondition = true ∧ m.getLsbD 4 = true then 16 else 0)

/-- The line after a setting `v` of word `w` has been taken at the moment `now`, with the counter at `stamp` (R45, R46, R98, R156,
R160, R164). -/
def Line.settled (l : Line) (w : Fin 22) (v : Word) (now : Moment) (stamp : Stamp) : Line :=
  let t := { l with shadow := l.shadow.set w v }
  if w = 3 ∧ l.state = .listen then t.unprobed now stamp
  else if (w = 4 ∨ w = 5) ∧ l.state = .listen then
    { t.unprobed now stamp with effDivisor := t.setting 4, effFraction := t.setting 5, generatorStart := now }
  else if w = 6 ∧ v = 2 then { t with breakCredit := true }
  else if w = 16 ∧ v = 0 then
    match l.ring with
    | .present r =>
      match r.coalesce with
      | .running _ => { t with ring := .present { r with coalesce := .expired } }
      | _ => t
    | _ => t
  else if w = 18 ∧ v = 0 then { t with quietTimer := none, quiet := false }
  else t

/-- A host write with a command's operands is taken at word `w` of LCB `i` and forwarded (R5): beside the forward, the part is
`p` with line `i` become `l`, the words `ws` are pending, and with them every report word that has changed. -/
def Takes (c : Instr) (s : State) (i : LineNo) (w : Fin 22) (lanes : Lanes) (d : Word) (p : Part) (l : Line) (ws : List Nat) :
    Prop :=
  ∃ q : Part, exec c s = answers s (q.forward (s.part.lcbWriteTo i w.val lanes d)) ∧ NotedEvent p q i l ws

/-! ## The ring, the writer, the head of the queue -/

/-- The coalesce state after a start or restart at the moment `now` (R163). -/
def coalesceStarted (now time : Nat) : Coalesce := if time = 0 then .expired else .running (now + 294912 * time)

/-- The ring after R has come to `n`: at the pad start it becomes 0, and the pad's words leave occupied (R108). -/
def Ring.readTo (r : Ring) (size n : Nat) : Ring :=
  match r.padStart with
  | some k => if n = k then { r with r := 0, occupied := r.occupied - (size - k), padStart := none } else { r with r := n }
  | none => { r with r := n }

/-- The ring after the record of `s` words at R has been retired or reclaimed (R111, R128, R164). -/
def Ring.withoutOldest (r : Ring) (size s now time : Nat) : Ring :=
  { ({ r with occupied := r.occupied - s }.readTo size (if r.r + s = size then 0 else r.r + s)) with
    count := r.count - 1
    lease := .closed
    coalesce := if r.count - 1 = 0 then .stopped else coalesceStarted now time }

/-- The ring after a record of `s` words with sequence `seq` has committed, with or without a pad (R107, R164). -/
def Ring.withRecord (r : Ring) (size s : Nat) (pad : Option Nat) (seq : Word) (now time : Nat) : Ring :=
  let r' :=
    match pad with
    | none => { r with w := if r.w + s = size then 0 else r.w + s, occupied := r.occupied + s }
    | some k => { r with w := s, occupied := r.occupied + (size - k) + s, padStart := some k }.readTo size r.r
  { r' with
    count := r.count + 1
    nextSeq := seq + 1
    coalesce := if r.count = 0 then coalesceStarted now time else r.coalesce }

/-- A size read at R + 1 is valid (R110). -/
def Ring.admitsSize (r : Ring) (size s : Nat) : Prop :=
  s % 2 = 0 ∧ 10 ≤ s ∧ s ≤ 138 ∧
    r.r + s ≤ (if r.r < r.w then r.w else match r.padStart with | some k => k | none => size)

/-- The line after a walk has failed for the reason of code `reason` (R118). -/
def Line.walkFailed (l : Line) (reason : Word) (stamp : Stamp) : Line :=
  Line.offer { l.freshRing with walk := none, flags := l.flags ||| 128 } ⟨.mode, 1, 8, reason, 0, stamp⟩

/-- The line after a walk that read W, R and the next sequence as `run` holds them has ended with success (R117). -/
def Line.walkEnded (l : Line) (run : WalkRun) (now : Moment) (stamp : Stamp) : Line :=
  let next := match run.lastSeq with | some s => s + 1 | none => run.nextSeq
  let started := if run.found = 0 then Coalesce.stopped else coalesceStarted now (l.setting 16)
  Line.offer
    { l with
      ring := .present ⟨run.w, run.r, run.words, run.found, next, run.pad, .closed, 0, 0, started⟩
      walk := none }
    ⟨.mode, 1, 7, word run.found, 0, stamp⟩

/-- The line after a walk has reached `run` with words remaining, or has ended (R116, R117). -/
def Line.walkedTo (l : Line) (run : WalkRun) (now : Moment) (stamp : Stamp) : Line :=
  if run.remaining = 0 then l.walkEnded run now stamp else { l with walk := some (.records run) }

/-- The words that the end of a walk reports (R117, R118). -/
def walkReports (l : Line) : List Nat := if l.walk = none then [32, 36, 37, 38, 39, 40, 41, 42] else []

/-- The entry that the Transmit Engine of line `i` holds apart from the queue, if any (R148). -/
def Part.heldEntries (p : Part) (i : LineNo) : List Entry := (p.heldFor i).toList.map (·.entry)

/-- The line after its head has left and a held entry has joined the end (R138, R148). -/
def Line.headLeft (l : Line) (held : List Entry) : Line := { l with queue := l.queue.tail ++ held, acting := none }

/-- The part after the host read that the port serves has returned `d`, before any snoop (R11, R13). -/
def Part.hostRead (p : Part) (d : Word) : Part := { p.freePort with readData := d, hostWait := false }

/-! ## Reset -/

/-- The values that power-on and a pin reset leave (R2, R10, R15, R17, R20, R40). No line exists then (R57, R80); the values kept for
the lines are the model's (logs 26, 37). -/
def ResetValues (cause : ResetCause) (q : Part) : Prop :=
  q.state = .dormant ∧ q.gateProgress = 0 ∧ q.checkValue = none ∧ q.setupCopy = [] ∧ q.resetCause = cause ∧
    q.attentionEnable = false ∧ q.forced = false ∧ q.counter = 0 ∧ q.nextTick = none ∧ q.captured = none ∧
    q.blocked = ⟨0, 0, .none, false⟩ ∧ q.closing = false ∧ q.resetPending = false ∧ q.map = none ∧ q.held = none ∧
    q.port.passOver = 0 ∧ q.port.allowance = 1 ∧ q.reports = [] ∧ q.writer = ⟨none, none⟩ ∧
    ∀ i, q.line i = Line.initial

/-- What a pin reset of `p` leaves in `q`, before the port grants again (R20, R40, R79, R152): the reset values; a host access in
progress or waiting goes on and a held write is forwarded; every enabled driver holds mark for 100 ms, every other is disabled;
the inputs, the read data and the model's clock are as they were. -/
def PinResetOf (p q : Part) : Prop :=
  ResetValues .resetPin q ∧
    q.port.serving = p.servedHost.map Serving.host ∧
    q.port.waiting = (match p.held with | some h => some h.access | none => p.port.waiting) ∧
    (∀ i : LineNo, q.markHold[i] = if p.driverEnabled i then some (p.now + 10 * 294912) else none) ∧
    q.handsOff = p.handsOff ∧ q.resetLow = p.resetLow ∧ q.rxPin = p.rxPin ∧ q.svPin = p.svPin ∧ q.taken = p.taken ∧
    q.hostWait = p.hostWait ∧ q.readData = p.readData ∧ q.now = p.now

/-! ## Reports -/

/-- The pending set after the updates `us`, in order (R17). -/
def queueAll (us : List (ReportWord × Word)) (r : List (ReportWord × Word)) : List (ReportWord × Word) :=
  us.foldl (fun r u => queueUpdate u.1 u.2 r) r

/-- The updates of words 42 to 45 for a blocked-write record (R10). -/
def BlockedRecord.updates (b : BlockedRecord) : List (ReportWord × Word) :=
  [(.base 42, b.count), (.base 43, (b.addr >>> 16).truncate 16), (.base 44, b.addr.truncate 16), (.base 45, b.reason.code)]

/-- The updates that zeroing a blocked-write record makes: of the words 42 to 45 that it changes (R10, R17, R25). -/
def BlockedRecord.zeroing (b : BlockedRecord) : List (ReportWord × Word) :=
  (b.updates.filter fun u => u.2 != 0).map fun u => (u.1, 0)

/-- The arming reports in their order, for `n` lines (R27). -/
def armingReports (n : Nat) (cause : ResetCause) (handsOff : Bool) (b : BlockedRecord) : List (ReportWord × Word) :=
  [(.base 33, 1), (.base 34, cause.code), (.base 35, 0xEB32), (.base 36, 1),
    (.base 37, bitIf handsOff 0 ||| bitIf b.latched 3), (.base 38, 0), (.base 39, 0), (.base 40, 0), (.base 41, 0)] ++
  b.updates ++
  ((List.finRange 32).filter fun i => decide (i.val < n)).flatMap (fun i =>
    (.lcb i 32, bitIf handsOff 8) ::
      [33, 34, 35, 36, 43, 44, 45, 46, 47, 48, 49, 50, 51, 52, 53].map fun w => (.lcb i w, 0)) ++
  [(.base 32, 3)]

/-- The part at its entry to "DORMANT" (R19, R36): the values of R36; the map, the setup copy and the lines are gone; the counter,
the reset cause, the blocked-write record and the hands-off flag are kept. The values kept for the lines that are gone are the
model's (logs 26, 37). -/
def Part.asleep (p : Part) : Part :=
  { p with
    state := .dormant
    map := none
    gateProgress := 0
    checkValue := none
    setupCopy := []
    nextTick := none
    captured := none
    attentionEnable := false
    forced := false
    closing := false
    port := { p.port with allowance := 1 }
    writer := ⟨none, none⟩
    lines := Vector.replicate 32 Line.initial }

/-! ## Invariants -/

/-- The bank is in canonical form. -/
def MemoryCanonical (s : State) : Prop := Memory.wf s.mem = true

/-- No transmit queue holds more than 64 entries (R138). -/
def QueuesBounded (s : State) : Prop := ∀ i, (s.part.line i).queue.length ≤ 64

/-- The pass-over count never passes the burst allowance, which lies between 1 and 64, and it is 0 while an internal access is
served (R15, R22). -/
def PortBounded (s : State) : Prop :=
  s.part.port.passOver ≤ s.part.port.allowance ∧ 1 ≤ s.part.port.allowance ∧ s.part.port.allowance ≤ 64 ∧
    (s.part.servesInternal = true → s.part.port.passOver = 0)

/-- In "DORMANT" the part makes no access of its own and no line exists (R19): nothing is pending, the writer is idle, no
internal access is served, the map is empty. The values kept for the lines are the model's (logs 26, 37). -/
def AsleepInDormant (p : Part) : Prop :=
  p.state = .dormant →
    p.reports = [] ∧ p.writer = ⟨none, none⟩ ∧ p.servesInternal = false ∧ p.map = none ∧ p.closing = false ∧
      ∀ i, p.line i = Line.initial

/-- No report word is pending twice, and what is pending for a word is the value that the word has now; of the setup result and of
the closing write's word 32, which are queued as values, nothing is said (R17, R28). -/
def ReportsSound (p : Part) : Prop :=
  (p.reports.map Prod.fst).Nodup ∧
    ∀ w u v, (w, u) ∈ p.reports → p.reportValue? w = some v → ¬(w = .base 32 ∧ p.closing = true) → u = v

/-- A line that does not exist is as it is before arming (R57, log 26). -/
def AbsentInitial (p : Part) : Prop := ∀ i, p.hasLine i = false → p.line i = Line.initial

/-- A write is held in "ARMED" alone, for an existing line in "SETTLE" or "DRIVE" (R13, R34, R148). -/
def HeldSound (p : Part) : Prop :=
  ∀ h, p.held = some h →
    p.state = .armed ∧ p.hasLine h.line = true ∧ ((p.line h.line).state = .settle ∨ (p.line h.line).state = .drive)

/-- Setup reads are made in "ARMING" alone, and a closing write is under way after the seven reads of a failed arming, or in
"DISARMING" (R14, R28, R35). -/
def SetupSound (p : Part) : Prop :=
  (∀ w, p.port.serving = some (.setupRead w) → p.state = .arming) ∧
    (p.closing = true → p.state = .disarming ∨ p.state = .arming ∧ 7 ≤ p.setupCopy.length)

/-- What keeps a part in "DORMANT" transparent (R19). -/
def DormantSound (s : State) : Prop := AsleepInDormant s.part ∧ HeldSound s.part ∧ SetupSound s.part

/-- The map in force is sound, and a map is in force in "ARMED" and "DISARMING" alone (R2, R22). -/
def MapInForce (s : State) : Prop := s.part.MapSound ∧ (s.part.map.isSome = true ↔ s.part.state.inForce = true)

end Sys2Proof.Machine
end

