-- ==== Sys2Proof/Certificates/Slice0/Obligations.lean ====
section
/-! DEFINITION. The statements for the provers. `answers s q` says that the command completes with a next state whose part is `q`
after the port has granted; a state written `{ s with part := … }` leaves the bank and the waiting commands as they were. -/

open Sys2Proof Sys2Proof.Machine

/-! ## The step -/

/-- A step runs the command at the front of the queue on the state with the rest of the queue. On an empty queue one period of the
reference clock passes and nothing else changes (the model's choice, log 2). -/
def Obligations.StepRunsFrontCommand : Prop :=
  (∀ (s : State) (c : Instr) (rest : List Instr), s.pending = c :: rest → step s = exec c { s with pending := rest }) ∧
  (∀ s : State, s.pending = [] → step s = .next { s with part := { s.part with now := s.part.now + 1 } })

/-! ## Resets (R20, R40, R78, R79, R172) -/

/-- The state after reset has the values of R40 and R20, every driver disabled and the attention output deasserted, and the
invariants hold in it; the empty bank and the empty queue are the model's (logs 5, 27), and so are the values kept for the lines,
none of which exists (logs 26, 37). -/
def Obligations.ResetState : Prop :=
  ResetValues .powerOn State.reset.part ∧ State.reset.part.attentionOutput = false ∧
    (∀ i : LineNo, State.reset.part.driverEnabled i = false) ∧ State.reset.mem = [] ∧ State.reset.pending = [] ∧
    MemoryCanonical State.reset ∧ QueuesBounded State.reset ∧ PortBounded State.reset ∧ MapInForce State.reset ∧
    DormantSound State.reset ∧ ReportsSound State.reset.part ∧ AbsentInitial State.reset.part

/-- Power-on leaves the reset values with cause "POWER_ON", every driver disabled with no mark-hold, the bank as it was; the
hands-off flag keeps the input's level. The values kept for the lines, none of which exists, are the model's (logs 26, 37). -/
def Obligations.PowerOnResets : Prop :=
  ∀ s : State, ∃ t : State, exec .powerOn s = .next t ∧ ResetValues .powerOn t.part ∧
    t.part.port.serving = none ∧ t.part.port.waiting = none ∧ t.part.hostWait = false ∧
    t.part.attentionOutput = false ∧ (∀ i : LineNo, t.part.markHold[i] = none ∧ t.part.driverEnabled i = false) ∧
    t.part.handsOff = s.part.handsOff ∧ t.part.resetLow = s.part.resetLow ∧ t.part.rxPin = s.part.rxPin ∧
    t.part.svPin = s.part.svPin ∧ t.part.taken = s.part.taken ∧ t.part.now = s.part.now ∧ t.mem = s.mem ∧ t.pending = s.pending

/-- A pin reset waits for the internal access in progress; with none it takes effect at once. The release of RST# changes
nothing but the pin's level. Each change is taken two periods after the last at the earliest (R172); that it is taken at the first
such moment is the model's (log 31), and so are the wait as a command of its own (log 10) and the values kept for the lines, none of
which exists after the reset (logs 26, 37). The reset mark-hold of a driver ends at its moment; from then on the driver is enabled
only while its line is in "SETTLE", "DRIVE", "DRAIN" or "RELEASE". -/
def Obligations.PinResetAndMarkHold : Prop :=
  (∀ (s : State) (t : Moment),
     t = (match s.part.taken.reset with | none => s.part.now | some u => max s.part.now (u + 2)) →
     let takes := fun low => { s.part with now := t, resetLow := low, taken := { s.part.taken with reset := some t } }
     (s.part.resetLow = false → s.part.servesInternal = true →
       exec .pinReset s = answers s { takes true with resetPending := true }) ∧
     (s.part.resetLow = false → s.part.servesInternal = false →
       ∃ q : Machine.Part, exec .pinReset s = answers s q ∧ PinResetOf (takes true) q) ∧
     (s.part.resetLow = true → exec .pinReset s = answers s s.part ∧ exec .resetRelease s = answers s (takes false)) ∧
     (s.part.resetLow = false → exec .resetRelease s = answers s s.part)) ∧
  (∀ (s : State) (i : LineNo) (t : Moment), s.part.markHold[i] = some t →
     ∃ q : Machine.Part, exec (.markHoldEnd i) s = answers s q ∧
       q = { s.part with now := max s.part.now t, markHold := s.part.markHold.set i none } ∧
       (q.driverEnabled i = true ↔
         (q.line i).state = .settle ∨ (q.line i).state = .drive ∨ (q.line i).state = .drain ∨ (q.line i).state = .release))

/-- When the internal access in progress completes, its word is written or read whole and the pin reset takes effect; the
requester's own step, a commit included, does not happen. That each row of such a completion takes the waiting reset itself, as
PIN_RESET_EFFECT does, is the model's reading (DEDUCED, log 10). The values kept for the lines, none of which exists after the reset,
are the model's (logs 26, 37). -/
def Obligations.PinResetOvertakesInternalAccess : Prop :=
  ∀ (s : State) (a : Serving), s.part.resetPending = true → s.part.port.serving = some a → s.part.servesInternal = true →
    ∃ q : Machine.Part, PinResetOf s.part.freePort q ∧
      exec .pinResetEffect s = .next { s with part := q.arbitrate, mem := (Memory.access s.mem a).1 } ∧
      (∀ w, a = .setupRead w → exec .setupReadComplete s = exec .pinResetEffect s) ∧
      (∀ w b v, a = .report w b v →
        (s.part.servesClosing = false → exec .reportWriteComplete s = exec .pinResetEffect s) ∧
        (s.part.servesClosing = true → exec .closingWriteComplete s = exec .pinResetEffect s)) ∧
      (∀ b d i w, a = .recordWord b d → s.part.writer.flight = some ⟨i, .writing w⟩ →
        (1 < w.todo.length → exec .recordWordComplete s = exec .pinResetEffect s) ∧
        (w.todo.length = 1 → exec .commit s = exec .pinResetEffect s)) ∧
      (∀ b i job r o, a = .reclaimRead b → s.part.writer.flight = some ⟨i, .reclaimRead job r o⟩ →
        exec .reclaimReadReturn s = exec .pinResetEffect s) ∧
      (∀ b i got abandoned, a = .walkRead b → s.part.writer.flight = some ⟨i, .walkStep got abandoned⟩ →
        (abandoned ≠ none ∨ got.length + 1 < (s.part.line i).stepReads →
          exec .walkReadComplete s = exec .pinResetEffect s) ∧
        (abandoned ≠ none ∨ got.length + 1 = (s.part.line i).stepReads →
          exec .walkReadReturn s = exec .pinResetEffect s))

/-! ## Hands-off, force, disarm (R31, R32, R34, R70 to R72) -/

/-- The hands-off input becomes asserted: the flag is set, and every existing line is quiesced with held reason "HANDS_OFF"; a
write that a driving line holds is released to the port. It becomes deasserted: the flag clears and every existing line loses the
reason; no line changes state. Every report word that this changes is pending with its value; of the base block that is word 37
alone, in every part state but "DORMANT". Each change is taken two periods after the last at the earliest (R172), in the model at
the first such moment (log 31). -/
def Obligations.HandsOffInput : Prop :=
  (∀ (s : State) (t : Moment) (p : Machine.Part), s.part.handsOff = false →
     t = (match s.part.taken.handsOff with | none => s.part.now | some u => max s.part.now (u + 2)) →
     p = { s.part with now := t, handsOff := true, taken := { s.part.taken with handsOff := some t } } →
     ∃ q : Machine.Part, exec .handsOffAsserted s = answers s q ∧
     (∀ i, q.line i = if s.part.hasLine i then p.quiesced i true (s.part.line i).heldForced else s.part.line i) ∧
     (∀ i, s.part.hasLine i = true → (s.part.line i).heldHandsOff = false →
       (ReportWord.lcb i 32, (q.line i).stateWord) ∈ q.reports) ∧
     (∀ i, s.part.hasLine i = true → (s.part.line i).state.quiesced = true →
       ∀ w ∈ 32 :: (s.part.line i).dropReports (s.part.heldCount i), (ReportWord.lcb i w, (q.line i).report w) ∈ q.reports) ∧
     (s.part.state ≠ .dormant → (ReportWord.base 37, q.summaryFlags) ∈ q.reports ∧ Reported s.part q) ∧
     KeepsPending s.part q (if s.part.state = .dormant then [] else [37]) ∧
     (∀ h, s.part.held = some h → s.part.hasLine h.line = true → (s.part.line h.line).state.quiesced = true →
       q.held = none ∧ q.port = { s.part.port with waiting := some h.access }) ∧
     (s.part.held = none → q.held = none ∧ q.port = s.part.port) ∧
     { q with lines := s.part.lines, reports := s.part.reports, held := s.part.held, port := s.part.port } = p) ∧
  (∀ (s : State) (t : Moment), s.part.handsOff = true →
     t = (match s.part.taken.handsOff with | none => s.part.now | some u => max s.part.now (u + 2)) →
     ∃ q : Machine.Part, exec .handsOffDeasserted s = answers s q ∧
     (∀ i, q.line i = if s.part.hasLine i then { s.part.line i with heldHandsOff := false } else s.part.line i) ∧
     (∀ i, s.part.hasLine i = true → (s.part.line i).heldHandsOff = true →
       (ReportWord.lcb i 32, (q.line i).stateWord) ∈ q.reports) ∧
     (s.part.state ≠ .dormant → (ReportWord.base 37, q.summaryFlags) ∈ q.reports ∧ Reported s.part q) ∧
     KeepsPending s.part q (if s.part.state = .dormant then [] else [37]) ∧
     { q with lines := s.part.lines, reports := s.part.reports } =
       { s.part with now := t, handsOff := false, taken := { s.part.taken with handsOff := some t } }) ∧
  (∀ s : State, (s.part.handsOff = true → exec .handsOffAsserted s = answers s s.part) ∧
     (s.part.handsOff = false → exec .handsOffDeasserted s = answers s s.part))

/-- 0xF0F0 to word 17 in "ARMED" sets forced quiesce and quiesces every existing line with held reason "FORCED"; 0x0F0F clears it
and removes the reason; the write is forwarded. Every report word that this changes is pending with its value; of the base block
that is word 37 alone. In every other part state the write is forwarded alone. -/
def Obligations.ForceWord : Prop :=
  ∀ s : State, Ready s →
    (s.part.state = .armed → ∃ q : Machine.Part, exec .forceSet s = answers s (q.forward (baseWriteTo 17 .both 0xF0F0)) ∧
      (∀ i, q.line i = if s.part.hasLine i then s.part.quiesced i (s.part.line i).heldHandsOff true else s.part.line i) ∧
      (∀ i, s.part.hasLine i = true → (s.part.line i).heldForced = false →
        (ReportWord.lcb i 32, (q.line i).stateWord) ∈ q.reports) ∧
      (∀ i, s.part.hasLine i = true → (s.part.line i).state.quiesced = true →
        ∀ w ∈ 32 :: (s.part.line i).dropReports 0, (ReportWord.lcb i w, (q.line i).report w) ∈ q.reports) ∧
      (s.part.forced = false → (ReportWord.base 37, q.summaryFlags) ∈ q.reports) ∧
      Reported s.part q ∧ KeepsPending s.part q [37] ∧
      { q with lines := s.part.lines, reports := s.part.reports } = { s.part with forced := true }) ∧
    (s.part.state = .armed → ∃ q : Machine.Part, exec .forceClear s = answers s (q.forward (baseWriteTo 17 .both 0x0F0F)) ∧
      (∀ i, q.line i = if s.part.hasLine i then { s.part.line i with heldForced := false } else s.part.line i) ∧
      (∀ i, s.part.hasLine i = true → (s.part.line i).heldForced = true →
        (ReportWord.lcb i 32, (q.line i).stateWord) ∈ q.reports) ∧
      (s.part.forced = true → (ReportWord.base 37, q.summaryFlags) ∈ q.reports) ∧
      Reported s.part q ∧ KeepsPending s.part q [37] ∧
      { q with lines := s.part.lines, reports := s.part.reports } = { s.part with forced := false }) ∧
    (s.part.state ≠ .armed → exec .forceSet s = answers s (s.part.forward (baseWriteTo 17 .both 0xF0F0)) ∧
      exec .forceClear s = answers s (s.part.forward (baseWriteTo 17 .both 0x0F0F)))

/-- 0x2D71 to word 18 in "ARMED" enters "DISARMING" and quiesces every existing line with cause "DISARM" and target "OFF": a line in
"LISTEN" goes to "OFF", its probe or walk abandoned first, and a step of that walk in flight is marked abandoned, its read as it
was presented (log 22). Every report word that this changes is pending with its value; of the base block that is word 32, and the
summaries that an abandoned probe or walk changes. In every other part state the write is forwarded alone. -/
def Obligations.DisarmStarts : Prop :=
  ∀ s : State, Ready s →
    (s.part.state = .armed → ∃ q : Machine.Part, exec .disarm s = answers s (q.forward (baseWriteTo 18 .both 0x2D71)) ∧
      q.state = .disarming ∧ (ReportWord.base 32, PartState.disarming.code) ∈ q.reports ∧
      Reported s.part q ∧ KeepsPending s.part q [32] ∧
      (∀ i, s.part.hasLine i = false ∨ (s.part.line i).state = .off → q.line i = s.part.line i) ∧
      (∀ i, s.part.hasLine i = true →
        let reports := fun ws => ∀ w ∈ ws, (ReportWord.lcb i w, (q.line i).report w) ∈ q.reports
        ((s.part.line i).state.quiesced = true →
          q.line i = (s.part.line i).released s.part.now .off .disarm (s.part.heldCount i) ∧
            reports (32 :: (s.part.line i).dropReports (s.part.heldCount i))) ∧
        ((s.part.line i).state = .release →
          q.line i = { s.part.line i with target := .off, releaseCause := .disarm }) ∧
        ((s.part.line i).state = .listen →
          q.line i = (((s.part.line i).unprobed s.part.now s.part.counter).unwalked).wentOff .disarm s.part.counter ∧
            reports (s.part.line i).offReports)) ∧
      { q with lines := s.part.lines, reports := s.part.reports, writer := s.part.writer } =
        { s.part with state := .disarming } ∧
      (∀ f, s.part.writer.flight = some f → s.part.hasLine f.line = true → (s.part.line f.line).state = .listen →
        q.writer = (s.part.stepDropped f.line).writer) ∧
      ((∀ f, s.part.writer.flight = some f → s.part.hasLine f.line = false ∨ (s.part.line f.line).state ≠ .listen) →
        q.writer = s.part.writer)) ∧
    (s.part.state ≠ .armed → exec .disarm s = answers s (s.part.forward (baseWriteTo 18 .both 0x2D71)))

/-! ## The gate, arming, the closing write (R19, R23 to R28, R35, R36) -/

/-- The gate sequence: what a write to the gate word does at each progress. It is always forwarded; outside "DORMANT", and while
RST# is low (R172), it does nothing else. At entry to "ARMING" the words of the blocked-write record that become zero and, where
"BLOCKED_WRITE" was set, word 37 are queued before word 32: that R17 and R33 queue them at this entry is the model's reading
(DEDUCED, log 32), the order of the words of one event is the model's (DESIGN CHOICE, log 12). -/
def Obligations.GateSequence : Prop :=
  ∀ (s : State) (lanes : Lanes) (d : Word), Ready s →
    (s.part.state ≠ .dormant ∨ s.part.resetLow = true →
      exec (.gateWrite lanes d) s = answers s (s.part.forward ⟨gateAddr, .write lanes d⟩)) ∧
    (s.part.state = .dormant → s.part.resetLow = false →
      (lanes ≠ .both → exec (.gateWrite lanes d) s =
        answers s ({ s.part with gateProgress := 0 }.forward ⟨gateAddr, .write lanes d⟩)) ∧
      (lanes = .both → s.part.gateProgress < 3 → exec (.gateWrite lanes d) s =
        answers s
          ({ s.part with
              gateProgress :=
                if d = 0x6C1E then 1
                else if s.part.gateProgress = 1 ∧ d = 0x93A5 then 2
                else if s.part.gateProgress = 2 ∧ d = 0x0F7D then 3
                else 0 }.forward ⟨gateAddr, .write lanes d⟩)) ∧
      (lanes = .both → s.part.gateProgress = 3 → exec (.gateWrite lanes d) s =
        answers s
          ({ s.part with
              state := .arming
              gateProgress := 0
              checkValue := some d
              setupCopy := []
              blocked := ⟨0, 0, .none, false⟩
              reports :=
                queueAll
                  (s.part.blocked.zeroing ++
                    (if s.part.blocked.latched then
                      [(ReportWord.base 37, { s.part with blocked := ⟨0, 0, .none, false⟩ }.summaryFlags)]
                    else []) ++ [(ReportWord.base 32, 2)])
                  s.part.reports }.forward ⟨gateAddr, .write lanes d⟩)))

/-- The data of a setup read joins the setup copy; the seventh is followed by validation, which on failure queues word 33 with the
result and word 32 with "DORMANT". The checks of validation in their order; the first that fails gives the result. The codes of
the results, and the CRC: from 0xFFFF, each word most significant bit first, by the polynomial x^16 + x^12 + x^5 + 1. -/
def Obligations.SetupReads : Prop :=
  (∀ (s : State) (w : Nat) (copy : List Word), s.part.resetPending = false →
     s.part.port.serving = some (.setupRead w) → copy = s.part.setupCopy ++ [Memory.readWord s.mem (baseWordAddr w)] →
     (copy.length ≠ 7 → exec .setupReadComplete s = answers s { s.part.freePort with setupCopy := copy }) ∧
     (copy.length = 7 → ∀ check, s.part.checkValue = some check → validateSetup copy check ≠ .ok →
       exec .setupReadComplete s =
         answers s
           { s.part.freePort with
             setupCopy := copy
             closing := true
             reports := queueAll [(.base 33, (validateSetup copy check).code), (.base 32, 1)] s.part.reports })) ∧
  (∀ w0 w1 w2 w3 w4 w5 w6 check : Word,
     let copy := [w0, w1, w2, w3, w4, w5, w6]
     let region := 65536 * w0.toNat + w1.toNat
     let badRegion := 31 < w0.toNat ∨ w1.toNat % 256 ≠ 0 ∨ 0x1FFEFF < region + 2559
     let badLines := w2 = 0 ∨ 32 < w2.toNat
     validateSetup copy check =
       if crc copy ≠ check then .badCheck
       else if badRegion then .badRegion
       else if badLines then .badLines
       else if 63 < w3.toNat then .badHold
       else if w6 = 0 ∨ 64 < w6.toNat then .badAllowance
       else .ok) ∧
  [SetupResult.ok, .badCheck, .badRegion, .badLines, .badHold, .badAllowance].map SetupResult.code = [1, 2, 3, 4, 5, 6] ∧
  crc [] = 0xFFFF ∧
  (∀ (ws : List Word) (w : Word), crc (ws ++ [w]) =
     (List.range 16).foldl
       (fun (r : Word) k => if r.getLsbD 15 = w.getLsbD (15 - k) then r <<< 1 else (r <<< 1) ^^^ 0x1021) (crc ws))

/-- A validation that gives "OK" arms the part: the setup copy comes into force, the counter starts from the time base, every line
is in "OFF" at its values of R27 and of the tables of state of 03 to 09, and the arming reports are queued in their order. What
those do not give of a line is the model's choice: the moments `generatorStart` and `quietStart` and the release guard, 0 until they
are first set (log 37; the guard's own rule: log 19), the payload limit in force, 0 before the first entry to "LISTEN" (log 26), and
all the values of a line that does not exist (log 26). -/
def Obligations.ValidSetupArms : Prop :=
  ∀ (s : State) (w : Nat) (w0 w1 w2 w3 w4 w5 w6 check : Word), s.part.resetPending = false →
    s.part.port.serving = some (.setupRead w) → s.part.checkValue = some check →
    s.part.setupCopy ++ [Memory.readWord s.mem (baseWordAddr w)] = [w0, w1, w2, w3, w4, w5, w6] →
    validateSetup [w0, w1, w2, w3, w4, w5, w6] check = .ok →
    exec .setupReadComplete s =
      answers s
        { s.part with
          state := .armed
          setupCopy := [w0, w1, w2, w3, w4, w5, w6]
          checkValue := none
          map := some ⟨BitVec.ofNat 21 (65536 * w0.toNat + w1.toNat), w2.toNat⟩
          port := { s.part.port with serving := none, allowance := w6.toNat }
          counter := w4 ++ w5
          nextTick := some (s.part.now + 294912)
          attentionEnable := false
          forced := false
          writer := ⟨none, none⟩
          lines := Vector.ofFn fun i =>
            if i.val < w2.toNat then { Line.initial with heldHandsOff := s.part.handsOff } else Line.initial
          reports := queueAll (armingReports w2.toNat s.part.resetCause s.part.handsOff s.part.blocked) s.part.reports }

/-- The closing write completes: with an update pending it is queued again; with nothing pending the part enters "DORMANT", a host
access that waits for it being served first (that it is served in the same step is the model's reading of R19, log 11). A read so
served that returns the probe result clears "PROBE_READY" where it is set; that leaves word 35 pending, and the closing write is
queued again. (A read in a live ring cannot wait then: no line is protected any more.) The values kept for the lines, which exist no
more, are the model's (logs 26, 37). -/
def Obligations.ClosingWrite : Prop :=
  ∀ (s : State) (a : Addr), s.part.resetPending = false → s.part.closing = true →
    s.part.port.serving = some (.report (.base 32) a 1) →
    (s.part.reports ≠ [] → exec .closingWriteComplete s =
      .next
        { s with
          part := { s.part.freePort with reports := queueUpdate (.base 32) 1 s.part.reports }.arbitrate
          mem := Memory.writeLanes s.mem a .both 1 }) ∧
    (s.part.reports = [] → s.part.port.waiting = none → exec .closingWriteComplete s =
      .next { s with part := s.part.freePort.asleep.arbitrate, mem := Memory.writeLanes s.mem a .both 1 }) ∧
    (∀ b lanes d, s.part.reports = [] → s.part.port.waiting = some ⟨b, .write lanes d⟩ → exec .closingWriteComplete s =
      .next
        { s with
          part := { s.part.freePort.asleep with
                    hostWait := false
                    port := { s.part.port with serving := none, waiting := none, allowance := 1 } }.arbitrate
          mem := Memory.writeLanes (Memory.writeLanes s.mem a .both 1) b lanes d }) ∧
    (∀ (b : Addr) (m : Memory) (p : Machine.Part), s.part.reports = [] → s.part.port.waiting = some ⟨b, .read⟩ →
      (∀ i k, s.part.decode b ≠ .ring i k) → m = Memory.writeLanes s.mem a .both 1 →
      p = { s.part with
            hostWait := false
            readData := m.readWord b
            port := { s.part.port with serving := none, waiting := none } } →
      let clears := fun i => s.part.decode b = .lcb i 45 ∧ m.readWord b = (s.part.line i).probeResult ∧
        (s.part.line i).flags.getLsbD 2 = true
      ((∀ i, ¬ clears i) → exec .closingWriteComplete s = .next { s with part := p.asleep.arbitrate, mem := m }) ∧
      (∀ i, clears i → ∃ q : Machine.Part,
        NotedEvent p q i { s.part.line i with flags := (s.part.line i).flags &&& ~~~4 } [35] ∧
        exec .closingWriteComplete s =
          .next { s with part := { q with reports := queueUpdate (.base 32) 1 q.reports }.arbitrate, mem := m }))

/-! ## The paths of a host access (R1 to R13, R19) -/

/-- A blocked write is recorded and its report words are queued; the SRAM is not written. That all five words are queued, changed or
not, and in this order, is the model's (DEDUCED, log 13; DESIGN CHOICE, log 12). -/
def Obligations.BlockedWriteRecorded : Prop :=
  ∀ (s : State) (addr : Addr) (lanes : Lanes) (d : Word) (reason : BlockedReason), Ready s →
    s.part.writeBlocked addr lanes d = some reason →
    ∃ q : Machine.Part, exec (.blockedWrite addr lanes d) s = answers s q ∧
      exec (.hostAccessComplete (.arrives ⟨addr, .write lanes d⟩)) s = answers s q ∧
      q.blocked = ⟨satAdd s.part.blocked.count 1, addr, reason, true⟩ ∧
      q.reports = queueAll (q.blocked.updates ++ [(.base 37, q.summaryFlags)]) s.part.reports ∧
      { q with blocked := s.part.blocked, reports := s.part.reports } = s.part

/-- Which host writes are blocked, and why: by the word's number in the base block and in an LCB, whatever the lanes and the data;
every write in the ring of a protected line; no gate write, no window write, none in "DORMANT". -/
def Obligations.BlockedClasses : Prop :=
  ∀ (p : Machine.Part) (lanes : Lanes) (d : Word), p.MapSound →
    (p.state = .dormant → p.map = none → ∀ a, p.writeBlocked a lanes d = none) ∧
    p.writeBlocked gateAddr lanes d = none ∧
    (∀ w : Nat, w < 255 → p.state ≠ .dormant → p.writeBlocked (baseWordAddr w) lanes d =
      if w ≤ 6 then some .setupLocked else if 32 ≤ w ∧ w ≤ 47 then some .reportWord else none) ∧
    (∀ (i : LineNo) (w : Nat), p.hasLine i = true → w < 64 →
      (32 ≤ w ∧ w ≤ 55 → p.writeBlocked (lcbAddr p.regionBase i w) lanes d = some .reportWord) ∧
      (w < 3 ∨ 22 ≤ w ∧ w ≤ 31 ∨ 56 ≤ w → p.writeBlocked (lcbAddr p.regionBase i w) lanes d = none)) ∧
    (∀ (i : LineNo) (w : Nat), p.hasLine i = true → w < 16 →
      p.writeBlocked (windowAddr p.regionBase i w) lanes d = none) ∧
    (∀ (i : LineNo) (a : Addr), p.isProtected i = true → (p.line i).ringBase ≤ a.toNat →
      a.toNat < (p.line i).ringBase + (p.line i).ringSize → a.toNat < 0x1FFF00 →
      (a.toNat < p.regionBase.toNat ∨ p.regionBase.toNat + 2560 ≤ a.toNat) →
      p.writeBlocked a lanes d = some .ringProtected)

/-- Every host access that no block watches is forwarded unchanged and changes nothing else, in every part state: in "DORMANT" it is
served at once; every read but the substituted ones; every write of the gate word outside "DORMANT", of plain memory, of the
words that R4 and R5 leave plain or ignored, a one-lane write of words 16 to 18, and a full-word write to them of a value that is
none of theirs (R30, R31, R34). So is one that arrives together with another
event, before the grant for both (R15; the operand is the model's, log 4). -/
def Obligations.AccessesForwarded : Prop :=
  (∀ (s : State) (a : HostAccess), Ready s → s.part.state = .dormant → AsleepInDormant s.part → s.part.hostWait = false →
     (a.addr ≠ gateAddr ∨ a.op = .read) →
     exec (.hostAccessComplete (.arrives a)) s =
       .next { s with part := { s.part with port := { s.part.port with serving := some (.host a) } } }) ∧
  (∀ (s : State) (a : Addr) (lanes : Lanes) (d : Word), Ready s → s.part.MapSound →
     let forwarded := fun op =>
       exec (.hostAccessComplete (.arrives ⟨a, op⟩)) s = answers s (s.part.forward ⟨a, op⟩) ∧
       exec (.hostAccessComplete (.arrivesTogether ⟨a, op⟩)) s = .next { s with part := s.part.forward ⟨a, op⟩ }
     let inForce : Prop := s.part.state = .armed ∨ s.part.state = .disarming
     let one : Prop := lanes ≠ .both
     ((∀ i w, s.part.hasLine i = true → w < 16 → a ≠ windowAddr s.part.regionBase i w) →
       (inForce → a ≠ baseWordAddr 46 ∧ a ≠ baseWordAddr 47) → forwarded .read) ∧
     (a = gateAddr → s.part.state ≠ .dormant → forwarded (.write lanes d)) ∧
     (a.toNat < 0x1FFF00 →
       (∀ m, s.part.map = some m → a.toNat < m.regionBase.toNat ∨ m.regionBase.toNat + 2560 ≤ a.toNat) →
       (∀ i, s.part.isProtected i = true →
         a.toNat < (s.part.line i).ringBase ∨ (s.part.line i).ringBase + (s.part.line i).ringSize ≤ a.toNat) →
       forwarded (.write lanes d)) ∧
     (∀ w, w < 255 → a = baseWordAddr w →
       7 ≤ w ∧ w ≤ 15 ∨ 20 ≤ w ∧ w ≤ 31 ∨ 48 ≤ w ∨ w = 16 ∧ (one ∨ ¬ inForce ∨ d ≠ 0 ∧ d ≠ 1) ∨
         w = 17 ∧ (one ∨ s.part.state ≠ .armed ∨ d ≠ 0xF0F0 ∧ d ≠ 0x0F0F) ∨
         w = 18 ∧ (one ∨ s.part.state ≠ .armed ∨ d ≠ 0x2D71) ∨ w = 19 ∧ ¬ inForce →
       forwarded (.write lanes d)) ∧
     (∀ i w, s.part.hasLine i = true → a = lcbAddr s.part.regionBase i w → 22 ≤ w ∧ w ≤ 31 ∨ 56 ≤ w ∧ w ≤ 63 →
       forwarded (.write lanes d)) ∧
     (∀ m i w, s.part.map = some m → s.part.hasLine i = false →
       w < 64 ∧ a = lcbAddr m.regionBase i w ∨ w < 16 ∧ a = windowAddr m.regionBase i w → forwarded (.write lanes d)))

/-- A host access completes: a write changes the strobed lanes of its word and nothing else of the bank, a read returns the word as
it stands; the wait output is deasserted. The host's next access may arrive at that completion: it meets the state so left, and
one grant follows (R15; the operand is the model's, log 4). A read that a block snoops is not this statement's. -/
def Obligations.HostAccessCompletes : Prop :=
  ∀ (s : State) (a : Addr), MemoryCanonical s →
    let leaves := fun t : State =>
      exec (.hostAccessComplete (.completes none)) s = answers t t.part ∧
      ∀ b, s.part.port.waiting = none → s.part.held = none →
        exec (.hostAccessComplete (.completes (some b))) s = exec (.hostAccessComplete (.arrives b)) t
    (∀ lanes d, s.part.port.serving = some (.host ⟨a, .write lanes d⟩) → ∃ m : Memory,
      leaves { s with part := { s.part.freePort with hostWait := false }, mem := m } ∧
      (∀ k, (k = lowCell a ∧ lanes ≠ .high ∨ k = highCell a ∧ lanes ≠ .low) ∨ m.readByte k = s.mem.readByte k) ∧
      (lanes ≠ .high → m.readByte (lowCell a) = loByte d) ∧ (lanes ≠ .low → m.readByte (highCell a) = hiByte d)) ∧
    (s.part.port.serving = some (.host ⟨a, .read⟩) → (∀ i k, s.part.decode a ≠ .ring i k) →
      (∀ i, s.part.decode a ≠ .lcb i 45) →
      leaves { s with part := { s.part.freePort with hostWait := false, readData := s.mem.readWord a } })

/-- The arbitration of the port and its frame. The access that each requester of the internal side presents and its address: the
setup reads in order; a reclaim read of the size word; a walk's reads of report words 37, 38, 40, 41, 42, or of the header it stands
at; the next word of a record. The addresses of the report words; what each internal access does to the bank. That an abandoned
walk read stays presented at its own address is the model's reading (DEDUCED, log 22). -/
def Obligations.PortArbitration : Prop :=
  (∀ (p : Machine.Part) (other : Option Serving), p.otherRequest = other →
    let ring := fun (i : LineNo) k =>
      BitVec.ofNat 21 (65536 * (p.line i).shadow[7].toNat + (p.line i).shadow[8].toNat + k)
    let reading : Prop := p.state = .arming ∧ p.setupCopy.length < 7
    (reading → other = some (.setupRead p.setupCopy.length)) ∧
    (¬ reading → p.writer.flight = none → other = none) ∧
    (∀ i job noted o, ¬ reading → p.writer.flight = some ⟨i, .reclaimRead job noted o⟩ →
      other = some (.reclaimRead (ring i (noted + 1)))) ∧
    (∀ i got a, ¬ reading → p.writer.flight = some ⟨i, .walkStep got (some a)⟩ → other = some (.walkRead a)) ∧
    (∀ i got run, ¬ reading → p.writer.flight = some ⟨i, .walkStep got none⟩ → (p.line i).walk = some (.records run) →
      other = some (.walkRead (ring i (run.pos + got.length)))) ∧
    (∀ i got m w, ¬ reading → p.writer.flight = some ⟨i, .walkStep got none⟩ → (p.line i).walk = some .pointers →
      p.map = some m → [37, 38, 40, 41, 42][got.length]? = some w →
      other = some (.walkRead (BitVec.ofNat 21 (m.regionBase.toNat + 64 * i.val + w)))) ∧
    (∀ i w k d rest, ¬ reading → p.writer.flight = some ⟨i, .writing w⟩ → w.todo = (k, d) :: rest →
      other = some (.recordWord (ring i k) d)) ∧
    (∀ w, p.reportAddr (.base w) = BitVec.ofNat 21 (0x1FFF00 + w)) ∧
    (∀ m i w, p.map = some m → p.reportAddr (.lcb i w) = BitVec.ofNat 21 (m.regionBase.toNat + 64 * i.val + w))) ∧
  (∀ (m : Memory) (a : Addr) (w : ReportWord) (n : Nat) (d : Word),
    Memory.access m (.setupRead n) = (m, m.readWord (BitVec.ofNat 21 (0x1FFF00 + n))) ∧
    Memory.access m (.reclaimRead a) = (m, m.readWord a) ∧ Memory.access m (.walkRead a) = (m, m.readWord a) ∧
    (Memory.access m (.recordWord a d)).1 = Memory.writeLanes m a .both d ∧
    (Memory.access m (.report w a d)).1 = Memory.writeLanes m a .both d) ∧
  ∀ p : Machine.Part,
    (∀ q, p.port.serving = some q → p.grant = p) ∧
    (p.port.serving = none → p.port.waiting = none → p.internalRequest = none → p.grant = p) ∧
    (∀ a, p.port.serving = none → p.port.waiting = some a → p.internalRequest = none →
      p.grant = { p with port := { p.port with serving := some (.host a), waiting := none } }) ∧
    (∀ a r, p.port.serving = none → p.port.waiting = some a → p.internalRequest = some r →
      p.port.passOver < p.port.allowance →
      p.grant =
        { p with port := { p.port with serving := some (.host a), waiting := none, passOver := p.port.passOver + 1 } }) ∧
    (∀ r, p.port.serving = none → p.internalRequest = some r →
      (p.port.waiting = none ∨ p.port.passOver = p.port.allowance) →
      ∃ rest, p.grant = { p with port := { p.port with serving := some r, passOver := 0 }, reports := rest } ∧
        (∀ w v k, p.reports = (w, v) :: k → r = .report w (p.reportAddr w) v ∧ rest = k) ∧
        (p.reports = [] → rest = [] ∧ p.otherRequest = some r))

/-- What follows every event touches the port, the pending set, the wait output and the closing write alone; the closing write
starts in "DISARMING" alone, when nothing is pending and every line is in "OFF" with no job. In every part state what follows is
the grant of `PortArbitration`, with the conditions of R35 looked at before it and after it (a grant may take the last pending
word), and the wait output: a closing write starts exactly when they hold at one of the two, and an event leaves the port free only
when nothing asks for it. -/
def Obligations.DisarmCompletes : Prop :=
  (∀ p : Machine.Part,
     let close := fun q : Machine.Part => { q with reports := [(.base 32, 1)], closing := true }
     let wait := fun q : Machine.Part => { q with hostWait := q.hostWait || q.port.waiting.isSome || q.held.isSome }
     (DisarmEnds p → p.arbitrate = wait (close p).grant) ∧
     (¬ DisarmEnds p → DisarmEnds p.grant → p.arbitrate = wait (close p.grant)) ∧
     (¬ DisarmEnds p → ¬ DisarmEnds p.grant → p.arbitrate = wait p.grant) ∧
     (p.arbitrate.closing = true ↔ p.closing = true ∨ DisarmEnds p ∨ DisarmEnds p.grant) ∧
     (p.arbitrate.port.serving = none ↔
       p.port.serving = none ∧ p.port.waiting = none ∧ p.internalRequest = none ∧ ¬ DisarmEnds p)) ∧
  (∀ p : Machine.Part,
     { p.arbitrate with port := p.port, reports := p.reports, hostWait := p.hostWait, closing := p.closing } = p ∧
     p.arbitrate.port.allowance = p.port.allowance ∧
     (p.state ≠ .disarming → p.arbitrate.closing = p.closing) ∧
     (p.arbitrate.closing = true → p.closing = true ∨
       p.state = .disarming ∧ ∀ i, p.hasLine i = true → (p.line i).state = .off ∧ p.hasWork i = false) ∧
     (p.arbitrate.hostWait = (p.hostWait || p.arbitrate.port.waiting.isSome || p.held.isSome))) ∧
  (∀ p : Machine.Part, p.state = .disarming → p.closing = false →
     (p.checkDisarmEnd = { p with reports := [(.base 32, 1)], closing := true } ↔
       p.reports = [] ∧ ∀ i, p.hasLine i = true → (p.line i).state = .off ∧ p.hasWork i = false) ∧
     (p.checkDisarmEnd ≠ p → p.checkDisarmEnd = { p with reports := [(.base 32, 1)], closing := true }))

/-- The pending set: an update of a pending word keeps its place, another joins the end; no word is pending twice. A report write
other than the closing write completes: its word holds the value written, every other word is as before, and nothing of the part
but the port changes before the next grant. The present value of every report word of an LCB, and of the base block's but 33 and
37 to 41, field by field (11.2, 11.3, 11.6). -/
def Obligations.ReportQueue : Prop :=
  (∀ (w : ReportWord) (v : Word) (r : List (ReportWord × Word)),
     ((∀ u, (w, u) ∉ r) → queueUpdate w v r = r ++ [(w, v)]) ∧
     (∀ (l k : List (ReportWord × Word)) (u : Word), r = l ++ (w, u) :: k → (∀ x, (w, x) ∉ l) →
       queueUpdate w v r = l ++ (w, v) :: k) ∧
     ((r.map Prod.fst).Nodup → ((queueUpdate w v r).map Prod.fst).Nodup)) ∧
  (∀ (s : State) (w : ReportWord) (a : Addr) (v : Word), MemoryCanonical s → s.part.resetPending = false →
     s.part.port.serving = some (.report w a v) → s.part.servesClosing = false →
     ∃ m : Memory, exec .reportWriteComplete s = .next { s with part := s.part.freePort.arbitrate, mem := m } ∧
       m.readWord a = v ∧ ∀ b, b ≠ a → m.readWord b = s.mem.readWord b) ∧
  (∀ l : Line,
     let on := fun (b : Bool) (n : Nat) => if b then 2 ^ n else 0
     let outcome : RequestOutcome → Nat := fun o => match o with
       | .none => 0 | .accepted => 1 | .done => 2 | .refusedState => 3 | .refusedBusy => 4 | .refusedHeld => 5
       | .badSettings => 6 | .unknown => 7
     (l.report 32).toNat =
       (match l.state with | .off => 0 | .listen => 1 | .drive => 3 | .settle => 4 | .drain => 5 | .release => 6) +
         on l.walk.isSome 4 + on l.probe.isSome 5 + on l.heldHandsOff 8 + on l.heldForced 9 ∧
     (l.modeStatus.offset < 32 → (l.report 33).toNat =
       l.modeStatus.request.toNat + 256 * outcome l.modeStatus.outcome + 2048 * l.modeStatus.offset) ∧
     (l.report 34).toNat = l.commandStatus.command.toNat + 256 * outcome l.commandStatus.outcome ∧
     l.report 35 = l.flags ∧
     (l.report 36).toNat = on l.openCondition 0 + on l.stuckCondition 1 + on l.ringDue 2 + on l.breakCredit 3 ∧
     (∀ r, l.ring = .present r → [37, 38, 39, 40, 41, 42].map l.report =
       [BitVec.ofNat 16 r.w, BitVec.ofNat 16 r.r, BitVec.ofNat 16 r.count, r.nextSeq,
         (match r.padStart with | none => 0xFFFF | some k => BitVec.ofNat 16 k), BitVec.ofNat 16 r.occupied]) ∧
     l.report 43 = BitVec.ofNat 16 l.effDivisor ∧ l.report 44 = BitVec.ofNat 16 l.effFraction ∧
     l.report 45 = l.probeResult ∧
     (∀ (r : ProbeResult) (k : Nat), k < 16 → (r.toWord k).toNat =
       k + 256 * (match r with | .found => 1 | .tooFew => 2 | .noMatch => 3 | .abandoned => 4)) ∧
     [46, 47, 48, 49, 50, 51, 52].map l.report =
       [Counter.overrunBytes, .recordsDiscarded, .recordsReclaimed, .bytesSent, .entriesLost, .entriesRefused,
         .breaksRefused].map l.counter ∧
     (l.report 53).toNat = l.fenceTag.toNat) ∧
  (∀ p : Machine.Part,
     (p.baseReport 32).toNat = (match p.state with | .dormant => 1 | .arming => 2 | .armed => 3 | .disarming => 4) ∧
     (p.baseReport 34).toNat = (match p.resetCause with | .powerOn => 1 | .resetPin => 2) ∧
     p.baseReport 35 = 0xEB32 ∧ p.baseReport 36 = 1 ∧ p.baseReport 42 = p.blocked.count ∧
     (p.baseReport 43).toNat = p.blocked.addr.toNat / 65536 ∧ (p.baseReport 44).toNat = p.blocked.addr.toNat % 65536 ∧
     (p.baseReport 45).toNat = (match p.blocked.reason with
       | .none => 0 | .setupLocked => 1 | .reportWord => 2 | .locked => 3 | .range => 4 | .ringProtected => 5))

/-- While a host access is under way no other arrives: a command that is one changes nothing. -/
def Obligations.HostWaitsItsTurn : Prop :=
  ∀ (s : State), s.part.busBusy = true → ∀ (i : LineNo) (w : Fin 16) (k : Fin 22) (lanes : Lanes) (a : HostAccess) (d : Word),
    ∀ c ∈ [Instr.gateWrite lanes d, .attentionEnable lanes d, .forceSet, .forceClear, .disarm, .baseAcknowledge lanes d,
        .timestampHighRead, .timestampLowRead, .hostAccessComplete (.arrives a),
        .hostAccessComplete (.arrivesTogether a), .blockedWrite a.addr lanes d] ++
      [.modeRequestOff i lanes d, .modeRequestListen i lanes d, .modeRequestListenResume i lanes d,
        .modeRequestDrive i lanes d, .modeRequestUnknown i lanes d, .close i lanes d, .flush i lanes d, .probe i lanes d,
        .probeApply i lanes d, .discardTx i lanes d, .resetCounts i lanes d, .commandUnknown i lanes d] ++
      [.lineAcknowledge i lanes d, .settingsWrite i k lanes d, .frameWrite i lanes d, .rateDivisorWrite i lanes d,
        .rateFractionWrite i lanes d, .breakPolicyWrite i lanes d, .attentionThresholdWrite i lanes d,
        .coalesceTimeWrite i lanes d, .quietTimeWrite i lanes d, .attentionMaskWrite i lanes d, .windowWrite i w lanes d,
        .windowRead i w],
      exec c s = .next s

/-! ## Part control and time (R30, R33, R38, R39) -/

/-- Word 16: a full-word 0 or 1 in "ARMED" or "DISARMING" sets the attention enable; any other value, a single lane, any other part
state leave it; the write is forwarded. Word 19 in "ARMED" or "DISARMING" is intercepted: mask bit 3 clears "BLOCKED_WRITE", an
unstrobed lane's bits being zero; word 37 is queued with the flags as they then stand. In "ARMING" and "DORMANT" it is forwarded. -/
def Obligations.AttentionEnableAndAcknowledge : Prop :=
  (∀ (s : State) (lanes : Lanes) (d : Word), Ready s →
     (s.part.state = .armed ∨ s.part.state = .disarming →
       exec (.attentionEnable .both 0) s =
         answers s ({ s.part with attentionEnable := false }.forward (baseWriteTo 16 .both 0)) ∧
       exec (.attentionEnable .both 1) s =
         answers s ({ s.part with attentionEnable := true }.forward (baseWriteTo 16 .both 1))) ∧
     (s.part.state = .arming ∨ s.part.state = .dormant ∨ lanes ≠ .both ∨ d ≠ 0 ∧ d ≠ 1 →
       exec (.attentionEnable lanes d) s = answers s (s.part.forward (baseWriteTo 16 lanes d)))) ∧
  (∀ (s : State) (lanes : Lanes) (mask : Word), Ready s →
     (s.part.state = .armed ∨ s.part.state = .disarming → ∃ q : Machine.Part,
       exec (.baseAcknowledge lanes mask) s = answers s q ∧
         q.blocked.latched = (s.part.blocked.latched && !(lanes != .high && mask.getLsbD 3)) ∧
         q.reports = queueUpdate (.base 37) q.summaryFlags s.part.reports ∧
         { q with blocked := { q.blocked with latched := s.part.blocked.latched }, reports := s.part.reports } = s.part) ∧
     (s.part.state = .arming ∨ s.part.state = .dormant →
       exec (.baseAcknowledge lanes mask) s = answers s (s.part.forward (baseWriteTo 19 lanes mask))))

/-- The timestamp pair: word 46 returns the high half and captures the low half; word 47 returns the capture and releases it, or the
low half when there is none. In "ARMING" and "DORMANT" both reads are forwarded. The end of a 10 ms interval increases the
running counter by one, wrapping to 0, and begins the next interval; a stopped counter does not change. -/
def Obligations.TimestampPair : Prop :=
  (∀ s : State, Ready s →
     (s.part.state = .armed ∨ s.part.state = .disarming →
       exec .timestampHighRead s =
         answers s
           { s.part with
             readData := s.part.counter.extractLsb' 16 16
             captured := some (s.part.counter.extractLsb' 0 16) } ∧
       (∀ c, s.part.captured = some c →
         exec .timestampLowRead s = answers s { s.part with readData := c, captured := none }) ∧
       (s.part.captured = none →
         exec .timestampLowRead s = answers s { s.part with readData := s.part.counter.extractLsb' 0 16 })) ∧
     (s.part.state = .arming ∨ s.part.state = .dormant →
       exec .timestampHighRead s = answers s (s.part.forward ⟨baseWordAddr 46, .read⟩) ∧
       exec .timestampLowRead s = answers s (s.part.forward ⟨baseWordAddr 47, .read⟩))) ∧
  (∀ s : State,
     (∀ t, s.part.nextTick = some t → exec .counterTick s =
       answers s
         { s.part with
           now := max s.part.now t
           counter := if s.part.counter = 4294967295 then 0 else s.part.counter + 1
           nextTick := some (t + 294912) }) ∧
     (s.part.nextTick = none → exec .counterTick s = answers s s.part))

/-! ## Mode requests (R47 to R49, R58 to R68) -/

/-- An "OFF" request in "ARMED", by the state of the line. -/
def Obligations.ModeRequestOff : Prop :=
  ∀ (s : State) (i : LineNo) (lanes : Lanes) (d : Word) (l : Line), Reaches s i → s.part.state = .armed →
    s.part.merged i 0 lanes d = 0 → l = s.part.line i →
    (l.state = .off → Takes (.modeRequestOff i lanes d) s i 0 lanes d s.part (l.requested 0 .accepted 0) [33]) ∧
    (l.state = .listen → Takes (.modeRequestOff i lanes d) s i 0 lanes d (s.part.stepDropped i)
      (((l.unprobed s.part.now s.part.counter).unwalked.wentOff .request s.part.counter).requested 0 .accepted 0)
      (33 :: l.offReports)) ∧
    (l.state = .settle ∨ l.state = .drive ∨ l.state = .drain → Takes (.modeRequestOff i lanes d) s i 0 lanes d s.part
      ((l.released s.part.now .off .request 0).requested 0 .accepted 0) ([32, 33] ++ l.dropReports 0)) ∧
    (l.state = .release → Takes (.modeRequestOff i lanes d) s i 0 lanes d s.part
      ({ l with target := .off, releaseCause := .request }.requested 0 .accepted 0) [33])

/-- A "LISTEN" request in "ARMED", by the state of the line. -/
def Obligations.ModeRequestListen : Prop :=
  ∀ (s : State) (i : LineNo) (lanes : Lanes) (d : Word) (l : Line), Reaches s i → s.part.state = .armed →
    s.part.merged i 0 lanes d = 1 → l = s.part.line i →
    (l.state = .off → s.part.isProtected i = true →
      Takes (.modeRequestListen i lanes d) s i 0 lanes d s.part (l.requested 1 .refusedBusy 0) [33]) ∧
    (∀ offset, l.state = .off → s.part.isProtected i = false → s.part.validate i = some offset →
      Takes (.modeRequestListen i lanes d) s i 0 lanes d s.part (l.requested 1 .badSettings offset) [33]) ∧
    (l.state = .off → s.part.isProtected i = false → s.part.validate i = none →
      Takes (.modeRequestListen i lanes d) s i 0 lanes d s.part
        (((l.freshRing.listening s.part.rxPin[i] s.part.svPin[i] s.part.now).offer
          ⟨.mode, 1, 6, 0, 0, s.part.counter⟩).requested 1 .accepted 0)
        [32, 33, 36, 37, 38, 39, 40, 41, 42, 43, 44]) ∧
    (l.state = .listen ∨ l.state = .drain →
      Takes (.modeRequestListen i lanes d) s i 0 lanes d s.part (l.requested 1 .accepted 0) [33]) ∧
    (l.state = .settle ∨ l.state = .drive ∧ l.queue = [] ∧ l.acting = none →
      Takes (.modeRequestListen i lanes d) s i 0 lanes d s.part
        ((l.released s.part.now .listen .request 0).requested 1 .accepted 0) ([32, 33] ++ l.dropReports 0)) ∧
    (l.state = .drive → l.queue ≠ [] ∨ l.acting ≠ none → Takes (.modeRequestListen i lanes d) s i 0 lanes d s.part
      ({ l with state := .drain }.requested 1 .accepted 0) [32, 33]) ∧
    (l.state = .release → Takes (.modeRequestListen i lanes d) s i 0 lanes d s.part
      ({ l with target := .listen, releaseCause := .request }.requested 1 .accepted 0) [33])

/-- A "LISTEN_RESUME" request in "ARMED", by the state of the line. -/
def Obligations.ModeRequestListenResume : Prop :=
  ∀ (s : State) (i : LineNo) (lanes : Lanes) (d : Word) (l : Line), Reaches s i → s.part.state = .armed →
    s.part.merged i 0 lanes d = 2 → l = s.part.line i →
    (l.state = .off → s.part.isProtected i = true →
      Takes (.modeRequestListenResume i lanes d) s i 0 lanes d s.part (l.requested 2 .refusedBusy 0) [33]) ∧
    (∀ offset, l.state = .off → s.part.isProtected i = false → s.part.validate i = some offset →
      Takes (.modeRequestListenResume i lanes d) s i 0 lanes d s.part (l.requested 2 .badSettings offset) [33]) ∧
    (l.state = .off → s.part.isProtected i = false → s.part.validate i = none →
      Takes (.modeRequestListenResume i lanes d) s i 0 lanes d s.part
        (({ l with ring := .unknown, walk := some .pointers }.listening s.part.rxPin[i] s.part.svPin[i] s.part.now).requested
          2 .accepted 0) [32, 33, 43, 44]) ∧
    (l.state ≠ .off →
      Takes (.modeRequestListenResume i lanes d) s i 0 lanes d s.part (l.requested 2 .refusedState 0) [33])

/-- A "DRIVE" request in "ARMED", by the state of the line. That entry to "SETTLE" ends the mark-hold of a pin reset at once is the
model's reading of R79 (DEDUCED, log 20). -/
def Obligations.ModeRequestDrive : Prop :=
  ∀ (s : State) (i : LineNo) (lanes : Lanes) (d : Word) (l : Line), Reaches s i → s.part.state = .armed →
    s.part.merged i 0 lanes d = 3 → l = s.part.line i →
    (l.state = .off → Takes (.modeRequestDrive i lanes d) s i 0 lanes d s.part (l.requested 3 .refusedState 0) [33]) ∧
    (l.state = .listen → l.heldHandsOff = true ∨ l.heldForced = true →
      Takes (.modeRequestDrive i lanes d) s i 0 lanes d s.part (l.requested 3 .refusedHeld 0) [33]) ∧
    (l.state = .listen → l.heldHandsOff = false → l.heldForced = false → l.walk ≠ none ∨ l.probe ≠ none →
      Takes (.modeRequestDrive i lanes d) s i 0 lanes d s.part (l.requested 3 .refusedBusy 0) [33]) ∧
    (l.state = .listen → l.heldHandsOff = false → l.heldForced = false → l.walk = none → l.probe = none →
      Takes (.modeRequestDrive i lanes d) s i 0 lanes d { s.part with markHold := s.part.markHold.set i none }
        ({ l with
            state := .settle
            settleTimer := some (s.part.now + msPeriods (l.setting 19)) }.requested 3 .accepted 0) [32, 33]) ∧
    (l.state = .settle ∨ l.state = .drive →
      Takes (.modeRequestDrive i lanes d) s i 0 lanes d s.part (l.requested 3 .accepted 0) [33]) ∧
    (l.state = .drain → Takes (.modeRequestDrive i lanes d) s i 0 lanes d s.part
      (({ l with state := .drive, settleTimer := none }.offer ⟨.mode, 3, 1, 0, 5, s.part.counter⟩).requested 3 .accepted 0)
      [32, 33]) ∧
    (l.state = .release → Takes (.modeRequestDrive i lanes d) s i 0 lanes d s.part (l.requested 3 .refusedBusy 0) [33])

/-- An unknown code in "ARMED" gets "UNKNOWN"; in "DISARMING" every request, an unknown code included, gets "REFUSED_BUSY". -/
def Obligations.ModeRequestRefused : Prop :=
  ∀ (s : State) (i : LineNo) (lanes : Lanes) (d v : Word), Reaches s i → s.part.merged i 0 lanes d = v →
    (s.part.state = .armed → 3 < v.toNat → Takes (.modeRequestUnknown i lanes d) s i 0 lanes d s.part
      ((s.part.line i).requested v .unknown 0) [33]) ∧
    (s.part.state = .disarming →
      ∀ c ∈ [(Instr.modeRequestOff i lanes d, decide (v = 0)), (.modeRequestListen i lanes d, decide (v = 1)),
          (.modeRequestListenResume i lanes d, decide (v = 2)), (.modeRequestDrive i lanes d, decide (v = 3)),
          (.modeRequestUnknown i lanes d, decide (3 < v.toNat))],
        c.2 = true → Takes c.1 s i 0 lanes d s.part ((s.part.line i).requested v .refusedBusy 0) [33])

/-- Validation: the checks in their order; the first that fails gives its offset. A ring lies in place below the base block, outside
the console region, outside the ring of every other protected line. -/
def Obligations.ListenValidation : Prop :=
  ∀ (p : Machine.Part) (i : LineNo) (m : AddressMap) (l : Line), p.map = some m → l = p.line i →
    let inPlace : Prop :=
      l.ringBase + l.ringSize - 1 ≤ 0x1FFEFF ∧
      (l.ringBase + l.ringSize - 1 < m.regionBase.toNat ∨ m.regionBase.toNat + 2559 < l.ringBase) ∧
      ∀ j, j ≠ i → p.isProtected j = true → l.ringBase + l.ringSize ≤ (p.line j).ringBase ∨
        (p.line j).ringBase + (p.line j).ringSize ≤ l.ringBase
    let s := fun w => l.setting w
    (∀ offset, p.validate i = some offset ↔
      (frameValid l.shadow[3] = false ∧ offset = 3) ∨
      frameValid l.shadow[3] = true ∧
        ((s 4 = 0 ∨ 4095 < s 4) ∧ offset = 4 ∨ (1 ≤ s 4 ∧ s 4 ≤ 4095) ∧
          (15 < s 5 ∧ offset = 5 ∨ s 5 ≤ 15 ∧
            (2 < s 6 ∧ offset = 6 ∨ s 6 ≤ 2 ∧
              (31 < s 7 ∧ offset = 7 ∨ s 7 ≤ 31 ∧
                (s 8 % 256 ≠ 0 ∧ offset = 8 ∨ s 8 % 256 = 0 ∧
                  ((s 9 = 0 ∨ 128 < s 9) ∧ offset = 9 ∨ (1 ≤ s 9 ∧ s 9 ≤ 128) ∧
                    (¬ inPlace ∧ offset = 7 ∨ inPlace ∧
                      (1 < s 10 ∧ offset = 10 ∨ s 10 ≤ 1 ∧
                        ((s 11 < 16 ∨ 256 < s 11 ∨ s 11 % 2 = 1) ∧ offset = 11 ∨
                          (16 ≤ s 11 ∧ s 11 ≤ 256 ∧ s 11 % 2 = 0) ∧
                          ([(12, decide (255 < s 12)), (15, decide (255 < s 15)), (16, decide (255 < s 16)),
                              (17, decide (255 < s 17)), (18, decide (255 < s 18)), (13, decide (2 < s 13)),
                              (14, decide (7 < s 14)), (19, decide (s 19 = 0 ∨ 255 < s 19)),
                              (20, decide (s 20 = 0 ∨ 255 < s 20)), (21, decide (31 < s 21))].find?
                            (·.2)).map Prod.fst = some offset))))))))))

/-! ## Commands, acknowledgement, settings (R42 to R46, R50 to R56) -/

/-- CLOSE closes an "OPEN" buffer, RESET_COUNTS zeroes the seven counters, in every line state; a value other than 1 to 6 has no
effect. In "DISARMING" every command gets "REFUSED_BUSY" and has no effect. -/
def Obligations.CommandsOfEveryState : Prop :=
  (∀ (s : State) (i : LineNo) (lanes : Lanes) (d v : Word), Reaches s i → s.part.state = .armed →
     s.part.merged i 1 lanes d = v →
     (v = 1 → Takes (.close i lanes d) s i 1 lanes d s.part ((s.part.line i).closeOpen.commanded v .done) [34]) ∧
     (v = 6 → Takes (.resetCounts i lanes d) s i 1 lanes d s.part
       ({ s.part.line i with counters := Vector.replicate 7 0 }.commanded v .done) [34, 46, 47, 48, 49, 50, 51, 52]) ∧
     (v = 0 ∨ 6 < v.toNat →
       Takes (.commandUnknown i lanes d) s i 1 lanes d s.part ((s.part.line i).commanded v .unknown) [34])) ∧
  (∀ (s : State) (i : LineNo) (lanes : Lanes) (d v : Word), Reaches s i → s.part.state = .disarming →
     s.part.merged i 1 lanes d = v →
     ∀ c ∈ [(Instr.close i lanes d, decide (v = 1)), (.flush i lanes d, decide (v = 2)), (.probe i lanes d, decide (v = 3)),
         (.probeApply i lanes d, decide (v = 4)), (.discardTx i lanes d, decide (v = 5)),
         (.resetCounts i lanes d, decide (v = 6)), (.commandUnknown i lanes d, decide (v = 0 ∨ 6 < v.toNat))],
       c.2 = true → Takes c.1 s i 1 lanes d s.part ((s.part.line i).commanded v .refusedBusy) [34])

/-- FLUSH retires every committed record: R becomes W, the count and occupied 0, no pad, the lease closed, the coalesce timer
stopped; W and the next sequence stay. It is refused in "OFF" and while resuming. -/
def Obligations.Flush : Prop :=
  ∀ (s : State) (i : LineNo) (lanes : Lanes) (d : Word) (l : Line), Reaches s i → s.part.state = .armed →
    s.part.merged i 1 lanes d = 2 → l = s.part.line i →
    (l.state = .off → Takes (.flush i lanes d) s i 1 lanes d s.part (l.commanded 2 .refusedState) [34]) ∧
    (l.state ≠ .off → l.walk ≠ none → Takes (.flush i lanes d) s i 1 lanes d s.part (l.commanded 2 .refusedBusy) [34]) ∧
    (∀ r, l.state ≠ .off → l.walk = none → l.ring = .present r →
      Takes (.flush i lanes d) s i 1 lanes d (s.part.readOvertaken i)
        ({ l with
            ring := .present
              { r with
                r := r.w, count := 0, occupied := 0, padStart := none, lease := .closed
                coalesce := .stopped } }.unparked.commanded 2 .done) [34, 36, 38, 39, 41, 42])

/-- PROBE and PROBE_APPLY start a window in "LISTEN" with neither probing nor resuming set, and clear "PROBE_READY". -/
def Obligations.ProbeCommands : Prop :=
  ∀ (s : State) (i : LineNo) (lanes : Lanes) (d v : Word) (l : Line), Reaches s i → s.part.state = .armed →
    s.part.merged i 1 lanes d = v → l = s.part.line i →
    ∀ c ∈ [(Instr.probe i lanes d, (3 : Word), false), (.probeApply i lanes d, 4, true)], v = c.2.1 →
      (l.state ≠ .listen → Takes c.1 s i 1 lanes d s.part (l.commanded v .refusedState) [34]) ∧
      (l.state = .listen → l.probe ≠ none ∨ l.walk ≠ none →
        Takes c.1 s i 1 lanes d s.part (l.commanded v .refusedBusy) [34]) ∧
      (l.state = .listen → l.probe = none → l.walk = none → Takes c.1 s i 1 lanes d s.part
        ({ l with probe := some ⟨c.2.2, s.part.now, 0, none, none⟩, flags := l.flags &&& ~~~4 }.commanded v .accepted)
        [32, 34, 35])

/-- DISCARD_TX empties the queue in "SETTLE", "DRIVE" and "DRAIN", a byte being sent completing; a line in "DRAIN" left with
nothing to send then enters "RELEASE". -/
def Obligations.DiscardTx : Prop :=
  ∀ (s : State) (i : LineNo) (lanes : Lanes) (d : Word) (l : Line), Reaches s i → s.part.state = .armed →
    s.part.merged i 1 lanes d = 5 → l = s.part.line i →
    (l.state = .off ∨ l.state = .listen ∨ l.state = .release →
      Takes (.discardTx i lanes d) s i 1 lanes d s.part (l.commanded 5 .refusedState) [34]) ∧
    (l.state = .settle ∨ l.state = .drive ∨ l.state = .drain ∧ (l.dropQueue 0).queue ≠ [] →
      Takes (.discardTx i lanes d) s i 1 lanes d s.part ((l.dropQueue 0).commanded 5 .done) (34 :: l.dropReports 0)) ∧
    (l.state = .drain → (l.dropQueue 0).queue = [] → Takes (.discardTx i lanes d) s i 1 lanes d s.part
      (((l.dropQueue 0).released s.part.now .listen .request 0).commanded 5 .done) ([32, 34] ++ l.dropReports 0))

/-- An acknowledge write is intercepted in every line state and in "DISARMING": the flags of the mask clear, "OPEN" and "STUCK" are
set again at once while their conditions hold; word 35 is queued, and each summary that changes; the SRAM is not written. -/
def Obligations.LineAcknowledge : Prop :=
  ∀ (s : State) (i : LineNo) (lanes : Lanes) (mask m : Word), Reaches s i →
    m = (match lanes with | .both => mask | .high => mask &&& 0xFF00 | .low => mask &&& 0x00FF) →
    ∃ q : Machine.Part, exec (.lineAcknowledge i lanes mask) s = answers s q ∧
      NotedEvent s.part q i { s.part.line i with flags := (s.part.line i).acknowledgedFlags m } [35]

/-- A settings write of word 3 to 21: blocked with "LOCKED" when the field is not writable in the line's state, else blocked with
"RANGE" when its test fails and the field is tested in that state, else taken with the effect of that moment and forwarded. The
tests of the range check. -/
def Obligations.SettingsWrite : Prop :=
  (∀ (s : State) (i : LineNo) (lanes : Lanes) (d v : Word) (l : Line), Reaches s i → l = s.part.line i →
     ∀ c ∈ [((3 : Fin 22), Instr.frameWrite i lanes d), (4, .rateDivisorWrite i lanes d), (5, .rateFractionWrite i lanes d),
         (6, .breakPolicyWrite i lanes d), (15, .attentionThresholdWrite i lanes d), (16, .coalesceTimeWrite i lanes d),
         (18, .quietTimeWrite i lanes d), (21, .attentionMaskWrite i lanes d)] ++
       [(7 : Fin 22), 8, 9, 10, 11, 12, 13, 14, 17, 19, 20].map (fun w => (w, .settingsWrite i w lanes d)),
       v = s.part.merged i c.1 lanes d →
       let addr := lcbAddr s.part.regionBase i c.1.val
       let locked : Prop :=
         3 ≤ c.1.val ∧ c.1.val ≤ 5 ∧ l.state ≠ .off ∧ l.state ≠ .listen ∨
         7 ≤ c.1.val ∧ c.1.val ≤ 10 ∧ (l.state ≠ .off ∨ s.part.isProtected i = true) ∨ c.1.val = 11 ∧ l.state ≠ .off
       let tested : Prop := l.state ≠ .off ∨ c.1.val = 6 ∨ 12 ≤ c.1.val
       (locked → exec c.2 s = answers s (s.part.recordBlocked addr .locked)) ∧
       (¬ locked → tested → settingInRange c.1 v = false → exec c.2 s = answers s (s.part.recordBlocked addr .range)) ∧
       (¬ locked → ¬ tested ∨ settingInRange c.1 v = true →
         Takes c.2 s i c.1 lanes d s.part (l.settled c.1 v s.part.now s.part.counter)
           ((if 3 ≤ c.1.val ∧ c.1.val ≤ 5 ∧ l.state = .listen ∧ l.probe ≠ none then l.probeReports else []) ++
             if (c.1 = 4 ∨ c.1 = 5) ∧ l.state = .listen then [43, 44]
             else if l.liveConditions ≠ (l.settled c.1 v s.part.now s.part.counter).liveConditions then [36] else []))) ∧
  (∀ v : Word, settingInRange 3 v = frameValid v ∧
     (settingInRange 4 v = true ↔ v ≠ 0 ∧ v.toNat ≤ 4095) ∧ (settingInRange 5 v = true ↔ v.toNat ≤ 15) ∧
     (settingInRange 6 v = true ↔ v.toNat ≤ 2) ∧
     (∀ w ∈ [(12 : Fin 22), 15, 16, 17, 18], settingInRange w v = true ↔ v.toNat ≤ 255) ∧
     (settingInRange 13 v = true ↔ v.toNat ≤ 2) ∧ (settingInRange 14 v = true ↔ v.toNat ≤ 7) ∧
     (∀ w ∈ [(19 : Fin 22), 20], settingInRange w v = true ↔ v ≠ 0 ∧ v.toNat ≤ 255) ∧
     (settingInRange 21 v = true ↔ v.toNat ≤ 31) ∧
     (frameValid v = true ↔ ∃ b ∈ [7, 8], ∃ p ∈ [0, 1, 2], ∃ n ∈ [1, 2], v.toNat = 256 * n + 16 * p + b))

/-! ## The transmit window (R136 to R148) -/

/-- A window write that the line refuses (the part disarming, the line neither in "SETTLE" nor in "DRIVE", a single lane, an entry
word of no kind or of an excluded value) is forwarded and counted as refused. -/
def Obligations.WindowWriteRefused : Prop :=
  ∀ (s : State) (i : LineNo) (w : Fin 16) (lanes : Lanes) (d : Word), Reaches s i →
    (s.part.state = .disarming ∨ ¬((s.part.line i).state = .settle ∨ (s.part.line i).state = .drive) ∨ lanes ≠ .both ∨
      5 < (hiByte d).toNat ∨ ((hiByte d).toNat = 1 ∨ (hiByte d).toNat = 2) ∧ loByte d = 0 ∨
      (hiByte d).toNat = 3 ∧ 11 < (loByte d).toNat) →
    ∃ q : Machine.Part,
      exec (.windowWrite i w lanes d) s = answers s (q.forward ⟨windowAddr s.part.regionBase i w.val, .write lanes d⟩) ∧
        NotedEvent s.part q i ((s.part.line i).tallied 0 1)
          (if (s.part.line i).counter .entriesRefused = 65535 then [] else [51])

/-- A window write that carries an entry joins the end of the queue when there is room, and begins to act at once in a line in
"DRIVE" whose queue is empty; with a full queue it is lost when the hold limit is 0, else held. A hold that expires forwards its
write and loses its entry. The entry that a word carries: its kind in bits 15 to 8, its value in bits 7 to 0. (Microseconds in
reference periods are rounded up: DESIGN CHOICE, log 14.) -/
def Obligations.WindowWriteTaken : Prop :=
  (∀ (s : State) (i : LineNo) (w : Fin 16) (d : Word) (e : Entry) (l : Line) (a : HostAccess), Reaches s i →
     s.part.state = .armed → l = s.part.line i → l.state = .settle ∨ l.state = .drive → Entry.ofWord d = some e →
     a = ⟨windowAddr s.part.regionBase i w.val, .write .both d⟩ →
     (l.queue.length < 64 → l.state = .settle ∨ l.queue ≠ [] →
       ∃ q : Machine.Part, exec (.windowWrite i w .both d) s = answers s (q.forward a) ∧
         NotedEvent s.part q i { l with queue := l.queue ++ [e] } []) ∧
     (64 ≤ l.queue.length → s.part.holdLimit = 0 →
       ∃ q : Machine.Part, exec (.windowWrite i w .both d) s = answers s (q.forward a) ∧
         NotedEvent s.part q i (l.tallied 1 0) (if l.counter .entriesLost = 65535 then [] else [50])) ∧
     (64 ≤ l.queue.length → s.part.holdLimit ≠ 0 →
       exec (.windowWrite i w .both d) s =
         answers s { s.part with held := some ⟨i, e, a, s.part.now + usPeriods s.part.holdLimit⟩ }) ∧
     (l.queue = [] → l.state = .drive → l.acting = none → ∃ q : Machine.Part,
       exec (.windowWrite i w .both d) s = answers s (Part.advanceQueue (q.forward a) i) ∧
       NotedEvent s.part q i { l with queue := [e] } [])) ∧
  (∀ s : State,
     (∀ h, s.part.held = some h → ∃ q : Machine.Part, exec .holdExpiry s = answers s (q.forward h.access) ∧
       NotedEvent { s.part with held := none, now := max s.part.now h.expiry } q h.line ((s.part.line h.line).tallied 1 0)
         (if (s.part.line h.line).counter .entriesLost = 65535 then [] else [50])) ∧
     (s.part.held = none → exec .holdExpiry s = answers s s.part)) ∧
  (∀ (d : Word) (kind : EntryKind) (v : Byte), Entry.ofWord d = some ⟨kind, v⟩ ↔
     v.toNat = d.toNat % 256 ∧
     d.toNat / 256 =
       (match kind with | .data => 0 | .brk => 1 | .pause => 2 | .rate => 3 | .fence => 4 | .drop => 5) ∧
     (kind = .brk ∨ kind = .pause → v ≠ 0) ∧ (kind = .rate → v.toNat < 12)) ∧
  (∀ n, n * 294912 ≤ 10000 * usPeriods n ∧ 10000 * usPeriods n < n * 294912 + 10000)

/-- A window read is substituted: it returns the free entry count, and in bit 15 whether the line accepts entries; the SRAM is not
read. -/
def Obligations.WindowRead : Prop :=
  ∀ (s : State) (i : LineNo) (w : Fin 16), Reaches s i → (s.part.line i).queue.length ≤ 64 →
    ∃ r : Word, exec (.windowRead i w) s = answers s { s.part with readData := r } ∧
      (r.extractLsb' 0 15).toNat = 64 - (s.part.line i).queue.length ∧
      (r.getLsbD 15 = true ↔
        s.part.state = .armed ∧ ((s.part.line i).state = .settle ∨ (s.part.line i).state = .drive))

/-! ## Snooped reads (R12, R110, R111, R161) -/

/-- A host read of LCB word 45 that returns the probe result clears "PROBE_READY"; one that returns another word changes nothing. -/
def Obligations.ProbeResultRead : Prop :=
  ∀ (s : State) (i : LineNo) (d : Word) (p : Machine.Part) (l : Line), s.part.hasLine i = true → s.part.MapSound →
    s.part.port.serving = some (.host ⟨lcbAddr s.part.regionBase i 45, .read⟩) →
    d = s.mem.readWord (lcbAddr s.part.regionBase i 45) → p = s.part.hostRead d → l = s.part.line i →
    (d = l.probeResult → ∃ q : Machine.Part, exec .probeResultRead s = answers s q ∧
      NotedEvent p q i { l with flags := l.flags &&& ~~~4 } (if l.flags.getLsbD 2 then [35] else [])) ∧
    (d ≠ l.probeResult → exec .probeResultRead s = answers s p) ∧
    exec (.hostAccessComplete (.completes none)) s = exec .probeResultRead s

/-- A host read of offset R + 1 of a live ring: on an empty ring nothing; a valid size opens the lease; another latches
"HEADER_MISMATCH". A read of another offset: at R + S - 1 under an open lease, live or lapsed, the record at R retires; elsewhere,
under a closed lease, or of a ring that is not live, the read changes nothing. That an opening at lease time 0, which opens lapsed,
unparks a parked job and overtakes no reclaim read is the model's reading of R128 and R129 (DEDUCED, log 23). -/
def Obligations.RingReads : Prop :=
  (∀ (s : State) (i : LineNo) (a : Addr) (r : Ring) (d : Word) (p : Machine.Part) (l : Line),
     s.part.port.serving = some (.host ⟨a, .read⟩) → s.part.decode a = .ring i (r.r + 1) → s.part.liveRing i = some r →
     d = s.mem.readWord a → p = s.part.hostRead d → l = s.part.line i →
     (r.count = 0 → exec .sizeWordRead s = answers s p) ∧
     (r.count ≠ 0 → r.admitsSize l.ringSize d.toNat → l.setting 17 = 0 →
       exec .sizeWordRead s =
         answers s
           { p with lines := p.lines.set i { l with ring := .present { r with lease := .opened d.toNat none } }.unparked }) ∧
     (r.count ≠ 0 → r.admitsSize l.ringSize d.toNat → l.setting 17 ≠ 0 →
       exec .sizeWordRead s =
         answers s
           { p.readOvertaken i with
             lines := p.lines.set i
               { l with
                 ring := .present { r with lease := .opened d.toNat (some (p.now + msPeriods (l.setting 17))) } } }) ∧
     (r.count ≠ 0 → ¬ r.admitsSize l.ringSize d.toNat → ∃ q : Machine.Part, exec .sizeWordRead s = answers s q ∧
       NotedEvent p q i { l with flags := l.flags ||| 256 } (if l.flags.getLsbD 8 then [] else [35])) ∧
     exec (.hostAccessComplete (.completes none)) s = exec .sizeWordRead s) ∧
  (∀ (s : State) (i : LineNo) (a : Addr) (k : Nat) (d : Word) (p : Machine.Part) (l : Line),
     s.part.port.serving = some (.host ⟨a, .read⟩) → s.part.decode a = .ring i k → d = s.mem.readWord a →
     p = s.part.hostRead d → l = s.part.line i →
     (∀ r n t r', s.part.liveRing i = some r → r.lease = .opened n t → k ≠ r.r + 1 → k = r.r + n - 1 →
       r' = r.withoutOldest l.ringSize n p.now (l.setting 16) →
       exec (.hostAccessComplete (.completes none)) s = exec .retireByRead s ∧
       ∃ q : Machine.Part, exec .retireByRead s = answers s q ∧
         NotedEvent (p.readOvertaken i) q i { l with ring := .present r' }.unparked
           ([38, 39, 42] ++ (if r'.padStart ≠ r.padStart then [41] else []) ++
             (if r'.due (l.setting 15) ≠ r.due (l.setting 15) then [36] else []))) ∧
     (∀ r, s.part.liveRing i = some r → k ≠ r.r + 1 → (∀ n t, r.lease = .opened n t → k ≠ r.r + n - 1) →
       exec (.hostAccessComplete (.completes none)) s = answers s p) ∧
     (s.part.liveRing i = none → exec (.hostAccessComplete (.completes none)) s = answers s p))

/-! ## The Capture Writer (R103 to R107, R115 to R118, R121 to R133) -/

/-- An idle writer takes, among the lines that offer work, the first after the pointer of the highest service level, and starts
on its work: a walk step, its retained job, or the job at the front of its list. -/
def Obligations.WriterSelects : Prop :=
  ∀ (s : State) (p : Machine.Part), p = s.part →
    let offers := fun i => p.hasLine i = true ∧
      ((p.line i).walk ≠ none ∨ (p.line i).parked = none ∧ ((p.line i).retained ≠ none ∨ (p.line i).jobs ≠ []))
    let turn := fun (i : LineNo) => match p.writer.pointer with | none => i.val | some k => (i.val + 31 - k.val) % 32
    (p.writer.flight ≠ none ∨ (∀ i, ¬ offers i) → exec .writerSelect s = answers s p) ∧
    (∀ (i : LineNo) (l : Line), p.writer.flight = none → offers i → l = p.line i →
      (∀ j, offers j → (p.line j).setting 14 < l.setting 14 ∨ (p.line j).setting 14 = l.setting 14 ∧ turn i ≤ turn j) →
      (l.walk ≠ none →
        exec .writerSelect s = answers s { p with writer := ⟨some ⟨i, .walkStep [] none⟩, some i⟩ }) ∧
      (∀ job, l.walk = none → l.retained = some job →
        exec .writerSelect s =
          answers s
            (Part.spaceCheck { p with writer := ⟨none, some i⟩, lines := p.lines.set i { l with retained := none } } i job)) ∧
      (∀ b rest, l.walk = none → l.retained = none → l.jobs = .data b :: rest →
        exec .writerSelect s =
          answers s
            (Part.spaceCheck
              { p with
                writer := ⟨none, some i⟩
                lines := p.lines.set i
                  { l with
                    jobs := rest
                    buffers := l.buffers.set b (match l.buffers[b] with | .closed c => .writing c | x => x) } }
              i (.data b))) ∧
      (∀ e rest, l.walk = none → l.retained = none → l.jobs = .event e :: rest →
        exec .writerSelect s =
          answers s
            (Part.spaceCheck
              { p with
                writer := ⟨none, some i⟩, lines := p.lines.set i { l with jobs := rest, droppedEvents := 0 } }
              i (.event e l.droppedEvents))))

/-- The space check of a taken job: the layout from W, and the writing that starts when it fits; else "KEEP" discards the job, and
"OVERWRITE" parks it on a live lease or presents the reclaim read. -/
def Obligations.SpaceCheck : Prop :=
  ∀ (p : Machine.Part) (i : LineNo) (job : TakenJob) (r : Ring) (l : Line) (size n : Nat),
    l = p.line i → l.ring = .present r → size = l.ringSize →
    n = (match job with | .data _ => 9 + l.payloadLimit / 2 + (9 + l.payloadLimit / 2) % 2 | .event _ _ => 10) →
    let padded := fun pad => match pad with
      | none => []
      | some k => [(k, word (256 * 15 + i.val)), (k + 1, word (size - k))]
    let short := fun k m => size - k < m
    let noRoom : Prop :=
      (l.shadow[10] = 1 → ∀ m t, r.lease = .opened m (some t) →
        p.spaceCheck i job =
          { p with writer := ⟨none, p.writer.pointer⟩, lines := p.lines.set i { l with parked := some job } }) ∧
      (l.shadow[10] = 1 → (∀ m t, r.lease ≠ .opened m (some t)) →
        p.spaceCheck i job = { p with writer := ⟨some ⟨i, .reclaimRead job r.r false⟩, p.writer.pointer⟩ }) ∧
      (l.shadow[10] ≠ 1 → ∀ (l' : Line) (bytes : Nat),
        l' = (match job with
          | .data b => { l with buffers := l.buffers.set b .free }
          | .event _ k => { l with droppedEvents := satAdd l.droppedEvents k.toNat }) →
        bytes = (match job with | .data b => l.buffers[b].contents.bytes.length | .event _ _ => 0) →
        NotedEvent { p with writer := ⟨none, p.writer.pointer⟩ } (p.spaceCheck i job) i
          (Line.setCounter
            { l' with
              ring := .present
                { r with discardRecords := satAdd r.discardRecords 1, discardBytes := satAdd r.discardBytes bytes } }
            .recordsDiscarded (satAdd (l.counter .recordsDiscarded) 1))
          (if l.counter .recordsDiscarded = 65535 then [] else [47]))
    (r.discardRecords = 0 → r.discardBytes = 0 →
      let pad := if short r.w n then some r.w else none
      let start := if short r.w n then 0 else r.w
      let need := (if short r.w n ∧ r.occupied ≠ 0 then size - r.w else 0) + n
      (need ≤ size - r.occupied → p.spaceCheck i job =
        { p with
          writer :=
            ⟨some ⟨i, .writing
              ⟨job, false, ⟨pad, start⟩, r.nextSeq, n, pad, padded pad ++ wordsFrom start (l.jobWords i r.nextSeq job)⟩⟩,
              p.writer.pointer⟩ }) ∧
      (size - r.occupied < need → noRoom)) ∧
    (¬(r.discardRecords = 0 ∧ r.discardBytes = 0) →
      let whole : Prop := r.occupied = 0 ∧ short r.w (10 + n)
      let first := if whole ∨ short r.w 10 then some r.w else none
      let gap := if whole ∨ short r.w 10 then 0 else r.w
      let next := if gap + 10 = size ∧ ¬ whole then 0 else gap + 10
      let second := if ¬ whole ∧ short next n then some next else none
      let start := if ¬ whole ∧ short next n then 0 else next
      let need := if whole then 10 + n
        else (if short r.w 10 then size - r.w else 0) + 10 + (if short next n then size - next else 0) + n
      (need ≤ size - r.occupied → p.spaceCheck i job =
        { p with
          lines := p.lines.set i
            { l with ring := .present { r with discardRecords := 0, discardBytes := 0 }, droppedEvents := 0 }
          writer :=
            ⟨some ⟨i, .writing
              ⟨job, true, ⟨second, start⟩, r.nextSeq, 10, first,
                padded first ++
                  wordsFrom gap
                    (eventWords i r.nextSeq ⟨.gap, r.discardRecords, r.discardBytes, 0, 0, p.counter⟩ l.droppedEvents)⟩⟩,
              p.writer.pointer⟩ }) ∧
      (size - r.occupied < need → noRoom))

/-- The kind codes, and the words of an event record and of a "DATA" record, in order, at their ring offsets. A record word completes: the next is
presented (R131); the last commits the record (R107). The commit's report words are queued in the order of R107, W last; a
committed "GAP" is followed by its job's record (R127). -/
def Obligations.RecordWriting : Prop :=
  ([EventKind.mode, .activity, .breakSeen, .stuck, .lineOpen, .lineRestored, .overrun, .gap, .fenceDone, .probeDone,
     .leaseBroken].map EventKind.code = [0x10, 0x11, 0x12, 0x13, 0x14, 0x15, 0x16, 0x17, 0x18, 0x19, 0x1A] ∧
   (∀ (i : LineNo) (seq n : Word) (e : Event), eventWords i seq e n =
     [word (256 * e.kind.code.toNat + i.val), 10, seq, e.stamp.extractLsb' 16 16, e.stamp.extractLsb' 0 16, e.a, e.b, e.c,
       e.d, n]) ∧
   (∀ (i : LineNo) (limit : Nat) (seq : Word) (c : Contents) (ws : List Word) (size : Nat),
     size = 9 + limit / 2 + (9 + limit / 2) % 2 → ws = dataWords i limit size seq c →
     ws.length = size ∧ (16 ≤ limit → limit ≤ 256 → 18 ≤ size ∧ size ≤ 138) ∧
     ws.take 8 =
       [word (256 + i.val), word size, seq, c.stamp.extractLsb' 16 16, c.stamp.extractLsb' 0 16, word c.bytes.length,
         word c.errors, (match c.firstError with | some k => word k | none => 0xFFFF)] ∧
     (∀ j, j < limit / 2 → ws[8 + j]? = some (c.bytes.getD (2 * j) 0 ++ c.bytes.getD (2 * j + 1) 0)) ∧
     ((9 + limit / 2) % 2 = 1 → ws[8 + limit / 2]? = some 0) ∧
     ws.getLast? = some (crc ws.dropLast)) ∧
   (∀ (k : Nat) (ws : List Word) (j : Nat), (wordsFrom k ws)[j]? = ws[j]?.map (fun d => (k + j, d)))) ∧
  (∀ (s : State) (i : LineNo) (w : Writing) (a : Addr) (d : Word) (r r' : Ring) (p : Machine.Part) (l : Line),
     s.part.resetPending = false → s.part.port.serving = some (.recordWord a d) →
     s.part.writer.flight = some ⟨i, .writing w⟩ → p = s.part.freePort → l = s.part.line i →
     (1 < w.todo.length → exec .recordWordComplete s =
       .next
         { s with
           part := { p with
                     writer := ⟨some ⟨i, .writing { w with todo := w.todo.tail }⟩, p.writer.pointer⟩ }.arbitrate
           mem := Memory.writeLanes s.mem a .both d }) ∧
     (w.todo.length = 1 → l.ring = .present r → r' = r.withRecord l.ringSize w.size w.pad w.seq p.now (l.setting 16) →
       ∃ q : Machine.Part,
         exec .commit s = .next { s with part := q.arbitrate, mem := Memory.writeLanes s.mem a .both d } ∧
         let ws := [42, 39, 40] ++ (if w.pad = none then [] else [41]) ++ (if r'.r = r.r then [] else [38]) ++
           (if r'.due (l.setting 15) = r.due (l.setting 15) then [] else [36]) ++ [37]
         ((∀ k v, 36 ≤ k → k ≤ 42 → (ReportWord.lcb i k, v) ∉ p.reports) →
           (q.reports.map Prod.fst).filter (fun u => (List.range 7).any fun k => u == .lcb i (36 + k)) =
             ws.map (ReportWord.lcb i)) ∧
         (w.isGap = false →
           NotedEvent { p with writer := ⟨none, p.writer.pointer⟩ } q i
             { l with
               ring := .present r'
               buffers := match w.job with | .data b => l.buffers.set b .free | .event _ _ => l.buffers } ws) ∧
         (w.isGap = true →
           NotedEvent
             { p with
               writer :=
                 ⟨some ⟨i, .writing
                   ⟨w.job, false, w.place, r'.nextSeq, l.jobSize w.job, w.place.pad,
                     padWords i l.ringSize w.place.pad ++ wordsFrom w.place.offset (l.jobWords i r'.nextSeq w.job)⟩⟩,
                   p.writer.pointer⟩ }
             q i { l with ring := .present r' } ws)))

/-- A reclaim read returns: overtaken, its data is discarded; an invalid size makes the ring fresh; else the record at R is
reclaimed, a lapsed lease being broken. The space check of the job follows. R130 gives no precedence of its two reasons; that C is
"SIZE" for a size that is odd or outside 10 to 138 and also passes E is the model's choice (log 38). -/
def Obligations.ReclaimRead : Prop :=
  ∀ (s : State) (i : LineNo) (job : TakenJob) (noted : Nat) (overtaken : Bool) (a : Addr) (d : Word) (r r' : Ring)
      (p : Machine.Part) (l : Line),
    s.part.resetPending = false → s.part.port.serving = some (.reclaimRead a) →
    s.part.writer.flight = some ⟨i, .reclaimRead job noted overtaken⟩ → d = s.mem.readWord a → p = s.part.freePort →
    l = s.part.line i → l.ring = .present r → r' = r.withoutOldest l.ringSize d.toNat p.now (l.setting 16) →
    (overtaken = true ∨ r.r ≠ noted → exec .reclaimReadReturn s = answers s (p.spaceCheck i job)) ∧
    (overtaken = false → r.r = noted → ¬ r.admitsSize l.ringSize d.toNat → ∃ q : Machine.Part,
      exec .reclaimReadReturn s = answers s (q.spaceCheck i job) ∧
      NotedEvent p q i
        (Line.offer { l.freshRing with flags := l.flags ||| 128 }
          ⟨.mode, l.state.code, 8, if d.toNat % 2 = 1 ∨ d.toNat < 10 ∨ 138 < d.toNat then 5 else 7, l.state.code, p.counter⟩)
        ([36, 37, 38, 39, 40, 41, 42] ++ (if l.flags.getLsbD 7 then [] else [35]))) ∧
    (overtaken = false → r.r = noted → r.admitsSize l.ringSize d.toNat → ∃ q : Machine.Part,
      exec .reclaimReadReturn s = answers s (q.spaceCheck i job) ∧
      let ws := [38, 39, 42] ++ (if l.counter .recordsReclaimed = 65535 then [] else [48]) ++
        (if r'.padStart ≠ r.padStart then [41] else []) ++
        (if r'.due (l.setting 15) ≠ r.due (l.setting 15) then [36] else [])
      let l' := Line.setCounter { l with ring := .present r' } .recordsReclaimed (satAdd (l.counter .recordsReclaimed) 1)
      (r.lease = .closed → NotedEvent p q i l' ws) ∧
      (r.lease ≠ .closed →
        NotedEvent p q i
          (Line.offer { l' with flags := l.flags ||| 64 } ⟨.leaseBroken, r.nextSeq - word r.count, 0, 0, 0, p.counter⟩)
          (ws ++ (if l.flags.getLsbD 6 then [] else [35]))))

/-- A walk read returns: an abandoned step ends its turn, its data discarded; a read that is not the step's last is kept; the last is followed by the
checks of R115 or R116, the first that fails ending the walk with its reason, and ends the turn. -/
def Obligations.WalkReads : Prop :=
  ∀ (s : State) (i : LineNo) (a : Addr) (got : List Word) (abandoned : Option Addr) (d : Word) (p : Machine.Part)
      (l : Line) (size : Nat),
    s.part.resetPending = false → s.part.port.serving = some (.walkRead a) →
    s.part.writer.flight = some ⟨i, .walkStep got abandoned⟩ → d = s.mem.readWord a → l = s.part.line i →
    size = l.ringSize → p = { s.part.freePort with writer := ⟨none, s.part.writer.pointer⟩ } →
    let ends := fun l' => ∃ q : Machine.Part,
      exec .walkReadReturn s = answers s q ∧ NotedEvent p q i l' (walkReports l')
    (abandoned ≠ none → exec .walkReadComplete s = answers s p ∧ exec .walkReadReturn s = answers s p) ∧
    (abandoned = none → got.length + 1 < (match l.walk with | some (.records _) => 3 | _ => 5) →
      exec .walkReadComplete s =
        answers s { p with writer := ⟨some ⟨i, .walkStep (got ++ [d]) none⟩, p.writer.pointer⟩ }) ∧
    (∀ w r next pad, abandoned = none → l.walk = some .pointers → got = [w, r, next, pad] →
      let bad : Prop :=
        w.toNat % 2 = 1 ∨ size ≤ w.toNat ∨ r.toNat % 2 = 1 ∨ size ≤ r.toNat ∨
          pad ≠ 0xFFFF ∧ (pad.toNat % 2 = 1 ∨ size ≤ pad.toNat) ∨ w = r ∧ d ≠ 0 ∧ d.toNat ≠ size
      let words := if r.toNat < w.toNat then w.toNat - r.toNat
        else if w.toNat < r.toNat then size - r.toNat + w.toNat else d.toNat
      (bad → ends (l.walkFailed 1 p.counter)) ∧
      (¬ bad → ends (l.walkedTo ⟨w.toNat, r.toNat, next, words, r.toNat, words, 0, none, none⟩ p.now p.counter))) ∧
    (∀ run h0 h1, abandoned = none → l.walk = some (.records run) → got = [h0, h1] →
      let k := (hiByte h0).toNat
      let n := h1.toNat
      let checks : List (Word × Bool) :=
        [(2, decide (k ≠ 0x01 ∧ k ≠ 0x0F ∧ (k < 0x10 ∨ 0x1A < k))), (3, decide ((loByte h0).toNat ≠ i.val)),
          (4, decide (k = 0x0F ∧ (run.pos = run.r ∨ run.pad ≠ none ∨ run.pos + n ≠ size))),
          (5, decide (0x10 ≤ k ∧ n ≠ 10 ∨ k = 0x01 ∧ (n % 2 = 1 ∨ n < 18 ∨ 138 < n))),
          (7, decide (run.remaining < n ∨ size < run.pos + n)),
          (6, decide (k ≠ 0x0F ∧ run.lastSeq ≠ none ∧ run.lastSeq ≠ some (d - 1)))]
      (∀ c, checks.find? (·.2) = some c → ends (l.walkFailed c.1 p.counter)) ∧
      (checks.find? (·.2) = none →
        ends
          (l.walkedTo
            (if k = 0x0F then { run with remaining := run.remaining - n, pos := 0, pad := some run.pos }
              else
                { run with
                  remaining := run.remaining - n
                  pos := if run.pos + n = size then 0 else run.pos + n
                  found := run.found + 1
                  lastSeq := some d })
            p.now p.counter)))

/-! ## Transmitting (R64, R67, R68, R138 to R147) -/

/-- The head of the queue begins to act, in a line that drives or drains: by its kind it takes time, or leaves at once and the next
begins, or ends driving. A line in "DRAIN" with an empty queue enters "RELEASE". The rate table. -/
def Obligations.HeadActs : Prop :=
  (List.range 12).map rateDivisor = [6144, 3072, 1536, 768, 384, 192, 96, 48, 32, 16, 8, 4] ∧
  ∀ (p : Machine.Part) (i : LineNo) (l : Line), l = p.line i →
    ((l.state ≠ .drive ∧ l.state ≠ .drain) ∨ l.acting ≠ none ∨ l.queue = [] ∧ l.state = .drive → p.advanceQueue i = p) ∧
    (l.state = .drain → l.acting = none → l.queue = [] →
      NotedEvent (p.releaseHold i) (p.advanceQueue i) i (l.released p.now .listen .request (p.heldCount i))
        (32 :: l.dropReports (p.heldCount i))) ∧
    (∀ kind v rest, l.state = .drive ∨ l.state = .drain → l.acting = none → l.queue = ⟨kind, v⟩ :: rest →
      let acts := fun a => p.advanceQueue i = { p with lines := p.lines.set i { l with acting := some a } }
      let leaves := fun l' ws => ∃ q : Machine.Part,
        NotedEvent (p.releaseHold i) q i (Line.headLeft l' (p.heldEntries i)) ws ∧ p.advanceQueue i = q.advanceQueue i
      (kind = .data → acts (.byte l.frame l.bitTime p.now v)) ∧
      (kind = .brk → l.shadow[6] = 1 → acts (.breakSpace (p.now + 294912 * v.toNat) l.frameTime)) ∧
      (kind = .brk → l.shadow[6] = 2 → l.breakCredit = true →
        NotedEvent p (p.advanceQueue i) i
          { l with acting := some (.breakSpace (p.now + 294912 * v.toNat) l.frameTime), breakCredit := false } [36]) ∧
      (kind = .brk → l.shadow[6] ≠ 1 → ¬(l.shadow[6] = 2 ∧ l.breakCredit = true) →
        leaves ((l.setCounter .breaksRefused (satAdd (l.counter .breaksRefused) 1)).tallied 0 1)
          ((if l.counter .breaksRefused = 65535 then [] else [52]) ++
            (if l.counter .entriesRefused = 65535 then [] else [51]))) ∧
      (kind = .pause → acts (.pause (p.now + 294912 * v.toNat))) ∧
      (kind = .rate →
        leaves { l with effDivisor := rateDivisor v.toNat, effFraction := 0, generatorStart := p.now } [43, 44]) ∧
      (kind = .fence →
        leaves
          { l.offer ⟨.fenceDone, v.zeroExtend 16, l.tallies.lost, l.tallies.refused, l.tallies.sent, p.counter⟩ with
            tallies := ⟨0, 0, 0⟩, flags := l.flags ||| 2, fenceTag := v }
          (53 :: if l.flags.getLsbD 1 then [] else [35])) ∧
      (kind = .drop →
        NotedEvent (p.releaseHold i) (p.advanceQueue i) i
          (Line.released { l with queue := rest } p.now .listen .dropEntry (p.heldCount i))
          (32 :: Line.dropReports { l with queue := rest } (p.heldCount i))))

/-- The settle timer expires: the line enters "DRIVE" and the head begins. The release timer expires: the line goes to its target.
A timer that does not run changes nothing. The cause codes. (Milliseconds in reference periods are rounded up: DESIGN CHOICE,
log 14.) -/
def Obligations.SettleAndRelease : Prop :=
  (∀ n, n * 294912 ≤ 10 * msPeriods n ∧ 10 * msPeriods n < n * 294912 + 10) ∧
  [ModeCause.request, .dropEntry, .quiesce, .disarm, .settleDone, .fresh, .resumed, .ringUntrusted].map ModeCause.code =
    [1, 2, 3, 4, 5, 6, 7, 8] ∧
  ∀ (s : State) (i : LineNo) (l : Line), l = s.part.line i →
    (∀ t, l.settleTimer = some t → l.state = .settle → ∃ q : Machine.Part,
      exec (.settleExpiry i) s = answers s (q.advanceQueue i) ∧
      NotedEvent { s.part with now := max s.part.now t } q i
        (Line.offer { l with state := .drive, settleTimer := none } ⟨.mode, 3, 5, 0, 4, s.part.counter⟩) [32]) ∧
    (l.settleTimer = none ∨ l.state ≠ .settle → exec (.settleExpiry i) s = answers s s.part) ∧
    (∀ t, l.releaseTimer = some t → l.state = .release → l.target = .listen → ∃ q : Machine.Part,
      exec (.releaseExpiry i) s = answers s q ∧
      NotedEvent { s.part with now := max s.part.now t } q i
        (Line.offer { l with state := .listen, releaseTimer := none } ⟨.mode, 1, l.releaseCause.code, 0, 6, s.part.counter⟩)
        [32]) ∧
    (∀ t, l.releaseTimer = some t → l.state = .release → l.target = .off → ∃ q : Machine.Part,
      exec (.releaseExpiry i) s = answers s q ∧
      NotedEvent { s.part with now := max s.part.now t } q i (l.wentOff l.releaseCause s.part.counter)
        (32 :: if l.openCondition = true ∨ l.stuckCondition = true then [36] else [])) ∧
    (l.releaseTimer = none ∨ l.state ≠ .release → exec (.releaseExpiry i) s = answers s s.part)

/-- What the head takes time for comes to its end: a byte is counted and leaves, and in "RELEASE" starts the release timer; the
space of a break gives way to its mark; a break's mark and a pause leave uncounted. A held entry joins, and the next head begins.
What TXD presents: mark while the driver is disabled; else the bits of a byte in their times, space for the space of a break, and
mark for everything else. -/
def Obligations.EntriesEnd : Prop :=
  (∀ (p : Machine.Part) (i : LineNo) (l : Line), l = p.line i →
    (p.driverEnabled i = false → p.transmitLevel i = .mark) ∧
    (p.driverEnabled i = true →
      (∀ (f : Machine.FrameFormat) bt start v (n : Nat) level, l.acting = some (.byte f bt start v) →
        start + n * bt ≤ p.now → p.now < start + (n + 1) * bt → (frameLevels f v)[n]? = some level →
        p.transmitLevel i = level) ∧
      (∀ t m, l.acting = some (.breakSpace t m) → p.transmitLevel i = .space) ∧
      (l.acting = none ∨ (∃ t, l.acting = some (.breakMark t)) ∨ (∃ t, l.acting = some (.pause t)) →
        p.transmitLevel i = .mark))) ∧
  ∀ (s : State) (i : LineNo) (l : Line), l = s.part.line i →
    (∀ (f : Machine.FrameFormat) bt start v (p : Machine.Part) l',
      l.acting = some (.byte f bt start v) →
      p = { s.part with
            now := max s.part.now
              (start + (1 + f.dataBits + (if f.parity = .none then 0 else 1) + f.stopBits) * bt) } →
      l' = Line.headLeft
        { l.setCounter .bytesSent (satAdd (l.counter .bytesSent) 1) with
          tallies := { l.tallies with sent := satAdd l.tallies.sent 1 } } (p.heldEntries i) →
      let ws := if l.counter .bytesSent = 65535 then [] else [49]
      (l.state ≠ .release → ∃ q : Machine.Part,
        exec (.dataByteComplete i) s = answers s (q.advanceQueue i) ∧ NotedEvent (p.releaseHold i) q i l' ws) ∧
      (l.state = .release → ∃ q : Machine.Part, exec (.dataByteComplete i) s = answers s q ∧
        NotedEvent (p.releaseHold i) q i { l' with releaseTimer := some (p.now + l.releaseGuard) } ws)) ∧
    (∀ t m p, l.acting = some (.breakSpace t m) → p = { s.part with now := max s.part.now t } →
      exec (.breakSpaceEnd i) s =
        answers s { p with lines := p.lines.set i { l with acting := some (.breakMark (p.now + m)) } }) ∧
    (∀ t (p q : Machine.Part), p = { s.part with now := max s.part.now t } →
      q = { p.releaseHold i with lines := p.lines.set i (l.headLeft (p.heldEntries i)) } →
      (l.acting = some (.breakMark t) → exec (.breakMarkEnd i) s = answers s (q.advanceQueue i)) ∧
      (l.acting = some (.pause t) → exec (.pauseEnd i) s = answers s (q.advanceQueue i)))

/-! ## Receiving (R74, R81 to R99) -/

/-- A change from mark to space: beside the input, a line that regards its input starts the space-run timer, a candidate start bit
in "HUNT", and a run of the probe; the 64th edge ends the probe's window. A return to mark: the space-run timer stops, the stuck
condition clears, a run of the probe is measured; a withheld byte of a space run arrives, and a received break ends with its event. A change less than two periods after the last is
not taken (R172). The model's are: the moment a command carries as the periods since the last event (log 2), the side of an edge
that a sample of the same moment sees (`fill`, DESIGN CHOICE, log 15), an earlier candidate start bit kept until its own sample
(DEDUCED, log 16), that the sample of that earlier candidate is taken at the rate in force at the later change (DESIGN CHOICE,
log 33), and the drop of a change that comes too soon (log 31). -/
def Obligations.RxEdges : Prop :=
  (∀ (s : State) (i : LineNo) (wait : Nat) (p : Machine.Part) (l l' : Line), l = s.part.line i →
     p = { s.part with
           now := s.part.now + wait
           rxPin := s.part.rxPin.set i .space
           taken := { s.part.taken with rx := s.part.taken.rx.set i (some (s.part.now + wait)) } } →
     let held : Prop := ∀ u, s.part.taken.rx[i] = some u → u + 2 ≤ s.part.now + wait
     l' = { l with
            spaceTimer := some (p.now + 200 * 294912)
            receiver :=
              match l.receiver with
              | .hunt none => .hunt (some p.now)
              | .hunt (some e) => .hunt (some (if e + l.bitTime / 2 < p.now then p.now else e))
              | .frame f => .frame { (f.fill .mark p.now) with lastFall := p.now }
              | x => x } →
     (s.part.rxPin[i] = .space ∨ ¬ held → exec (.rxFallingEdge i wait) s = answers s s.part) ∧
     (s.part.rxPin[i] = .mark → held →
       (s.part.hasLine i = false ∨ l.state = .off ∨ l.openCondition = true →
         exec (.rxFallingEdge i wait) s = answers s p) ∧
       (s.part.hasLine i = true → l.state ≠ .off → l.openCondition = false →
         (l.probe = none → exec (.rxFallingEdge i wait) s = answers s { p with lines := p.lines.set i l' }) ∧
         (∀ k, l.probe = some k → k.edges + 1 ≠ 64 →
           exec (.rxFallingEdge i wait) s =
             answers s
               { p with
                 lines := p.lines.set i { l' with probe := some { k with edges := k.edges + 1, run := some p.now } } }) ∧
         (∀ k, l.probe = some k → k.edges + 1 = 64 → ∃ q : Machine.Part,
           exec (.rxFallingEdge i wait) s = answers s q ∧
           NotedEvent p q i
             (l'.delivered { k with edges := 64, run := none } (classifyProbe 64 k.shortest).1 (classifyProbe 64 k.shortest).2
               p.now p.counter)
             ([32, 45] ++ (if l.flags.getLsbD 2 then [] else [35]) ++
               (if k.apply = true ∧ (classifyProbe 64 k.shortest).1 = .found then [43, 44] else [])))))) ∧
  (∀ (s : State) (i : LineNo) (wait : Nat) (p : Machine.Part) (l l' : Line), l = s.part.line i →
     p = { s.part with
           now := s.part.now + wait
           rxPin := s.part.rxPin.set i .mark
           taken := { s.part.taken with rx := s.part.taken.rx.set i (some (s.part.now + wait)) } } →
     let held : Prop := ∀ u, s.part.taken.rx[i] = some u → u + 2 ≤ s.part.now + wait
     l' = { l with
            spaceTimer := none
            stuckCondition := false
            probe :=
              match l.probe with
              | some ⟨apply, start, edges, shortest, some t⟩ =>
                some ⟨apply, start, edges, some (min (shortest.getD (p.now - t)) (p.now - t)), none⟩
              | x => x } →
     let ws := if l.stuckCondition then [36] else []
     (s.part.rxPin[i] = .mark ∨ ¬ held → exec (.rxRisingEdge i wait) s = answers s s.part) ∧
     (s.part.rxPin[i] = .space → held →
       (s.part.hasLine i = false ∨ l.state = .off ∨ l.openCondition = true →
         exec (.rxRisingEdge i wait) s = answers s p) ∧
       (s.part.hasLine i = true → l.state ≠ .off → l.openCondition = false →
         let becomes := fun l'' => ∃ q : Machine.Part, exec (.rxRisingEdge i wait) s = answers s q ∧ NotedEvent p q i l'' ws
         (l.receiver = .stopped ∨ (∃ c, l.receiver = .hunt c) → becomes l') ∧
         (∀ f, l.receiver = .frame f → becomes { l' with receiver := .frame (f.fill .space p.now) }) ∧
         (∀ start time, l.receiver = .spaceRun start time none → becomes { l' with receiver := .hunt none }) ∧
         (∀ start time b, l.receiver = .spaceRun start time (some b) → ∃ q : Machine.Part,
           exec (.rxRisingEdge i wait) s = answers s (q.placeByte i b) ∧
           NotedEvent p q i { l' with receiver := .hunt none } ws) ∧
         (∀ start reached, l.receiver = .brk start reached →
           becomes
             (Line.offer { l' with receiver := .hunt none }
               ⟨.breakSeen, satWord ((p.now - start) / 294912), if reached then 1 else 0, 0, 0, p.counter⟩)))))

/-- The sample of a candidate start bit: a glitch, or a start bit, which fixes the frame, restarts the quiet timer, and on a quiet
line offers "ACTIVITY" and latches its flag. The level that each bit after the start bit takes: bit j's moment is j + 1 bit times
and a half after the edge; a change of the input settles the bits whose moments lie before it at the level it ends, the last stop
bit's sample those still open. The last stop bit of a frame is sampled: the byte arrives; after a framing error with
the input at space a space run goes on, and an all-space byte is withheld. The model's are: half a bit time rounded down, and a
sample at the moment of a change seeing the new level (DESIGN CHOICE, log 15); an earlier candidate kept until its own sample
(DEDUCED, log 16); that sample taken half a bit time of the rate in force at it after the edge, not before the present moment
(DESIGN CHOICE, log 33); and what follows a framing error (log 17). -/
def Obligations.FrameSamples : Prop :=
  (∀ (f : FrameRun) (v : Level) (now : Moment) (n : Nat), 0 < f.bitTime →
     n = f.format.dataBits + (if f.format.parity = .none then 0 else 1) + f.format.stopBits →
     let taken := fun (c : Nat → Prop) (samples : List Level) =>
       ∀ j, j < f.samples.length ∧ samples[j]? = f.samples[j]? ∨ f.samples.length ≤ j ∧ j < n ∧ c j ∧ samples[j]? = some v ∨
         f.samples.length ≤ j ∧ ¬(j < n ∧ c j) ∧ samples[j]? = none
     f.fill v now = { f with samples := (f.fill v now).samples } ∧
     taken (fun j => f.edge + (j + 1) * f.bitTime + f.bitTime / 2 < now) (f.fill v now).samples ∧
     f.complete v = { f with samples := (f.complete v).samples } ∧ taken (fun _ => True) (f.complete v).samples) ∧
  (∀ (s : State) (i : LineNo) (e : Moment) (p : Machine.Part) (l l' : Line), l = s.part.line i →
     l.receiver = .hunt (some e) → p = { s.part with now := max s.part.now (e + l.bitTime / 2) } →
     l' = (if l.quiet then
             Line.offer { l with flags := l.flags ||| 1 }
               ⟨.activity, satWord ((p.now - l.quietStart) / 29491200), 0, 0, 0, p.counter⟩
           else l) →
     (s.part.rxPin[i] = .mark →
       exec (.startBit i) s = answers s { p with lines := p.lines.set i { l with receiver := .hunt none } }) ∧
     (s.part.rxPin[i] = .space → ∃ q : Machine.Part, exec (.startBit i) s = answers s q ∧
       NotedEvent p q i
         { l' with
           receiver := .frame ⟨l.frame, l.bitTime, e, [], e⟩
           quiet := false
           quietStart := p.now
           quietTimer := if l.setting 18 = 0 then none else some (p.now + 29491200 * l.setting 18) }
         (if l.quiet = true ∧ l.flags.getLsbD 0 = false then [35] else []))) ∧
  (∀ (s : State) (i : LineNo) (f g : FrameRun) (b : RxByte) (p : Machine.Part) (l : Line), l = s.part.line i →
     l.receiver = .frame f →
     p = { s.part with
           now := max s.part.now
             (f.edge + (f.format.dataBits + (if f.format.parity = .none then 0 else 1) + f.format.stopBits) * f.bitTime +
               f.bitTime / 2) } →
     g = f.complete s.part.rxPin[i] → b = deframe f.format g.samples →
     let becomes := fun r => { p with lines := p.lines.set i { l with receiver := r } }
     let broken : Prop := s.part.rxPin[i] = .space ∧ g.framingError = true
     let frameTime := (1 + f.format.dataBits + (if f.format.parity = .none then 0 else 1) + f.format.stopBits) * f.bitTime
     (¬ broken → exec (.byteArrival i) s = answers s (Part.placeByte (becomes (.hunt none)) i b)) ∧
     (broken → .mark ∈ g.samples →
       exec (.byteArrival i) s = answers s (Part.placeByte (becomes (.spaceRun g.lastFall frameTime none)) i b)) ∧
     (broken → .mark ∉ g.samples → exec (.byteArrival i) s = answers s (becomes (.spaceRun f.edge frameTime (some b)))))

/-- The value and the error mark of a complete frame; and the frame a transmitter sends is received as its value without error. The format that a valid frame word gives, the bit time
of the effective rate, and the frame time. -/
def Obligations.FramesSentAndReceived : Prop :=
  (∀ l : Line, l.bitTime = 16 * l.effDivisor + l.effFraction ∧
     (∀ (b n : Nat) (p : Parity), b = 7 ∨ b = 8 → n = 1 ∨ n = 2 →
       l.shadow[3].toNat = 256 * n + 16 * (match p with | .none => 0 | .even => 1 | .odd => 2) + b →
       l.frame = ⟨b, p, n⟩ ∧ l.frameTime = (1 + b + (if p = .none then 0 else 1) + n) * l.bitTime)) ∧
  ∀ f : Machine.FrameFormat, f.dataBits = 7 ∨ f.dataBits = 8 → f.stopBits = 1 ∨ f.stopBits = 2 →
    let parityBits := if f.parity = .none then 0 else 1
    (∀ samples : List Level, samples.length = f.dataBits + parityBits + f.stopBits →
      (∀ j, j < 8 → (deframe f samples).value.getLsbD j = decide (j < f.dataBits ∧ samples[j]? = some .mark)) ∧
      ((deframe f samples).error = true ↔
        f.parity = .even ∧ (samples.take (f.dataBits + 1)).count .mark % 2 = 1 ∨
          f.parity = .odd ∧ (samples.take (f.dataBits + 1)).count .mark % 2 = 0 ∨
          ∃ j, f.dataBits + parityBits ≤ j ∧ samples[j]? = some .space)) ∧
    (∀ v : Byte, (frameLevels f v).head? = some .space ∧
      (frameLevels f v).length = 1 + f.dataBits + parityBits + f.stopBits ∧
      deframe f (frameLevels f v).tail = ⟨if f.dataBits = 7 then v &&& 0x7F else v, false⟩)

/-- A space run reaches its frame time: a break starts. The gap timer and the quiet timer expire. -/
def Obligations.BreakGapQuiet : Prop :=
  ∀ (s : State) (i : LineNo) (l : Line), l = s.part.line i →
    let becomes := fun t l' => answers s { s.part with now := max s.part.now t, lines := s.part.lines.set i l' }
    (∀ start time b, l.receiver = .spaceRun start time b →
      exec (.breakStart i) s = becomes (start + time) { l.closeOpen with receiver := .brk start false, gapTimer := none }) ∧
    (∀ t, l.gapTimer = some t → exec (.gapTimerExpiry i) s = becomes t { l.closeOpen with gapTimer := none }) ∧
    (l.gapTimer = none → exec (.gapTimerExpiry i) s = answers s s.part) ∧
    (∀ t, l.quietTimer = some t → exec (.quietExpiry i) s = becomes t { l with quietTimer := none, quiet := true }) ∧
    (l.quietTimer = none → exec (.quietExpiry i) s = answers s s.part)

/-- The close of the "OPEN" buffer, and the offering of an event. A byte is placed: appended to the "OPEN" buffer, or opening a
"FREE" one, with the payload limit and the line end tested on it; or lost as an overrun. That a byte appended under gap time 0 stops a gap timer that runs is the model's reading of R90
(DEDUCED, log 18). -/
def Obligations.EventsAndBytes : Prop :=
  (∀ l : Line,
     ((∀ (k : Fin 2) c, l.buffers[k] ≠ .opened c) → l.closeOpen = l) ∧
     (∀ (k : Fin 2) c, l.buffers[k] = .opened c → (∀ j x, j ≠ k → l.buffers[j] ≠ .opened x) →
       l.closeOpen = { l with buffers := l.buffers.set k (.closed c), jobs := l.jobs ++ [.data k], gapTimer := none }) ∧
     (∀ e : Event,
       let pending := l.jobs.countP fun j => match j with | .event _ => true | .data _ => false
       (l.state = .off → l.offer e = l) ∧
       (l.state ≠ .off → pending < 4 →
         l.offer e = { l.closeOpen with jobs := l.closeOpen.jobs ++ [.event e] }) ∧
       (l.state ≠ .off → 4 ≤ pending →
         l.offer e = { l.closeOpen with droppedEvents := satAdd l.droppedEvents 1 }))) ∧
  (∀ (p : Machine.Part) (i : LineNo) (b : RxByte) (l : Line), l = p.line i →
     let joins := fun (k : Fin 2) (c : Contents) =>
       let c' : Contents :=
         ⟨c.bytes ++ [b.value], if b.error then c.errors + 1 else c.errors,
           if b.error = true ∧ c.firstError = none then some c.bytes.length else c.firstError, c.stamp⟩
       let full : Prop := c.bytes.length + 1 = l.payloadLimit
       let lineEnd : Prop := b.error = false ∧ (l.shadow[13] = 1 ∧ b.value = 0x0D ∨ l.shadow[13] = 2 ∧ b.value = 0x0A)
       let timer := if l.setting 12 = 0 then none else some (p.now + msPeriods (l.setting 12))
       p.placeByte i b =
         { p with
           lines := p.lines.set i
             (if full ∨ lineEnd then
               { l with buffers := l.buffers.set k (.closed c'), jobs := l.jobs ++ [.data k], gapTimer := none }
             else { l with buffers := l.buffers.set k (.opened c'), gapTimer := timer }) }
     (∀ (k : Fin 2) c, l.buffers[k] = .opened c → (∀ j x, j ≠ k → l.buffers[j] ≠ .opened x) → joins k c) ∧
     ((∀ (k : Fin 2) c, l.buffers[k] ≠ .opened c) →
       (l.buffers[0] = .free → joins 0 ⟨[], 0, none, p.counter⟩) ∧
       (l.buffers[0] ≠ .free → l.buffers[1] = .free → joins 1 ⟨[], 0, none, p.counter⟩) ∧
       (l.buffers[0] ≠ .free → l.buffers[1] ≠ .free →
         let l' : Line := { l.setCounter .overrunBytes (satAdd (l.counter .overrunBytes) 1) with flags := l.flags ||| 32 }
         NotedEvent p (p.placeByte i b) i
           (if l.jobs.any Job.isOverrun = true then { l' with jobs := l.jobs.map Job.grown }
             else l'.offer ⟨.overrun, 1, 0, 0, 0, p.counter⟩)
           ((if l.counter .overrunBytes = 65535 then [] else [46]) ++ (if l.flags.getLsbD 5 then [] else [35])))))

/-! ## Line faults, ring timers, the probe's window, attention (R73, R74, R109, R158 to R168) -/

/-- The signal-valid input changes: a line that is not in "OFF" starts or stops its invalid-run or valid-run timer. The line-open
fault is set and cleared, and the stuck condition is set, when their timers expire; each summary that changes is queued. A change of the input is taken two periods
after the last at the earliest (R172), in the model at the first such moment (log 31). That the receiver stands in "HUNT" without
a candidate while the open condition is set is the model's reading (DEDUCED, log 29). -/
def Obligations.LineFaults : Prop :=
  (∀ (s : State) (i : LineNo) (l : Line) (now t : Moment), l = s.part.line i →
     now = (match s.part.taken.sv[i] with | none => s.part.now | some u => max s.part.now (u + 2)) → t = now + 10 * 294912 →
     let active : Prop := s.part.hasLine i = true ∧ l.state ≠ .off
     let becomes := fun v l' =>
       answers s
         { s.part with
           now := now
           svPin := s.part.svPin.set i v
           taken := { s.part.taken with sv := s.part.taken.sv.set i (some now) }
           lines := s.part.lines.set i l' }
     (s.part.svPin[i] = false → exec (.signalInvalid i) s = answers s s.part) ∧
     (s.part.svPin[i] = true → exec (.signalInvalid i) s =
       becomes false
         (if active then
           if l.openCondition then { l with validRun := none } else { l with invalidRun := some t }
         else l)) ∧
     (s.part.svPin[i] = true → exec (.signalValid i) s = answers s s.part) ∧
     (s.part.svPin[i] = false → exec (.signalValid i) s =
       becomes true
         (if active then
           if l.openCondition then { l with validRun := some t } else { l with invalidRun := none }
         else l))) ∧
  (∀ (s : State) (i : LineNo) (t : Moment) (p : Machine.Part) (l : Line), l = s.part.line i → s.part.hasLine i = true →
     l.state ≠ .off → p = { s.part with now := max s.part.now t } →
     (l.invalidRun = some t → l.openCondition = false → ∃ q : Machine.Part, exec (.lineOpen i) s = answers s q ∧
       let l' := match l.receiver with
         | .brk start reached =>
           l.offer ⟨.breakSeen, satWord ((p.now - start) / 294912), if reached then 1 else 0, 0, 0, p.counter⟩
         | _ => l
       NotedEvent p q i
         (Line.offer
           { l' with
             receiver := .hunt none
             invalidRun := none
             spaceTimer := none
             probe := l.probe.map fun k => { k with run := none }
             openCondition := true
             stuckCondition := false
             flags := l.flags ||| 8 } ⟨.lineOpen, 0, 0, 0, 0, p.counter⟩)
         (36 :: if l.flags.getLsbD 3 then [] else [35])) ∧
     (l.validRun = some t → l.openCondition = true → ∃ q : Machine.Part, exec (.lineRestored i) s = answers s q ∧
       NotedEvent p q i
         { Line.offer { l with validRun := none, openCondition := false, stuckCondition := false }
             ⟨.lineRestored, 0, 0, 0, 0, p.counter⟩ with
           receiver := if s.part.rxPin[i] = .mark then .hunt none else .spaceRun p.now l.frameTime none
           spaceTimer := if s.part.rxPin[i] = .mark then none else some (p.now + 200 * 294912) }
         [36]) ∧
     (l.spaceTimer = some t → l.openCondition = false → ∃ q : Machine.Part, exec (.stuck i) s = answers s q ∧
       NotedEvent p q i
         (Line.offer
           { l with
             spaceTimer := none
             receiver := match l.receiver with | .brk start _ => .brk start true | x => x
             stuckCondition := true
             flags := l.flags ||| 16 } ⟨.stuck, 0, 0, 0, 0, p.counter⟩)
         ((if l.stuckCondition then [] else [36]) ++ (if l.flags.getLsbD 4 then [] else [35]))))

/-- A live lease lapses and a job parked on it is unparked; a running coalesce timer expires, and word 36 and the attention summary
follow ring-due. That the lease of an unprotected line in "OFF", which R114 leaves as it was, lapses too is the model's (DESIGN
CHOICE, log 34). -/
def Obligations.RingTimers : Prop :=
  ∀ (s : State) (i : LineNo) (l : Line) (r : Ring), l = s.part.line i → l.ring = .present r →
    (∀ n t, r.lease = .opened n (some t) →
      exec (.leaseLapse i) s =
        answers s
          { s.part with
            now := max s.part.now t
            lines := s.part.lines.set i { l with ring := .present { r with lease := .opened n none } }.unparked }) ∧
    ((∀ n t, r.lease ≠ .opened n (some t)) → exec (.leaseLapse i) s = answers s s.part) ∧
    (∀ t, r.coalesce = .running t → ∃ q : Machine.Part, exec (.coalesceExpiry i) s = answers s q ∧
      NotedEvent { s.part with now := max s.part.now t } q i { l with ring := .present { r with coalesce := .expired } }
        (if r.due (l.setting 15) then [] else [36])) ∧
    ((∀ t, r.coalesce ≠ .running t) → exec (.coalesceExpiry i) s = answers s s.part)

/-- The probe's window ends after 5 s with the edges counted so far. Where a 64th falling edge comes together with the expiry (the
operand is the model's, log 36), it counts though the expiry is taken first, and then acts as the falling edge that it is: either
order gives the same result and the same event. What the window measured is classified: too few edges, the one table rate within
5 %, or the nearest. -/
def Obligations.ProbeWindowEnds : Prop :=
  (∀ (s : State) (i : LineNo) (edge : Bool) (k k' : Probe) (p : Machine.Part), (s.part.line i).probe = some k →
    p = { s.part with now := max s.part.now (k.start + 5 * 29491200) } →
    let counted : Prop := s.part.rxPin[i] = .mark ∧ (∀ u, s.part.taken.rx[i] = some u → u + 2 ≤ p.now) ∧
      s.part.hasLine i = true ∧ (s.part.line i).state ≠ .off ∧ (s.part.line i).openCondition = false
    (edge = true ∧ k.edges = 63 ∧ counted → k' = { k with edges := 64 }) →
    (¬ (edge = true ∧ k.edges = 63 ∧ counted) → k' = k) →
    ∃ q : Machine.Part,
      (edge = false → exec (.probeWindowEnd ⟨i, edge⟩) s = answers s q) ∧
      (edge = true → exec (.probeWindowEnd ⟨i, edge⟩) s = exec (.rxFallingEdge i 0) { s with part := q }) ∧
      NotedEvent p q i
        ((s.part.line i).delivered k' (classifyProbe k'.edges k'.shortest).1 (classifyProbe k'.edges k'.shortest).2 p.now p.counter)
        ([32, 45] ++ (if (s.part.line i).flags.getLsbD 2 then [] else [35]) ++
          (if k'.apply = true ∧ (classifyProbe k'.edges k'.shortest).1 = .found then [43, 44] else []))) ∧
  (∀ (s : State) (i : LineNo), (s.part.line i).probe = none →
    exec (.probeWindowEnd ⟨i, false⟩) s = answers s s.part ∧
    exec (.probeWindowEnd ⟨i, true⟩) s = exec (.rxFallingEdge i 0) s) ∧
  (∀ (s : State) (i : LineNo) (wait : Nat) (k : Probe), (s.part.line i).probe = some k → k.edges = 63 →
    s.part.now + wait = k.start + 5 * 29491200 → s.part.rxPin[i] = .mark →
    (∀ u, s.part.taken.rx[i] = some u → u + 2 ≤ s.part.now + wait) →
    s.part.hasLine i = true → (s.part.line i).state ≠ .off → (s.part.line i).openCondition = false →
    ∃ t u : State, exec (.rxFallingEdge i wait) s = .next t ∧ exec (.probeWindowEnd ⟨i, true⟩) s = .next u ∧
      (u.part.line i).jobs = (t.part.line i).jobs ∧ (u.part.line i).probeResult = (t.part.line i).probeResult ∧
      (u.part.line i).probe = none ∧ (t.part.line i).probe = none ∧ u.part.rxPin = t.part.rxPin ∧ u.part.now = t.part.now) ∧
  (∀ (e : Nat) (shortest : Option Nat),
    let table := [98304, 49152, 24576, 12288, 6144, 3072, 1536, 768, 512, 256, 128, 64]
    let away := fun (k run : Nat) => (table.getD k 0 - run) + (run - table.getD k 0)
    (e < 8 ∨ shortest = none → classifyProbe e shortest = (.tooFew, 0)) ∧
    (∀ run, 8 ≤ e → shortest = some run → 0 < run →
      (∀ k, k < 12 → 20 * away k run ≤ run → classifyProbe e shortest = (.found, k)) ∧
      ((∀ k, k < 12 → run < 20 * away k run) → ∃ k, k < 12 ∧ classifyProbe e shortest = (.noMatch, k) ∧
        ∀ j, j < 12 → away k run ≤ away j run ∧ (away j run = away k run → k ≤ j))))

/-- Ring-due, the line attention flag, the summary flags, the summaries, the attention output and the ATTN# pin. (That an event
queues the summaries it changes stands with the events: `Reported`.) -/
def Obligations.Attention : Prop :=
  ∀ p : Machine.Part,
    (∀ i r, (p.line i).ring = .present r → ((p.line i).ringDue = true ↔
      0 < (p.line i).setting 15 ∧ (p.line i).setting 15 ≤ r.count ∨ r.coalesce = .expired)) ∧
    (∀ i, (∀ r, (p.line i).ring ≠ .present r) → (p.line i).ringDue = false) ∧
    (∀ i, (p.line i).attention = true ↔
      ((p.line i).shadow[21].getLsbD 0 = true ∧ (p.line i).ringDue = true) ∨
      ((p.line i).shadow[21].getLsbD 1 = true ∧ (p.line i).flags.getLsbD 0 = true) ∨
      ((p.line i).shadow[21].getLsbD 2 = true ∧ ∃ n, 3 ≤ n ∧ n ≤ 8 ∧ (p.line i).flags.getLsbD n = true) ∨
      ((p.line i).shadow[21].getLsbD 3 = true ∧ (p.line i).flags.getLsbD 1 = true) ∨
      ((p.line i).shadow[21].getLsbD 4 = true ∧ (p.line i).flags.getLsbD 2 = true)) ∧
    (∀ i : LineNo,
      (p.baseReport (38 + i.val / 16)).getLsbD (i.val % 16) = (p.hasLine i && (p.line i).attention) ∧
      (p.baseReport (40 + i.val / 16)).getLsbD (i.val % 16) = (p.hasLine i && (p.line i).flags.getLsbD 0)) ∧
    (p.attentionOutput = true ↔
      (p.state = .armed ∨ p.state = .disarming) ∧ p.attentionEnable = true ∧
        ((∃ i, p.hasLine i = true ∧ (p.line i).attention = true) ∨ p.blocked.latched = true)) ∧
    (∀ n, (p.baseReport 37).getLsbD n = true ↔
      n = 0 ∧ p.handsOff = true ∨ n = 1 ∧ p.forced = true ∨
        n = 2 ∧ (∃ i k, p.hasLine i = true ∧ 3 ≤ k ∧ k ≤ 8 ∧ (p.line i).flags.getLsbD k = true) ∨
        n = 3 ∧ p.blocked.latched = true) ∧
    (p.attnLow = true ↔ p.attentionOutput = true ∧ p.resetLow = false)

/-! ## Invariants of every step -/

/-- Every step keeps the bank in its canonical form. -/
def Obligations.StepKeepsMemoryCanonical : Prop :=
  ∀ s t : State, MemoryCanonical s → step s = .next t → MemoryCanonical t

/-- Every step keeps the transmit queues within 64 entries, and the pass-over count within the burst allowance. -/
def Obligations.StepKeepsBounds : Prop :=
  ∀ s t : State, step s = .next t → (QueuesBounded s → QueuesBounded t) ∧ (PortBounded s → PortBounded t)

/-- Every step keeps the map in force sound and confined to "ARMED" and "DISARMING", and keeps what makes a part in "DORMANT"
transparent. The values kept for a line that does not exist are the model's (logs 26, 37). -/
def Obligations.StepKeepsMapAndDormancy : Prop :=
  ∀ s t : State, MapInForce s ∧ DormantSound s → step s = .next t → MapInForce t ∧ DormantSound t

/-- Every step keeps the pending set sound: no word is pending twice, and what is pending for a word is the value it has now (the
setup result, and word 32 at the closing write, apart). And every report word that a step leaves with another value, or that
comes to have one, is pending with it or is being written with it, unless the part is then in "DORMANT". That a line that does not
exist keeps the values of `Line.initial` (`AbsentInitial`, a premise that every step keeps) is the model's (logs 26, 37). -/
def Obligations.StepKeepsReports : Prop :=
  ∀ s t : State, MapInForce s ∧ DormantSound s ∧ ReportsSound s.part ∧ AbsentInitial s.part → step s = .next t →
    ReportsSound t.part ∧ AbsentInitial t.part ∧
      (t.part.state ≠ .dormant → ∀ w v, t.part.reportValue? w = some v →
        s.part.reportValue? w = some v ∨ (w, v) ∈ t.part.reports ∨ ∃ a, t.part.port.serving = some (.report w a v))
end

