-- ==== Sys2Proof/Laws/State.lean ====
section
/-! SUPPORT. One lemma per field of `Part` per plain update, true by `rfl`, and the reading of a line after an update. -/

namespace Sys2Proof.Machine

/-! ### setLine -/

@[simp] theorem setLine_state (p : Part) (i : LineNo) (l : Line) : (p.setLine i l).state = p.state := rfl
@[simp] theorem setLine_gateProgress (p : Part) (i : LineNo) (l : Line) : (p.setLine i l).gateProgress = p.gateProgress := rfl
@[simp] theorem setLine_checkValue (p : Part) (i : LineNo) (l : Line) : (p.setLine i l).checkValue = p.checkValue := rfl
@[simp] theorem setLine_setupCopy (p : Part) (i : LineNo) (l : Line) : (p.setLine i l).setupCopy = p.setupCopy := rfl
@[simp] theorem setLine_resetCause (p : Part) (i : LineNo) (l : Line) : (p.setLine i l).resetCause = p.resetCause := rfl
@[simp] theorem setLine_attentionEnable (p : Part) (i : LineNo) (l : Line) : (p.setLine i l).attentionEnable = p.attentionEnable := rfl
@[simp] theorem setLine_forced (p : Part) (i : LineNo) (l : Line) : (p.setLine i l).forced = p.forced := rfl
@[simp] theorem setLine_handsOff (p : Part) (i : LineNo) (l : Line) : (p.setLine i l).handsOff = p.handsOff := rfl
@[simp] theorem setLine_counter (p : Part) (i : LineNo) (l : Line) : (p.setLine i l).counter = p.counter := rfl
@[simp] theorem setLine_nextTick (p : Part) (i : LineNo) (l : Line) : (p.setLine i l).nextTick = p.nextTick := rfl
@[simp] theorem setLine_captured (p : Part) (i : LineNo) (l : Line) : (p.setLine i l).captured = p.captured := rfl
@[simp] theorem setLine_blocked (p : Part) (i : LineNo) (l : Line) : (p.setLine i l).blocked = p.blocked := rfl
@[simp] theorem setLine_closing (p : Part) (i : LineNo) (l : Line) : (p.setLine i l).closing = p.closing := rfl
@[simp] theorem setLine_resetLow (p : Part) (i : LineNo) (l : Line) : (p.setLine i l).resetLow = p.resetLow := rfl
@[simp] theorem setLine_resetPending (p : Part) (i : LineNo) (l : Line) : (p.setLine i l).resetPending = p.resetPending := rfl
@[simp] theorem setLine_map (p : Part) (i : LineNo) (l : Line) : (p.setLine i l).map = p.map := rfl
@[simp] theorem setLine_held (p : Part) (i : LineNo) (l : Line) : (p.setLine i l).held = p.held := rfl
@[simp] theorem setLine_hostWait (p : Part) (i : LineNo) (l : Line) : (p.setLine i l).hostWait = p.hostWait := rfl
@[simp] theorem setLine_readData (p : Part) (i : LineNo) (l : Line) : (p.setLine i l).readData = p.readData := rfl
@[simp] theorem setLine_port (p : Part) (i : LineNo) (l : Line) : (p.setLine i l).port = p.port := rfl
@[simp] theorem setLine_reports (p : Part) (i : LineNo) (l : Line) : (p.setLine i l).reports = p.reports := rfl
@[simp] theorem setLine_writer (p : Part) (i : LineNo) (l : Line) : (p.setLine i l).writer = p.writer := rfl
@[simp] theorem setLine_rxPin (p : Part) (i : LineNo) (l : Line) : (p.setLine i l).rxPin = p.rxPin := rfl
@[simp] theorem setLine_svPin (p : Part) (i : LineNo) (l : Line) : (p.setLine i l).svPin = p.svPin := rfl
@[simp] theorem setLine_taken (p : Part) (i : LineNo) (l : Line) : (p.setLine i l).taken = p.taken := rfl
@[simp] theorem setLine_markHold (p : Part) (i : LineNo) (l : Line) : (p.setLine i l).markHold = p.markHold := rfl
@[simp] theorem setLine_now (p : Part) (i : LineNo) (l : Line) : (p.setLine i l).now = p.now := rfl

/-! ### queueValue -/

@[simp] theorem queueValue_state (p : Part) (w : ReportWord) (v : Word) : (p.queueValue w v).state = p.state := rfl
@[simp] theorem queueValue_gateProgress (p : Part) (w : ReportWord) (v : Word) : (p.queueValue w v).gateProgress = p.gateProgress := rfl
@[simp] theorem queueValue_checkValue (p : Part) (w : ReportWord) (v : Word) : (p.queueValue w v).checkValue = p.checkValue := rfl
@[simp] theorem queueValue_setupCopy (p : Part) (w : ReportWord) (v : Word) : (p.queueValue w v).setupCopy = p.setupCopy := rfl
@[simp] theorem queueValue_resetCause (p : Part) (w : ReportWord) (v : Word) : (p.queueValue w v).resetCause = p.resetCause := rfl
@[simp] theorem queueValue_attentionEnable (p : Part) (w : ReportWord) (v : Word) : (p.queueValue w v).attentionEnable = p.attentionEnable := rfl
@[simp] theorem queueValue_forced (p : Part) (w : ReportWord) (v : Word) : (p.queueValue w v).forced = p.forced := rfl
@[simp] theorem queueValue_handsOff (p : Part) (w : ReportWord) (v : Word) : (p.queueValue w v).handsOff = p.handsOff := rfl
@[simp] theorem queueValue_counter (p : Part) (w : ReportWord) (v : Word) : (p.queueValue w v).counter = p.counter := rfl
@[simp] theorem queueValue_nextTick (p : Part) (w : ReportWord) (v : Word) : (p.queueValue w v).nextTick = p.nextTick := rfl
@[simp] theorem queueValue_captured (p : Part) (w : ReportWord) (v : Word) : (p.queueValue w v).captured = p.captured := rfl
@[simp] theorem queueValue_blocked (p : Part) (w : ReportWord) (v : Word) : (p.queueValue w v).blocked = p.blocked := rfl
@[simp] theorem queueValue_closing (p : Part) (w : ReportWord) (v : Word) : (p.queueValue w v).closing = p.closing := rfl
@[simp] theorem queueValue_resetLow (p : Part) (w : ReportWord) (v : Word) : (p.queueValue w v).resetLow = p.resetLow := rfl
@[simp] theorem queueValue_resetPending (p : Part) (w : ReportWord) (v : Word) : (p.queueValue w v).resetPending = p.resetPending := rfl
@[simp] theorem queueValue_map (p : Part) (w : ReportWord) (v : Word) : (p.queueValue w v).map = p.map := rfl
@[simp] theorem queueValue_held (p : Part) (w : ReportWord) (v : Word) : (p.queueValue w v).held = p.held := rfl
@[simp] theorem queueValue_hostWait (p : Part) (w : ReportWord) (v : Word) : (p.queueValue w v).hostWait = p.hostWait := rfl
@[simp] theorem queueValue_readData (p : Part) (w : ReportWord) (v : Word) : (p.queueValue w v).readData = p.readData := rfl
@[simp] theorem queueValue_port (p : Part) (w : ReportWord) (v : Word) : (p.queueValue w v).port = p.port := rfl
@[simp] theorem queueValue_writer (p : Part) (w : ReportWord) (v : Word) : (p.queueValue w v).writer = p.writer := rfl
@[simp] theorem queueValue_rxPin (p : Part) (w : ReportWord) (v : Word) : (p.queueValue w v).rxPin = p.rxPin := rfl
@[simp] theorem queueValue_svPin (p : Part) (w : ReportWord) (v : Word) : (p.queueValue w v).svPin = p.svPin := rfl
@[simp] theorem queueValue_taken (p : Part) (w : ReportWord) (v : Word) : (p.queueValue w v).taken = p.taken := rfl
@[simp] theorem queueValue_markHold (p : Part) (w : ReportWord) (v : Word) : (p.queueValue w v).markHold = p.markHold := rfl
@[simp] theorem queueValue_lines (p : Part) (w : ReportWord) (v : Word) : (p.queueValue w v).lines = p.lines := rfl
@[simp] theorem queueValue_now (p : Part) (w : ReportWord) (v : Word) : (p.queueValue w v).now = p.now := rfl

/-! ### queueBase -/

@[simp] theorem queueBase_state (p : Part) (w : Nat) : (p.queueBase w).state = p.state := rfl
@[simp] theorem queueBase_gateProgress (p : Part) (w : Nat) : (p.queueBase w).gateProgress = p.gateProgress := rfl
@[simp] theorem queueBase_checkValue (p : Part) (w : Nat) : (p.queueBase w).checkValue = p.checkValue := rfl
@[simp] theorem queueBase_setupCopy (p : Part) (w : Nat) : (p.queueBase w).setupCopy = p.setupCopy := rfl
@[simp] theorem queueBase_resetCause (p : Part) (w : Nat) : (p.queueBase w).resetCause = p.resetCause := rfl
@[simp] theorem queueBase_attentionEnable (p : Part) (w : Nat) : (p.queueBase w).attentionEnable = p.attentionEnable := rfl
@[simp] theorem queueBase_forced (p : Part) (w : Nat) : (p.queueBase w).forced = p.forced := rfl
@[simp] theorem queueBase_handsOff (p : Part) (w : Nat) : (p.queueBase w).handsOff = p.handsOff := rfl
@[simp] theorem queueBase_counter (p : Part) (w : Nat) : (p.queueBase w).counter = p.counter := rfl
@[simp] theorem queueBase_nextTick (p : Part) (w : Nat) : (p.queueBase w).nextTick = p.nextTick := rfl
@[simp] theorem queueBase_captured (p : Part) (w : Nat) : (p.queueBase w).captured = p.captured := rfl
@[simp] theorem queueBase_blocked (p : Part) (w : Nat) : (p.queueBase w).blocked = p.blocked := rfl
@[simp] theorem queueBase_closing (p : Part) (w : Nat) : (p.queueBase w).closing = p.closing := rfl
@[simp] theorem queueBase_resetLow (p : Part) (w : Nat) : (p.queueBase w).resetLow = p.resetLow := rfl
@[simp] theorem queueBase_resetPending (p : Part) (w : Nat) : (p.queueBase w).resetPending = p.resetPending := rfl
@[simp] theorem queueBase_map (p : Part) (w : Nat) : (p.queueBase w).map = p.map := rfl
@[simp] theorem queueBase_held (p : Part) (w : Nat) : (p.queueBase w).held = p.held := rfl
@[simp] theorem queueBase_hostWait (p : Part) (w : Nat) : (p.queueBase w).hostWait = p.hostWait := rfl
@[simp] theorem queueBase_readData (p : Part) (w : Nat) : (p.queueBase w).readData = p.readData := rfl
@[simp] theorem queueBase_port (p : Part) (w : Nat) : (p.queueBase w).port = p.port := rfl
@[simp] theorem queueBase_writer (p : Part) (w : Nat) : (p.queueBase w).writer = p.writer := rfl
@[simp] theorem queueBase_rxPin (p : Part) (w : Nat) : (p.queueBase w).rxPin = p.rxPin := rfl
@[simp] theorem queueBase_svPin (p : Part) (w : Nat) : (p.queueBase w).svPin = p.svPin := rfl
@[simp] theorem queueBase_taken (p : Part) (w : Nat) : (p.queueBase w).taken = p.taken := rfl
@[simp] theorem queueBase_markHold (p : Part) (w : Nat) : (p.queueBase w).markHold = p.markHold := rfl
@[simp] theorem queueBase_lines (p : Part) (w : Nat) : (p.queueBase w).lines = p.lines := rfl
@[simp] theorem queueBase_now (p : Part) (w : Nat) : (p.queueBase w).now = p.now := rfl

/-! ### queueLcb -/

@[simp] theorem queueLcb_state (p : Part) (i : LineNo) (w : Nat) : (p.queueLcb i w).state = p.state := rfl
@[simp] theorem queueLcb_gateProgress (p : Part) (i : LineNo) (w : Nat) : (p.queueLcb i w).gateProgress = p.gateProgress := rfl
@[simp] theorem queueLcb_checkValue (p : Part) (i : LineNo) (w : Nat) : (p.queueLcb i w).checkValue = p.checkValue := rfl
@[simp] theorem queueLcb_setupCopy (p : Part) (i : LineNo) (w : Nat) : (p.queueLcb i w).setupCopy = p.setupCopy := rfl
@[simp] theorem queueLcb_resetCause (p : Part) (i : LineNo) (w : Nat) : (p.queueLcb i w).resetCause = p.resetCause := rfl
@[simp] theorem queueLcb_attentionEnable (p : Part) (i : LineNo) (w : Nat) : (p.queueLcb i w).attentionEnable = p.attentionEnable := rfl
@[simp] theorem queueLcb_forced (p : Part) (i : LineNo) (w : Nat) : (p.queueLcb i w).forced = p.forced := rfl
@[simp] theorem queueLcb_handsOff (p : Part) (i : LineNo) (w : Nat) : (p.queueLcb i w).handsOff = p.handsOff := rfl
@[simp] theorem queueLcb_counter (p : Part) (i : LineNo) (w : Nat) : (p.queueLcb i w).counter = p.counter := rfl
@[simp] theorem queueLcb_nextTick (p : Part) (i : LineNo) (w : Nat) : (p.queueLcb i w).nextTick = p.nextTick := rfl
@[simp] theorem queueLcb_captured (p : Part) (i : LineNo) (w : Nat) : (p.queueLcb i w).captured = p.captured := rfl
@[simp] theorem queueLcb_blocked (p : Part) (i : LineNo) (w : Nat) : (p.queueLcb i w).blocked = p.blocked := rfl
@[simp] theorem queueLcb_closing (p : Part) (i : LineNo) (w : Nat) : (p.queueLcb i w).closing = p.closing := rfl
@[simp] theorem queueLcb_resetLow (p : Part) (i : LineNo) (w : Nat) : (p.queueLcb i w).resetLow = p.resetLow := rfl
@[simp] theorem queueLcb_resetPending (p : Part) (i : LineNo) (w : Nat) : (p.queueLcb i w).resetPending = p.resetPending := rfl
@[simp] theorem queueLcb_map (p : Part) (i : LineNo) (w : Nat) : (p.queueLcb i w).map = p.map := rfl
@[simp] theorem queueLcb_held (p : Part) (i : LineNo) (w : Nat) : (p.queueLcb i w).held = p.held := rfl
@[simp] theorem queueLcb_hostWait (p : Part) (i : LineNo) (w : Nat) : (p.queueLcb i w).hostWait = p.hostWait := rfl
@[simp] theorem queueLcb_readData (p : Part) (i : LineNo) (w : Nat) : (p.queueLcb i w).readData = p.readData := rfl
@[simp] theorem queueLcb_port (p : Part) (i : LineNo) (w : Nat) : (p.queueLcb i w).port = p.port := rfl
@[simp] theorem queueLcb_writer (p : Part) (i : LineNo) (w : Nat) : (p.queueLcb i w).writer = p.writer := rfl
@[simp] theorem queueLcb_rxPin (p : Part) (i : LineNo) (w : Nat) : (p.queueLcb i w).rxPin = p.rxPin := rfl
@[simp] theorem queueLcb_svPin (p : Part) (i : LineNo) (w : Nat) : (p.queueLcb i w).svPin = p.svPin := rfl
@[simp] theorem queueLcb_taken (p : Part) (i : LineNo) (w : Nat) : (p.queueLcb i w).taken = p.taken := rfl
@[simp] theorem queueLcb_markHold (p : Part) (i : LineNo) (w : Nat) : (p.queueLcb i w).markHold = p.markHold := rfl
@[simp] theorem queueLcb_lines (p : Part) (i : LineNo) (w : Nat) : (p.queueLcb i w).lines = p.lines := rfl
@[simp] theorem queueLcb_now (p : Part) (i : LineNo) (w : Nat) : (p.queueLcb i w).now = p.now := rfl

/-! ### at -/

@[simp] theorem at_state (p : Part) (t : Moment) : (p.at t).state = p.state := rfl
@[simp] theorem at_gateProgress (p : Part) (t : Moment) : (p.at t).gateProgress = p.gateProgress := rfl
@[simp] theorem at_checkValue (p : Part) (t : Moment) : (p.at t).checkValue = p.checkValue := rfl
@[simp] theorem at_setupCopy (p : Part) (t : Moment) : (p.at t).setupCopy = p.setupCopy := rfl
@[simp] theorem at_resetCause (p : Part) (t : Moment) : (p.at t).resetCause = p.resetCause := rfl
@[simp] theorem at_attentionEnable (p : Part) (t : Moment) : (p.at t).attentionEnable = p.attentionEnable := rfl
@[simp] theorem at_forced (p : Part) (t : Moment) : (p.at t).forced = p.forced := rfl
@[simp] theorem at_handsOff (p : Part) (t : Moment) : (p.at t).handsOff = p.handsOff := rfl
@[simp] theorem at_counter (p : Part) (t : Moment) : (p.at t).counter = p.counter := rfl
@[simp] theorem at_nextTick (p : Part) (t : Moment) : (p.at t).nextTick = p.nextTick := rfl
@[simp] theorem at_captured (p : Part) (t : Moment) : (p.at t).captured = p.captured := rfl
@[simp] theorem at_blocked (p : Part) (t : Moment) : (p.at t).blocked = p.blocked := rfl
@[simp] theorem at_closing (p : Part) (t : Moment) : (p.at t).closing = p.closing := rfl
@[simp] theorem at_resetLow (p : Part) (t : Moment) : (p.at t).resetLow = p.resetLow := rfl
@[simp] theorem at_resetPending (p : Part) (t : Moment) : (p.at t).resetPending = p.resetPending := rfl
@[simp] theorem at_map (p : Part) (t : Moment) : (p.at t).map = p.map := rfl
@[simp] theorem at_held (p : Part) (t : Moment) : (p.at t).held = p.held := rfl
@[simp] theorem at_hostWait (p : Part) (t : Moment) : (p.at t).hostWait = p.hostWait := rfl
@[simp] theorem at_readData (p : Part) (t : Moment) : (p.at t).readData = p.readData := rfl
@[simp] theorem at_port (p : Part) (t : Moment) : (p.at t).port = p.port := rfl
@[simp] theorem at_reports (p : Part) (t : Moment) : (p.at t).reports = p.reports := rfl
@[simp] theorem at_writer (p : Part) (t : Moment) : (p.at t).writer = p.writer := rfl
@[simp] theorem at_rxPin (p : Part) (t : Moment) : (p.at t).rxPin = p.rxPin := rfl
@[simp] theorem at_svPin (p : Part) (t : Moment) : (p.at t).svPin = p.svPin := rfl
@[simp] theorem at_taken (p : Part) (t : Moment) : (p.at t).taken = p.taken := rfl
@[simp] theorem at_markHold (p : Part) (t : Moment) : (p.at t).markHold = p.markHold := rfl
@[simp] theorem at_lines (p : Part) (t : Moment) : (p.at t).lines = p.lines := rfl

/-! ### forward -/

@[simp] theorem forward_state (p : Part) (a : HostAccess) : (p.forward a).state = p.state := rfl
@[simp] theorem forward_gateProgress (p : Part) (a : HostAccess) : (p.forward a).gateProgress = p.gateProgress := rfl
@[simp] theorem forward_checkValue (p : Part) (a : HostAccess) : (p.forward a).checkValue = p.checkValue := rfl
@[simp] theorem forward_setupCopy (p : Part) (a : HostAccess) : (p.forward a).setupCopy = p.setupCopy := rfl
@[simp] theorem forward_resetCause (p : Part) (a : HostAccess) : (p.forward a).resetCause = p.resetCause := rfl
@[simp] theorem forward_attentionEnable (p : Part) (a : HostAccess) : (p.forward a).attentionEnable = p.attentionEnable := rfl
@[simp] theorem forward_forced (p : Part) (a : HostAccess) : (p.forward a).forced = p.forced := rfl
@[simp] theorem forward_handsOff (p : Part) (a : HostAccess) : (p.forward a).handsOff = p.handsOff := rfl
@[simp] theorem forward_counter (p : Part) (a : HostAccess) : (p.forward a).counter = p.counter := rfl
@[simp] theorem forward_nextTick (p : Part) (a : HostAccess) : (p.forward a).nextTick = p.nextTick := rfl
@[simp] theorem forward_captured (p : Part) (a : HostAccess) : (p.forward a).captured = p.captured := rfl
@[simp] theorem forward_blocked (p : Part) (a : HostAccess) : (p.forward a).blocked = p.blocked := rfl
@[simp] theorem forward_closing (p : Part) (a : HostAccess) : (p.forward a).closing = p.closing := rfl
@[simp] theorem forward_resetLow (p : Part) (a : HostAccess) : (p.forward a).resetLow = p.resetLow := rfl
@[simp] theorem forward_resetPending (p : Part) (a : HostAccess) : (p.forward a).resetPending = p.resetPending := rfl
@[simp] theorem forward_map (p : Part) (a : HostAccess) : (p.forward a).map = p.map := rfl
@[simp] theorem forward_held (p : Part) (a : HostAccess) : (p.forward a).held = p.held := rfl
@[simp] theorem forward_hostWait (p : Part) (a : HostAccess) : (p.forward a).hostWait = p.hostWait := rfl
@[simp] theorem forward_readData (p : Part) (a : HostAccess) : (p.forward a).readData = p.readData := rfl
@[simp] theorem forward_reports (p : Part) (a : HostAccess) : (p.forward a).reports = p.reports := rfl
@[simp] theorem forward_writer (p : Part) (a : HostAccess) : (p.forward a).writer = p.writer := rfl
@[simp] theorem forward_rxPin (p : Part) (a : HostAccess) : (p.forward a).rxPin = p.rxPin := rfl
@[simp] theorem forward_svPin (p : Part) (a : HostAccess) : (p.forward a).svPin = p.svPin := rfl
@[simp] theorem forward_taken (p : Part) (a : HostAccess) : (p.forward a).taken = p.taken := rfl
@[simp] theorem forward_markHold (p : Part) (a : HostAccess) : (p.forward a).markHold = p.markHold := rfl
@[simp] theorem forward_lines (p : Part) (a : HostAccess) : (p.forward a).lines = p.lines := rfl
@[simp] theorem forward_now (p : Part) (a : HostAccess) : (p.forward a).now = p.now := rfl

/-! ### setFlight -/

@[simp] theorem setFlight_state (p : Part) (f : Option Flight) : (p.setFlight f).state = p.state := rfl
@[simp] theorem setFlight_gateProgress (p : Part) (f : Option Flight) : (p.setFlight f).gateProgress = p.gateProgress := rfl
@[simp] theorem setFlight_checkValue (p : Part) (f : Option Flight) : (p.setFlight f).checkValue = p.checkValue := rfl
@[simp] theorem setFlight_setupCopy (p : Part) (f : Option Flight) : (p.setFlight f).setupCopy = p.setupCopy := rfl
@[simp] theorem setFlight_resetCause (p : Part) (f : Option Flight) : (p.setFlight f).resetCause = p.resetCause := rfl
@[simp] theorem setFlight_attentionEnable (p : Part) (f : Option Flight) : (p.setFlight f).attentionEnable = p.attentionEnable := rfl
@[simp] theorem setFlight_forced (p : Part) (f : Option Flight) : (p.setFlight f).forced = p.forced := rfl
@[simp] theorem setFlight_handsOff (p : Part) (f : Option Flight) : (p.setFlight f).handsOff = p.handsOff := rfl
@[simp] theorem setFlight_counter (p : Part) (f : Option Flight) : (p.setFlight f).counter = p.counter := rfl
@[simp] theorem setFlight_nextTick (p : Part) (f : Option Flight) : (p.setFlight f).nextTick = p.nextTick := rfl
@[simp] theorem setFlight_captured (p : Part) (f : Option Flight) : (p.setFlight f).captured = p.captured := rfl
@[simp] theorem setFlight_blocked (p : Part) (f : Option Flight) : (p.setFlight f).blocked = p.blocked := rfl
@[simp] theorem setFlight_closing (p : Part) (f : Option Flight) : (p.setFlight f).closing = p.closing := rfl
@[simp] theorem setFlight_resetLow (p : Part) (f : Option Flight) : (p.setFlight f).resetLow = p.resetLow := rfl
@[simp] theorem setFlight_resetPending (p : Part) (f : Option Flight) : (p.setFlight f).resetPending = p.resetPending := rfl
@[simp] theorem setFlight_map (p : Part) (f : Option Flight) : (p.setFlight f).map = p.map := rfl
@[simp] theorem setFlight_held (p : Part) (f : Option Flight) : (p.setFlight f).held = p.held := rfl
@[simp] theorem setFlight_hostWait (p : Part) (f : Option Flight) : (p.setFlight f).hostWait = p.hostWait := rfl
@[simp] theorem setFlight_readData (p : Part) (f : Option Flight) : (p.setFlight f).readData = p.readData := rfl
@[simp] theorem setFlight_port (p : Part) (f : Option Flight) : (p.setFlight f).port = p.port := rfl
@[simp] theorem setFlight_reports (p : Part) (f : Option Flight) : (p.setFlight f).reports = p.reports := rfl
@[simp] theorem setFlight_rxPin (p : Part) (f : Option Flight) : (p.setFlight f).rxPin = p.rxPin := rfl
@[simp] theorem setFlight_svPin (p : Part) (f : Option Flight) : (p.setFlight f).svPin = p.svPin := rfl
@[simp] theorem setFlight_taken (p : Part) (f : Option Flight) : (p.setFlight f).taken = p.taken := rfl
@[simp] theorem setFlight_markHold (p : Part) (f : Option Flight) : (p.setFlight f).markHold = p.markHold := rfl
@[simp] theorem setFlight_lines (p : Part) (f : Option Flight) : (p.setFlight f).lines = p.lines := rfl
@[simp] theorem setFlight_now (p : Part) (f : Option Flight) : (p.setFlight f).now = p.now := rfl

/-! ### freePort -/

@[simp] theorem freePort_state (p : Part) : (p.freePort).state = p.state := rfl
@[simp] theorem freePort_gateProgress (p : Part) : (p.freePort).gateProgress = p.gateProgress := rfl
@[simp] theorem freePort_checkValue (p : Part) : (p.freePort).checkValue = p.checkValue := rfl
@[simp] theorem freePort_setupCopy (p : Part) : (p.freePort).setupCopy = p.setupCopy := rfl
@[simp] theorem freePort_resetCause (p : Part) : (p.freePort).resetCause = p.resetCause := rfl
@[simp] theorem freePort_attentionEnable (p : Part) : (p.freePort).attentionEnable = p.attentionEnable := rfl
@[simp] theorem freePort_forced (p : Part) : (p.freePort).forced = p.forced := rfl
@[simp] theorem freePort_handsOff (p : Part) : (p.freePort).handsOff = p.handsOff := rfl
@[simp] theorem freePort_counter (p : Part) : (p.freePort).counter = p.counter := rfl
@[simp] theorem freePort_nextTick (p : Part) : (p.freePort).nextTick = p.nextTick := rfl
@[simp] theorem freePort_captured (p : Part) : (p.freePort).captured = p.captured := rfl
@[simp] theorem freePort_blocked (p : Part) : (p.freePort).blocked = p.blocked := rfl
@[simp] theorem freePort_closing (p : Part) : (p.freePort).closing = p.closing := rfl
@[simp] theorem freePort_resetLow (p : Part) : (p.freePort).resetLow = p.resetLow := rfl
@[simp] theorem freePort_resetPending (p : Part) : (p.freePort).resetPending = p.resetPending := rfl
@[simp] theorem freePort_map (p : Part) : (p.freePort).map = p.map := rfl
@[simp] theorem freePort_held (p : Part) : (p.freePort).held = p.held := rfl
@[simp] theorem freePort_hostWait (p : Part) : (p.freePort).hostWait = p.hostWait := rfl
@[simp] theorem freePort_readData (p : Part) : (p.freePort).readData = p.readData := rfl
@[simp] theorem freePort_reports (p : Part) : (p.freePort).reports = p.reports := rfl
@[simp] theorem freePort_writer (p : Part) : (p.freePort).writer = p.writer := rfl
@[simp] theorem freePort_rxPin (p : Part) : (p.freePort).rxPin = p.rxPin := rfl
@[simp] theorem freePort_svPin (p : Part) : (p.freePort).svPin = p.svPin := rfl
@[simp] theorem freePort_taken (p : Part) : (p.freePort).taken = p.taken := rfl
@[simp] theorem freePort_markHold (p : Part) : (p.freePort).markHold = p.markHold := rfl
@[simp] theorem freePort_lines (p : Part) : (p.freePort).lines = p.lines := rfl
@[simp] theorem freePort_now (p : Part) : (p.freePort).now = p.now := rfl

/-! ### Changed fields -/

@[simp] theorem setLine_lines (p : Part) (i : LineNo) (l : Line) : (p.setLine i l).lines = p.lines.set i l := rfl

@[simp] theorem queueValue_reports (p : Part) (w : ReportWord) (v : Word) :
    (p.queueValue w v).reports = queueUpdate w v p.reports := rfl

@[simp] theorem queueBase_reports (p : Part) (w : Nat) :
    (p.queueBase w).reports = queueUpdate (.base w) (p.baseReport w) p.reports := rfl

@[simp] theorem queueLcb_reports (p : Part) (i : LineNo) (w : Nat) :
    (p.queueLcb i w).reports = queueUpdate (.lcb i w) ((p.line i).report w) p.reports := rfl

@[simp] theorem at_now (p : Part) (t : Moment) : (p.at t).now = max p.now t := rfl

@[simp] theorem forward_port (p : Part) (a : HostAccess) :
    (p.forward a).port = { p.port with waiting := some a } := rfl

@[simp] theorem setFlight_writer (p : Part) (f : Option Flight) :
    (p.setFlight f).writer = { p.writer with flight := f } := rfl

@[simp] theorem freePort_port (p : Part) : p.freePort.port = { p.port with serving := none } := rfl

/-! ### Reading a line -/

/-- Changing a line is replacing it. -/
@[simp] theorem onLine_eq (p : Part) (i : LineNo) (f : Line → Line) : p.onLine i f = p.setLine i (f (p.line i)) := rfl

@[simp] theorem line_setLine (p : Part) (i : LineNo) (l : Line) : (p.setLine i l).line i = l := by
  simp [Part.line, Part.setLine]

theorem line_setLine_ne (p : Part) (i j : LineNo) (l : Line) (h : j ≠ i) : (p.setLine i l).line j = p.line j := by
  have h' : i.val ≠ j.val := fun e => h (Fin.ext e.symm)
  simp [Part.line, Part.setLine, Vector.getElem_set_ne, h']

@[simp] theorem setLine_setLine (p : Part) (i : LineNo) (l m : Line) : (p.setLine i l).setLine i m = p.setLine i m := by
  simp [Part.setLine]

@[simp] theorem setLine_self (p : Part) (i : LineNo) : p.setLine i (p.line i) = p := by
  simp [Part.line, Part.setLine]

/-- A line is read from the lines alone. -/
theorem line_of_lines (p q : Part) (h : q.lines = p.lines) (j : LineNo) : q.line j = p.line j := by
  simp [Part.line, h]

/-- A line exists by the map alone. -/
theorem hasLine_of_map (p q : Part) (h : q.map = p.map) (j : LineNo) : q.hasLine j = p.hasLine j := by
  simp [Part.hasLine, h]

@[simp] theorem hasLine_setLine (p : Part) (i : LineNo) (l : Line) (j : LineNo) : (p.setLine i l).hasLine j = p.hasLine j := rfl
@[simp] theorem line_queueValue (p : Part) (w : ReportWord) (v : Word) (j : LineNo) : (p.queueValue w v).line j = p.line j := rfl
@[simp] theorem hasLine_queueValue (p : Part) (w : ReportWord) (v : Word) (j : LineNo) : (p.queueValue w v).hasLine j = p.hasLine j := rfl
@[simp] theorem line_queueBase (p : Part) (w : Nat) (j : LineNo) : (p.queueBase w).line j = p.line j := rfl
@[simp] theorem hasLine_queueBase (p : Part) (w : Nat) (j : LineNo) : (p.queueBase w).hasLine j = p.hasLine j := rfl
@[simp] theorem line_queueLcb (p : Part) (i : LineNo) (w : Nat) (j : LineNo) : (p.queueLcb i w).line j = p.line j := rfl
@[simp] theorem hasLine_queueLcb (p : Part) (i : LineNo) (w : Nat) (j : LineNo) : (p.queueLcb i w).hasLine j = p.hasLine j := rfl
@[simp] theorem line_at (p : Part) (t : Moment) (j : LineNo) : (p.at t).line j = p.line j := rfl
@[simp] theorem hasLine_at (p : Part) (t : Moment) (j : LineNo) : (p.at t).hasLine j = p.hasLine j := rfl
@[simp] theorem line_forward (p : Part) (a : HostAccess) (j : LineNo) : (p.forward a).line j = p.line j := rfl
@[simp] theorem hasLine_forward (p : Part) (a : HostAccess) (j : LineNo) : (p.forward a).hasLine j = p.hasLine j := rfl
@[simp] theorem line_setFlight (p : Part) (f : Option Flight) (j : LineNo) : (p.setFlight f).line j = p.line j := rfl
@[simp] theorem hasLine_setFlight (p : Part) (f : Option Flight) (j : LineNo) : (p.setFlight f).hasLine j = p.hasLine j := rfl
@[simp] theorem line_freePort (p : Part) (j : LineNo) : (p.freePort).line j = p.line j := rfl
@[simp] theorem hasLine_freePort (p : Part) (j : LineNo) : (p.freePort).hasLine j = p.hasLine j := rfl

/-! ### takeRx -/

@[simp] theorem takeRx_state (p : Part) (i : LineNo) (v : Level) (t : Moment) : (p.takeRx i v t).state = p.state := rfl
@[simp] theorem takeRx_gateProgress (p : Part) (i : LineNo) (v : Level) (t : Moment) : (p.takeRx i v t).gateProgress = p.gateProgress := rfl
@[simp] theorem takeRx_checkValue (p : Part) (i : LineNo) (v : Level) (t : Moment) : (p.takeRx i v t).checkValue = p.checkValue := rfl
@[simp] theorem takeRx_setupCopy (p : Part) (i : LineNo) (v : Level) (t : Moment) : (p.takeRx i v t).setupCopy = p.setupCopy := rfl
@[simp] theorem takeRx_resetCause (p : Part) (i : LineNo) (v : Level) (t : Moment) : (p.takeRx i v t).resetCause = p.resetCause := rfl
@[simp] theorem takeRx_attentionEnable (p : Part) (i : LineNo) (v : Level) (t : Moment) : (p.takeRx i v t).attentionEnable = p.attentionEnable := rfl
@[simp] theorem takeRx_forced (p : Part) (i : LineNo) (v : Level) (t : Moment) : (p.takeRx i v t).forced = p.forced := rfl
@[simp] theorem takeRx_handsOff (p : Part) (i : LineNo) (v : Level) (t : Moment) : (p.takeRx i v t).handsOff = p.handsOff := rfl
@[simp] theorem takeRx_counter (p : Part) (i : LineNo) (v : Level) (t : Moment) : (p.takeRx i v t).counter = p.counter := rfl
@[simp] theorem takeRx_nextTick (p : Part) (i : LineNo) (v : Level) (t : Moment) : (p.takeRx i v t).nextTick = p.nextTick := rfl
@[simp] theorem takeRx_captured (p : Part) (i : LineNo) (v : Level) (t : Moment) : (p.takeRx i v t).captured = p.captured := rfl
@[simp] theorem takeRx_blocked (p : Part) (i : LineNo) (v : Level) (t : Moment) : (p.takeRx i v t).blocked = p.blocked := rfl
@[simp] theorem takeRx_closing (p : Part) (i : LineNo) (v : Level) (t : Moment) : (p.takeRx i v t).closing = p.closing := rfl
@[simp] theorem takeRx_resetLow (p : Part) (i : LineNo) (v : Level) (t : Moment) : (p.takeRx i v t).resetLow = p.resetLow := rfl
@[simp] theorem takeRx_resetPending (p : Part) (i : LineNo) (v : Level) (t : Moment) : (p.takeRx i v t).resetPending = p.resetPending := rfl
@[simp] theorem takeRx_map (p : Part) (i : LineNo) (v : Level) (t : Moment) : (p.takeRx i v t).map = p.map := rfl
@[simp] theorem takeRx_held (p : Part) (i : LineNo) (v : Level) (t : Moment) : (p.takeRx i v t).held = p.held := rfl
@[simp] theorem takeRx_hostWait (p : Part) (i : LineNo) (v : Level) (t : Moment) : (p.takeRx i v t).hostWait = p.hostWait := rfl
@[simp] theorem takeRx_readData (p : Part) (i : LineNo) (v : Level) (t : Moment) : (p.takeRx i v t).readData = p.readData := rfl
@[simp] theorem takeRx_port (p : Part) (i : LineNo) (v : Level) (t : Moment) : (p.takeRx i v t).port = p.port := rfl
@[simp] theorem takeRx_reports (p : Part) (i : LineNo) (v : Level) (t : Moment) : (p.takeRx i v t).reports = p.reports := rfl
@[simp] theorem takeRx_writer (p : Part) (i : LineNo) (v : Level) (t : Moment) : (p.takeRx i v t).writer = p.writer := rfl
@[simp] theorem takeRx_rxPin (p : Part) (i : LineNo) (v : Level) (t : Moment) :
    (p.takeRx i v t).rxPin = p.rxPin.set i v := rfl
@[simp] theorem takeRx_svPin (p : Part) (i : LineNo) (v : Level) (t : Moment) : (p.takeRx i v t).svPin = p.svPin := rfl
@[simp] theorem takeRx_taken (p : Part) (i : LineNo) (v : Level) (t : Moment) :
    (p.takeRx i v t).taken = { p.taken with rx := p.taken.rx.set i (some t) } := rfl
@[simp] theorem takeRx_markHold (p : Part) (i : LineNo) (v : Level) (t : Moment) : (p.takeRx i v t).markHold = p.markHold := rfl
@[simp] theorem takeRx_lines (p : Part) (i : LineNo) (v : Level) (t : Moment) : (p.takeRx i v t).lines = p.lines := rfl
@[simp] theorem takeRx_now (p : Part) (i : LineNo) (v : Level) (t : Moment) :
    (p.takeRx i v t).now = t := rfl
@[simp] theorem line_takeRx (p : Part) (i : LineNo) (v : Level) (t : Moment) (j : LineNo) : (p.takeRx i v t).line j = p.line j := rfl
@[simp] theorem hasLine_takeRx (p : Part) (i : LineNo) (v : Level) (t : Moment) (j : LineNo) : (p.takeRx i v t).hasLine j = p.hasLine j := rfl

/-! ### takeSv -/

@[simp] theorem takeSv_state (p : Part) (i : LineNo) (v : Bool) : (p.takeSv i v).state = p.state := rfl
@[simp] theorem takeSv_gateProgress (p : Part) (i : LineNo) (v : Bool) : (p.takeSv i v).gateProgress = p.gateProgress := rfl
@[simp] theorem takeSv_checkValue (p : Part) (i : LineNo) (v : Bool) : (p.takeSv i v).checkValue = p.checkValue := rfl
@[simp] theorem takeSv_setupCopy (p : Part) (i : LineNo) (v : Bool) : (p.takeSv i v).setupCopy = p.setupCopy := rfl
@[simp] theorem takeSv_resetCause (p : Part) (i : LineNo) (v : Bool) : (p.takeSv i v).resetCause = p.resetCause := rfl
@[simp] theorem takeSv_attentionEnable (p : Part) (i : LineNo) (v : Bool) : (p.takeSv i v).attentionEnable = p.attentionEnable := rfl
@[simp] theorem takeSv_forced (p : Part) (i : LineNo) (v : Bool) : (p.takeSv i v).forced = p.forced := rfl
@[simp] theorem takeSv_handsOff (p : Part) (i : LineNo) (v : Bool) : (p.takeSv i v).handsOff = p.handsOff := rfl
@[simp] theorem takeSv_counter (p : Part) (i : LineNo) (v : Bool) : (p.takeSv i v).counter = p.counter := rfl
@[simp] theorem takeSv_nextTick (p : Part) (i : LineNo) (v : Bool) : (p.takeSv i v).nextTick = p.nextTick := rfl
@[simp] theorem takeSv_captured (p : Part) (i : LineNo) (v : Bool) : (p.takeSv i v).captured = p.captured := rfl
@[simp] theorem takeSv_blocked (p : Part) (i : LineNo) (v : Bool) : (p.takeSv i v).blocked = p.blocked := rfl
@[simp] theorem takeSv_closing (p : Part) (i : LineNo) (v : Bool) : (p.takeSv i v).closing = p.closing := rfl
@[simp] theorem takeSv_resetLow (p : Part) (i : LineNo) (v : Bool) : (p.takeSv i v).resetLow = p.resetLow := rfl
@[simp] theorem takeSv_resetPending (p : Part) (i : LineNo) (v : Bool) : (p.takeSv i v).resetPending = p.resetPending := rfl
@[simp] theorem takeSv_map (p : Part) (i : LineNo) (v : Bool) : (p.takeSv i v).map = p.map := rfl
@[simp] theorem takeSv_held (p : Part) (i : LineNo) (v : Bool) : (p.takeSv i v).held = p.held := rfl
@[simp] theorem takeSv_hostWait (p : Part) (i : LineNo) (v : Bool) : (p.takeSv i v).hostWait = p.hostWait := rfl
@[simp] theorem takeSv_readData (p : Part) (i : LineNo) (v : Bool) : (p.takeSv i v).readData = p.readData := rfl
@[simp] theorem takeSv_port (p : Part) (i : LineNo) (v : Bool) : (p.takeSv i v).port = p.port := rfl
@[simp] theorem takeSv_reports (p : Part) (i : LineNo) (v : Bool) : (p.takeSv i v).reports = p.reports := rfl
@[simp] theorem takeSv_writer (p : Part) (i : LineNo) (v : Bool) : (p.takeSv i v).writer = p.writer := rfl
@[simp] theorem takeSv_rxPin (p : Part) (i : LineNo) (v : Bool) : (p.takeSv i v).rxPin = p.rxPin := rfl
@[simp] theorem takeSv_svPin (p : Part) (i : LineNo) (v : Bool) :
    (p.takeSv i v).svPin = p.svPin.set i v := rfl
@[simp] theorem takeSv_taken (p : Part) (i : LineNo) (v : Bool) :
    (p.takeSv i v).taken = { p.taken with sv := p.taken.sv.set i (some (firstTake p.taken.sv[i] p.now)) } := rfl
@[simp] theorem takeSv_markHold (p : Part) (i : LineNo) (v : Bool) : (p.takeSv i v).markHold = p.markHold := rfl
@[simp] theorem takeSv_lines (p : Part) (i : LineNo) (v : Bool) : (p.takeSv i v).lines = p.lines := rfl
@[simp] theorem takeSv_now (p : Part) (i : LineNo) (v : Bool) :
    (p.takeSv i v).now = firstTake p.taken.sv[i] p.now := rfl
@[simp] theorem line_takeSv (p : Part) (i : LineNo) (v : Bool) (j : LineNo) : (p.takeSv i v).line j = p.line j := rfl
@[simp] theorem hasLine_takeSv (p : Part) (i : LineNo) (v : Bool) (j : LineNo) : (p.takeSv i v).hasLine j = p.hasLine j := rfl

/-! ### takeHandsOff -/

@[simp] theorem takeHandsOff_state (p : Part) (v : Bool) : (p.takeHandsOff v).state = p.state := rfl
@[simp] theorem takeHandsOff_gateProgress (p : Part) (v : Bool) : (p.takeHandsOff v).gateProgress = p.gateProgress := rfl
@[simp] theorem takeHandsOff_checkValue (p : Part) (v : Bool) : (p.takeHandsOff v).checkValue = p.checkValue := rfl
@[simp] theorem takeHandsOff_setupCopy (p : Part) (v : Bool) : (p.takeHandsOff v).setupCopy = p.setupCopy := rfl
@[simp] theorem takeHandsOff_resetCause (p : Part) (v : Bool) : (p.takeHandsOff v).resetCause = p.resetCause := rfl
@[simp] theorem takeHandsOff_attentionEnable (p : Part) (v : Bool) : (p.takeHandsOff v).attentionEnable = p.attentionEnable := rfl
@[simp] theorem takeHandsOff_forced (p : Part) (v : Bool) : (p.takeHandsOff v).forced = p.forced := rfl
@[simp] theorem takeHandsOff_handsOff (p : Part) (v : Bool) :
    (p.takeHandsOff v).handsOff = v := rfl
@[simp] theorem takeHandsOff_counter (p : Part) (v : Bool) : (p.takeHandsOff v).counter = p.counter := rfl
@[simp] theorem takeHandsOff_nextTick (p : Part) (v : Bool) : (p.takeHandsOff v).nextTick = p.nextTick := rfl
@[simp] theorem takeHandsOff_captured (p : Part) (v : Bool) : (p.takeHandsOff v).captured = p.captured := rfl
@[simp] theorem takeHandsOff_blocked (p : Part) (v : Bool) : (p.takeHandsOff v).blocked = p.blocked := rfl
@[simp] theorem takeHandsOff_closing (p : Part) (v : Bool) : (p.takeHandsOff v).closing = p.closing := rfl
@[simp] theorem takeHandsOff_resetLow (p : Part) (v : Bool) : (p.takeHandsOff v).resetLow = p.resetLow := rfl
@[simp] theorem takeHandsOff_resetPending (p : Part) (v : Bool) : (p.takeHandsOff v).resetPending = p.resetPending := rfl
@[simp] theorem takeHandsOff_map (p : Part) (v : Bool) : (p.takeHandsOff v).map = p.map := rfl
@[simp] theorem takeHandsOff_held (p : Part) (v : Bool) : (p.takeHandsOff v).held = p.held := rfl
@[simp] theorem takeHandsOff_hostWait (p : Part) (v : Bool) : (p.takeHandsOff v).hostWait = p.hostWait := rfl
@[simp] theorem takeHandsOff_readData (p : Part) (v : Bool) : (p.takeHandsOff v).readData = p.readData := rfl
@[simp] theorem takeHandsOff_port (p : Part) (v : Bool) : (p.takeHandsOff v).port = p.port := rfl
@[simp] theorem takeHandsOff_reports (p : Part) (v : Bool) : (p.takeHandsOff v).reports = p.reports := rfl
@[simp] theorem takeHandsOff_writer (p : Part) (v : Bool) : (p.takeHandsOff v).writer = p.writer := rfl
@[simp] theorem takeHandsOff_rxPin (p : Part) (v : Bool) : (p.takeHandsOff v).rxPin = p.rxPin := rfl
@[simp] theorem takeHandsOff_svPin (p : Part) (v : Bool) : (p.takeHandsOff v).svPin = p.svPin := rfl
@[simp] theorem takeHandsOff_taken (p : Part) (v : Bool) :
    (p.takeHandsOff v).taken = { p.taken with handsOff := some (firstTake p.taken.handsOff p.now) } := rfl
@[simp] theorem takeHandsOff_markHold (p : Part) (v : Bool) : (p.takeHandsOff v).markHold = p.markHold := rfl
@[simp] theorem takeHandsOff_lines (p : Part) (v : Bool) : (p.takeHandsOff v).lines = p.lines := rfl
@[simp] theorem takeHandsOff_now (p : Part) (v : Bool) :
    (p.takeHandsOff v).now = firstTake p.taken.handsOff p.now := rfl
@[simp] theorem line_takeHandsOff (p : Part) (v : Bool) (j : LineNo) : (p.takeHandsOff v).line j = p.line j := rfl
@[simp] theorem hasLine_takeHandsOff (p : Part) (v : Bool) (j : LineNo) : (p.takeHandsOff v).hasLine j = p.hasLine j := rfl

/-! ### takeReset -/

@[simp] theorem takeReset_state (p : Part) (low : Bool) : (p.takeReset low).state = p.state := rfl
@[simp] theorem takeReset_gateProgress (p : Part) (low : Bool) : (p.takeReset low).gateProgress = p.gateProgress := rfl
@[simp] theorem takeReset_checkValue (p : Part) (low : Bool) : (p.takeReset low).checkValue = p.checkValue := rfl
@[simp] theorem takeReset_setupCopy (p : Part) (low : Bool) : (p.takeReset low).setupCopy = p.setupCopy := rfl
@[simp] theorem takeReset_resetCause (p : Part) (low : Bool) : (p.takeReset low).resetCause = p.resetCause := rfl
@[simp] theorem takeReset_attentionEnable (p : Part) (low : Bool) : (p.takeReset low).attentionEnable = p.attentionEnable := rfl
@[simp] theorem takeReset_forced (p : Part) (low : Bool) : (p.takeReset low).forced = p.forced := rfl
@[simp] theorem takeReset_handsOff (p : Part) (low : Bool) : (p.takeReset low).handsOff = p.handsOff := rfl
@[simp] theorem takeReset_counter (p : Part) (low : Bool) : (p.takeReset low).counter = p.counter := rfl
@[simp] theorem takeReset_nextTick (p : Part) (low : Bool) : (p.takeReset low).nextTick = p.nextTick := rfl
@[simp] theorem takeReset_captured (p : Part) (low : Bool) : (p.takeReset low).captured = p.captured := rfl
@[simp] theorem takeReset_blocked (p : Part) (low : Bool) : (p.takeReset low).blocked = p.blocked := rfl
@[simp] theorem takeReset_closing (p : Part) (low : Bool) : (p.takeReset low).closing = p.closing := rfl
@[simp] theorem takeReset_resetLow (p : Part) (low : Bool) :
    (p.takeReset low).resetLow = low := rfl
@[simp] theorem takeReset_resetPending (p : Part) (low : Bool) : (p.takeReset low).resetPending = p.resetPending := rfl
@[simp] theorem takeReset_map (p : Part) (low : Bool) : (p.takeReset low).map = p.map := rfl
@[simp] theorem takeReset_held (p : Part) (low : Bool) : (p.takeReset low).held = p.held := rfl
@[simp] theorem takeReset_hostWait (p : Part) (low : Bool) : (p.takeReset low).hostWait = p.hostWait := rfl
@[simp] theorem takeReset_readData (p : Part) (low : Bool) : (p.takeReset low).readData = p.readData := rfl
@[simp] theorem takeReset_port (p : Part) (low : Bool) : (p.takeReset low).port = p.port := rfl
@[simp] theorem takeReset_reports (p : Part) (low : Bool) : (p.takeReset low).reports = p.reports := rfl
@[simp] theorem takeReset_writer (p : Part) (low : Bool) : (p.takeReset low).writer = p.writer := rfl
@[simp] theorem takeReset_rxPin (p : Part) (low : Bool) : (p.takeReset low).rxPin = p.rxPin := rfl
@[simp] theorem takeReset_svPin (p : Part) (low : Bool) : (p.takeReset low).svPin = p.svPin := rfl
@[simp] theorem takeReset_taken (p : Part) (low : Bool) :
    (p.takeReset low).taken = { p.taken with reset := some (firstTake p.taken.reset p.now) } := rfl
@[simp] theorem takeReset_markHold (p : Part) (low : Bool) : (p.takeReset low).markHold = p.markHold := rfl
@[simp] theorem takeReset_lines (p : Part) (low : Bool) : (p.takeReset low).lines = p.lines := rfl
@[simp] theorem takeReset_now (p : Part) (low : Bool) :
    (p.takeReset low).now = firstTake p.taken.reset p.now := rfl
@[simp] theorem line_takeReset (p : Part) (low : Bool) (j : LineNo) : (p.takeReset low).line j = p.line j := rfl
@[simp] theorem hasLine_takeReset (p : Part) (low : Bool) (j : LineNo) : (p.takeReset low).hasLine j = p.hasLine j := rfl

end Sys2Proof.Machine
end

