-- ==== Sys2Proof/Laws/Lines.lean ====
section
/-! SUPPORT. What the operations of one line can do: each touches that line and the reports that concern it (`LineStep`), and the
line afterwards. -/

namespace Sys2Proof.Machine

/-! ### The pending set -/

theorem mem_queueUpdate_self (w : ReportWord) (v : Word) (r : List (ReportWord × Word)) : (w, v) ∈ queueUpdate w v r := by
  induction r with
  | nil => simp [queueUpdate]
  | cons x rest ih =>
    obtain ⟨k, u⟩ := x
    by_cases h : k = w <;> simp [queueUpdate, h, ih]

theorem mem_queueUpdate_ne (k w : ReportWord) (u v : Word) (r : List (ReportWord × Word)) (h : w ≠ k) :
    (w, v) ∈ queueUpdate k u r ↔ (w, v) ∈ r := by
  induction r with
  | nil => simp [queueUpdate, h]
  | cons x rest ih =>
    obtain ⟨j, x⟩ := x
    by_cases hj : j = k
    · subst hj; simp [queueUpdate, h]
    · simp [queueUpdate, hj, ih]

theorem queueAll_append (a b r : List (ReportWord × Word)) : queueAll (a ++ b) r = queueAll b (queueAll a r) := List.foldl_append

theorem queueBases_eq (p : Part) (ws : List Nat) :
    p.queueBases ws = { p with reports := queueAll (ws.map fun w => (.base w, p.baseReport w)) p.reports } := by
  have : ∀ (ws : List Nat) (r : List (ReportWord × Word)), Part.queueBases { p with reports := r } ws =
      { p with reports := queueAll (ws.map fun w => (.base w, p.baseReport w)) r } := by
    intro ws
    induction ws with
    | nil => intro r; rfl
    | cons w ws ih => intro r; exact ih (queueUpdate (.base w) (p.baseReport w) r)
  exact this ws p.reports

/-- `queueChanged` queues the words whose value has changed, with their present values, and does nothing else. -/
theorem queueChanged_eq (p before : Part) (ws : List Nat) :
    p.queueChanged before ws =
      { p with
        reports := queueAll ((ws.filter fun w => p.baseReport w != before.baseReport w).map fun w => (.base w, p.baseReport w))
          p.reports } :=
  queueBases_eq p _

/-! ### Changes of the inputs (R172) -/

theorem canTake_iff (last : Option Moment) (t : Moment) : canTake last t = true ↔ ∀ u, last = some u → u + 2 ≤ t := by
  cases last with
  | none => exact ⟨fun _ _ h => (nomatch h), fun _ => rfl⟩
  | some v => exact decide_eq_true_iff.trans ⟨fun h u e => by cases e; exact h, fun h => h v rfl⟩

/-- The first moment at which a change can be taken is one, and no earlier moment from `now` on is. -/
theorem firstTake_spec (last : Option Moment) (now : Moment) :
    canTake last (firstTake last now) = true ∧ now ≤ firstTake last now ∧
      ∀ t, now ≤ t → canTake last t = true → firstTake last now ≤ t := by
  simp only [canTake_iff]
  cases last with
  | none => exact ⟨fun _ h => (nomatch h), Nat.le_refl _, fun t h _ => h⟩
  | some u =>
    refine ⟨fun v h => ?_, Nat.le_max_left _ _, fun t h k => Nat.max_le.2 ⟨h, k u rfl⟩⟩
    cases h
    exact Nat.le_max_right _ _

/-! ### `LineStep` -/

theorem LineStep.refl (i : LineNo) (p : Part) : LineStep i p p := ⟨rfl, fun _ _ => rfl, fun _ _ _ => Iff.rfl⟩

theorem LineStep.trans {i : LineNo} {p q r : Part} (h : LineStep i p q) (k : LineStep i q r) : LineStep i p r :=
  ⟨k.1.trans h.1, fun j hj => (k.2.1 j hj).trans (h.2.1 j hj), fun w v hw => (k.2.2 w v hw).trans (h.2.2 w v hw)⟩

theorem LineStep.ite {i : LineNo} {p q r : Part} {c : Prop} [Decidable c] (h : LineStep i p q) (k : LineStep i p r) :
    LineStep i p (if c then q else r) := by
  split <;> assumption

theorem LineStep.state {i : LineNo} {p q : Part} (h : LineStep i p q) : q.state = p.state :=
  show q.outside.state = p.outside.state from congrArg Part.state h.1
theorem LineStep.map {i : LineNo} {p q : Part} (h : LineStep i p q) : q.map = p.map :=
  show q.outside.map = p.outside.map from congrArg Part.map h.1
theorem LineStep.now {i : LineNo} {p q : Part} (h : LineStep i p q) : q.now = p.now :=
  show q.outside.now = p.outside.now from congrArg Part.now h.1
theorem LineStep.held {i : LineNo} {p q : Part} (h : LineStep i p q) : q.held = p.held :=
  show q.outside.held = p.outside.held from congrArg Part.held h.1
theorem LineStep.port {i : LineNo} {p q : Part} (h : LineStep i p q) : q.port = p.port :=
  show q.outside.port = p.outside.port from congrArg Part.port h.1
theorem LineStep.writer {i : LineNo} {p q : Part} (h : LineStep i p q) : q.writer = p.writer :=
  show q.outside.writer = p.outside.writer from congrArg Part.writer h.1
theorem LineStep.counter {i : LineNo} {p q : Part} (h : LineStep i p q) : q.counter = p.counter :=
  show q.outside.counter = p.outside.counter from congrArg Part.counter h.1
theorem LineStep.closing {i : LineNo} {p q : Part} (h : LineStep i p q) : q.closing = p.closing :=
  show q.outside.closing = p.outside.closing from congrArg Part.closing h.1
theorem LineStep.rxPin {i : LineNo} {p q : Part} (h : LineStep i p q) : q.rxPin = p.rxPin :=
  show q.outside.rxPin = p.outside.rxPin from congrArg Part.rxPin h.1
theorem LineStep.svPin {i : LineNo} {p q : Part} (h : LineStep i p q) : q.svPin = p.svPin :=
  show q.outside.svPin = p.outside.svPin from congrArg Part.svPin h.1

theorem LineStep.taken {i : LineNo} {p q : Part} (h : LineStep i p q) : q.taken = p.taken :=
  show q.outside.taken = p.outside.taken from congrArg Part.taken h.1
theorem LineStep.setupCopy {i : LineNo} {p q : Part} (h : LineStep i p q) : q.setupCopy = p.setupCopy :=
  show q.outside.setupCopy = p.outside.setupCopy from congrArg Part.setupCopy h.1
theorem LineStep.blocked {i : LineNo} {p q : Part} (h : LineStep i p q) : q.blocked = p.blocked :=
  show q.outside.blocked = p.outside.blocked from congrArg Part.blocked h.1
theorem LineStep.handsOff {i : LineNo} {p q : Part} (h : LineStep i p q) : q.handsOff = p.handsOff :=
  show q.outside.handsOff = p.outside.handsOff from congrArg Part.handsOff h.1
theorem LineStep.forced {i : LineNo} {p q : Part} (h : LineStep i p q) : q.forced = p.forced :=
  show q.outside.forced = p.outside.forced from congrArg Part.forced h.1

theorem LineStep.hasLine {i : LineNo} {p q : Part} (h : LineStep i p q) (j : LineNo) : q.hasLine j = p.hasLine j :=
  hasLine_of_map _ _ h.map j

/-! ### Each operation of one line is a `LineStep` -/

theorem lineStep_setLine (p : Part) (i : LineNo) (l : Line) : LineStep i p (p.setLine i l) :=
  ⟨rfl, fun j hj => line_setLine_ne p i j l hj, fun _ _ _ => Iff.rfl⟩

theorem lineStep_onLine (p : Part) (i : LineNo) (f : Line → Line) : LineStep i p (p.onLine i f) := lineStep_setLine p i _

theorem lineStep_queueLcb (p : Part) (i : LineNo) (w : Nat) : LineStep i p (p.queueLcb i w) := by
  refine ⟨rfl, fun _ _ => rfl, fun k v hk => mem_queueUpdate_ne _ _ _ _ _ ?_⟩
  rintro rfl
  simp [ReportWord.concerns] at hk

theorem lineStep_queueBase (p : Part) (i : LineNo) (w : Nat) (h : 37 ≤ w ∧ w ≤ 41) : LineStep i p (p.queueBase w) := by
  refine ⟨rfl, fun _ _ => rfl, fun k v hk => mem_queueUpdate_ne _ _ _ _ _ ?_⟩
  rintro rfl
  simp [ReportWord.concerns] at hk
  omega

theorem lineStep_queueLcbIf (p : Part) (c : Bool) (i : LineNo) (w : Nat) : LineStep i p (p.queueLcbIf c i w) := by
  unfold Part.queueLcbIf
  exact .ite (lineStep_queueLcb p i w) (.refl i p)

theorem lineStep_queueLcbs (p : Part) (i : LineNo) (ws : List Nat) : LineStep i p (p.queueLcbs i ws) := by
  induction ws generalizing p with
  | nil => exact .refl i p
  | cons w ws ih => exact (lineStep_queueLcb p i w).trans (ih _)

theorem half_le (i : LineNo) : i.val / 16 ≤ 1 := by omega

theorem lineStep_noteLine (p : Part) (i : LineNo) (before : Part) : LineStep i p (p.noteLine i before) := by
  have hh := half_le i
  have base : ∀ (c : Bool) (q : Part) (w : Nat), 37 ≤ w ∧ w ≤ 41 → LineStep i q (q.queueBaseIf c w) :=
    fun c q w hw => .ite (lineStep_queueBase q i w hw) (.refl i q)
  exact ((base _ p 37 (by omega)).trans (base _ _ _ (by omega))).trans (base _ _ _ (by omega))

theorem lineStep_noteDue (p : Part) (i : LineNo) (before : Part) : LineStep i p (p.noteDue i before) :=
  (lineStep_queueLcbIf p _ i 36).trans (lineStep_noteLine _ i before)

theorem lineStep_changeFlags (p : Part) (i : LineNo) (f : Word) : LineStep i p (p.changeFlags i f) := by
  unfold Part.changeFlags
  exact .ite (.refl i p) (((lineStep_onLine p i _).trans (lineStep_queueLcb _ i 35)).trans (lineStep_noteLine _ i p))

theorem lineStep_latch (p : Part) (i : LineNo) (f : Flag) : LineStep i p (p.latch i f) := lineStep_changeFlags p i _

theorem lineStep_unlatch (p : Part) (i : LineNo) (f : Flag) : LineStep i p (p.unlatch i f) := lineStep_changeFlags p i _

theorem lineStep_setConditions (p : Part) (i : LineNo) (a b : Bool) : LineStep i p (p.setConditions i a b) :=
  (lineStep_onLine p i _).trans (lineStep_queueLcbIf _ _ i 36)

theorem lineStep_count (p : Part) (i : LineNo) (c : Counter) (n : Nat) : LineStep i p (p.count i c n) := by
  unfold Part.count
  exact .ite (.refl i p) ((lineStep_onLine p i _).trans (lineStep_queueLcb _ i _))

theorem lineStep_loseEntries (p : Part) (i : LineNo) (n : Nat) : LineStep i p (p.loseEntries i n) :=
  (lineStep_count p i _ n).trans (lineStep_onLine _ i _)

theorem lineStep_refuseEntry (p : Part) (i : LineNo) : LineStep i p (p.refuseEntry i) :=
  (lineStep_count p i _ 1).trans (lineStep_onLine _ i _)

theorem lineStep_byteSent (p : Part) (i : LineNo) : LineStep i p (p.byteSent i) :=
  (lineStep_count p i _ 1).trans (lineStep_onLine _ i _)

theorem lineStep_setCredit (p : Part) (i : LineNo) (c : Bool) : LineStep i p (p.setCredit i c) :=
  (lineStep_onLine p i _).trans (lineStep_queueLcbIf _ _ i 36)

theorem lineStep_setRate (p : Part) (i : LineNo) (d f : Nat) : LineStep i p (p.setRate i d f) :=
  (lineStep_onLine p i _).trans (lineStep_queueLcbs _ i _)

theorem lineStep_offer (p : Part) (i : LineNo) (k : EventKind) (a b c d : Word) : LineStep i p (p.offer i k a b c d) :=
  lineStep_onLine p i _

theorem lineStep_offerMode (p : Part) (i : LineNo) (a : LineState) (k : ModeCause) (c : Word) (d : LineState) :
    LineStep i p (p.offerMode i a k c d) := lineStep_offer p i _ _ _ _ _

theorem lineStep_closeOpen (p : Part) (i : LineNo) : LineStep i p (p.closeOpen i) := lineStep_onLine p i _

theorem lineStep_overrun (p : Part) (i : LineNo) : LineStep i p (p.overrun i) :=
  ((lineStep_count p i _ 1).trans (lineStep_latch _ i _)).trans (.ite (lineStep_onLine _ i _) (lineStep_offer _ i _ _ _ _ _))

theorem lineStep_placeByte (p : Part) (i : LineNo) (b : RxByte) : LineStep i p (p.placeByte i b) := by
  unfold Part.placeByte
  split
  · exact lineStep_onLine p i _
  · split
    · exact lineStep_onLine p i _
    · exact lineStep_overrun p i

theorem lineStep_setRing (p : Part) (i : LineNo) (r : Ring) : LineStep i p (p.setRing i r) := lineStep_onLine p i _

theorem lineStep_unpark (p : Part) (i : LineNo) : LineStep i p (p.unpark i) := lineStep_onLine p i _

theorem lineStep_makeFresh (p : Part) (i : LineNo) : LineStep i p (p.makeFresh i) :=
  (((lineStep_setRing p i _).trans (lineStep_unpark _ i)).trans (lineStep_queueLcbs _ i _)).trans (lineStep_noteLine _ i p)

theorem lineStep_commitRing (p : Part) (i : LineNo) (r : Ring) (s : Nat) (pad : Option Nat) (seq : Word) :
    LineStep i p (p.commitRing i r s pad seq) := by
  unfold Part.commitRing
  extract_lets l r' q1 q2 q3
  have h1 : LineStep i p q1 := (lineStep_setRing p i _).trans (lineStep_queueLcbs _ i _)
  have h2 : LineStep i q1 q2 := (lineStep_queueLcbIf q1 _ i _).trans (lineStep_queueLcbIf _ _ i _)
  have h3 : LineStep i q2 q3 := lineStep_queueLcbIf q2 _ i _
  exact (((h1.trans h2).trans h3).trans (lineStep_queueLcb _ i _)).trans (lineStep_noteLine _ i p)

theorem lineStep_startProbe (p : Part) (i : LineNo) (a : Bool) : LineStep i p (p.startProbe i a) :=
  (((lineStep_onLine p i _).trans (lineStep_queueLcb _ i 32)).trans (lineStep_unlatch _ i _)).trans (lineStep_queueLcb _ i 35)

theorem lineStep_deliverProbe (p : Part) (i : LineNo) (k : Probe) (r : ProbeResult) (n : Nat) :
    LineStep i p (p.deliverProbe i k r n) :=
  by
  unfold Part.deliverProbe
  extract_lets p1 p2 p3 p4
  have h1 : LineStep i p p1 := (lineStep_onLine p i _).trans (lineStep_queueLcb _ i 32)
  have h2 : LineStep i p1 p2 := (lineStep_onLine p1 i _).trans (lineStep_queueLcb _ i 45)
  have h3 : LineStep i p2 p3 := .ite (lineStep_setRate p2 i _ _) (.refl i p2)
  have h4 : LineStep i p3 p4 := lineStep_offer p3 i _ _ _ _ _
  exact (((h1.trans h2).trans h3).trans h4).trans (lineStep_latch p4 i _)

theorem lineStep_abandonProbe (p : Part) (i : LineNo) : LineStep i p (p.abandonProbe i) := by
  unfold Part.abandonProbe
  split
  · exact lineStep_deliverProbe p i _ _ _
  · exact .refl i p

theorem lineStep_snoopProbe (p : Part) (i : LineNo) (d : Word) : LineStep i p (p.snoopProbe i d) := by
  unfold Part.snoopProbe
  exact .ite (lineStep_unlatch p i _) (.refl i p)

theorem lineStep_setActing (p : Part) (i : LineNo) (a : Acting) : LineStep i p (p.setActing i a) := lineStep_onLine p i _

theorem lineStep_startListening (p : Part) (i : LineNo) : LineStep i p (p.startListening i) :=
  (((lineStep_setRate p i _ _).trans (lineStep_onLine _ i _)).trans (lineStep_setConditions _ i _ _)).trans (lineStep_queueLcb _ i 32)

theorem lineStep_enterFresh (p : Part) (i : LineNo) : LineStep i p (p.enterFresh i) :=
  ((lineStep_makeFresh p i).trans (lineStep_startListening _ i)).trans (lineStep_offerMode _ i _ _ _ _)

theorem lineStep_enterResuming (p : Part) (i : LineNo) : LineStep i p (p.enterResuming i) :=
  ((lineStep_onLine p i _).trans (lineStep_noteDue _ i p)).trans (lineStep_startListening _ i)

theorem lineStep_enterOff (p : Part) (i : LineNo) (c : ModeCause) : LineStep i p (p.enterOff i c) :=
  ((((lineStep_closeOpen p i).trans (lineStep_offerMode _ i _ _ _ _)).trans (lineStep_onLine _ i _)).trans
    (lineStep_setConditions _ i _ _)).trans (lineStep_queueLcb _ i 32)

theorem lineStep_enterDrive (p : Part) (i : LineNo) (c : ModeCause) : LineStep i p (p.enterDrive i c) :=
  ((lineStep_onLine p i _).trans (lineStep_offerMode _ i _ _ _ _)).trans (lineStep_queueLcb _ i 32)

theorem lineStep_setHeld (p : Part) (i : LineNo) (a b : Bool) : LineStep i p (p.setHeld i a b) :=
  (lineStep_onLine p i _).trans (lineStep_queueLcbIf _ _ i 32)

theorem lineStep_retarget (p : Part) (i : LineNo) (t : Target) (c : ModeCause) : LineStep i p (p.retarget i t c) :=
  lineStep_onLine p i _

theorem lineStep_endReceivedBreak (p : Part) (i : LineNo) : LineStep i p (p.endReceivedBreak i) := by
  unfold Part.endReceivedBreak
  split
  · exact lineStep_offer p i _ _ _ _ _
  · exact .refl i p

/-! ### The line after an operation -/

@[simp] theorem line_onLine (p : Part) (i : LineNo) (f : Line → Line) : (p.onLine i f).line i = f (p.line i) := by simp

@[simp] theorem line_queueLcbs (p : Part) (i j : LineNo) (ws : List Nat) : (p.queueLcbs i ws).line j = p.line j := by
  induction ws generalizing p with
  | nil => rfl
  | cons w ws ih => exact (ih (p.queueLcb i w)).trans rfl

@[simp] theorem line_queueBases (p : Part) (j : LineNo) (ws : List Nat) : (p.queueBases ws).line j = p.line j := by
  induction ws generalizing p with
  | nil => rfl
  | cons w ws ih => exact (ih (p.queueBase w)).trans rfl

@[simp] theorem line_queueLcbIf (p : Part) (c : Bool) (i j : LineNo) (w : Nat) : (p.queueLcbIf c i w).line j = p.line j := by
  cases c <;> rfl

@[simp] theorem line_queueBaseIf (p : Part) (c : Bool) (j : LineNo) (w : Nat) : (p.queueBaseIf c w).line j = p.line j := by
  cases c <;> rfl

@[simp] theorem line_noteLine (p : Part) (i j : LineNo) (before : Part) : (p.noteLine i before).line j = p.line j := by
  simp [Part.noteLine]

@[simp] theorem line_noteDue (p : Part) (i j : LineNo) (before : Part) : (p.noteDue i before).line j = p.line j := by
  simp [Part.noteDue]

@[simp] theorem line_changeFlags (p : Part) (i : LineNo) (f : Word) :
    (p.changeFlags i f).line i = { p.line i with flags := f } := by
  unfold Part.changeFlags
  split
  · next h => rw [h]
  · simp

@[simp] theorem line_latch (p : Part) (i : LineNo) (f : Flag) :
    (p.latch i f).line i = { p.line i with flags := (p.line i).flags ||| f.mask } := by simp [Part.latch]

@[simp] theorem line_unlatch (p : Part) (i : LineNo) (f : Flag) :
    (p.unlatch i f).line i = { p.line i with flags := (p.line i).flags &&& ~~~f.mask } := by simp [Part.unlatch]

@[simp] theorem line_setConditions (p : Part) (i : LineNo) (a b : Bool) :
    (p.setConditions i a b).line i = { p.line i with openCondition := a, stuckCondition := b } := by
  simp [Part.setConditions]

theorem line_count (p : Part) (i : LineNo) (c : Counter) (n : Nat) :
    (p.count i c n).line i = (p.line i).setCounter c (satAdd ((p.line i).counter c) n) := by
  unfold Part.count
  dsimp only
  split
  · next h => rw [h]; simp [Line.setCounter, Line.counter]
  · simp [Line.setCounter]

@[simp] theorem line_setCredit (p : Part) (i : LineNo) (c : Bool) :
    (p.setCredit i c).line i = { p.line i with breakCredit := c } := by simp [Part.setCredit]

@[simp] theorem line_setRate (p : Part) (i : LineNo) (d f : Nat) :
    (p.setRate i d f).line i = { p.line i with effDivisor := d, effFraction := f, generatorStart := p.now } := by
  simp [Part.setRate]

@[simp] theorem line_offer (p : Part) (i : LineNo) (k : EventKind) (a b c d : Word) :
    (p.offer i k a b c d).line i = (p.line i).offer ⟨k, a, b, c, d, p.counter⟩ := by simp [Part.offer]

@[simp] theorem line_offerMode (p : Part) (i : LineNo) (a : LineState) (k : ModeCause) (c : Word) (d : LineState) :
    (p.offerMode i a k c d).line i = (p.line i).offer ⟨.mode, a.code, k.code, c, d.code, p.counter⟩ := by
  simp [Part.offerMode]

@[simp] theorem line_closeOpen (p : Part) (i : LineNo) : (p.closeOpen i).line i = (p.line i).closeOpen := by
  simp [Part.closeOpen]

@[simp] theorem line_setRing (p : Part) (i : LineNo) (r : Ring) : (p.setRing i r).line i = { p.line i with ring := .present r } := by
  simp [Part.setRing]

@[simp] theorem line_setHeld (p : Part) (i : LineNo) (a b : Bool) :
    (p.setHeld i a b).line i = { p.line i with heldHandsOff := a, heldForced := b } := by simp [Part.setHeld]

@[simp] theorem line_refuseEntry (p : Part) (i : LineNo) : (p.refuseEntry i).line i =
    { (p.line i).setCounter .entriesRefused (satAdd ((p.line i).counter .entriesRefused) 1) with
      tallies := { (p.line i).tallies with refused := satAdd (p.line i).tallies.refused 1 } } := by
  simp [Part.refuseEntry, line_count, Line.setCounter]

@[simp] theorem line_loseEntries (p : Part) (i : LineNo) (n : Nat) : (p.loseEntries i n).line i =
    { (p.line i).setCounter .entriesLost (satAdd ((p.line i).counter .entriesLost) n) with
      tallies := { (p.line i).tallies with lost := satAdd (p.line i).tallies.lost n } } := by
  simp [Part.loseEntries, line_count, Line.setCounter]

@[simp] theorem line_byteSent (p : Part) (i : LineNo) : (p.byteSent i).line i =
    { (p.line i).setCounter .bytesSent (satAdd ((p.line i).counter .bytesSent) 1) with
      tallies := { (p.line i).tallies with sent := satAdd (p.line i).tallies.sent 1 } } := by
  simp [Part.byteSent, line_count, Line.setCounter]

@[simp] theorem line_unpark (p : Part) (i : LineNo) : (p.unpark i).line i = (p.line i).unparked := by
  simp only [Part.unpark, line_onLine]
  rfl

@[simp] theorem line_makeFresh (p : Part) (i : LineNo) : (p.makeFresh i).line i = (p.line i).freshRing := by
  simp [Part.makeFresh, Line.freshRing, Ring.fresh]

@[simp] theorem line_enterOff (p : Part) (i : LineNo) (c : ModeCause) :
    (p.enterOff i c).line i = (p.line i).wentOff c p.counter := by
  simp [Part.enterOff, Line.wentOff, Line.stop, Part.closeOpen]

@[simp] theorem line_deliverProbe (p : Part) (i : LineNo) (k : Probe) (r : ProbeResult) (n : Nat) :
    (p.deliverProbe i k r n).line i = (p.line i).delivered k r n p.now p.counter := by
  unfold Part.deliverProbe
  extract_lets p1 p2 p3 p4
  have h3 : p3.line i =
      if k.apply = true ∧ r = .found then
        { p.line i with
          probe := none, probeResult := r.toWord n, effDivisor := rateDivisor n, effFraction := 0, generatorStart := p.now }
      else { p.line i with probe := none, probeResult := r.toWord n } := by
    by_cases h : k.apply = true ∧ r = .found
    · simp [p3, p2, p1, h]
    · have h' : (k.apply && r == .found) = false := by simpa using h
      simp [p3, p2, p1, h, h']
  have s1 : LineStep i p p1 := (lineStep_onLine p i _).trans (lineStep_queueLcb _ i 32)
  have s2 : LineStep i p1 p2 := (lineStep_onLine p1 i _).trans (lineStep_queueLcb _ i 45)
  have s3 : LineStep i p2 p3 := .ite (lineStep_setRate p2 i _ _) (.refl i p2)
  have hc : p3.counter = p.counter := ((s1.trans s2).trans s3).counter
  rw [line_latch, line_offer, h3, hc]
  unfold Line.delivered
  split <;> rfl

theorem line_abandonProbe (p : Part) (i : LineNo) :
    (p.abandonProbe i).line i =
      match (p.line i).probe with
      | some k => (p.line i).delivered k .abandoned 0 p.now p.counter
      | none => p.line i := by
  unfold Part.abandonProbe
  split <;> simp_all

/-! ### What offering an event leaves of a line -/

/-- Closing the open buffer changes buffers, job list and gap timer alone. -/
theorem closeOpen_frame (l : Line) :
    { l.closeOpen with buffers := l.buffers, jobs := l.jobs, gapTimer := l.gapTimer } = l := by
  unfold Line.closeOpen
  split <;> rfl

/-- Offering an event changes buffers, job list, gap timer and dropped-events tally alone. -/
theorem offer_frame (l : Line) (e : Event) :
    { l.offer e with buffers := l.buffers, jobs := l.jobs, gapTimer := l.gapTimer, droppedEvents := l.droppedEvents } = l := by
  have h := closeOpen_frame l
  unfold Line.offer
  split
  · rfl
  · dsimp only
    split <;> exact congrArg (fun m : Line => { m with droppedEvents := l.droppedEvents }) h

@[simp] theorem closeOpen_shadow (l : Line) : l.closeOpen.shadow = l.shadow := by
  have h := congrArg Line.shadow (closeOpen_frame l)
  exact h
@[simp] theorem offer_shadow (l : Line) (e : Event) : (l.offer e).shadow = l.shadow := by
  have h := congrArg Line.shadow (offer_frame l e)
  exact h
@[simp] theorem closeOpen_state (l : Line) : l.closeOpen.state = l.state := by
  have h := congrArg Line.state (closeOpen_frame l)
  exact h
@[simp] theorem offer_state (l : Line) (e : Event) : (l.offer e).state = l.state := by
  have h := congrArg Line.state (offer_frame l e)
  exact h
@[simp] theorem closeOpen_target (l : Line) : l.closeOpen.target = l.target := by
  have h := congrArg Line.target (closeOpen_frame l)
  exact h
@[simp] theorem offer_target (l : Line) (e : Event) : (l.offer e).target = l.target := by
  have h := congrArg Line.target (offer_frame l e)
  exact h
@[simp] theorem closeOpen_releaseCause (l : Line) : l.closeOpen.releaseCause = l.releaseCause := by
  have h := congrArg Line.releaseCause (closeOpen_frame l)
  exact h
@[simp] theorem offer_releaseCause (l : Line) (e : Event) : (l.offer e).releaseCause = l.releaseCause := by
  have h := congrArg Line.releaseCause (offer_frame l e)
  exact h
@[simp] theorem closeOpen_heldHandsOff (l : Line) : l.closeOpen.heldHandsOff = l.heldHandsOff := by
  have h := congrArg Line.heldHandsOff (closeOpen_frame l)
  exact h
@[simp] theorem offer_heldHandsOff (l : Line) (e : Event) : (l.offer e).heldHandsOff = l.heldHandsOff := by
  have h := congrArg Line.heldHandsOff (offer_frame l e)
  exact h
@[simp] theorem closeOpen_heldForced (l : Line) : l.closeOpen.heldForced = l.heldForced := by
  have h := congrArg Line.heldForced (closeOpen_frame l)
  exact h
@[simp] theorem offer_heldForced (l : Line) (e : Event) : (l.offer e).heldForced = l.heldForced := by
  have h := congrArg Line.heldForced (offer_frame l e)
  exact h
@[simp] theorem closeOpen_settleTimer (l : Line) : l.closeOpen.settleTimer = l.settleTimer := by
  have h := congrArg Line.settleTimer (closeOpen_frame l)
  exact h
@[simp] theorem offer_settleTimer (l : Line) (e : Event) : (l.offer e).settleTimer = l.settleTimer := by
  have h := congrArg Line.settleTimer (offer_frame l e)
  exact h
@[simp] theorem closeOpen_releaseTimer (l : Line) : l.closeOpen.releaseTimer = l.releaseTimer := by
  have h := congrArg Line.releaseTimer (closeOpen_frame l)
  exact h
@[simp] theorem offer_releaseTimer (l : Line) (e : Event) : (l.offer e).releaseTimer = l.releaseTimer := by
  have h := congrArg Line.releaseTimer (offer_frame l e)
  exact h
@[simp] theorem closeOpen_releaseGuard (l : Line) : l.closeOpen.releaseGuard = l.releaseGuard := by
  have h := congrArg Line.releaseGuard (closeOpen_frame l)
  exact h
@[simp] theorem offer_releaseGuard (l : Line) (e : Event) : (l.offer e).releaseGuard = l.releaseGuard := by
  have h := congrArg Line.releaseGuard (offer_frame l e)
  exact h
@[simp] theorem closeOpen_openCondition (l : Line) : l.closeOpen.openCondition = l.openCondition := by
  have h := congrArg Line.openCondition (closeOpen_frame l)
  exact h
@[simp] theorem offer_openCondition (l : Line) (e : Event) : (l.offer e).openCondition = l.openCondition := by
  have h := congrArg Line.openCondition (offer_frame l e)
  exact h
@[simp] theorem closeOpen_stuckCondition (l : Line) : l.closeOpen.stuckCondition = l.stuckCondition := by
  have h := congrArg Line.stuckCondition (closeOpen_frame l)
  exact h
@[simp] theorem offer_stuckCondition (l : Line) (e : Event) : (l.offer e).stuckCondition = l.stuckCondition := by
  have h := congrArg Line.stuckCondition (offer_frame l e)
  exact h
@[simp] theorem closeOpen_invalidRun (l : Line) : l.closeOpen.invalidRun = l.invalidRun := by
  have h := congrArg Line.invalidRun (closeOpen_frame l)
  exact h
@[simp] theorem offer_invalidRun (l : Line) (e : Event) : (l.offer e).invalidRun = l.invalidRun := by
  have h := congrArg Line.invalidRun (offer_frame l e)
  exact h
@[simp] theorem closeOpen_validRun (l : Line) : l.closeOpen.validRun = l.validRun := by
  have h := congrArg Line.validRun (closeOpen_frame l)
  exact h
@[simp] theorem offer_validRun (l : Line) (e : Event) : (l.offer e).validRun = l.validRun := by
  have h := congrArg Line.validRun (offer_frame l e)
  exact h
@[simp] theorem closeOpen_spaceTimer (l : Line) : l.closeOpen.spaceTimer = l.spaceTimer := by
  have h := congrArg Line.spaceTimer (closeOpen_frame l)
  exact h
@[simp] theorem offer_spaceTimer (l : Line) (e : Event) : (l.offer e).spaceTimer = l.spaceTimer := by
  have h := congrArg Line.spaceTimer (offer_frame l e)
  exact h
@[simp] theorem closeOpen_modeStatus (l : Line) : l.closeOpen.modeStatus = l.modeStatus := by
  have h := congrArg Line.modeStatus (closeOpen_frame l)
  exact h
@[simp] theorem offer_modeStatus (l : Line) (e : Event) : (l.offer e).modeStatus = l.modeStatus := by
  have h := congrArg Line.modeStatus (offer_frame l e)
  exact h
@[simp] theorem closeOpen_commandStatus (l : Line) : l.closeOpen.commandStatus = l.commandStatus := by
  have h := congrArg Line.commandStatus (closeOpen_frame l)
  exact h
@[simp] theorem offer_commandStatus (l : Line) (e : Event) : (l.offer e).commandStatus = l.commandStatus := by
  have h := congrArg Line.commandStatus (offer_frame l e)
  exact h
@[simp] theorem closeOpen_flags (l : Line) : l.closeOpen.flags = l.flags := by
  have h := congrArg Line.flags (closeOpen_frame l)
  exact h
@[simp] theorem offer_flags (l : Line) (e : Event) : (l.offer e).flags = l.flags := by
  have h := congrArg Line.flags (offer_frame l e)
  exact h
@[simp] theorem closeOpen_counters (l : Line) : l.closeOpen.counters = l.counters := by
  have h := congrArg Line.counters (closeOpen_frame l)
  exact h
@[simp] theorem offer_counters (l : Line) (e : Event) : (l.offer e).counters = l.counters := by
  have h := congrArg Line.counters (offer_frame l e)
  exact h
@[simp] theorem closeOpen_breakCredit (l : Line) : l.closeOpen.breakCredit = l.breakCredit := by
  have h := congrArg Line.breakCredit (closeOpen_frame l)
  exact h
@[simp] theorem offer_breakCredit (l : Line) (e : Event) : (l.offer e).breakCredit = l.breakCredit := by
  have h := congrArg Line.breakCredit (offer_frame l e)
  exact h
@[simp] theorem closeOpen_receiver (l : Line) : l.closeOpen.receiver = l.receiver := by
  have h := congrArg Line.receiver (closeOpen_frame l)
  exact h
@[simp] theorem offer_receiver (l : Line) (e : Event) : (l.offer e).receiver = l.receiver := by
  have h := congrArg Line.receiver (offer_frame l e)
  exact h
@[simp] theorem closeOpen_payloadLimit (l : Line) : l.closeOpen.payloadLimit = l.payloadLimit := by
  have h := congrArg Line.payloadLimit (closeOpen_frame l)
  exact h
@[simp] theorem offer_payloadLimit (l : Line) (e : Event) : (l.offer e).payloadLimit = l.payloadLimit := by
  have h := congrArg Line.payloadLimit (offer_frame l e)
  exact h
@[simp] theorem closeOpen_quietTimer (l : Line) : l.closeOpen.quietTimer = l.quietTimer := by
  have h := congrArg Line.quietTimer (closeOpen_frame l)
  exact h
@[simp] theorem offer_quietTimer (l : Line) (e : Event) : (l.offer e).quietTimer = l.quietTimer := by
  have h := congrArg Line.quietTimer (offer_frame l e)
  exact h
@[simp] theorem closeOpen_quiet (l : Line) : l.closeOpen.quiet = l.quiet := by
  have h := congrArg Line.quiet (closeOpen_frame l)
  exact h
@[simp] theorem offer_quiet (l : Line) (e : Event) : (l.offer e).quiet = l.quiet := by
  have h := congrArg Line.quiet (offer_frame l e)
  exact h
@[simp] theorem closeOpen_quietStart (l : Line) : l.closeOpen.quietStart = l.quietStart := by
  have h := congrArg Line.quietStart (closeOpen_frame l)
  exact h
@[simp] theorem offer_quietStart (l : Line) (e : Event) : (l.offer e).quietStart = l.quietStart := by
  have h := congrArg Line.quietStart (offer_frame l e)
  exact h
@[simp] theorem closeOpen_ring (l : Line) : l.closeOpen.ring = l.ring := by
  have h := congrArg Line.ring (closeOpen_frame l)
  exact h
@[simp] theorem offer_ring (l : Line) (e : Event) : (l.offer e).ring = l.ring := by
  have h := congrArg Line.ring (offer_frame l e)
  exact h
@[simp] theorem closeOpen_walk (l : Line) : l.closeOpen.walk = l.walk := by
  have h := congrArg Line.walk (closeOpen_frame l)
  exact h
@[simp] theorem offer_walk (l : Line) (e : Event) : (l.offer e).walk = l.walk := by
  have h := congrArg Line.walk (offer_frame l e)
  exact h
@[simp] theorem closeOpen_parked (l : Line) : l.closeOpen.parked = l.parked := by
  have h := congrArg Line.parked (closeOpen_frame l)
  exact h
@[simp] theorem offer_parked (l : Line) (e : Event) : (l.offer e).parked = l.parked := by
  have h := congrArg Line.parked (offer_frame l e)
  exact h
@[simp] theorem closeOpen_retained (l : Line) : l.closeOpen.retained = l.retained := by
  have h := congrArg Line.retained (closeOpen_frame l)
  exact h
@[simp] theorem offer_retained (l : Line) (e : Event) : (l.offer e).retained = l.retained := by
  have h := congrArg Line.retained (offer_frame l e)
  exact h
@[simp] theorem closeOpen_queue (l : Line) : l.closeOpen.queue = l.queue := by
  have h := congrArg Line.queue (closeOpen_frame l)
  exact h
@[simp] theorem offer_queue (l : Line) (e : Event) : (l.offer e).queue = l.queue := by
  have h := congrArg Line.queue (offer_frame l e)
  exact h
@[simp] theorem closeOpen_acting (l : Line) : l.closeOpen.acting = l.acting := by
  have h := congrArg Line.acting (closeOpen_frame l)
  exact h
@[simp] theorem offer_acting (l : Line) (e : Event) : (l.offer e).acting = l.acting := by
  have h := congrArg Line.acting (offer_frame l e)
  exact h
@[simp] theorem closeOpen_tallies (l : Line) : l.closeOpen.tallies = l.tallies := by
  have h := congrArg Line.tallies (closeOpen_frame l)
  exact h
@[simp] theorem offer_tallies (l : Line) (e : Event) : (l.offer e).tallies = l.tallies := by
  have h := congrArg Line.tallies (offer_frame l e)
  exact h
@[simp] theorem closeOpen_fenceTag (l : Line) : l.closeOpen.fenceTag = l.fenceTag := by
  have h := congrArg Line.fenceTag (closeOpen_frame l)
  exact h
@[simp] theorem offer_fenceTag (l : Line) (e : Event) : (l.offer e).fenceTag = l.fenceTag := by
  have h := congrArg Line.fenceTag (offer_frame l e)
  exact h
@[simp] theorem closeOpen_effDivisor (l : Line) : l.closeOpen.effDivisor = l.effDivisor := by
  have h := congrArg Line.effDivisor (closeOpen_frame l)
  exact h
@[simp] theorem offer_effDivisor (l : Line) (e : Event) : (l.offer e).effDivisor = l.effDivisor := by
  have h := congrArg Line.effDivisor (offer_frame l e)
  exact h
@[simp] theorem closeOpen_effFraction (l : Line) : l.closeOpen.effFraction = l.effFraction := by
  have h := congrArg Line.effFraction (closeOpen_frame l)
  exact h
@[simp] theorem offer_effFraction (l : Line) (e : Event) : (l.offer e).effFraction = l.effFraction := by
  have h := congrArg Line.effFraction (offer_frame l e)
  exact h
@[simp] theorem closeOpen_generatorStart (l : Line) : l.closeOpen.generatorStart = l.generatorStart := by
  have h := congrArg Line.generatorStart (closeOpen_frame l)
  exact h
@[simp] theorem offer_generatorStart (l : Line) (e : Event) : (l.offer e).generatorStart = l.generatorStart := by
  have h := congrArg Line.generatorStart (offer_frame l e)
  exact h
@[simp] theorem closeOpen_probe (l : Line) : l.closeOpen.probe = l.probe := by
  have h := congrArg Line.probe (closeOpen_frame l)
  exact h
@[simp] theorem offer_probe (l : Line) (e : Event) : (l.offer e).probe = l.probe := by
  have h := congrArg Line.probe (offer_frame l e)
  exact h
@[simp] theorem closeOpen_probeResult (l : Line) : l.closeOpen.probeResult = l.probeResult := by
  have h := congrArg Line.probeResult (closeOpen_frame l)
  exact h
@[simp] theorem offer_probeResult (l : Line) (e : Event) : (l.offer e).probeResult = l.probeResult := by
  have h := congrArg Line.probeResult (offer_frame l e)
  exact h

/-! ### The pending words of a line after an operation -/

@[simp] theorem mem_queueUpdate_base (j : LineNo) (w k : Nat) (u v : Word) (r : List (ReportWord × Word)) :
    (ReportWord.lcb j w, v) ∈ queueUpdate (.base k) u r ↔ (ReportWord.lcb j w, v) ∈ r :=
  mem_queueUpdate_ne _ _ _ _ _ (by simp)

@[simp] theorem mem_queueUpdate_lcb (i j : LineNo) (w k : Nat) (u v : Word) (r : List (ReportWord × Word)) (h : w ≠ k) :
    (ReportWord.lcb j w, v) ∈ queueUpdate (.lcb i k) u r ↔ (ReportWord.lcb j w, v) ∈ r :=
  mem_queueUpdate_ne _ _ _ _ _ (by simp [h])

@[simp] theorem mem_queueUpdate_same (w : ReportWord) (v : Word) (r : List (ReportWord × Word)) :
    (w, v) ∈ queueUpdate w v r ↔ True := iff_true_intro (mem_queueUpdate_self w v r)

@[simp] theorem mem_queueBaseIf_lcb (p : Part) (c : Bool) (j : LineNo) (w k : Nat) (v : Word) :
    (ReportWord.lcb j w, v) ∈ (p.queueBaseIf c k).reports ↔ (ReportWord.lcb j w, v) ∈ p.reports := by
  cases c
  · rfl
  · exact mem_queueUpdate_ne _ _ _ _ _ (by simp)

@[simp] theorem mem_noteLine_lcb (p : Part) (i j : LineNo) (w : Nat) (v : Word) (before : Part) :
    (ReportWord.lcb j w, v) ∈ (p.noteLine i before).reports ↔ (ReportWord.lcb j w, v) ∈ p.reports := by
  simp [Part.noteLine]

@[simp] theorem mem_queueLcbIf_ne (p : Part) (c : Bool) (i j : LineNo) (w k : Nat) (v : Word) (h : w ≠ k) :
    (ReportWord.lcb j w, v) ∈ (p.queueLcbIf c i k).reports ↔ (ReportWord.lcb j w, v) ∈ p.reports := by
  cases c
  · rfl
  · exact mem_queueUpdate_lcb i j w k _ v _ h

@[simp] theorem mem_changeFlags_ne (p : Part) (i j : LineNo) (w : Nat) (f v : Word) (h : w ≠ 35) :
    (ReportWord.lcb j w, v) ∈ (p.changeFlags i f).reports ↔ (ReportWord.lcb j w, v) ∈ p.reports := by
  unfold Part.changeFlags
  split
  · rfl
  · exact (mem_noteLine_lcb _ i j w v p).trans (mem_queueUpdate_lcb i j w 35 _ v _ h)

theorem mem_queueLcb_ne {i : LineNo} (p : Part) (w k : Nat) (v : Word) (h : w ≠ k) :
    (ReportWord.lcb i w, v) ∈ (p.queueLcb i k).reports ↔ (ReportWord.lcb i w, v) ∈ p.reports :=
  mem_queueUpdate_lcb i i w k _ v _ h

theorem mem_queueLcb_self {i : LineNo} (p : Part) (w : Nat) :
    (ReportWord.lcb i w, (p.line i).report w) ∈ (p.queueLcb i w).reports := mem_queueUpdate_self _ _ _

theorem mem_count_ne {i : LineNo} (p : Part) (c : Counter) (n w : Nat) (v : Word) (h : w ≠ 46 + c.index.val) :
    (ReportWord.lcb i w, v) ∈ (p.count i c n).reports ↔ (ReportWord.lcb i w, v) ∈ p.reports := by
  unfold Part.count
  dsimp only
  split
  · rfl
  · exact mem_queueLcb_ne _ w _ v h

@[simp] theorem reports_offer (p : Part) (i : LineNo) (k : EventKind) (a b c d : Word) :
    (p.offer i k a b c d).reports = p.reports := rfl

/-- A word queued by `queueLcbs` is pending with its present value. -/
theorem mem_queueLcbs (p : Part) (i : LineNo) (ws : List Nat) (w : Nat) (h : w ∈ ws) :
    (ReportWord.lcb i w, (p.line i).report w) ∈ (p.queueLcbs i ws).reports := by
  induction ws generalizing p with
  | nil => simp at h
  | cons k ws ih =>
    by_cases hw : w ∈ ws
    · exact ih (p.queueLcb i k) hw
    · have hk : w = k := by simpa [hw] using h
      subst hk
      have keep : ∀ (us : List Nat) (q : Part), w ∉ us → ∀ v, (ReportWord.lcb i w, v) ∈ q.reports →
          (ReportWord.lcb i w, v) ∈ (q.queueLcbs i us).reports := by
        intro us
        induction us with
        | nil => intro q _ v hv; exact hv
        | cons u us ihu =>
          intro q hu v hv
          simp only [List.mem_cons, not_or] at hu
          exact ihu _ hu.2 v ((mem_queueUpdate_lcb i i w u _ v _ hu.1).2 hv)
      exact keep ws _ hw _ (mem_queueUpdate_self _ _ _)

end Sys2Proof.Machine
end

