-- ==== Sys2Proof/Laws/Summaries.lean ====
section
/-! SUPPORT. The summaries: which changes of a line leave words 37 to 41 alone, and that `noteLine` queues those that a change of a
line has changed (R33, R166, R167). -/

namespace Sys2Proof.Machine

/-- Each summary word 37 to 41 is pending in `q` with the value it has there, unless neither that value nor what is pending for
the word differs from `p` (R33, R166, R167). -/
def Summarised (p q : Part) : Prop :=
  ∀ w, 37 ≤ w → w ≤ 41 →
    (ReportWord.base w, q.baseReport w) ∈ q.reports ∨
      q.baseReport w = p.baseReport w ∧ ∀ v, (ReportWord.base w, v) ∈ q.reports ↔ (ReportWord.base w, v) ∈ p.reports

/-- What the summaries 38 to 41 and "LINE_FAULT" say of a line. -/
def Line.summary (l : Line) : Bool × Bool × Bool := (l.hasFault, l.flag .activity, l.attention)

/-- The summary of a line depends on its flags, its ring and its shadow alone. -/
theorem summary_of {k l : Line} (h1 : k.flags = l.flags) (h2 : k.ring = l.ring) (h3 : k.shadow = l.shadow) :
    k.summary = l.summary := by
  simp only [Line.summary, Line.hasFault, Line.flag, Line.attention, Line.attends, Line.ringDue, Line.setting, h1, h2, h3]

theorem foldl_congr {α β : Type} (f g : β → α → β) (xs : List α) (b : β) (h : ∀ b a, a ∈ xs → f b a = g b a) :
    xs.foldl f b = xs.foldl g b := by
  induction xs generalizing b with
  | nil => rfl
  | cons x xs ih =>
    simp only [List.foldl_cons, h b x List.mem_cons_self]
    exact ih _ fun b a ha => h b a (List.mem_cons_of_mem _ ha)

/-- A half of a summary depends on the flag of its own lines alone. -/
theorem summaryHalf_congr {p q : Part} (f : Line → Bool) (half : Nat) (hm : q.map = p.map)
    (h : ∀ i : LineNo, i.val / 16 = half → f (q.line i) = f (p.line i)) : q.summaryHalf f half = p.summaryHalf f half := by
  apply foldl_congr
  intro b i _
  by_cases hi : i.val / 16 = half
  · simp only [hi, if_true, h i hi, hasLine_of_map p q hm]
  · simp only [hi, if_false]

theorem lineFault_congr {p q : Part} (hm : q.map = p.map) (h : ∀ i, (q.line i).hasFault = (p.line i).hasFault) :
    q.lineFault = p.lineFault := by
  simp only [Part.lineFault, h, hasLine_of_map p q hm]

/-- The five summary words. -/
theorem summary_word {w : Nat} (w1 : 37 ≤ w) (w2 : w ≤ 41) : w = 37 ∨ ∃ h, h < 2 ∧ (w = 38 + h ∨ w = 40 + h) := by
  by_cases h : w = 37
  · exact .inl h
  · by_cases k : w ≤ 39
    · exact .inr ⟨w - 38, by omega, by omega⟩
    · exact .inr ⟨w - 40, by omega, by omega⟩

theorem baseReport_37 (p : Part) : p.baseReport 37 = p.summaryFlags := by simp [Part.baseReport]

theorem baseReport_attention (p : Part) {h : Nat} (hh : h < 2) : p.baseReport (38 + h) = p.summaryHalf Line.attention h := by
  rcases (by omega : h = 0 ∨ h = 1) with rfl | rfl <;> simp [Part.baseReport]

theorem baseReport_activity (p : Part) {h : Nat} (hh : h < 2) :
    p.baseReport (40 + h) = p.summaryHalf (fun l => l.flag .activity) h := by
  rcases (by omega : h = 0 ∨ h = 1) with rfl | rfl <;> simp [Part.baseReport]

theorem baseReport_queueBaseIf (p : Part) (c : Bool) (k w : Nat) : (p.queueBaseIf c k).baseReport w = p.baseReport w := by
  cases c <;> rfl

/-- A change of line `i` alone: word 37 follows its fault flags, words 38 and 39 its attention flag, 40 and 41 its activity flag. -/
theorem LineStep.summary {i : LineNo} {p q : Part} (hs : LineStep i p q) :
    (q.lineFault = p.lineFault → q.baseReport 37 = p.baseReport 37) ∧
      (∀ h, h < 2 → ((q.line i).attention = (p.line i).attention ∨ h ≠ i.val / 16) →
        q.baseReport (38 + h) = p.baseReport (38 + h)) ∧
      ∀ h, h < 2 → ((q.line i).flag .activity = (p.line i).flag .activity ∨ h ≠ i.val / 16) →
        q.baseReport (40 + h) = p.baseReport (40 + h) := by
  have half : ∀ (f : Line → Bool) h, (f (q.line i) = f (p.line i) ∨ h ≠ i.val / 16) →
      q.summaryHalf f h = p.summaryHalf f h := by
    intro f h hf
    refine summaryHalf_congr f h hs.map fun j hj => ?_
    by_cases e : j = i
    · subst e; exact hf.resolve_right (by omega)
    · rw [hs.2.1 j e]
  refine ⟨fun h => ?_, fun h hh hf => ?_, fun h hh hf => ?_⟩
  · rw [baseReport_37, baseReport_37]
    simp only [Part.summaryFlags, hs.handsOff, hs.forced, hs.blocked, h]
  · rw [baseReport_attention q hh, baseReport_attention p hh]; exact half _ h hf
  · rw [baseReport_activity q hh, baseReport_activity p hh]; exact half _ h hf

theorem LineStep.lineFault {i : LineNo} {p q : Part} (hs : LineStep i p q) (h : (q.line i).hasFault = (p.line i).hasFault) :
    q.lineFault = p.lineFault := by
  refine lineFault_congr hs.map fun j => ?_
  by_cases e : j = i
  · rw [e, h]
  · rw [hs.2.1 j e]

/-- A change of line `i` alone that leaves its summary and what is pending for the summary words alone. -/
theorem summarised_still {i : LineNo} {p q : Part} (hs : LineStep i p q) (h : (q.line i).summary = (p.line i).summary)
    (hr : ∀ w v, (ReportWord.base w, v) ∈ q.reports ↔ (ReportWord.base w, v) ∈ p.reports) : Summarised p q := by
  simp only [Line.summary, Prod.mk.injEq] at h
  obtain ⟨hf, ha, ht⟩ := h
  intro w w1 w2
  refine .inr ⟨?_, hr w⟩
  rcases summary_word w1 w2 with rfl | ⟨k, hk, rfl | rfl⟩
  · exact hs.summary.1 (hs.lineFault hf)
  · exact hs.summary.2.1 k hk (.inl ht)
  · exact hs.summary.2.2 k hk (.inl ha)

theorem base_queueLcb (p : Part) (i : LineNo) (k w : Nat) (v : Word) :
    (ReportWord.base w, v) ∈ (p.queueLcb i k).reports ↔ (ReportWord.base w, v) ∈ p.reports :=
  mem_queueUpdate_ne _ _ _ _ _ (by simp)

/-- A base word queued when `c` holds is pending with its value; every other word stays as it was. -/
theorem mem_queueBaseIf (p : Part) (c : Bool) (k : Nat) :
    (c = true → (ReportWord.base k, p.baseReport k) ∈ (p.queueBaseIf c k).reports) ∧
      ∀ w v, (w ≠ k ∨ c = false) →
        ((ReportWord.base w, v) ∈ (p.queueBaseIf c k).reports ↔ (ReportWord.base w, v) ∈ p.reports) := by
  cases c with
  | false => exact ⟨fun h => (nomatch h), fun _ _ _ => Iff.rfl⟩
  | true => exact ⟨fun _ => mem_queueUpdate_self _ _ _, fun w v h => mem_queueUpdate_ne _ _ _ _ _ (by simpa using h)⟩

/-- `noteLine` queues the summaries that a change of line `i` has changed. -/
theorem summarised_noteLine {i : LineNo} {p q : Part} (hs : LineStep i p q)
    (hr : ∀ w v, (ReportWord.base w, v) ∈ q.reports ↔ (ReportWord.base w, v) ∈ p.reports) : Summarised p (q.noteLine i p) := by
  have hh : i.val / 16 < 2 := by omega
  unfold Part.noteLine
  extract_lets half
  generalize ea : (q.lineFault != p.lineFault) = a
  generalize eb : ((q.line i).flag .activity != (p.line i).flag .activity) = b
  generalize ec : ((q.line i).attention != (p.line i).attention) = c
  have m1 := mem_queueBaseIf q a 37
  have m2 := mem_queueBaseIf (q.queueBaseIf a 37) b (40 + half)
  have m3 := mem_queueBaseIf ((q.queueBaseIf a 37).queueBaseIf b (40 + half)) c (38 + half)
  simp only [baseReport_queueBaseIf] at m2 m3
  have h2 : half < 2 := hh
  intro w w1 w2
  simp only [baseReport_queueBaseIf]
  rcases summary_word w1 w2 with rfl | ⟨k, hk, rfl | rfl⟩
  · cases a with
    | true => exact .inl ((m3.2 _ _ (by omega)).2 ((m2.2 _ _ (by omega)).2 (m1.1 rfl)))
    | false =>
      exact .inr ⟨hs.summary.1 (by simpa using ea), fun v =>
        (m3.2 _ _ (by omega)).trans ((m2.2 _ _ (by omega)).trans ((m1.2 _ _ (.inr rfl)).trans (hr _ v)))⟩
  · by_cases e : k = half ∧ c = true
    · obtain ⟨rfl, rfl⟩ := e; exact .inl (m3.1 rfl)
    · have e' : k ≠ half ∨ c = false := by cases c <;> simp_all
      refine .inr ⟨hs.summary.2.1 k hk (e'.symm.imp (fun h => ?_) id), fun v =>
        (m3.2 _ _ (e'.imp (by omega) id)).trans ((m2.2 _ _ (.inl (by omega))).trans ((m1.2 _ _ (.inl (by omega))).trans (hr _ v)))⟩
      subst h; simpa using ec
  · by_cases e : k = half ∧ b = true
    · obtain ⟨rfl, rfl⟩ := e; exact .inl ((m3.2 _ _ (.inl (by omega))).2 (m2.1 rfl))
    · have e' : k ≠ half ∨ b = false := by cases b <;> simp_all
      refine .inr ⟨hs.summary.2.2 k hk (e'.symm.imp (fun h => ?_) id), fun v =>
        (m3.2 _ _ (.inl (by omega))).trans ((m2.2 _ _ (e'.imp (by omega) id)).trans ((m1.2 _ _ (.inl (by omega))).trans (hr _ v)))⟩
      subst h; simpa using eb

end Sys2Proof.Machine
end

