-- ==== Sys2Proof/Laws/Reports.lean ====
section
/-! SUPPORT. The pending set: each operation of one line reports every report word that it changes (`Reported`, R17), and makes no
word pending twice. -/

namespace Sys2Proof.Machine

/-! ### Keys -/

/-- No report word is pending twice. -/
def Keyed (p : Part) : Prop := (p.reports.map Prod.fst).Nodup

theorem keys_queueUpdate (w : ReportWord) (v : Word) (r : List (ReportWord × Word)) :
    (queueUpdate w v r).map Prod.fst = r.map Prod.fst ∨
      w ∉ r.map Prod.fst ∧ (queueUpdate w v r).map Prod.fst = r.map Prod.fst ++ [w] := by
  induction r with
  | nil => right; simp [queueUpdate]
  | cons x t ih =>
    obtain ⟨k, u⟩ := x
    by_cases h : k = w
    · left; simp [queueUpdate, h]
    · simp only [queueUpdate, if_neg h, List.map_cons, List.mem_cons, List.cons_append]
      rcases ih with ih | ⟨ih, e⟩
      · left; rw [ih]
      · right; exact ⟨fun c => c.elim (fun c => h c.symm) ih, by rw [e]⟩

theorem nodup_queueUpdate (w : ReportWord) (v : Word) (r : List (ReportWord × Word)) (h : (r.map Prod.fst).Nodup) :
    ((queueUpdate w v r).map Prod.fst).Nodup := by
  rcases keys_queueUpdate w v r with e | ⟨n, e⟩ <;> rw [e]
  · exact h
  · exact List.nodup_append.2 ⟨h, by simp, fun a ha b hb e => n (by simp at hb; rw [← hb, ← e]; exact ha)⟩

theorem Keyed.queueValue {p : Part} (h : Keyed p) (w : ReportWord) (v : Word) : Keyed (p.queueValue w v) :=
  nodup_queueUpdate w v _ h

theorem Keyed.queueBase {p : Part} (h : Keyed p) (w : Nat) : Keyed (p.queueBase w) := h.queueValue _ _

theorem Keyed.queueBaseIf {p : Part} (h : Keyed p) (c : Bool) (w : Nat) : Keyed (p.queueBaseIf c w) := by
  cases c
  · exact h
  · exact h.queueBase w

theorem Keyed.queueBases {p : Part} (h : Keyed p) (ws : List Nat) : Keyed (p.queueBases ws) := by
  induction ws generalizing p with
  | nil => exact h
  | cons w ws ih => exact ih (h.queueBase w)

theorem Keyed.noteLine {p : Part} (h : Keyed p) (i : LineNo) (b : Part) : Keyed (p.noteLine i b) :=
  ((h.queueBaseIf _ _).queueBaseIf _ _).queueBaseIf _ _

/-! ### The value of a report word -/

theorem reportValue_some {l : Line} {w : Nat} {v : Word} (h : l.reportValue? w = some v) : v = l.report w := by
  unfold Line.reportValue? at h
  split at h
  · exact (Option.some.inj h).symm
  · cases h

/-- An LCB report word depends on the fields it shows alone. -/
theorem reportValue_congr {k l : Line} {w : Nat} (h32 : w = 32 → k.stateWord = l.stateWord)
    (h33 : w = 33 → k.modeStatus = l.modeStatus) (h34 : w = 34 → k.commandStatus = l.commandStatus)
    (h35 : w = 35 → k.flags = l.flags) (h36 : w = 36 → k.liveConditions = l.liveConditions)
    (hr : 37 ≤ w → w ≤ 42 → k.ring = l.ring) (h43 : w = 43 → k.effDivisor = l.effDivisor)
    (h44 : w = 44 → k.effFraction = l.effFraction) (h45 : w = 45 → k.probeResult = l.probeResult)
    (hc : 46 ≤ w → w ≤ 52 → k.counters.toList.getD (w - 46) 0 = l.counters.toList.getD (w - 46) 0)
    (h53 : w = 53 → k.fenceTag = l.fenceTag) : k.reportValue? w = l.reportValue? w := by
  unfold Line.reportValue?
  by_cases hw : 32 ≤ w ∧ w ≤ 53
  · by_cases hm : 37 ≤ w ∧ w ≤ 42
    · have e := hr hm.1 hm.2
      have n : w ≠ 32 ∧ w ≠ 33 ∧ w ≠ 34 ∧ w ≠ 35 ∧ w ≠ 36 := by omega
      have er : k.report w = l.report w := by simp [Line.report, n, hm.2, e]
      have es : k.ring? = l.ring? := by simp [Line.ring?, e]
      rw [er, es]
    · have er : k.report w = l.report w := by
        have c : w = 32 ∨ w = 33 ∨ w = 34 ∨ w = 35 ∨ w = 36 ∨ w = 43 ∨ w = 44 ∨ w = 45 ∨ (46 ≤ w ∧ w ≤ 52) ∨ w = 53 := by omega
        rcases c with rfl | rfl | rfl | rfl | rfl | rfl | rfl | rfl | c | rfl
        · simpa [Line.report] using h32 rfl
        · simp [Line.report, h33 rfl]
        · simp [Line.report, h34 rfl]
        · simpa [Line.report] using h35 rfl
        · simpa [Line.report] using h36 rfl
        · simp [Line.report, h43 rfl]
        · simp [Line.report, h44 rfl]
        · simpa [Line.report] using h45 rfl
        · have n : w ≠ 32 ∧ w ≠ 33 ∧ w ≠ 34 ∧ w ≠ 35 ∧ w ≠ 36 ∧ w ≠ 43 ∧ w ≠ 44 ∧ w ≠ 45 ∧ ¬ w ≤ 42 := by omega
          have := hc c.1 c.2
          simp only [Line.report, n, c.2, if_true, if_false, this]
        · simp [Line.report, h53 rfl]
      rw [er]
      simp [hm]
  · rw [if_neg (fun h => hw ⟨h.1, h.2.1⟩), if_neg (fun h => hw ⟨h.1, h.2.1⟩)]

/-! ### A change of one line on its way -/

/-- Line `i` has changed from `p` to `q`: every LCB word of it but `ws` is reported, nothing of the base block has been queued yet,
and no word is pending twice that was not. -/
structure Noting (i : LineNo) (ws : List Nat) (p q : Part) : Prop where
  step : LineStep i p q
  lcb : ∀ w v, w ∉ ws → (q.line i).reportValue? w = some v →
    (ReportWord.lcb i w, v) ∈ q.reports ∨
      (p.line i).reportValue? w = some v ∧ ∀ u, (ReportWord.lcb i w, u) ∈ q.reports ↔ (ReportWord.lcb i w, u) ∈ p.reports
  base : ∀ w v, (ReportWord.base w, v) ∈ q.reports ↔ (ReportWord.base w, v) ∈ p.reports
  keys : Keyed p → Keyed q

/-- Line `i` has changed from `p` to `q`, and every report word that this changed is reported. -/
structure Noted (i : LineNo) (p q : Part) : Prop where
  step : LineStep i p q
  reported : Reported p q
  keys : Keyed p → Keyed q

/-- As `Noted`, but for the LCB words `ws` of the line, which are still to be queued. -/
structure NotedBut (i : LineNo) (ws : List Nat) (p q : Part) : Prop where
  step : LineStep i p q
  lcb : ∀ w v, w ∉ ws → (q.line i).reportValue? w = some v →
    (ReportWord.lcb i w, v) ∈ q.reports ∨
      (p.line i).reportValue? w = some v ∧ ∀ u, (ReportWord.lcb i w, u) ∈ q.reports ↔ (ReportWord.lcb i w, u) ∈ p.reports
  sums : Summarised p q
  keys : Keyed p → Keyed q

theorem Reported.refl (p : Part) : Reported p p := fun _ _ h => .inr ⟨h, fun _ => Iff.rfl⟩

theorem Reported.trans {p q r : Part} (h : Reported p q) (k : Reported q r) : Reported p r := by
  intro w v hv
  rcases k w v hv with k | ⟨kv, km⟩
  · exact .inl k
  · rcases h w v kv with h | ⟨hv, hm⟩
    · exact .inl ((km v).2 h)
    · exact .inr ⟨hv, fun u => (km u).trans (hm u)⟩

/-- A report word whose value has changed is pending with it. -/
theorem Reported.mem {p q : Part} (h : Reported p q) {w : ReportWord} {v : Word} (hv : q.reportValue? w = some v)
    (hne : p.reportValue? w ≠ some v) : (w, v) ∈ q.reports := (h w v hv).resolve_right fun k => hne k.1

/-- A word that is pending with its value stays so. -/
theorem Reported.keeps {p q : Part} (h : Reported p q) {w : ReportWord} {u v : Word} (hu : p.reportValue? w = some u)
    (hm : (w, u) ∈ p.reports) (hv : q.reportValue? w = some v) : (w, v) ∈ q.reports := by
  rcases h w v hv with a | ⟨a, b⟩
  · exact a
  · cases Option.some.inj (hu.symm.trans a)
    exact (b _).2 hm

theorem Noted.refl (i : LineNo) (p : Part) : Noted i p p := ⟨.refl i p, .refl p, id⟩

theorem Noted.trans {i : LineNo} {p q r : Part} (h : Noted i p q) (k : Noted i q r) : Noted i p r :=
  ⟨h.step.trans k.step, h.reported.trans k.reported, fun x => k.keys (h.keys x)⟩

theorem Noted.ite {i : LineNo} {p q r : Part} {c : Prop} [Decidable c] (h : Noted i p q) (k : Noted i p r) :
    Noted i p (if c then q else r) := by
  split <;> assumption

namespace Noting

variable {i : LineNo} {ws : List Nat} {p q : Part}

theorem start (i : LineNo) (ws : List Nat) (p : Part) : Noting i ws p p :=
  ⟨.refl i p, fun _ _ _ h => .inr ⟨h, fun _ => Iff.rfl⟩, fun _ _ => Iff.rfl, id⟩

/-- The line changes in the words `us`. -/
theorem onLine (h : Noting i ws p q) (f : Line → Line) (us : List Nat)
    (hf : ∀ w, w ∉ us → w ∉ ws → (f (q.line i)).reportValue? w = (q.line i).reportValue? w) :
    Noting i (us ++ ws) p (q.onLine i f) := by
  refine ⟨h.step.trans (lineStep_onLine q i f), fun w v hw hv => ?_, h.base, h.keys⟩
  simp only [List.mem_append, not_or] at hw
  rw [line_onLine, hf w hw.1 hw.2] at hv
  exact h.lcb w v hw.2 hv

/-- Word `k` is queued. -/
theorem queueLcb {k : Nat} (h : Noting i (k :: ws) p q) : Noting i ws p (q.queueLcb i k) := by
  refine ⟨h.step.trans (lineStep_queueLcb q i k), fun w v hw hv => ?_,
    fun w v => (base_queueLcb q i k w v).trans (h.base w v), fun x => (h.keys x).queueValue _ _⟩
  by_cases e : w = k
  · subst e; rw [reportValue_some hv]; exact .inl (mem_queueUpdate_self _ _ _)
  · have ne : ∀ u, (ReportWord.lcb i w, u) ∈ (q.queueLcb i k).reports ↔ (ReportWord.lcb i w, u) ∈ q.reports := fun u =>
      mem_queueUpdate_lcb i i w k _ u _ e
    rcases h.lcb w v (by simp [e, hw]) hv with a | ⟨a, b⟩
    · exact .inl ((ne v).2 a)
    · exact .inr ⟨a, fun u => (ne u).trans (b u)⟩

theorem queueLcbs {ks : List Nat} (h : Noting i (ks ++ ws) p q) : Noting i ws p (q.queueLcbs i ks) := by
  induction ks generalizing q with
  | nil => exact h
  | cons k ks ih => exact ih (queueLcb h)

/-- Word `k` is queued if it has changed. -/
theorem queueLcbIf {k : Nat} {c : Bool} (h : Noting i (k :: ws) p q)
    (hk : c = false → (q.line i).reportValue? k = (p.line i).reportValue? k ∧
      ∀ u, (ReportWord.lcb i k, u) ∈ q.reports ↔ (ReportWord.lcb i k, u) ∈ p.reports) :
    Noting i ws p (q.queueLcbIf c i k) := by
  cases c with
  | true => exact queueLcb h
  | false =>
    obtain ⟨e, m⟩ := hk rfl
    refine ⟨h.step, fun w v hw hv => ?_, h.base, h.keys⟩
    by_cases hwk : w = k
    · subst hwk; exact .inr ⟨by rw [← e]; exact hv, m⟩
    · exact h.lcb w v (by simp [hwk, hw]) hv

end Noting

/-- Every change of line `i` is reported once its LCB words and the summaries are. -/
theorem noted_of {i : LineNo} {p q : Part} (hs : LineStep i p q)
    (lcb : ∀ w v, (q.line i).reportValue? w = some v →
      (ReportWord.lcb i w, v) ∈ q.reports ∨
        (p.line i).reportValue? w = some v ∧ ∀ u, (ReportWord.lcb i w, u) ∈ q.reports ↔ (ReportWord.lcb i w, u) ∈ p.reports)
    (sum : Summarised p q) (hk : Keyed p → Keyed q) : Noted i p q := by
  refine ⟨hs, fun w v hv => ?_, hk⟩
  cases w with
  | lcb j w =>
    by_cases e : j = i
    · subst e; exact lcb w v hv
    · simp only [Part.reportValue?] at hv ⊢
      rw [hs.2.1 j e] at hv
      exact .inr ⟨hv, fun u => hs.2.2 _ u (by simp [ReportWord.concerns, e])⟩
  | base w =>
    simp only [Part.reportValue?] at hv ⊢
    split at hv
    · rename_i hw
      have e : q.baseReport w = v := Option.some.inj hv
      by_cases m : 37 ≤ w ∧ w ≤ 41
      · rcases sum w m.1 m.2 with a | ⟨a, b⟩
        · exact .inl (e ▸ a)
        · exact .inr ⟨by rw [if_pos hw, ← a, e], b⟩
      · refine .inr ⟨?_, fun u => hs.2.2 _ u (by simp [ReportWord.concerns]; omega)⟩
        rw [if_pos hw, ← e]
        congr 1
        have n : w ≠ 37 ∧ w ≠ 38 ∧ w ≠ 39 ∧ w ≠ 40 ∧ w ≠ 41 := by omega
        have hc : q.outside.resetCause = p.outside.resetCause := congrArg Part.resetCause hs.1
        have hc : q.resetCause = p.resetCause := hc
        simp only [Part.baseReport, n, if_false, hs.state, hs.blocked, hc]
    · cases hv

theorem Reported.summarised {p q : Part} (h : Reported p q) : Summarised p q := by
  intro w h1 h2
  have hw : 32 ≤ w ∧ w ≤ 45 ∧ w ≠ 33 := by omega
  rcases h (.base w) (q.baseReport w) (if_pos hw) with a | ⟨a, b⟩
  · exact .inl a
  · have a : some (p.baseReport w) = some (q.baseReport w) := (if_pos hw).symm.trans a
    exact .inr ⟨(Option.some.inj a).symm, b⟩

theorem Summarised.trans {p q r : Part} (h : Summarised p q) (k : Summarised q r) : Summarised p r := by
  intro w h1 h2
  rcases k w h1 h2 with k | ⟨kv, km⟩
  · exact .inl k
  · rcases h w h1 h2 with h | ⟨hv, hm⟩
    · exact .inl (by rw [kv]; exact (km _).2 h)
    · exact .inr ⟨kv.trans hv, fun v => (km v).trans (hm v)⟩

namespace NotedBut

variable {i : LineNo} {ws : List Nat} {p q : Part}

theorem whole (h : NotedBut i [] p q) : Noted i p q := noted_of h.step (fun w v => h.lcb w v (by simp)) h.sums h.keys

theorem ofNoted (ws : List Nat) (h : Noted i p q) : NotedBut i ws p q :=
  ⟨h.step, fun w v _ hv => h.reported (.lcb i w) v hv, h.reported.summarised, h.keys⟩

theorem trans {r : Part} (h : NotedBut i ws p q) (k : NotedBut i ws q r) : NotedBut i ws p r := by
  refine ⟨h.step.trans k.step, fun w v hw hv => ?_, h.sums.trans k.sums, fun x => k.keys (h.keys x)⟩
  rcases k.lcb w v hw hv with a | ⟨a, b⟩
  · exact .inl a
  · rcases h.lcb w v hw a with c | ⟨c, d⟩
    · exact .inl ((b v).2 c)
    · exact .inr ⟨c, fun u => (b u).trans (d u)⟩

/-- The word still to be queued is pending after all. -/
theorem pending {k : Nat} (h : NotedBut i [k] p q) (hk : (ReportWord.lcb i k, (q.line i).report k) ∈ q.reports) : Noted i p q := by
  refine whole ⟨h.step, fun w v _ hv => ?_, h.sums, h.keys⟩
  by_cases e : w = k
  · subst e; rw [reportValue_some hv]; exact .inl hk
  · exact h.lcb w v (by simpa using e) hv

/-- The word still to be queued is queued. -/
theorem queueLcb {k : Nat} (h : NotedBut i [k] p q) : Noted i p (q.queueLcb i k) := by
  refine (⟨h.step.trans (lineStep_queueLcb q i k), fun w v hw hv => ?_, ?_, fun x => (h.keys x).queueValue _ _⟩ :
    NotedBut i [k] p (q.queueLcb i k)).pending (mem_queueLcb_self _ _)
  · simp only [mem_queueLcb_ne _ _ _ _ (show w ≠ k by simpa using hw)]
    exact h.lcb w v hw hv
  · exact h.sums.trans (summarised_still (lineStep_queueLcb q i k) rfl (base_queueLcb q i k))

end NotedBut

namespace Noting

variable {i : LineNo} {ws : List Nat} {p q : Part}

theorem butStill (h : Noting i ws p q) (hs : (q.line i).summary = (p.line i).summary) : NotedBut i ws p q :=
  ⟨h.step, h.lcb, summarised_still h.step hs h.base, h.keys⟩

theorem butNoteLine (h : Noting i ws p q) : NotedBut i ws p (q.noteLine i p) := by
  refine ⟨h.step.trans (lineStep_noteLine q i p), fun w v hw hv => ?_, summarised_noteLine h.step h.base,
    fun x => (h.keys x).noteLine i p⟩
  simp only [line_noteLine, mem_noteLine_lcb] at hv ⊢
  exact h.lcb w v hw hv

/-- A change that leaves the line's summary is reported. -/
theorem still (h : Noting i [] p q) (hs : (q.line i).summary = (p.line i).summary) : Noted i p q := (h.butStill hs).whole

/-- A change whose summaries are noted is reported. -/
theorem noteLine (h : Noting i [] p q) : Noted i p (q.noteLine i p) := h.butNoteLine.whole

/-- A change whose ring-due and summaries are noted is reported. -/
theorem noteDue (h : Noting i [36] p q)
    (hl : (q.line i).ringDue = (p.line i).ringDue → (q.line i).liveConditions = (p.line i).liveConditions)
    (hm : ∀ u, (ReportWord.lcb i 36, u) ∈ q.reports ↔ (ReportWord.lcb i 36, u) ∈ p.reports) : Noted i p (q.noteDue i p) := by
  refine noteLine (queueLcbIf h fun hc => ⟨?_, hm⟩)
  have := hl (by simpa using hc)
  unfold Line.reportValue?
  simp [Line.report, this]

end Noting

/-- A change of the line that no report word shows. -/
theorem noted_onLine (p : Part) (i : LineNo) (f : Line → Line) (hs : (f (p.line i)).summary = (p.line i).summary)
    (hf : ∀ w, (f (p.line i)).reportValue? w = (p.line i).reportValue? w) : Noted i p (p.onLine i f) :=
  Noting.still ((Noting.start i [] p).onLine f [] fun w _ _ => hf w) (by rw [line_onLine]; exact hs)

/-- A change of the line that its state word alone shows. -/
theorem but_onLine (p : Part) (i : LineNo) (f : Line → Line) (hs : (f (p.line i)).summary = (p.line i).summary)
    (hf : ∀ w, w ≠ 32 → (f (p.line i)).reportValue? w = (p.line i).reportValue? w) : NotedBut i [32] p (p.onLine i f) :=
  ((Noting.start i [] p).onLine f [32] fun w hw _ => hf w (by simpa using hw)).butStill (by rw [line_onLine]; exact hs)

theorem noted_queueLcb (p : Part) (i : LineNo) (k : Nat) : Noted i p (p.queueLcb i k) :=
  Noting.still (Noting.queueLcb (Noting.start i _ p)) rfl

theorem noted_queueLcbs (p : Part) (i : LineNo) (ks : List Nat) : Noted i p (p.queueLcbs i ks) :=
  Noting.still (Noting.queueLcbs (Noting.start i _ p)) (by rw [line_queueLcbs])

/-! ### The operations -/

theorem noted_changeFlags (p : Part) (i : LineNo) (f : Word) : Noted i p (p.changeFlags i f) := by
  unfold Part.changeFlags
  refine .ite (.refl i p) (Noting.noteLine (Noting.queueLcb ((Noting.start i [] p).onLine _ [35] fun w hw _ => ?_)))
  apply reportValue_congr <;> intros <;> first | rfl | simp_all

theorem noted_latch (p : Part) (i : LineNo) (f : Flag) : Noted i p (p.latch i f) := noted_changeFlags p i _

theorem noted_unlatch (p : Part) (i : LineNo) (f : Flag) : Noted i p (p.unlatch i f) := noted_changeFlags p i _

theorem noted_setConditions (p : Part) (i : LineNo) (a b : Bool) : Noted i p (p.setConditions i a b) := by
  unfold Part.setConditions
  extract_lets l q
  refine Noting.still (Noting.queueLcbIf (p := p) (q := q) ((Noting.start i [] p).onLine _ [36] fun w hw _ => ?_)
    fun hc => ⟨?_, fun _ => Iff.rfl⟩) ?_
  · apply reportValue_congr <;> intros <;> first | rfl | simp_all
  · have e : a = l.openCondition ∧ b = l.stuckCondition := by simpa using hc
    rw [line_onLine, e.1, e.2]
  · rw [line_queueLcbIf, line_onLine]; rfl

theorem noted_setCredit (p : Part) (i : LineNo) (c : Bool) : Noted i p (p.setCredit i c) := by
  unfold Part.setCredit
  refine Noting.still (Noting.queueLcbIf (p := p) ((Noting.start i [] p).onLine _ [36] fun w hw _ => ?_)
    fun hc => ⟨?_, fun _ => Iff.rfl⟩) ?_
  · apply reportValue_congr <;> intros <;> first | rfl | simp_all
  · have e : c = (p.line i).breakCredit := by simpa using hc
    rw [line_onLine, e]
  · rw [line_queueLcbIf, line_onLine]; rfl

theorem noted_setHeld (p : Part) (i : LineNo) (a b : Bool) : Noted i p (p.setHeld i a b) := by
  unfold Part.setHeld
  extract_lets l
  refine Noting.still (Noting.queueLcbIf (p := p) ((Noting.start i [] p).onLine _ [32] fun w hw _ => ?_)
    fun hc => ⟨?_, fun _ => Iff.rfl⟩) ?_
  · apply reportValue_congr <;> intros <;> first | rfl | simp_all
  · have e : a = l.heldHandsOff ∧ b = l.heldForced := by simpa using hc
    rw [line_onLine, e.1, e.2]
  · rw [line_queueLcbIf, line_onLine]; rfl

theorem noted_count (p : Part) (i : LineNo) (c : Counter) (n : Nat) : Noted i p (p.count i c n) := by
  unfold Part.count
  refine .ite (.refl i p) (Noting.still (Noting.queueLcb ((Noting.start i [] p).onLine _ [46 + c.index.val] fun w hw _ => ?_)) ?_)
  · apply reportValue_congr <;> intros <;> try rfl
    rename_i h1 h2
    have hne : c.index.val ≠ w - 46 := by simp at hw; omega
    simp [hne]
  · rw [line_queueLcb, line_onLine]; rfl

theorem noted_setRate (p : Part) (i : LineNo) (d f : Nat) : Noted i p (p.setRate i d f) := by
  unfold Part.setRate
  refine Noting.still (Noting.queueLcbs ((Noting.start i [] p).onLine _ [43, 44] fun w hw _ => ?_)) ?_
  · apply reportValue_congr <;> intros <;> first | rfl | simp_all
  · rw [line_queueLcbs, line_onLine]; rfl

theorem noted_tallies (p : Part) (i : LineNo) (t : Line → Tallies) :
    Noted i p (p.onLine i fun l => { l with tallies := t l }) := noted_onLine p i _ rfl fun _ => rfl

theorem noted_loseEntries (p : Part) (i : LineNo) (n : Nat) : Noted i p (p.loseEntries i n) :=
  (noted_count p i _ n).trans (noted_tallies _ i _)

theorem noted_refuseEntry (p : Part) (i : LineNo) : Noted i p (p.refuseEntry i) :=
  (noted_count p i _ 1).trans (noted_tallies _ i _)

theorem noted_byteSent (p : Part) (i : LineNo) : Noted i p (p.byteSent i) :=
  (noted_count p i _ 1).trans (noted_tallies _ i _)

/-- No report word shows buffers, the job list, the gap timer or the dropped-events tally. -/
theorem assembler_hidden {k l : Line} (h : { k with
      buffers := l.buffers, jobs := l.jobs, gapTimer := l.gapTimer, droppedEvents := l.droppedEvents } = l) :
    k.summary = l.summary ∧ ∀ w, k.reportValue? w = l.reportValue? w := by
  have hs := congrArg Line.summary h
  have hr := fun w => congrArg (fun m : Line => m.reportValue? w) h
  exact ⟨hs, hr⟩

theorem closeOpen_hidden (l : Line) : l.closeOpen.summary = l.summary ∧ ∀ w, l.closeOpen.reportValue? w = l.reportValue? w :=
  assembler_hidden (by unfold Line.closeOpen; split <;> rfl)

theorem offer_hidden (l : Line) (e : Event) :
    (l.offer e).summary = l.summary ∧ ∀ w, (l.offer e).reportValue? w = l.reportValue? w := assembler_hidden (offer_frame l e)

theorem noted_closeOpen (p : Part) (i : LineNo) : Noted i p (p.closeOpen i) :=
  noted_onLine p i _ (closeOpen_hidden _).1 (closeOpen_hidden _).2

theorem noted_offer (p : Part) (i : LineNo) (k : EventKind) (a b c d : Word) : Noted i p (p.offer i k a b c d) :=
  noted_onLine p i _ (offer_hidden _ _).1 (offer_hidden _ _).2

theorem noted_jobs (p : Part) (i : LineNo) (f : Line → List Job) : Noted i p (p.onLine i fun l => { l with jobs := f l }) :=
  noted_onLine p i _ rfl fun _ => rfl

theorem noted_offerMode (p : Part) (i : LineNo) (a : LineState) (k : ModeCause) (c : Word) (d : LineState) :
    Noted i p (p.offerMode i a k c d) := noted_offer p i _ _ _ _ _

theorem noted_overrun (p : Part) (i : LineNo) : Noted i p (p.overrun i) :=
  ((noted_count p i _ 1).trans (noted_latch _ i _)).trans
    (.ite (noted_jobs _ i _) (noted_offer _ i _ _ _ _ _))

theorem fill_hidden (l : Line) (k : Fin 2) (c : Contents) (b : RxByte) (now : Moment) :
    (l.fill k c b now).summary = l.summary ∧ ∀ w, (l.fill k c b now).reportValue? w = l.reportValue? w := by
  unfold Line.fill
  extract_lets gap m
  by_cases h : (decide (c.bytes.length = m.payloadLimit) || m.isLineEnd b) = true
  · rw [if_pos h]; exact closeOpen_hidden m
  · rw [if_neg h]; exact ⟨rfl, fun _ => rfl⟩

theorem noted_fill (p : Part) (i : LineNo) (k : Fin 2) (c : Contents) (b : RxByte) (now : Moment) :
    Noted i p (p.onLine i fun l => l.fill k c b now) :=
  noted_onLine p i _ (fill_hidden _ _ _ _ _).1 (fill_hidden _ _ _ _ _).2

theorem noted_placeByte (p : Part) (i : LineNo) (b : RxByte) : Noted i p (p.placeByte i b) := by
  unfold Part.placeByte
  split
  · exact noted_fill p i _ _ _ _
  · split
    · exact noted_fill p i _ _ _ _
    · exact noted_overrun p i

/-! ### The probe -/

theorem noted_startProbe (p : Part) (i : LineNo) (a : Bool) : Noted i p (p.startProbe i a) := by
  unfold Part.startProbe
  extract_lets q
  have h : Noted i p q := (but_onLine p i _ rfl fun w hw => by
    apply reportValue_congr <;> intros <;> first | rfl | contradiction).queueLcb
  exact (h.trans (noted_unlatch q i _)).trans (noted_queueLcb _ i 35)

theorem noted_deliverProbe (p : Part) (i : LineNo) (k : Probe) (r : ProbeResult) (n : Nat) :
    Noted i p (p.deliverProbe i k r n) := by
  unfold Part.deliverProbe
  extract_lets p1 p2 p3 p4
  have h1 : Noted i p p1 := (but_onLine p i _ rfl fun w hw => by
    apply reportValue_congr <;> intros <;> first | rfl | contradiction).queueLcb
  have h2 : Noted i p1 p2 := by
    refine Noting.still (Noting.queueLcb ((Noting.start i [] p1).onLine _ [45] fun w hw _ => ?_)) ?_
    · apply reportValue_congr <;> intros <;> first | rfl | simp_all
    · rw [line_queueLcb, line_onLine]; rfl
  have h3 : Noted i p2 p3 := .ite (noted_setRate p2 i _ _) (.refl i p2)
  exact (((h1.trans h2).trans h3).trans (noted_offer p3 i _ _ _ _ _)).trans (noted_latch p4 i _)

theorem noted_endProbe (p : Part) (i : LineNo) (k : Probe) : Noted i p (p.endProbe i k) := noted_deliverProbe p i _ _ _

theorem noted_abandonProbe (p : Part) (i : LineNo) : Noted i p (p.abandonProbe i) := by
  unfold Part.abandonProbe
  split
  · exact noted_deliverProbe p i _ _ _
  · exact .refl i p

/-- A probe that goes on shows nothing. -/
theorem report_probing (l : Line) (k : Option Probe) (h : k.isSome = l.probe.isSome) (w : Nat) :
    Line.reportValue? { l with probe := k } w = l.reportValue? w := by
  apply reportValue_congr <;> intros <;> first | rfl | (simp only [Line.stateWord, Line.probing]; rw [h]; rfl)

theorem noted_probeFall (p : Part) (i : LineNo) : Noted i p (p.probeFall i) := by
  unfold Part.probeFall
  split
  · exact .refl i p
  · rename_i k hk
    refine .ite (noted_endProbe p i _) (noted_onLine p i _ rfl fun w => report_probing _ _ ?_ w)
    rw [hk]; rfl

theorem noted_snoopProbe (p : Part) (i : LineNo) (d : Word) : Noted i p (p.snoopProbe i d) :=
  .ite (noted_unlatch p i _) (.refl i p)

/-! ### The ring -/

theorem unparked_hidden (l : Line) : l.unparked.summary = l.summary ∧ ∀ w, l.unparked.reportValue? w = l.reportValue? w := by
  unfold Line.unparked
  split <;> exact ⟨rfl, fun _ => rfl⟩

theorem noted_unpark (p : Part) (i : LineNo) : Noted i p (p.unpark i) :=
  noted_onLine p i Line.unparked (unparked_hidden _).1 (unparked_hidden _).2

/-- What of the ring values the report words of a line show: W, R, the count, the next sequence, the pad start, occupied; and of
ring-due the coalesce state. -/
theorem report_withRing (l : Line) (r r' : Ring) (h : l.ring = .present r) (w : Nat)
    (h36 : w = 36 → r'.due (l.setting 15) = r.due (l.setting 15)) (hw : 37 ≤ w → w ≤ 42 → r'.report w = r.report w) :
    Line.reportValue? { l with ring := .present r' } w = l.reportValue? w := by
  by_cases hm : 37 ≤ w ∧ w ≤ 42
  · have n : w ≠ 32 ∧ w ≠ 33 ∧ w ≠ 34 ∧ w ≠ 35 ∧ w ≠ 36 := by omega
    unfold Line.reportValue?
    simp [Line.report, Line.ring?, n, hm.2, h, hw hm.1 hm.2]
  · apply reportValue_congr <;> intros <;> first | rfl | skip
    · rename_i e
      simp only [Line.liveConditions, Line.ringDue, h]
      rw [show Line.setting { l with ring := .present r' } 15 = l.setting 15 from rfl, h36 e]
    · omega

theorem mem_queueLcbs_ne (p : Part) (i : LineNo) (ks : List Nat) (w : Nat) (u : Word) (h : w ∉ ks) :
    (ReportWord.lcb i w, u) ∈ (p.queueLcbs i ks).reports ↔ (ReportWord.lcb i w, u) ∈ p.reports := by
  induction ks generalizing p with
  | nil => exact Iff.rfl
  | cons k ks ih =>
    simp only [List.mem_cons, not_or] at h
    exact (ih _ h.2).trans (mem_queueUpdate_lcb i i w k _ u _ h.1)

/-- Ring words queued or unchanged are reported. -/
theorem Noting.setRing {i : LineNo} {p q : Part} (h : Noting i [] p q) (r r' : Ring) (hq : (q.line i).ring = .present r)
    (ks : List Nat) (h36 : 36 ∉ ks → r'.due ((q.line i).setting 15) = r.due ((q.line i).setting 15))
    (hw : ∀ w, w ∉ ks → 37 ≤ w → w ≤ 42 → r'.report w = r.report w) : Noting i ks p (q.setRing i r') := by
  have := h.onLine (fun l => { l with ring := .present r' }) ks fun w hk _ =>
    report_withRing (q.line i) r r' hq w (fun e => h36 (e ▸ hk)) (hw w hk)
  rwa [List.append_nil] at this

theorem noted_setRing (p : Part) (i : LineNo) (r r' : Ring) (h : (p.line i).ring = .present r)
    (hc : r'.coalesce = r.coalesce) (hw : r'.w = r.w ∧ r'.r = r.r ∧ r'.occupied = r.occupied ∧ r'.count = r.count ∧
      r'.nextSeq = r.nextSeq ∧ r'.padStart = r.padStart) : Noted i p (p.setRing i r') := by
  obtain ⟨a, b, c, d, e, f⟩ := hw
  have hd : ∀ n, r'.due n = r.due n := fun n => by simp [Ring.due, hc, d]
  refine Noting.still ((Noting.start i [] p).setRing r r' h [] (fun _ => hd _) fun w _ _ _ => ?_) ?_
  · unfold Ring.report; split <;> simp_all
  · rw [line_setRing]
    simp only [Line.summary, Line.hasFault, Line.flag, Line.attention, Line.attends, Line.ringDue, h]
    rw [show Line.setting { p.line i with ring := .present r' } 15 = (p.line i).setting 15 from rfl, hd]

theorem noted_makeFresh (p : Part) (i : LineNo) : Noted i p (p.makeFresh i) := by
  have h1 : Noting i [36, 37, 38, 39, 40, 41, 42] p (p.setRing i Ring.fresh) := by
    refine (Noting.start i [] p).onLine _ [36, 37, 38, 39, 40, 41, 42] fun w hw _ => ?_
    apply reportValue_congr <;> intros <;> first | rfl | (simp at hw; omega)
  have h2 := h1.onLine Line.unparked [] fun w _ _ => (unparked_hidden _).2 w
  exact Noting.noteLine (Noting.queueLcbs h2)

theorem noted_commitRing (p : Part) (i : LineNo) (r : Ring) (s : Nat) (pad : Option Nat) (seq : Word)
    (h : (p.line i).ring = .present r) : Noted i p (p.commitRing i r s pad seq) := by
  unfold Part.commitRing
  extract_lets l r' q1 q2 q3
  have e1 : q1.line i = { l with ring := .present r' } := by simp only [q1]; rw [line_queueLcbs, line_setRing]
  have e2 : q2.line i = q1.line i := by simp only [q2]; rw [line_queueLcbIf, line_queueLcbIf]
  have hpad : pad.isSome = false → r'.padStart = r.padStart ∧ r'.r = r.r := fun hp => by
    cases pad with
    | some k => cases hp
    | none => exact ⟨rfl, rfl⟩
  have n1 : Noting i [41, 38, 36, 37] p q1 :=
    Noting.queueLcbs (ks := [42, 39, 40])
      ((Noting.start i [] p).setRing r r' h [42, 39, 40, 41, 38, 36, 37] (fun n => absurd (by simp) n)
        fun w hw _ _ => by simp at hw; omega)
  have n1' : Noting i [38, 36, 37] p (q1.queueLcbIf pad.isSome i 41) := by
    refine n1.queueLcbIf fun hp => ⟨?_, fun u => mem_queueLcbs_ne _ i _ 41 u (by simp)⟩
    rw [e1]
    exact report_withRing l r r' h 41 (by simp) fun _ _ => by simp [Ring.report, (hpad hp).1]
  have n2 : Noting i [36, 37] p q2 := by
    refine n1'.queueLcbIf fun hp => ⟨?_, fun u => ?_⟩
    · rw [line_queueLcbIf, e1]
      exact report_withRing l r r' h 38 (by simp) fun _ _ => by simp at hp; simp [Ring.report, hp]
    · rw [mem_queueLcbIf_ne _ _ _ _ _ _ _ (by decide)]
      exact mem_queueLcbs_ne _ i _ 38 u (by simp)
  have n3 : Noting i [37] p q3 := by
    refine n2.queueLcbIf fun hp => ⟨?_, fun u => ?_⟩
    · have hd : (q2.line i).ringDue = l.ringDue := by simpa using hp
      rw [e2, e1] at hd ⊢
      refine report_withRing l r r' h 36 (fun _ => ?_) (by simp)
      have hl : l.ring = .present r := h
      simpa [Line.ringDue, hl, Line.setting] using hd
    · rw [mem_queueLcbIf_ne _ _ _ _ _ _ _ (by decide), mem_queueLcbIf_ne _ _ _ _ _ _ _ (by decide)]
      exact mem_queueLcbs_ne _ i _ 36 u (by simp)
  exact Noting.noteLine (Noting.queueLcb n3)

/-- The live conditions change with ring-due where nothing else of them does. -/
theorem liveConditions_of_ring {l : Line} {x : RingState} (h : Line.ringDue { l with ring := x } = l.ringDue) :
    Line.liveConditions { l with ring := x } = l.liveConditions := by
  simp only [Line.liveConditions, h]

theorem noted_expireCoalesce (p : Part) (i : LineNo) (r : Ring) (t : Moment) (h : (p.line i).ring = .present r)
    (hc : r.coalesce = .running t) : Noted i (p.at t) (p.expireCoalesce i) := by
  unfold Part.expireCoalesce Line.ring?
  rw [h]
  simp only [hc]
  have n : Noting i [36] (p.at t) ((p.at t).setRing i { r with coalesce := .expired }) :=
    (Noting.start i [] (p.at t)).setRing r _ h [36] (fun n => absurd (by simp) n) fun w _ _ _ => by unfold Ring.report; split <;> rfl
  refine Noting.noteDue n (fun e => ?_) fun _ => Iff.rfl
  rw [line_setRing] at e ⊢
  exact liveConditions_of_ring e

/-- The words 38, 39, 42, 41 and 36 that follow the removal of the record at R: 37 and 40 do not change. -/
theorem Ring.remove_kept (r : Ring) (size s now time : Nat) :
    (r.remove size s now time).w = r.w ∧ (r.remove size s now time).nextSeq = r.nextSeq := by
  unfold Ring.remove Ring.skipPad
  dsimp only
  repeat' split
  all_goals exact ⟨rfl, rfl⟩

theorem noted_reclaim (p : Part) (i : LineNo) (r : Ring) (s : Nat) (h : (p.line i).ring = .present r) :
    Noted i p (p.reclaim i r s) := by
  unfold Part.reclaim
  extract_lets l seq r' q q1
  have hl : l.ring = .present r := h
  have el : (p.setRing i r').line i = { l with ring := .present r' } := line_setRing p i r'
  have ec : ∀ x : Part, ((x.count i .recordsReclaimed 1).line i).ring = (x.line i).ring ∧
      ((x.count i .recordsReclaimed 1).line i).shadow = (x.line i).shadow ∧
      ((x.count i .recordsReclaimed 1).line i).liveConditions = (x.line i).liveConditions := fun x => by
    rw [line_count]; exact ⟨rfl, rfl, rfl⟩
  have n0 : Noting i [41, 36] p ((p.setRing i r').queueLcbs i [38, 39, 42]) :=
    Noting.queueLcbs (ks := [38, 39, 42])
      ((Noting.start i [] p).setRing r r' h [38, 39, 42, 41, 36] (fun n => absurd (by simp) n) fun w hw h1 h2 => by
        have : w = 37 ∨ w = 40 := by simp at hw; omega
        rcases this with rfl | rfl <;> simp [Ring.report, r', Ring.remove_kept])
  have n1 : Noting i [41, 36] p q := by
    show Noting i [41, 36] p (Part.count _ i .recordsReclaimed 1)
    unfold Part.count
    extract_lets v
    split
    · exact n0
    · refine Noting.queueLcb (n0.onLine _ [46 + Counter.recordsReclaimed.index.val] fun w hw _ => ?_)
      apply reportValue_congr <;> intros <;> try rfl
      have hne : Counter.recordsReclaimed.index.val ≠ w - 46 := by simp at hw; omega
      simp [hne]
  have eq : (q.line i).ring = .present r' ∧ (q.line i).shadow = l.shadow ∧
      (q.line i).liveConditions = Line.liveConditions { l with ring := .present r' } := by
    obtain ⟨a, b, c⟩ := ec ((p.setRing i r').queueLcbs i [38, 39, 42])
    rw [line_queueLcbs, el] at a b c
    exact ⟨a, b, c⟩
  have n2 : Noting i [36] p (q.queueLcbIf (r'.padStart != r.padStart) i 41) := by
    refine n1.queueLcbIf fun hp => ⟨?_, fun u => ?_⟩
    · have hp : r'.padStart = r.padStart := by simpa using hp
      unfold Line.reportValue?
      simp [Line.report, Line.ring?, eq.1, h, Ring.report, hp]
    · exact (mem_count_ne _ _ _ _ _ (by decide)).trans (mem_queueLcbs_ne _ i _ 41 u (by simp))
  have n3 : Noted i p q1 := by
    refine Noting.noteDue n2 (fun e => ?_) fun u => ?_
    · rw [line_queueLcbIf] at e ⊢
      rw [eq.2.2]
      refine liveConditions_of_ring (Eq.trans ?_ e)
      simp [Line.ringDue, eq.1, Line.setting, eq.2.1]
    · rw [mem_queueLcbIf_ne _ _ _ _ _ _ _ (by decide)]
      exact (mem_count_ne _ _ _ _ _ (by decide)).trans (mem_queueLcbs_ne _ i _ 36 u (by simp))
  exact .ite ((n3.trans (noted_latch _ i _)).trans (noted_offer _ i _ _ _ _ _)) n3

theorem noted_corruptRing (p : Part) (i : LineNo) (s : Nat) : Noted i p (p.corruptRing i s) :=
  ((noted_makeFresh p i).trans (noted_latch _ i _)).trans (noted_offerMode _ i _ _ _ _)

/-! ### The walk -/

theorem noted_endWalk (p : Part) (i : LineNo) : Noted i p ((p.onLine i fun l => { l with walk := none }).queueLcb i 32) := by
  refine (but_onLine p i _ rfl fun w hw => ?_).queueLcb
  apply reportValue_congr <;> intros <;> first | rfl | contradiction

theorem noted_walkFails (p : Part) (i : LineNo) (reason : WalkReason) : Noted i p (p.walkFails i reason) :=
  (((noted_makeFresh p i).trans (noted_latch _ i _)).trans (noted_endWalk _ i)).trans (noted_offerMode _ i _ _ _ _)

theorem noted_walkSucceeds (p : Part) (i : LineNo) (run : WalkRun) : Noted i p (p.walkSucceeds i run) := by
  have n : Noting i [32] p ((p.onLine i fun l =>
      { l with ring := .present (run.ring p.now (l.setting 16)), walk := none }).queueLcbs i [36, 37, 38, 39, 40, 41, 42]) := by
    refine Noting.queueLcbs ((Noting.start i [] p).onLine _ [36, 37, 38, 39, 40, 41, 42, 32] fun w hw _ => ?_)
    apply reportValue_congr <;> intros <;> first | rfl | (simp at hw; omega) | simp_all
  exact n.butNoteLine.queueLcb.trans (noted_offerMode _ i _ _ _ _)

theorem noted_walkContinues (p : Part) (i : LineNo) (run : WalkRun) (h : (p.line i).walk.isSome = true) :
    Noted i p (p.walkContinues i run) := by
  unfold Part.walkContinues
  refine .ite (noted_walkSucceeds p i run) (noted_onLine p i _ rfl fun w => ?_)
  apply reportValue_congr <;> intros <;> first | rfl | (simp only [Line.stateWord, Line.resuming, h]; rfl)

/-! ### Line states -/

theorem noted_endReceivedBreak (p : Part) (i : LineNo) : Noted i p (p.endReceivedBreak i) := by
  unfold Part.endReceivedBreak
  split
  · exact noted_offer p i _ _ _ _ _
  · exact .refl i p

theorem noted_startListening (p : Part) (i : LineNo) : Noted i p (p.startListening i) := by
  unfold Part.startListening
  extract_lets l q
  have n : NotedBut i [32] q (q.onLine i fun l => l.enterListen q.rxPin[i] q.svPin[i] q.now) := by
    refine but_onLine q i _ rfl fun w hw => ?_
    apply reportValue_congr <;> intros <;> first | rfl | contradiction
  exact (noted_setRate p i _ _).trans (n.trans (.ofNoted _ (noted_setConditions _ i _ _))).queueLcb

theorem noted_enterFresh (p : Part) (i : LineNo) : Noted i p (p.enterFresh i) :=
  ((noted_makeFresh p i).trans (noted_startListening _ i)).trans (noted_offerMode _ i _ _ _ _)

/-- The ring becomes unknown, so its words have no value; word 32 is queued when the line listens. -/
theorem noted_enterResuming (p : Part) (i : LineNo) : Noted i p (p.enterResuming i) := by
  unfold Part.enterResuming
  generalize hX : (p.onLine i fun l => { l with ring := .unknown, walk := some .pointers }) = X
  have eX : X.line i = { p.line i with ring := .unknown, walk := some .pointers } := by rw [← hX, line_onLine]
  have n0 : Noting i [36, 32] p X := by
    have n : Noting i [37, 38, 39, 40, 41, 42, 36, 32] p X := by
      rw [← hX]
      refine (Noting.start i [] p).onLine _ [37, 38, 39, 40, 41, 42, 36, 32] fun w hw _ => ?_
      apply reportValue_congr <;> intros <;> first | rfl | (simp at hw; omega) | simp_all
    refine ⟨n.step, fun w v hw hv => ?_, n.base, n.keys⟩
    by_cases m : 37 ≤ w ∧ w ≤ 42
    · rw [eX] at hv
      simp [Line.reportValue?, Line.ring?, m] at hv
    · exact n.lcb w v (by simp at hw ⊢; omega) hv
  have n1 : Noting i [32] p (X.queueLcbIf ((X.line i).ringDue != (p.line i).ringDue) i 36) := by
    refine n0.queueLcbIf fun hc => ⟨?_, fun u => by rw [← hX]; rfl⟩
    have e : (X.line i).ringDue = (p.line i).ringDue := by simpa using hc
    have el : (X.line i).liveConditions = (p.line i).liveConditions := by
      simp only [Line.liveConditions, e]
      rw [eX]
    unfold Line.reportValue?
    simp [Line.report, el]
  exact (n1.butNoteLine.trans (.ofNoted _ (noted_startListening _ i))).pending (mem_queueLcb_self _ _)

theorem but_stop (p : Part) (i : LineNo) : NotedBut i [32] p (p.onLine i Line.stop) := by
  refine but_onLine p i _ rfl fun w hw => ?_
  apply reportValue_congr <;> intros <;> first | rfl | contradiction

theorem noted_enterOff (p : Part) (i : LineNo) (c : ModeCause) : Noted i p (p.enterOff i c) := by
  unfold Part.enterOff
  extract_lets x q
  exact ((noted_closeOpen p i).trans (noted_offerMode _ i _ _ _ _)).trans
    ((but_stop q i).trans (.ofNoted _ (noted_setConditions _ i _ _))).queueLcb

theorem noted_enterDrive (p : Part) (i : LineNo) (c : ModeCause) : Noted i p (p.enterDrive i c) := by
  unfold Part.enterDrive
  extract_lets x q
  have n : NotedBut i [32] p q := by
    refine but_onLine p i _ rfl fun w hw => ?_
    apply reportValue_congr <;> intros <;> first | rfl | contradiction
  exact (n.trans (.ofNoted _ (noted_offerMode q i _ _ _ _))).queueLcb

theorem noted_retarget (p : Part) (i : LineNo) (t : Target) (c : ModeCause) : Noted i p (p.retarget i t c) :=
  noted_onLine p i _ rfl fun _ => rfl

/-! ### Line faults and edges -/

theorem probeDropRun_hidden (l : Line) : l.probeDropRun.summary = l.summary ∧ ∀ w, l.probeDropRun.reportValue? w = l.reportValue? w := by
  unfold Line.probeDropRun
  split
  · exact ⟨rfl, fun _ => rfl⟩
  · rename_i k hk
    exact ⟨rfl, fun w => report_probing l _ (by rw [hk]; rfl) w⟩

theorem probeRise_hidden (l : Line) (now : Moment) :
    (l.probeRise now).summary = l.summary ∧ ∀ w, (l.probeRise now).reportValue? w = l.reportValue? w := by
  unfold Line.probeRise
  split
  · exact ⟨rfl, fun _ => rfl⟩
  · rename_i k hk
    split
    · exact ⟨rfl, fun _ => rfl⟩
    · exact ⟨rfl, fun w => report_probing l _ (by rw [hk]; rfl) w⟩

theorem noted_lineOpens (p : Part) (i : LineNo) (t : Moment) (h : (p.line i).invalidRun = some t)
    (hl : p.listening i = true) : Noted i (p.at t) (p.lineOpens i) := by
  have drop : ∀ q : Part, Noted i q (q.onLine i fun l =>
      { l with receiver := .hunt none, invalidRun := none, spaceTimer := none }.probeDropRun) := fun q =>
    have k := probeDropRun_hidden { q.line i with receiver := .hunt none, invalidRun := none, spaceTimer := none }
    noted_onLine q i _ (k.1.trans rfl) fun w => (k.2 w).trans rfl
  unfold Part.lineOpens
  rw [h]
  dsimp -zeta only
  rw [if_pos hl]
  exact ((((noted_endReceivedBreak _ i).trans (drop _)).trans (noted_latch _ i _)).trans
    (noted_setConditions _ i _ _)).trans (noted_offer _ i _ _ _ _ _)

theorem noted_lineRestores (p : Part) (i : LineNo) (t : Moment) (h : (p.line i).validRun = some t)
    (ha : p.active i = true) (ho : (p.line i).openCondition = true) : Noted i (p.at t) (p.lineRestores i) := by
  have run : ∀ q : Part, Noted i q (q.onLine i fun l => { l with validRun := none }) := fun q =>
    noted_onLine q i _ rfl fun _ => rfl
  have fold : ∀ q : Part, Noted i q (q.onLine i fun l => l.startReceiver q.rxPin[i] q.now) := fun q =>
    noted_onLine q i _ rfl fun _ => rfl
  unfold Part.lineRestores
  rw [h]
  dsimp -zeta only
  extract_lets p1 p2 p3
  rw [if_pos (by rw [ha, ho]; rfl)]
  exact (((run p1).trans (noted_setConditions _ i _ _)).trans (noted_offer p2 i _ _ _ _ _)).trans (fold p3)

theorem noted_becomesStuck (p : Part) (i : LineNo) (t : Moment) (h : (p.line i).spaceTimer = some t)
    (hl : p.listening i = true) : Noted i (p.at t) (p.becomesStuck i) := by
  have run : ∀ q : Part, Noted i q (q.onLine i fun l => { l with spaceTimer := none, receiver := l.receiver.reachStuck }) :=
    fun q => noted_onLine q i _ rfl fun _ => rfl
  unfold Part.becomesStuck
  rw [h]
  simp only [hl, if_true]
  exact (((run _).trans (noted_latch _ i _)).trans (noted_setConditions _ i _ _)).trans (noted_offer _ i _ _ _ _ _)

theorem noted_receiver (p : Part) (i : LineNo) (f : Line → Receiver) : Noted i p (p.onLine i fun l => { l with receiver := f l }) :=
  noted_onLine p i _ rfl fun _ => rfl

theorem noted_receiverRises (p : Part) (i : LineNo) : Noted i p (p.receiverRises i) := by
  unfold Part.receiverRises
  split
  · exact noted_receiver p i fun _ => _
  · extract_lets q
    have h : Noted i p q := noted_receiver p i fun _ => _
    split
    · exact h.trans (noted_placeByte q i _)
    · exact h
  · exact (noted_endReceivedBreak p i).trans (noted_receiver _ i fun _ => _)
  · exact .refl i p

theorem noted_noticeActivity (p : Part) (i : LineNo) : Noted i p (p.noticeActivity i) :=
  .ite ((noted_offer p i _ _ _ _ _).trans (noted_latch _ i _)) (.refl i p)

theorem noted_takeStartBit (p : Part) (i : LineNo) (e : Moment) : Noted i p (p.takeStartBit i e) :=
  have run : ∀ (q : Part) (n : Moment), Noted i q (q.onLine i fun l =>
      { (l.startQuiet n) with receiver := .frame ⟨l.frame, l.bitTime, e, [], e⟩ }) := fun q _ =>
    noted_onLine q i _ rfl fun _ => rfl
  (noted_noticeActivity p i).trans (run _ p.now)

/-! ### What the host takes -/

theorem noted_takeAcknowledge (p : Part) (i : LineNo) (m : Word) : Noted i p (p.takeAcknowledge i m) := by
  unfold Part.takeAcknowledge
  refine Noting.noteLine (Noting.queueLcb ((Noting.start i [] p).onLine _ [35] fun w hw _ => ?_))
  apply reportValue_congr <;> intros <;> first | rfl | simp_all

theorem setting_setShadow_ne (l : Line) (w k : Fin 22) (v : Word) (h : w ≠ k) :
    Line.setting { l with shadow := l.shadow.set w v } k = l.setting k := by
  have : w.val ≠ k.val := fun e => h (Fin.ext e)
  simp [Line.setting, Vector.getElem_set, this]

theorem setShadow_report (l : Line) (w : Fin 22) (v : Word) (h : w ≠ 15) (k : Nat) :
    Line.reportValue? { l with shadow := l.shadow.set w v } k = l.reportValue? k := by
  apply reportValue_congr <;> intros <;> first | rfl | skip
  simp only [Line.liveConditions, Line.ringDue, setting_setShadow_ne l w 15 v h]

theorem setShadow_summary (l : Line) (w : Fin 22) (v : Word) (h : w ≠ 15) (h' : w ≠ 21) :
    Line.summary { l with shadow := l.shadow.set w v } = l.summary := by
  have e : w.val ≠ 21 := fun e => h' (Fin.ext e)
  simp only [Line.summary, Line.hasFault, Line.flag, Line.attention, Line.attends, Line.ringDue, setting_setShadow_ne l w 15 v h]
  simp [Vector.getElem_set, e]

theorem noted_setShadow (p : Part) (i : LineNo) (w : Fin 22) (v : Word) (h : w ≠ 15) (h' : w ≠ 21) :
    Noted i p (p.setShadow i w v) := noted_onLine p i _ (setShadow_summary _ w v h h') (setShadow_report _ w v h)

/-- An expired coalesce state changes ring-due alone. -/
theorem coalesceTaken_kept (l : Line) (w : Nat) (h : w ≠ 36) : l.coalesceTaken.reportValue? w = l.reportValue? w := by
  unfold Line.coalesceTaken
  split
  · rename_i r hr
    split
    · split
      · exact report_withRing l r _ hr w (fun e => absurd e h) fun _ _ => by unfold Ring.report; split <;> rfl
      · rfl
    · rfl
  · rfl

theorem coalesceTaken_conditions (l : Line) (h : l.coalesceTaken.ringDue = l.ringDue) :
    l.coalesceTaken.liveConditions = l.liveConditions := by
  have e : l.coalesceTaken.openCondition = l.openCondition ∧ l.coalesceTaken.stuckCondition = l.stuckCondition ∧
      l.coalesceTaken.breakCredit = l.breakCredit := by
    unfold Line.coalesceTaken
    repeat' split
    all_goals exact ⟨rfl, rfl, rfl⟩
  simp only [Line.liveConditions, h, e]

theorem quietTaken_hidden (l : Line) : l.quietTaken.summary = l.summary ∧ ∀ w, l.quietTaken.reportValue? w = l.reportValue? w := by
  unfold Line.quietTaken
  split <;> exact ⟨rfl, fun _ => rfl⟩

theorem noted_frameTaken (p : Part) (i : LineNo) : Noted i p (p.frameTaken i) := .ite (noted_abandonProbe p i) (.refl i p)

theorem noted_rateTaken (p : Part) (i : LineNo) : Noted i p (p.rateTaken i) :=
  .ite ((noted_abandonProbe p i).trans (noted_setRate _ i _ _)) (.refl i p)

/-- A setting taken reports each report word that it changes (R17, R46, R53, R156, R160, R163, R166). -/
theorem noted_takeSetting (p : Part) (i : LineNo) (w : Fin 22) (v : Word) : Noted i p (p.takeSetting i w v) := by
  unfold Part.takeSetting
  extract_lets q
  have eq : q.line i = { p.line i with shadow := (p.line i).shadow.set w v } := by simp only [q, Part.setShadow]; rw [line_onLine]
  have plain : w ≠ 15 → w ≠ 21 → Noted i p q := noted_setShadow p i w v
  have n : w ≠ 15 → Noting i [] p q := fun h => (Noting.start i [] p).onLine _ [] fun k _ _ => setShadow_report _ w v h k
  split_ifs with h3 h45 h6 hv h15 h16 h18 h21
  · exact (plain (by simp [h3]) (by simp [h3])).trans (noted_frameTaken q i)
  · exact (plain (by rcases h45 with h | h <;> simp [h]) (by rcases h45 with h | h <;> simp [h])).trans (noted_rateTaken q i)
  · exact (plain (by simp [h6]) (by simp [h6])).trans (noted_setCredit q i true)
  · exact plain (by simp [h6]) (by simp [h6])
  · refine Noting.noteDue ?_ (fun e => ?_) fun _ => Iff.rfl
    · refine (Noting.start i [] p).onLine _ [36] fun k hk _ => ?_
      apply reportValue_congr <;> intros <;> first | rfl | simp_all
    · rw [eq] at e ⊢
      simp only [Line.liveConditions, e]
  · have n' : Noting i [36] p (q.onLine i Line.coalesceTaken) :=
      (n h15).onLine _ [36] fun k hk _ => coalesceTaken_kept _ k (by simpa using hk)
    refine Noting.noteDue n' (fun e => ?_) fun _ => Iff.rfl
    rw [line_onLine, eq] at e ⊢
    have ed : Line.ringDue { p.line i with shadow := (p.line i).shadow.set w v } = (p.line i).ringDue := by
      simp only [Line.ringDue, setting_setShadow_ne (p.line i) w 15 v h15]
    rw [coalesceTaken_conditions _ (e.trans ed.symm)]
    simp only [Line.liveConditions, ed]
  · exact (plain h15 (by simp [h18])).trans (noted_onLine q i _ (quietTaken_hidden _).1 (quietTaken_hidden _).2)
  · exact (n h15).noteLine
  · exact plain h15 h21

/-! ### What a change of the part beyond its lines leaves -/

/-- What was reported since `p` was reported since any part with the same report words and the same pending set. -/
theorem Reported.of_same {p p' q : Part} (h : Reported p' q) (hv : ∀ w, p'.reportValue? w = p.reportValue? w)
    (hr : p'.reports = p.reports) : Reported p q := by
  intro w v k
  rcases h w v k with a | ⟨a, b⟩
  · exact .inl a
  · exact .inr ⟨by rw [← hv]; exact a, by rw [← hr]; exact b⟩

/-- The report words depend on the lines and on these fields. -/
theorem reportValue_part {p q : Part} (hl : q.lines = p.lines) (hs : q.state = p.state) (hm : q.map = p.map)
    (hc : q.resetCause = p.resetCause) (hh : q.handsOff = p.handsOff) (hf : q.forced = p.forced) (hb : q.blocked = p.blocked)
    (w : ReportWord) : q.reportValue? w = p.reportValue? w := by
  have el : ∀ i, q.line i = p.line i := fun i => by simp only [Part.line, hl]
  have eh : ∀ i, q.hasLine i = p.hasLine i := hasLine_of_map _ _ hm
  cases w with
  | lcb i w => simp only [Part.reportValue?, el]
  | base w =>
    simp only [Part.reportValue?, Part.baseReport, Part.summaryFlags, Part.lineFault, Part.summaryHalf, el, eh, hs, hc, hh, hf,
      hb]

end Sys2Proof.Machine
end

