-- ==== Sys2Proof/Laws/Arbitration.lean ====
section
/-! SUPPORT. What follows every event, `Part.arbitrate` (R15, R35): no report word changes, what was pending stays pending or is
being written, and the pending set stays sound. And the pending set is sound after a change that is reported. -/

namespace Sys2Proof.Machine

/-- What was pending in `p` is pending in `q` or is being written there, and no report word has changed. -/
structure Forwards (p q : Part) : Prop where
  value : ∀ w, q.reportValue? w = p.reportValue? w
  pending : ∀ w v, (w, v) ∈ p.reports → (w, v) ∈ q.reports ∨ ∃ a, q.port.serving = some (.report w a v)
  serving : ∀ r, p.port.serving = some r → q.port.serving = some r
  sound : ReportsSound p → ReportsSound q
  outside : q.state = p.state ∧ q.map = p.map ∧ ∀ i, q.line i = p.line i

theorem Forwards.refl (p : Part) : Forwards p p := ⟨fun _ => rfl, fun _ _ h => .inl h, fun _ h => h, id, rfl, rfl, fun _ => rfl⟩

theorem Forwards.trans {p q r : Part} (h : Forwards p q) (k : Forwards q r) : Forwards p r := by
  refine ⟨fun w => (k.value w).trans (h.value w), fun w v hw => ?_, fun x hx => k.serving x (h.serving x hx),
    fun hs => k.sound (h.sound hs), k.outside.1.trans h.outside.1, k.outside.2.1.trans h.outside.2.1,
    fun i => (k.outside.2.2 i).trans (h.outside.2.2 i)⟩
  rcases h.pending w v hw with a | ⟨a, e⟩
  · exact k.pending w v a
  · exact .inr ⟨a, k.serving _ e⟩

/-- A change of the port alone. -/
theorem forwards_of {p q : Part} (hl : q.lines = p.lines) (hs : q.state = p.state) (hm : q.map = p.map)
    (hc : q.resetCause = p.resetCause) (hh : q.handsOff = p.handsOff) (hf : q.forced = p.forced) (hb : q.blocked = p.blocked)
    (hk : q.closing = p.closing) (hr : q.reports = p.reports)
    (hv : ∀ r, p.port.serving = some r → q.port.serving = some r) : Forwards p q := by
  have v := reportValue_part hl hs hm hc hh hf hb
  refine ⟨v, fun w u h => .inl (hr ▸ h), hv, fun h => ?_, hs, hm, fun i => by simp only [Part.line, hl]⟩
  unfold ReportsSound at h ⊢
  simp only [hr, hk, v]
  exact h

theorem forwards_checkDisarmEnd (p : Part) : Forwards p p.checkDisarmEnd := by
  unfold Part.checkDisarmEnd
  split
  · rename_i h
    have v := reportValue_part (p := p) (q := p.queueClosing) rfl rfl rfl rfl rfl rfl rfl
    refine ⟨v, fun w u hw => ?_, fun _ hr => hr, fun _ => ?_, rfl, rfl, fun _ => rfl⟩
    · rw [h.2.2.1] at hw; cases hw
    · have e : p.queueClosing.reports = [(.base 32, PartState.dormant.code)] := by
        simp [Part.queueClosing, Part.queueValue, h.2.2.1, queueUpdate]
      unfold ReportsSound
      rw [e]
      refine ⟨by simp, fun w u x hw _ hn => (hn ⟨?_, rfl⟩).elim⟩
      simp only [List.mem_singleton, Prod.mk.injEq] at hw
      exact hw.1
  · exact .refl p

theorem forwards_grantInternal (p : Part) (r : Serving) (hs : p.port.serving = none) (h : p.internalRequest = some r) :
    Forwards p (p.grantInternal r) := by
  have v := reportValue_part (p := p) (q := p.grantInternal r) rfl rfl rfl rfl rfl rfl rfl
  have hr : (p.grantInternal r).reports = p.reports ∨
      ∃ w u rest, p.reports = (w, u) :: rest ∧ (p.grantInternal r).reports = rest ∧ ∃ a, r = .report w a u := by
    unfold Part.internalRequest at h
    cases hp : p.reports with
    | nil => left; cases r <;> simp [Part.grantInternal, hp]
    | cons x rest =>
      obtain ⟨w, u⟩ := x
      rw [hp] at h
      cases h
      exact .inr ⟨w, u, rest, rfl, by simp [Part.grantInternal, hp], _, rfl⟩
  refine ⟨v, fun w u hw => ?_, fun x hx => (by rw [hs] at hx; cases hx), fun k => ?_, rfl, rfl, fun _ => rfl⟩
  · rcases hr with hr | ⟨w', u', rest, e, hr, a, rfl⟩
    · exact .inl (hr ▸ hw)
    · rw [e] at hw
      rcases List.mem_cons.1 hw with hw | hw
      · cases hw; exact .inr ⟨a, rfl⟩
      · exact .inl (by rw [hr]; exact hw)
  · obtain ⟨k1, k2⟩ := k
    rcases hr with hr | ⟨w', u', rest, e, hr, a, rfl⟩
    · exact ⟨by rw [hr]; exact k1, fun w u x hw hx hn => k2 w u x (hr ▸ hw) (by rw [← v]; exact hx) hn⟩
    · rw [e, List.map_cons, List.nodup_cons] at k1
      exact ⟨by rw [hr]; exact k1.2, fun w u x hw hx hn =>
        k2 w u x (by rw [e]; exact List.mem_cons_of_mem _ (by rw [← hr]; exact hw)) (by rw [← v]; exact hx) hn⟩

theorem forwards_grantHost (p : Part) (a : HostAccess) (n : Nat) (hs : p.port.serving = none) : Forwards p (p.grantHost a n) :=
  forwards_of rfl rfl rfl rfl rfl rfl rfl rfl rfl fun x hx => by rw [hs] at hx; cases hx

theorem forwards_grant (p : Part) : Forwards p p.grant := by
  unfold Part.grant
  split
  · exact .refl p
  · rename_i hs
    split
    · exact .refl p
    · exact forwards_grantHost p _ _ hs
    · rename_i h; exact forwards_grantInternal p _ hs h
    · rename_i h
      split
      · exact forwards_grantHost p _ _ hs
      · exact forwards_grantInternal p _ hs h

/-- What follows every event changes no report word and loses nothing pending. -/
theorem forwards_arbitrate (p : Part) : Forwards p p.arbitrate :=
  ((forwards_checkDisarmEnd p).trans (forwards_grant _)).trans
    ((forwards_checkDisarmEnd _).trans (forwards_of rfl rfl rfl rfl rfl rfl rfl rfl rfl fun _ h => h))

/-! ### The conditions of R35, and what the port is left with -/

theorem drained_iff (p : Part) :
    p.drained = true ↔ ∀ i, p.hasLine i = true → (p.line i).state = .off ∧ p.hasWork i = false := by
  unfold Part.drained
  simp only [List.all_eq_true, List.mem_finRange, true_implies]
  refine ⟨fun h i hi => ?_, fun h i => ?_⟩
  · have := h i
    simp [hi] at this
    exact this
  · cases hi : p.hasLine i
    · simp
    · simp [h i hi]

theorem checkDisarmEnd_of_ends {p : Part} (h : DisarmEnds p) :
    p.checkDisarmEnd = { p with reports := [(.base 32, 1)], closing := true } := by
  unfold Part.checkDisarmEnd
  rw [if_pos ⟨h.1, h.2.1, h.2.2.1, (drained_iff p).2 h.2.2.2⟩]
  simp only [Part.queueClosing, Part.queueValue, h.2.2.1]
  rfl

theorem checkDisarmEnd_of_not_ends {p : Part} (h : ¬ DisarmEnds p) : p.checkDisarmEnd = p := by
  unfold Part.checkDisarmEnd
  rw [if_neg]
  exact fun x => h ⟨x.1, x.2.1, x.2.2.1, (drained_iff p).1 x.2.2.2⟩

theorem grant_closing (p : Part) : p.grant.closing = p.closing := by
  unfold Part.grant
  repeat' split
  all_goals rfl

/-- A grant leaves the port free only where it was free and nothing asked for it. -/
theorem grant_free_iff (p : Part) : p.grant.port.serving = none ↔
    p.port.serving = none ∧ p.port.waiting = none ∧ p.internalRequest = none := by
  unfold Part.grant
  repeat' split
  all_goals simp_all [Part.grantHost, Part.grantInternal]

/-- The pending set stays sound when every change is reported, no word becomes pending twice, and a closing write goes on. -/
theorem Reported.sound {p q : Part} (h : Reported p q) (hk : Keyed q) (hc : p.closing = true → q.closing = true)
    (hs : ReportsSound p) : ReportsSound q := by
  refine ⟨hk, fun w u v hm hv hn => ?_⟩
  have unique : ∀ x, (w, x) ∈ q.reports → x = u := by
    intro x hx
    unfold Keyed at hk
    generalize q.reports = l at hk hm hx
    induction l with
    | nil => cases hm
    | cons y t ih =>
      rw [List.map_cons, List.nodup_cons] at hk
      rcases List.mem_cons.1 hm with e | m <;> rcases List.mem_cons.1 hx with f | n
      · exact (Prod.mk.inj (f.trans e.symm)).2
      · exact (hk.1 (List.mem_map.2 ⟨_, n, by rw [← e]⟩)).elim
      · exact (hk.1 (List.mem_map.2 ⟨_, m, by rw [← f]⟩)).elim
      · exact ih hk.2 m n
  rcases h w v hv with a | ⟨a, b⟩
  · exact (unique v a).symm
  · exact hs.2 w u v ((b u).1 hm) a fun e => hn ⟨e.1, hc e.2⟩

end Sys2Proof.Machine
end

