-- ==== Sys2Proof/Laws/Bus.lean ====
section
/-! SUPPORT. The decode of the addresses that commands name, and the arrival of their accesses. -/

namespace Sys2Proof.Machine

/-! ### Addresses -/

theorem gateAddr_toNat : gateAddr.toNat = 0x1FFFFF := rfl

theorem baseAddr_toNat : baseAddr.toNat = 0x1FFF00 := rfl

theorem baseWordAddr_toNat (w : Nat) (h : w < 256) : (baseWordAddr w).toNat = 0x1FFF00 + w := by
  simp only [baseWordAddr, BitVec.toNat_add, BitVec.toNat_ofNat, baseAddr_toNat]
  omega

theorem lcbAddr_toNat (m : AddressMap) (i : LineNo) (w : Nat) (hw : w < 64) (h : m.regionBase.toNat + 2559 ≤ 0x1FFEFF) :
    (lcbAddr m.regionBase i w).toNat = m.regionBase.toNat + (64 * i.val + w) := by
  have hi := i.isLt
  simp only [lcbAddr, BitVec.toNat_add, BitVec.toNat_ofNat]
  omega

theorem windowAddr_toNat (m : AddressMap) (i : LineNo) (w : Nat) (hw : w < 16) (h : m.regionBase.toNat + 2559 ≤ 0x1FFEFF) :
    (windowAddr m.regionBase i w).toNat = m.regionBase.toNat + (2048 + 16 * i.val + w) := by
  have hi := i.isLt
  simp only [windowAddr, BitVec.toNat_add, BitVec.toNat_ofNat]
  omega

/-! ### Decode -/

@[simp] theorem decode_gate (p : Part) : p.decode gateAddr = .gate := by simp [Part.decode]

theorem decode_base (p : Part) (w : Nat) (hw : w < 255) :
    p.decode (baseWordAddr w) = if p.state = .dormant then .plain else .base w := by
  have h := baseWordAddr_toNat w (by omega)
  have h1 : baseWordAddr w ≠ gateAddr := fun e => by
    have := congrArg BitVec.toNat e
    simp only [h, gateAddr_toNat] at this
    omega
  have h2 : baseAddr ≤ baseWordAddr w := by
    rw [BitVec.le_def, h, baseAddr_toNat]
    omega
  have h3 : (baseWordAddr w).toNat - baseAddr.toNat = w := by
    rw [h, baseAddr_toNat]
    omega
  simp only [Part.decode, if_neg h1, if_pos h2, h3]

/-- Below the base block and within the console region, the region's own decode decides. -/
theorem decode_region (p : Part) (m : AddressMap) (a : Addr) (k : Nat) (hm : p.map = some m) (hk : k < 2560)
    (hs : m.regionBase.toNat + 2559 ≤ 0x1FFEFF) (ha : a.toNat = m.regionBase.toNat + k) :
    p.decode a = p.decodeConsole k := by
  have h1 : a ≠ gateAddr := fun e => by
    have := congrArg BitVec.toNat e
    simp only [ha, gateAddr_toNat] at this
    omega
  have h2 : ¬ baseAddr ≤ a := by
    rw [BitVec.le_def, ha, baseAddr_toNat]
    omega
  have h3 : m.regionBase.toNat ≤ a.toNat ∧ a.toNat < m.regionBase.toNat + 2560 := by omega
  simp only [Part.decode, if_neg h1, if_neg h2, hm, if_pos h3]
  rw [ha, Nat.add_sub_cancel_left]

theorem regionBase_of_map {p : Part} {m : AddressMap} (h : p.map = some m) : p.regionBase = m.regionBase := by
  simp [Part.regionBase, h]

/-- A line exists only under a map. -/
theorem map_of_hasLine {p : Part} {i : LineNo} (h : p.hasLine i = true) : ∃ m, p.map = some m := by
  unfold Part.hasLine at h
  split at h
  · cases h
  · next m hm => exact ⟨m, hm⟩

theorem decode_lcb (p : Part) (i : LineNo) (w : Nat) (hw : w < 64) (hi : p.hasLine i = true) (hs : p.MapSound) :
    p.decode (lcbAddr p.regionBase i w) = .lcb i w := by
  obtain ⟨m, hm⟩ := map_of_hasLine hi
  have hb : m.regionBase.toNat + 2559 ≤ 0x1FFEFF := by
    unfold Part.MapSound at hs
    rw [hm] at hs
    exact hs.1
  rw [regionBase_of_map hm]
  have hlt := i.isLt
  rw [decode_region p m _ (64 * i.val + w) hm (by omega) hb (lcbAddr_toNat m i w hw hb)]
  have e : (Fin.ofNat 32 ((64 * i.val + w) / 64) : LineNo) = i := by
    apply Fin.ext
    simp only [Fin.ofNat]
    omega
  simp only [Part.decodeConsole, if_pos (show 64 * i.val + w < 2048 by omega), e, hi, if_true]
  congr 1
  omega

theorem decode_window (p : Part) (i : LineNo) (w : Nat) (hw : w < 16) (hi : p.hasLine i = true) (hs : p.MapSound) :
    p.decode (windowAddr p.regionBase i w) = .window i := by
  obtain ⟨m, hm⟩ := map_of_hasLine hi
  have hb : m.regionBase.toNat + 2559 ≤ 0x1FFEFF := by
    unfold Part.MapSound at hs
    rw [hm] at hs
    exact hs.1
  rw [regionBase_of_map hm]
  have hlt := i.isLt
  rw [decode_region p m _ (2048 + 16 * i.val + w) hm (by omega) hb (windowAddr_toNat m i w hw hb)]
  have e : (Fin.ofNat 32 ((2048 + 16 * i.val + w - 2048) / 16) : LineNo) = i := by
    apply Fin.ext
    simp only [Fin.ofNat]
    omega
  simp only [Part.decodeConsole, if_neg (show ¬ 2048 + 16 * i.val + w < 2048 by omega), e, hi, if_true]

/-- An address below the base block, outside the console region and every protected ring is plain memory (R8). -/
theorem decode_plain (p : Part) (a : Addr) (h1 : a.toNat < 0x1FFF00)
    (h2 : ∀ m, p.map = some m → a.toNat < m.regionBase.toNat ∨ m.regionBase.toNat + 2560 ≤ a.toNat)
    (h3 : ∀ i, p.isProtected i = true →
      a.toNat < (p.line i).ringBase ∨ (p.line i).ringBase + (p.line i).ringSize ≤ a.toNat) : p.decode a = .plain := by
  have n1 : a ≠ gateAddr := fun e => by rw [e, gateAddr_toNat] at h1; omega
  have n2 : ¬ baseAddr ≤ a := by rw [BitVec.le_def, baseAddr_toNat]; omega
  simp only [Part.decode, if_neg n1, if_neg n2]
  split
  · rfl
  · rename_i m hm
    have := h2 m hm
    rw [if_neg (by omega)]
    unfold Part.decodeRing
    rw [List.find?_eq_none.2]
    intro i _
    simp only [Part.inRing, Bool.and_eq_true, decide_eq_true_eq, not_and, not_lt]
    rintro ⟨x, y⟩
    have := h3 i x
    omega

/-- The words of absent lines are plain memory (R5, R6). -/
theorem decode_absent (p : Part) (m : AddressMap) (hm : p.map = some m) (hs : p.MapSound) (i : LineNo) (w : Nat)
    (hi : p.hasLine i = false) (a : Addr)
    (h : w < 64 ∧ a = lcbAddr m.regionBase i w ∨ w < 16 ∧ a = windowAddr m.regionBase i w) : p.decode a = .plain := by
  have hb : m.regionBase.toNat + 2559 ≤ 0x1FFEFF := by
    unfold Part.MapSound at hs; rw [hm] at hs; exact hs.1
  have hlt := i.isLt
  rcases h with ⟨hw, rfl⟩ | ⟨hw, rfl⟩
  · rw [decode_region p m _ (64 * i.val + w) hm (by omega) hb (lcbAddr_toNat m i w hw hb)]
    have e : (Fin.ofNat 32 ((64 * i.val + w) / 64) : LineNo) = i := by
      apply Fin.ext; simp only [Fin.ofNat]; omega
    simp only [Part.decodeConsole, if_pos (show 64 * i.val + w < 2048 by omega), e, hi]
    rfl
  · rw [decode_region p m _ (2048 + 16 * i.val + w) hm (by omega) hb (windowAddr_toNat m i w hw hb)]
    have e : (Fin.ofNat 32 ((2048 + 16 * i.val + w - 2048) / 16) : LineNo) = i := by
      apply Fin.ext; simp only [Fin.ofNat]; omega
    simp only [Part.decodeConsole, if_neg (show ¬ 2048 + 16 * i.val + w < 2048 by omega), e, hi]
    rfl

/-- An address that decodes to a window is one of its sixteen words. -/
theorem window_of_decode (p : Part) (a : Addr) (i : LineNo) (h : p.decode a = .window i) (hs : p.MapSound) :
    p.hasLine i = true ∧ ∃ w, w < 16 ∧ a = windowAddr p.regionBase i w := by
  unfold Part.decode at h
  split at h
  · cases h
  · split at h
    · split at h <;> cases h
    · split at h
      · cases h
      · rename_i m hm
        split at h
        · rename_i hr
          have hb : m.regionBase.toNat + 2559 ≤ 0x1FFEFF := by
            unfold Part.MapSound at hs; rw [hm] at hs; exact hs.1
          unfold Part.decodeConsole at h
          dsimp only at h
          split at h
          · split at h <;> cases h
          · rename_i hk
            split at h
            · rename_i hl
              cases h
              refine ⟨hl, (a.toNat - m.regionBase.toNat - 2048) % 16, by omega, ?_⟩
              apply BitVec.eq_of_toNat_eq
              rw [regionBase_of_map hm, windowAddr_toNat m _ _ (by omega) hb]
              simp only [Fin.ofNat]
              omega
            · cases h
        · unfold Part.decodeRing at h
          split at h <;> cases h

/-- An address that decodes to a base-block word is that word. -/
theorem decode_base_eq (p : Part) (a : Addr) (w : Nat) (h : p.decode a = .base w) : a = baseWordAddr w := by
  unfold Part.decode at h
  split at h
  · cases h
  · split at h
    · rename_i hb
      split at h
      · cases h
      · have h' : a.toNat - baseAddr.toNat = w := by injection h
        rw [BitVec.le_def, baseAddr_toNat] at hb
        rw [baseAddr_toNat] at h'
        have hlt := a.isLt
        apply BitVec.eq_of_toNat_eq
        rw [baseWordAddr_toNat w (by omega)]; omega
    · split at h
      · cases h
      · split at h
        · unfold Part.decodeConsole at h
          dsimp only at h
          split at h <;> split at h <;> cases h
        · unfold Part.decodeRing at h
          split at h <;> cases h

/-! ### Arrivals -/

/-- A host access that finds the bus free arrives. -/
theorem host_ready {s : State} (h : Ready s) (a : HostAccess) : s.host a = answers s (s.part.hostArrives a) := by
  have h' : s.part.busBusy = false := h
  simp [State.host, Part.hostIssues, h', answers]

/-- A host access that arrives beside another event finds the bus free, and no grant is made for it alone. -/
theorem hostFollows_free {p : Part} (h : p.busBusy = false) (a : HostAccess) : p.hostFollows (some a) = p.hostArrives a := by
  simp [Part.hostFollows, h]

@[simp] theorem hostFollows_none (p : Part) : p.hostFollows none = p := rfl

/-- The grant after an access that arrives beside another event is the one of an access that arrives alone after it. -/
theorem hostFollows_arbitrate {p : Part} (h : p.busBusy = false) (a : HostAccess) :
    (p.hostFollows (some a)).arbitrate = p.hostIssues a := by
  simp [Part.hostFollows, Part.hostIssues, h]

/-- No write is held when the bus is free. -/
theorem held_of_ready {s : State} (h : Ready s) : s.part.held = none := by
  have h' : s.part.busBusy = false := h
  simp [Part.busBusy] at h'
  exact h'.2

/-- A write to a base-block word that is neither in the setup half nor a report word is not blocked. -/
theorem arrives_base (p : Part) (w : Nat) (hw : w < 255) (h1 : 6 < w) (h2 : w < 32 ∨ 47 < w) (lanes : Lanes) (d : Word) :
    p.hostArrives (baseWriteTo w lanes d) =
      if p.state = .dormant then p.forward (baseWriteTo w lanes d) else p.baseWrite w lanes d (baseWriteTo w lanes d) := by
  have hd := decode_base p w hw
  have n1 : ¬ w ≤ 6 := by omega
  have n2 : ¬ (32 ≤ w ∧ w ≤ 47) := by omega
  by_cases h : p.state = .dormant
  · rw [if_pos h] at hd
    simp [Part.hostArrives, baseWriteTo, Part.writeArrives, Part.writeBlocked, hd, h]
  · rw [if_neg h] at hd
    simp [Part.hostArrives, baseWriteTo, Part.writeArrives, Part.writeBlocked, hd, h, n1, n2]

/-- A read of a base-block word. -/
theorem read_base (p : Part) (w : Nat) (hw : w < 255) :
    p.hostArrives ⟨baseWordAddr w, .read⟩ =
      if p.state.inForce = true ∧ w = 46 then p.readStampHigh
      else if p.state.inForce = true ∧ w = 47 then p.readStampLow
      else p.forward ⟨baseWordAddr w, .read⟩ := by
  have hd := decode_base p w hw
  by_cases h : p.state = .dormant
  · rw [if_pos h] at hd
    simp [Part.hostArrives, Part.readArrives, hd, h, PartState.inForce]
  · rw [if_neg h] at hd
    simp [Part.hostArrives, Part.readArrives, hd, and_comm]

/-- A write to LCB word 0, 1 or 2 of an existing line arrives at the Line Controller. -/
theorem arrives_lcb (p : Part) (i : LineNo) (w : Nat) (hw : w < 3) (hi : p.hasLine i = true) (hs : p.MapSound)
    (lanes : Lanes) (d : Word) :
    p.hostArrives (p.lcbWriteTo i w lanes d) = p.lcbWrite i w lanes d (p.lcbWriteTo i w lanes d) := by
  have hd := decode_lcb p i w (by omega) hi hs
  have hb : p.lcbBlocked i w lanes d = none := by
    have n1 : ¬ (3 ≤ w) := by omega
    have n2 : ¬ (32 ≤ w ∧ w ≤ 55) := by omega
    have h22 : w < 22 := by omega
    simp [Part.lcbBlocked, settingWord, h22, n1, n2]
  simp [Part.hostArrives, Part.lcbWriteTo, Part.writeArrives, Part.writeBlocked, hd, hb]

/-- A write to a settings word of an existing line is blocked or taken and forwarded. -/
theorem arrives_setting (p : Part) (i : LineNo) (w : Fin 22) (hw : 3 ≤ w.val) (hi : p.hasLine i = true) (hs : p.MapSound)
    (lanes : Lanes) (d : Word) :
    p.hostArrives (p.lcbWriteTo i w.val lanes d) =
      match p.settingBlocked i w (p.merged i w lanes d) with
      | some reason => p.recordBlocked (lcbAddr p.regionBase i w.val) reason
      | none => (p.takeSetting i w (p.merged i w lanes d)).forward (p.lcbWriteTo i w.val lanes d) := by
  have hd := decode_lcb p i w.val (by omega) hi hs
  have hsw : settingWord w.val = some w := by simp [settingWord, hw]
  have n : w.val ≠ 0 ∧ w.val ≠ 1 ∧ w.val ≠ 2 := by omega
  cases hb : p.settingBlocked i w (p.merged i w lanes d) <;>
    simp [Part.hostArrives, Part.lcbWriteTo, Part.writeArrives, Part.writeBlocked, hd, Part.lcbBlocked, hsw, hb,
      Part.lcbWrite, n]

end Sys2Proof.Machine
end

