-- ==== Sys2Proof/Laws/Quiesce.lean ====
section
/-! SUPPORT. Entry to "RELEASE", the release of a held write, and what is done for every existing line. -/

namespace Sys2Proof.Machine

/-! ### The held write -/

theorem heldFor_some {p : Part} {i : LineNo} {h : HeldWrite} (e : p.heldFor i = some h) : p.held = some h ∧ h.line = i := by
  unfold Part.heldFor at e
  split at e
  · next k hk =>
    split at e
    · next hl => cases e; exact ⟨hk, hl⟩
    · cases e
  · cases e

theorem heldFor_congr {p q : Part} (h : q.held = p.held) (i : LineNo) : q.heldFor i = p.heldFor i := by
  simp [Part.heldFor, h]

theorem refuseHeld_eq (p : Part) (i : LineNo) :
    p.refuseHeld i = (if (p.heldFor i).isSome then p.refuseEntry i else p).releaseHold i := by
  have hk : (p.refuseEntry i).held = p.held := (lineStep_refuseEntry p i).held
  unfold Part.refuseHeld Part.releaseHold
  rcases hh : p.held with _ | h
  · simp [Part.heldFor, hh]
  · by_cases hl : h.line = i
    · simp [Part.heldFor, hh, hl, hk, Part.forward]
    · simp [Part.heldFor, hh, hl]

@[simp] theorem line_releaseHold (p : Part) (i j : LineNo) : (p.releaseHold i).line j = p.line j := by
  unfold Part.releaseHold
  split <;> rfl

@[simp] theorem reports_releaseHold (p : Part) (i : LineNo) : (p.releaseHold i).reports = p.reports := by
  unfold Part.releaseHold
  split <;> rfl

@[simp] theorem now_releaseHold (p : Part) (i : LineNo) : (p.releaseHold i).now = p.now := by
  unfold Part.releaseHold
  split <;> rfl

@[simp] theorem map_releaseHold (p : Part) (i : LineNo) : (p.releaseHold i).map = p.map := by
  unfold Part.releaseHold
  split <;> rfl

@[simp] theorem state_releaseHold (p : Part) (i : LineNo) : (p.releaseHold i).state = p.state := by
  unfold Part.releaseHold
  split <;> rfl

/-- Releasing the held write of line `i` keeps `LineStep i`. -/
theorem LineStep.releaseHold {i : LineNo} {p q : Part} (h : LineStep i p q) : LineStep i (p.releaseHold i) (q.releaseHold i) := by
  have hf : q.heldFor i = p.heldFor i := heldFor_congr h.held i
  refine ⟨?_, fun j hj => by simpa using h.2.1 j hj, fun w v hw => by simpa using h.2.2 w v hw⟩
  have ho := h.1
  unfold Part.releaseHold
  rw [hf]
  split
  · next a _ =>
    have hp : q.port = p.port := h.port
    show { q.outside with held := none, port := { q.port with waiting := some a.access } } =
      { p.outside with held := none, port := { p.port with waiting := some a.access } }
    rw [ho, hp]
  · exact ho

theorem releaseHold_none {p : Part} {i : LineNo} (h : p.heldFor i = none) : p.releaseHold i = p := by
  simp [Part.releaseHold, h]

/-! ### Discard and release -/

theorem line_refuseHeld (p : Part) (i : LineNo) :
    (p.refuseHeld i).line i = if (p.heldFor i).isSome then (p.refuseEntry i).line i else p.line i := by
  rw [refuseHeld_eq, line_releaseHold]
  split <;> rfl

theorem lineStep_refuseHeld (p : Part) (i : LineNo) : LineStep i (p.releaseHold i) (p.refuseHeld i) := by
  rw [refuseHeld_eq]
  exact LineStep.releaseHold (.ite (lineStep_refuseEntry p i) (.refl i p))

theorem satAdd_zero (a : Word) : satAdd a 0 = a := by
  simp only [satAdd, Nat.add_zero, BitVec.ofNat_eq_ofNat, BitVec.add_zero]
  split
  · next h => exact BitVec.eq_of_toNat_eq (by have := a.isLt; simp; omega)
  · rfl

theorem setCounter_self (l : Line) (c : Counter) : l.setCounter c (l.counter c) = l := by
  simp [Line.setCounter, Line.counter]

theorem set_refused_self (v : Vector Word 7) (x : Word) : (v.set 4 x).set 5 v[5] = v.set 4 x := by
  ext k hk
  by_cases h : k = 5
  · subst h; simp
  · rw [Vector.getElem_set_ne _ hk (fun e => h e.symm)]

theorem line_discardQueue (p : Part) (i : LineNo) : (p.discardQueue i).line i = (p.line i).dropQueue (p.heldCount i) := by
  have hh : ∀ q : Part, LineStep i p q → q.heldFor i = p.heldFor i := fun q hq => heldFor_congr hq.held i
  unfold Part.discardQueue
  rw [line_refuseHeld, hh _ ((lineStep_onLine p i _).trans (lineStep_loseEntries _ i _))]
  unfold Part.heldCount
  by_cases hs : (p.heldFor i).isSome
  · by_cases ha : (p.line i).sending <;>
      simp [hs, Line.dropQueue, Line.tallied, Line.discarded, Line.waitingEntries, Line.setCounter, Line.counter, ha,
        Counter.index]
  · by_cases ha : (p.line i).sending <;>
      simp [hs, Line.dropQueue, Line.tallied, Line.discarded, Line.waitingEntries, Line.setCounter, Line.counter, ha,
        satAdd_zero, Counter.index, set_refused_self]

theorem lineStep_discardQueue (p : Part) (i : LineNo) : LineStep i (p.releaseHold i) (p.discardQueue i) :=
  (LineStep.releaseHold ((lineStep_onLine p i _).trans (lineStep_loseEntries _ i _))).trans (lineStep_refuseHeld _ i)

theorem heldCount_congr {p q : Part} (h : q.held = p.held) (i : LineNo) : q.heldCount i = p.heldCount i := by
  simp [Part.heldCount, heldFor_congr h i]

/-- The line at entry to "RELEASE" is the one R67 and R150 give. -/
theorem line_enterRelease (p : Part) (i : LineNo) (t : Target) (c : ModeCause) :
    (p.enterRelease i t c).line i = (p.line i).released p.now t c (p.heldCount i) := by
  unfold Part.enterRelease
  simp only [line_queueLcb, line_discardQueue, onLine_eq]
  rw [heldCount_congr (p := p) rfl]
  simp only [line_setLine]
  rfl

theorem lineStep_enterRelease (p : Part) (i : LineNo) (t : Target) (c : ModeCause) :
    LineStep i (p.releaseHold i) (p.enterRelease i t c) :=
  ((LineStep.releaseHold (lineStep_onLine p i _)).trans (lineStep_discardQueue _ i)).trans (lineStep_queueLcb _ i 32)

theorem baseReport_releaseHold (p : Part) (i : LineNo) (w : Nat) : (p.releaseHold i).baseReport w = p.baseReport w := by
  unfold Part.releaseHold
  split <;> rfl

theorem NotedBut.releaseHold {i : LineNo} {ws : List Nat} {p q : Part} (h : NotedBut i ws p q) :
    NotedBut i ws (p.releaseHold i) (q.releaseHold i) := by
  refine ⟨h.step.releaseHold, by simpa using h.lcb, fun w h1 h2 => ?_, fun x => ?_⟩
  · simpa [baseReport_releaseHold] using h.sums w h1 h2
  · unfold Keyed at x ⊢
    rw [reports_releaseHold] at x ⊢
    exact h.keys x

/-- The release of the held write is no matter of the reports. -/
theorem Noted.releaseHold {i : LineNo} {p q : Part} (h : Noted i p q) : Noted i (p.releaseHold i) (q.releaseHold i) :=
  (NotedBut.ofNoted [] h).releaseHold.whole

theorem noted_refuseHeld (p : Part) (i : LineNo) : Noted i (p.releaseHold i) (p.refuseHeld i) := by
  rw [refuseHeld_eq]
  exact Noted.releaseHold (.ite (noted_refuseEntry p i) (.refl i p))

theorem discarded_hidden (l : Line) : l.discarded.summary = l.summary ∧ ∀ w, l.discarded.reportValue? w = l.reportValue? w := by
  unfold Line.discarded
  split <;> exact ⟨rfl, fun _ => rfl⟩

theorem noted_discardQueue (p : Part) (i : LineNo) : Noted i (p.releaseHold i) (p.discardQueue i) :=
  (Noted.releaseHold ((noted_onLine p i _ (discarded_hidden _).1 (discarded_hidden _).2).trans (noted_loseEntries _ i _))).trans
    (noted_refuseHeld _ i)

theorem noted_enterRelease (p : Part) (i : LineNo) (t : Target) (c : ModeCause) :
    Noted i (p.releaseHold i) (p.enterRelease i t c) := by
  unfold Part.enterRelease
  extract_lets g q
  have n : NotedBut i [32] p q := by
    refine but_onLine p i _ rfl fun w hw => ?_
    apply reportValue_congr <;> intros <;> first | rfl | contradiction
  exact (n.releaseHold.trans (.ofNoted _ (noted_discardQueue q i))).queueLcb

/-- Word 32 is pending after an entry to "RELEASE". -/
theorem mem_enterRelease (p : Part) (i : LineNo) (t : Target) (c : ModeCause) :
    (ReportWord.lcb i 32, ((p.enterRelease i t c).line i).report 32) ∈ (p.enterRelease i t c).reports :=
  mem_queueUpdate_self _ _ _

/-! ### For every existing line -/

/-- What holds of a part before the lines are gone through, and is kept at each line, holds afterwards of every line. -/
theorem forLines_induction (p : Part) (f : LineNo → Part → Part) (P : List LineNo → Part → Prop) (base : P [] p)
    (step : ∀ done i q, i ∉ done → P done q → P (done ++ [i]) (if q.hasLine i then f i q else q)) :
    P (List.finRange 32) (p.forLines f) := by
  have go : ∀ (rest done : List LineNo) (q : Part), (done ++ rest).Nodup → P done q →
      P (done ++ rest) (rest.foldl (fun q i => if q.hasLine i then f i q else q) q) := by
    intro rest
    induction rest with
    | nil => intro done q _ h; simpa using h
    | cons i rest ih =>
      intro done q hn h
      have hi : i ∉ done := by
        intro hm
        have := List.nodup_append.1 hn
        exact this.2.2 i hm i (List.mem_cons_self ..) rfl
      have := ih (done ++ [i]) _ (by simpa using hn) (step done i q hi h)
      simpa using this
  simpa [Part.forLines] using go (List.finRange 32) [] p (by simpa using List.nodup_finRange 32) base

/-! ### Quiesce of every line -/

theorem lineStep_quiesceLine (p : Part) (i : LineNo) :
    LineStep i (if (p.line i).state.quiesced then p.releaseHold i else p) (p.quiesceLine i) := by
  unfold Part.quiesceLine
  split
  · exact lineStep_enterRelease p i _ _
  · exact .refl i p

theorem line_quiesceLine (p : Part) (i : LineNo) :
    (p.quiesceLine i).line i = if (p.line i).state.quiesced then (p.line i).released p.now .listen .quiesce (p.heldCount i) else p.line i := by
  unfold Part.quiesceLine
  split
  · exact line_enterRelease p i _ _
  · rfl

theorem quiesced_iff (s : LineState) : s.quiesced = true ↔ s = .settle ∨ s = .drive ∨ s = .drain := by
  cases s <;> simp [LineState.quiesced]

theorem mem32_setHeld (p : Part) (i : LineNo) (a b : Bool) (h : a ≠ (p.line i).heldHandsOff ∨ b ≠ (p.line i).heldForced) :
    (ReportWord.lcb i 32, ((p.setHeld i a b).line i).stateWord) ∈ (p.setHeld i a b).reports := by
  have : (a != (p.line i).heldHandsOff || b != (p.line i).heldForced) = true := by
    rcases h with h | h <;> simp [h]
  unfold Part.setHeld
  simp only [this, Part.queueLcbIf, if_true]
  exact mem_queueUpdate_self _ _ _

/-- Where going through the lines of `p` stands: the lines done have become `tgt`, the rest are as they were, and nothing else
but reports and a released held write has changed. `ch` says of which lines word 32 must be pending. -/
structure QInv (p : Part) (tgt : LineNo → Line) (ch : LineNo → Prop) (done : List LineNo) (q : Part) : Prop where
  doneLine : ∀ j ∈ done, q.line j = if p.hasLine j then tgt j else p.line j
  restLine : ∀ j, j ∉ done → q.line j = p.line j
  frame : { q with lines := p.lines, reports := p.reports, held := p.held, port := p.port } = p
  hold : (q.held = p.held ∧ q.port = p.port ∧ ∀ h, p.held = some h → h.line ∈ done → p.hasLine h.line = true → (p.line h.line).state.quiesced = false) ∨
    (∃ h, p.held = some h ∧ h.line ∈ done ∧ q.held = none ∧ q.port = { p.port with waiting := some h.access })
  pend : ∀ j ∈ done, p.hasLine j = true → ch j → (ReportWord.lcb j 32, (q.line j).stateWord) ∈ q.reports

theorem QInv.now {p tgt ch done q} (h : QInv p tgt ch done q) : q.now = p.now := by have := congrArg Part.now h.frame; exact this
theorem QInv.map {p tgt ch done q} (h : QInv p tgt ch done q) : q.map = p.map := by have := congrArg (fun x : Part => x.map) h.frame; exact this

theorem qinv_step (p : Part) (tgt : LineNo → Line) (ch : LineNo → Prop) (g : LineNo → Part → Part)
    (hs : ∀ i q, LineStep i (if (q.line i).state.quiesced then q.releaseHold i else q) (g i q))
    (hl : ∀ i q, q.line i = p.line i → q.now = p.now → q.heldCount i = p.heldCount i → (g i q).line i = tgt i)
    (hc : ∀ i q, q.line i = p.line i → ch i → (ReportWord.lcb i 32, ((g i q).line i).stateWord) ∈ (g i q).reports)
    (done : List LineNo) (i : LineNo) (q : Part) (hi : i ∉ done) (h : QInv p tgt ch done q) :
    QInv p tgt ch (done ++ [i]) (if q.hasLine i then g i q else q) := by
  have hhas : q.hasLine i = p.hasLine i := hasLine_of_map _ _ h.map i
  by_cases hx : q.hasLine i = true
  case neg =>
    have hx' : q.hasLine i = false := by simpa using hx
    rw [if_neg hx]
    refine ⟨?_, ?_, h.frame, ?_, ?_⟩
    · intro j hj
      rcases List.mem_append.1 hj with hj | hj
      · exact h.doneLine j hj
      · obtain rfl : j = i := by simpa using hj
        rw [← hhas, hx']; simpa using h.restLine j hi
    · intro j hj; exact h.restLine j (fun hd => hj (List.mem_append_left _ hd))
    · rcases h.hold with ⟨a, b, c⟩ | ⟨k, a, b, c, d⟩
      · refine .inl ⟨a, b, fun k hk hm hh => ?_⟩
        rcases List.mem_append.1 hm with hm | hm
        · exact c k hk hm hh
        · have : k.line = i := by simpa using hm
          rw [this, ← hhas, hx'] at hh; cases hh
      · exact .inr ⟨k, a, List.mem_append_left _ b, c, d⟩
    · intro j hj hhj hcj
      rcases List.mem_append.1 hj with hj | hj
      · exact h.pend j hj hhj hcj
      · obtain rfl : j = i := by simpa using hj
        rw [← hhas, hx'] at hhj; cases hhj
  case pos =>
    rw [if_pos hx]
    have hrest := h.restLine i hi
    have hhf : q.heldFor i = p.heldFor i := by
      rcases h.hold with ⟨a, _, _⟩ | ⟨k, a, b, c, d⟩
      · exact heldFor_congr a i
      · have hne : k.line ≠ i := fun e => hi (e ▸ b)
        simp [Part.heldFor, a, c, hne]
    have hcount : q.heldCount i = p.heldCount i := by simp [Part.heldCount, hhf]
    have st := hs i q
    set r := g i q with hr
    have hlines : ∀ j, j ≠ i → r.line j = q.line j := by
      intro j hj
      have := st.2.1 j hj
      rw [this]; split <;> simp
    have hout : r.outside = (if (q.line i).state.quiesced then q.releaseHold i else q).outside := st.1
    refine ⟨?_, ?_, ?_, ?_, ?_⟩
    · intro j hj
      rcases List.mem_append.1 hj with hj | hj
      · rw [hlines j (fun e => hi (e ▸ hj))]; exact h.doneLine j hj
      · obtain rfl : j = i := by simpa using hj
        rw [← hhas, hx]; exact hl j q hrest h.now hcount
    · intro j hj
      have : j ≠ i := fun e => hj (by simp [e])
      rw [hlines j this]; exact h.restLine j (fun hd => hj (List.mem_append_left _ hd))
    · have e1 : { r with lines := p.lines, reports := p.reports, held := p.held, port := p.port } =
          { q with lines := p.lines, reports := p.reports, held := p.held, port := p.port } := by
        have := congrArg (fun o : Part => { o with lines := p.lines, reports := p.reports, held := p.held, port := p.port }) hout
        refine this.trans ?_
        split
        · unfold Part.releaseHold; split <;> rfl
        · rfl
      exact e1.trans h.frame
    · have hheld : r.held = (if (q.line i).state.quiesced then q.releaseHold i else q).held := by have := congrArg Part.held hout; exact this
      have hport : r.port = (if (q.line i).state.quiesced then q.releaseHold i else q).port := by have := congrArg Part.port hout; exact this
      rcases h.hold with ⟨a, b, c⟩ | ⟨k, a, b, c, d⟩
      · by_cases hq : (q.line i).state.quiesced = true
        · rw [if_pos hq] at hheld hport
          rcases hf : q.heldFor i with _ | k
          · rw [releaseHold_none hf] at hheld hport
            refine .inl ⟨hheld.trans a, hport.trans b, fun k hk hm hh => ?_⟩
            rcases List.mem_append.1 hm with hm | hm
            · exact c k hk hm hh
            · have e : k.line = i := by simpa using hm
              have : q.heldFor i = some k := by rw [hhf]; simp [Part.heldFor, hk, e]
              rw [this] at hf; cases hf
          · obtain ⟨e1, e2⟩ := heldFor_some hf
            refine .inr ⟨k, a ▸ e1, by simp [e2], ?_, ?_⟩
            · rw [hheld]; simp [Part.releaseHold, hf]
            · rw [hport]; simp [Part.releaseHold, hf, b]
        · rw [if_neg hq] at hheld hport
          refine .inl ⟨hheld.trans a, hport.trans b, fun k hk hm hh => ?_⟩
          rcases List.mem_append.1 hm with hm | hm
          · exact c k hk hm hh
          · have e : k.line = i := by simpa using hm
            rw [e, ← hrest]; simpa using hq
      · have hn : (if (q.line i).state.quiesced then q.releaseHold i else q) = q := by
          split
          · exact releaseHold_none (by simp [Part.heldFor, c])
          · rfl
        rw [hn] at hheld hport
        exact .inr ⟨k, a, List.mem_append_left _ b, hheld.trans c, hport.trans d⟩
    · intro j hj hhj hcj
      rcases List.mem_append.1 hj with hj | hj
      · have hne : j ≠ i := fun e => hi (e ▸ hj)
        rw [hlines j hne]
        refine (st.2.2 _ _ (by simp [ReportWord.concerns, hne])).2 ?_
        have := h.pend j hj hhj hcj
        split
        · simpa using this
        · exact this
      · obtain rfl : j = i := by simpa using hj
        exact hc j q hrest hcj

/-- What a quiesce does to all lines, from what it does to one. -/
theorem qinv_all (p : Part) (tgt : LineNo → Line) (ch : LineNo → Prop) (g : LineNo → Part → Part)
    (hs : ∀ i q, LineStep i (if (q.line i).state.quiesced then q.releaseHold i else q) (g i q))
    (hl : ∀ i q, q.line i = p.line i → q.now = p.now → q.heldCount i = p.heldCount i → (g i q).line i = tgt i)
    (hc : ∀ i q, q.line i = p.line i → ch i → (ReportWord.lcb i 32, ((g i q).line i).stateWord) ∈ (g i q).reports) :
    QInv p tgt ch (List.finRange 32) (p.forLines g) :=
  forLines_induction p g (QInv p tgt ch)
    ⟨fun j hj => by simp at hj, fun j _ => rfl, rfl, .inl ⟨rfl, rfl, fun _ _ hm => by simp at hm⟩, fun j hj => by simp at hj⟩
    (fun done i q hi h => qinv_step p tgt ch g hs hl hc done i q hi h)

theorem lineStep_quiesceHeld (p : Part) (i : LineNo) (a b : Bool) :
    LineStep i (if (p.line i).state.quiesced then p.releaseHold i else p) ((p.setHeld i a b).quiesceLine i) := by
  have h1 := lineStep_setHeld p i a b
  have h2 := lineStep_quiesceLine (p.setHeld i a b) i
  have e : ((p.setHeld i a b).line i).state = (p.line i).state := by simp
  rw [e] at h2
  split
  · next hq => rw [if_pos hq] at h2; exact (LineStep.releaseHold h1).trans h2
  · next hq => rw [if_neg hq] at h2; exact h1.trans h2

theorem line_quiesceHeld (p q : Part) (i : LineNo) (a b : Bool) (h1 : q.line i = p.line i) (h2 : q.now = p.now) (h3 : q.heldCount i = p.heldCount i) :
    ((q.setHeld i a b).quiesceLine i).line i = p.quiesced i a b := by
  have hst := lineStep_setHeld q i a b
  rw [line_quiesceLine, heldCount_congr hst.held, hst.now, h2, h3]
  simp only [line_setHeld, h1, Part.quiesced]
  by_cases hq : (p.line i).state.quiesced = true
  · rw [if_pos hq, if_pos ((quiesced_iff _).1 hq)]
  · rw [if_neg hq, if_neg (fun e => hq ((quiesced_iff _).2 e))]

theorem mem32_quiesceHeld (p : Part) (i : LineNo) (a b : Bool) (h : a ≠ (p.line i).heldHandsOff ∨ b ≠ (p.line i).heldForced) :
    (ReportWord.lcb i 32, (((p.setHeld i a b).quiesceLine i).line i).stateWord) ∈ ((p.setHeld i a b).quiesceLine i).reports := by
  unfold Part.quiesceLine
  split
  · exact mem_enterRelease _ i _ _
  · exact mem32_setHeld p i a b h

theorem reported_releaseHold {p q : Part} {i : LineNo} (h : Reported (p.releaseHold i) q) : Reported p q := by
  refine h.of_same (fun w => ?_) (reports_releaseHold p i)
  unfold Part.releaseHold
  split
  · exact reportValue_part rfl rfl rfl rfl rfl rfl rfl w
  · rfl

theorem keyed_releaseHold {p : Part} (i : LineNo) (h : Keyed p) : Keyed (p.releaseHold i) := by
  unfold Keyed at h ⊢
  rwa [reports_releaseHold]

theorem reported_enterRelease (p : Part) (i : LineNo) (t : Target) (c : ModeCause) : Reported p (p.enterRelease i t c) :=
  reported_releaseHold (noted_enterRelease p i t c).reported

theorem reported_quiesceLine (p : Part) (i : LineNo) : Reported p (p.quiesceLine i) := by
  unfold Part.quiesceLine
  split
  · exact reported_enterRelease p i _ _
  · exact .refl p

theorem reported_quiesceHeld (p : Part) (i : LineNo) (a b : Bool) : Reported p ((p.setHeld i a b).quiesceLine i) :=
  (noted_setHeld p i a b).reported.trans (reported_quiesceLine _ i)

/-- What reports the changes of each existing line reports those of all. -/
theorem reported_forLines (p : Part) (f : LineNo → Part → Part) (h : ∀ i q, Reported q (f i q)) : Reported p (p.forLines f) := by
  unfold Part.forLines
  generalize List.finRange 32 = is
  induction is generalizing p with
  | nil => exact .refl p
  | cons i is ih =>
    refine Reported.trans ?_ (ih _)
    by_cases e : p.hasLine i = true
    · dsimp only; rw [if_pos e]; exact h i p
    · dsimp only; rw [if_neg e]; exact .refl p

theorem noteSummary_cases (p before : Part) : p.noteSummary before = p ∨ p.noteSummary before = p.queueBase 37 := by
  unfold Part.noteSummary; split <;> simp

theorem summaryFlags_queueBase (p : Part) (w) : (p.queueBase w).summaryFlags = p.summaryFlags := rfl

theorem noteSummary_line (p before : Part) (j) : (p.noteSummary before).line j = p.line j := by
  rcases noteSummary_cases p before with h | h <;> rw [h] <;> rfl
theorem noteSummary_mem (p before : Part) (i w v) : (ReportWord.lcb i w, v) ∈ (p.noteSummary before).reports ↔ (ReportWord.lcb i w, v) ∈ p.reports := by
  rcases noteSummary_cases p before with h | h <;> rw [h]
  simp
theorem noteSummary_37 (p before : Part) (h : p.summaryFlags ≠ before.summaryFlags) : (ReportWord.base 37, (p.noteSummary before).summaryFlags) ∈ (p.noteSummary before).reports := by
  unfold Part.noteSummary; rw [if_neg h]
  exact mem_queueUpdate_self _ _ _

theorem hoff_bit (p : Part) : (p.summaryFlags).getLsbD 0 = p.handsOff := by
  simp [Part.summaryFlags, bitIf]
  cases p.handsOff <;> cases p.forced <;> cases p.lineFault <;> cases p.blocked.latched <;> simp
theorem forced_bit (p : Part) : (p.summaryFlags).getLsbD 1 = p.forced := by
  simp [Part.summaryFlags, bitIf]
  cases p.handsOff <;> cases p.forced <;> cases p.lineFault <;> cases p.blocked.latched <;> simp


/-- Going through the lines when each is done by a step that touches only it and, beyond it, what `F` forgets: each existing line
meets `tgt`, every other is as it was, and `F` is kept. -/
theorem forLines_each (p : Part) (F : Part → Part) (tgt : LineNo → Line → Prop) (ch : LineNo → Prop) (g : LineNo → Part → Part)
    (hmap : ∀ q, F q = F p → q.map = p.map)
    (hF : ∀ i q, F q = F p → F (g i q) = F p)
    (hne : ∀ i q, F q = F p → ∀ j, j ≠ i → (g i q).line j = q.line j)
    (hr : ∀ i q, F q = F p → ∀ w v, ReportWord.concerns i w = false → ((w, v) ∈ (g i q).reports ↔ (w, v) ∈ q.reports))
    (hl : ∀ i q, F q = F p → q.line i = p.line i → tgt i ((g i q).line i))
    (hc : ∀ i q, F q = F p → q.line i = p.line i → ch i →
      (ReportWord.lcb i 32, ((g i q).line i).stateWord) ∈ (g i q).reports) :
    F (p.forLines g) = F p ∧ ∀ j,
      (p.hasLine j = true → tgt j ((p.forLines g).line j)) ∧
      (p.hasLine j = false → (p.forLines g).line j = p.line j) ∧
      (p.hasLine j = true → ch j → (ReportWord.lcb j 32, ((p.forLines g).line j).stateWord) ∈ (p.forLines g).reports) ∧
      (∀ w v, (∀ i, ReportWord.concerns i w = false) → ((w, v) ∈ (p.forLines g).reports ↔ (w, v) ∈ p.reports)) := by
  have key := forLines_induction p g
    (fun done q => F q = F p ∧ (∀ j, j ∉ done → q.line j = p.line j) ∧
      (∀ j ∈ done, (p.hasLine j = true → tgt j (q.line j)) ∧ (p.hasLine j = false → q.line j = p.line j) ∧
        (p.hasLine j = true → ch j → (ReportWord.lcb j 32, (q.line j).stateWord) ∈ q.reports)) ∧
      ∀ w v, (∀ i, ReportWord.concerns i w = false) → ((w, v) ∈ q.reports ↔ (w, v) ∈ p.reports))
    ⟨rfl, fun _ _ => rfl, fun j hj => by simp at hj, fun _ _ _ => Iff.rfl⟩ ?_
  · exact ⟨key.1, fun j => ⟨(key.2.2.1 j (by simp)).1, (key.2.2.1 j (by simp)).2.1, (key.2.2.1 j (by simp)).2.2, key.2.2.2⟩⟩
  · rintro done i q hi ⟨h1, h2, h3, h4⟩
    have hhas : q.hasLine i = p.hasLine i := hasLine_of_map _ _ (hmap q h1) i
    by_cases hx : q.hasLine i = true
    · rw [if_pos hx]
      refine ⟨hF i q h1, ?_, ?_, fun w v hw => (hr i q h1 w v (hw i)).trans (h4 w v hw)⟩
      · intro j hj
        have hne' : j ≠ i := fun e => hj (by simp [e])
        rw [hne i q h1 j hne']
        exact h2 j (fun hd => hj (List.mem_append_left _ hd))
      · intro j hj
        by_cases e : j = i
        · subst e
          exact ⟨fun _ => hl j q h1 (h2 j hi), fun hn => absurd (hhas.trans hn) (by simp [hx]),
            fun _ hch => hc j q h1 (h2 j hi) hch⟩
        · have hd : j ∈ done := by simpa [e] using hj
          obtain ⟨a, b, c⟩ := h3 j hd
          rw [hne i q h1 j e]
          exact ⟨a, b, fun x y => (hr i q h1 _ _ (by simp [ReportWord.concerns, e])).2 (c x y)⟩
    · have hx' : q.hasLine i = false := by simpa using hx
      rw [if_neg hx]
      refine ⟨h1, fun j hj => h2 j (fun hd => hj (List.mem_append_left _ hd)), ?_, h4⟩
      intro j hj
      by_cases e : j ∈ done
      · exact h3 j e
      · have e' : j = i := by simpa [e] using hj
        subst e'
        exact ⟨fun hn => absurd (hhas.trans hn) (by simp [hx']), fun _ => h2 j hi,
          fun hn => absurd (hhas.trans hn) (by simp [hx'])⟩

end Sys2Proof.Machine
end

