-- ==== Sys2Proof/Laws/Requests.lean ====
section
/-! SUPPORT. Mode requests and commands: what a host write to LCB words 0 and 1 does to the line, by the outcome that is decided. -/

namespace Sys2Proof.Machine

variable {s : State} {i : LineNo} {lanes : Lanes} {d : Word}

/-! ### A mode request -/

theorem lcbHost_eq {s : State} {i : LineNo} (h : Reaches s i) (w : Fin 22) (lanes d) (ok : Word → Bool) (hok : ok
    (s.part.merged i w lanes d) = true) :
    s.lcbHost i w lanes d ok = answers s (s.part.hostArrives (s.part.lcbWriteTo i w.val lanes d)) := by
  unfold State.lcbHost
  rw [if_pos (by simp [h.2.1, hok]), host_ready h.1]

theorem report_withModeStatus (l : Line) (m) (w : Nat) (h : w ≠ 33) : Line.report { l with modeStatus := m } w = l.report w := by
  simp only [Line.report]; repeat' split
  all_goals first | rfl | contradiction | simp_all

theorem report_withCommandStatus (l : Line) (m) (w : Nat) (h : w ≠ 34) :
    Line.report { l with commandStatus := m } w = l.report w := by
  simp only [Line.report]; repeat' split
  all_goals first | rfl | contradiction | simp_all

theorem report_shadow0 (l : Line) (v) (w : Nat) : Line.report { l with shadow := l.shadow.set 0 v } w = l.report w := by
  simp only [Line.report, Line.liveConditions, Line.ringDue, Line.setting]; simp [Vector.getElem_set]; rfl

theorem report_shadow1 (l : Line) (v) (w : Nat) : Line.report { l with shadow := l.shadow.set 1 v } w = l.report w := by
  simp only [Line.report, Line.liveConditions, Line.ringDue, Line.setting]; simp [Vector.getElem_set]; rfl

/-- A mode request taken: the line its decision leaves, with the mode status word set; word 33 and the words of the decision are
pending, and every report word that has changed. -/
theorem takeRequest_event {p p' q : Part} {i : LineNo} {v : Word} {o k} (ws : List Nat) (h :
    (p.setShadow i 0 v).decideRequest i v = (q, o, k))
    (hs : Noted i p' q) (hw : ∀ w ∈ ws, w = 33 ∨ (ReportWord.lcb i w, (q.line i).report w) ∈ q.reports) :
    NotedEvent p' (p.takeRequest i v) i { q.line i with modeStatus := ⟨loByte v, o, k⟩ } ws := by
  have e : p.takeRequest i v = (q.onLine i fun l => { l with modeStatus := ⟨loByte v, o, k⟩ }).queueLcb i 33 := by
    simp only [Part.takeRequest, h]
  rw [e]
  have n : Noted i q ((q.onLine i fun l => { l with modeStatus := ⟨loByte v, o, k⟩ }).queueLcb i 33) :=
    (Noting.queueLcb ((Noting.start i [] q).onLine _ [33] fun w hw _ => by
      apply reportValue_congr <;> intros <;> first | rfl | simp_all)).still (by rw [line_queueLcb, line_onLine]; rfl)
  refine ⟨⟨(hs.trans n).step, by simp, fun w hw' => ?_⟩, (hs.trans n).reported⟩
  by_cases e : w = 33
  · subst e
    have : ((q.onLine i fun l => { l with modeStatus := ⟨loByte v, o, k⟩ }).line i) = { q.line i with modeStatus := ⟨loByte v, o, k⟩ } := by simp
    rw [← this]; exact mem_queueUpdate_self _ _ _
  · rw [report_withModeStatus _ _ _ e]
    exact (mem_queueUpdate_lcb i i w 33 _ _ _ e).2 ((hw w hw').resolve_left e)

/-- A host write of word 0 that the line can be reached by takes the mode request. -/
theorem takes_request {s : State} {c : Instr} {i : LineNo} {lanes d} {p' q : Part} {v : Word} {o k}
    (ws : List Nat) {l : Line} (ok : Word → Bool)
    (hc : exec c s = s.lcbHost i 0 lanes d ok) (hr : Reaches s i) (hv : s.part.merged i 0 lanes d = v) (hok : ok v = true)
    (h : (s.part.setShadow i 0 v).decideRequest i v = (q, o, k)) (hs : Noted i p' q)
    (hw : ∀ w ∈ ws, w = 33 ∨ (ReportWord.lcb i w, (q.line i).report w) ∈ q.reports)
    (hl : { q.line i with modeStatus := ⟨loByte v, o, k⟩ } = l) : Takes c s i 0 lanes d p' l ws := by
  refine ⟨s.part.takeRequest i v, ?_, hl ▸ takeRequest_event ws h hs hw⟩
  rw [hc, lcbHost_eq hr 0 lanes d ok (by rw [hv]; exact hok)]
  have := arrives_lcb s.part i 0 (by omega) hr.2.1 hr.2.2 lanes d
  simp only [show ((0 : Fin 22).val) = 0 from rfl]
  rw [this]
  simp [Part.lcbWrite, hv]

theorem line_setShadow (p : Part) (w v) :
    (p.setShadow i w v).line i = { p.line i with shadow := (p.line i).shadow.set w v } :=
  by simp [Part.setShadow]

theorem lineStep_setShadow (p : Part) (w v) : LineStep i p (p.setShadow i w v) := lineStep_onLine p i _

theorem decideRequest_armed (p : Part) (h : p.state =
    .armed) (v : Word) (w : Fin 22) (x): ((p.setShadow i w x).decideRequest i v) =
   if v = 0 then (p.setShadow i w x).requestOff i
  else if v = 1 then (p.setShadow i w x).requestListen i
  else if v = 2 then (p.setShadow i w x).requestResume i
  else if v = 3 then (p.setShadow i w x).requestDrive i
  else ((p.setShadow i w x), .unknown, 0) := by
  have : (p.setShadow i w x).state = .armed := h
  simp [Part.decideRequest, this]

theorem state_setShadow (p : Part) (w v) : ((p.setShadow i w v).line i).state = (p.line i).state := by rw [line_setShadow]

theorem heldFor_of_reaches (hr : Reaches s i) : s.part.heldFor i = none := by simp [Part.heldFor, held_of_ready hr.1]

theorem heldCount_of_reaches (hr : Reaches s i) : s.part.heldCount i = 0 := by simp [Part.heldCount, heldFor_of_reaches hr]

theorem lineStep_enterRelease_none {p : Part} {q : Part} (h : LineStep i p q) (hh : p.heldFor i = none) (t c) :
    LineStep i p (q.enterRelease i t c) := by
  have h2 : q.heldFor i = none := by rw [heldFor_congr h.held]; exact hh
  have := lineStep_enterRelease q i t c
  rw [releaseHold_none h2] at this
  exact h.trans this

theorem released_withShadow (l : Line) (sh now t c k) (h : sh[20] = l.shadow[20]) :
    Line.released { l with shadow := sh } now t c k = { l.released now t c k with shadow := sh } := by
  have e : Line.setting { l with shadow := sh } 20 = l.setting 20 := congrArg BitVec.toNat h
  simp only [Line.released, e]
  rfl

theorem closeOpen_withShadow (l : Line) (sh) : Line.closeOpen { l with shadow := sh } = { l.closeOpen with shadow := sh } := by
  simp only [Line.closeOpen]
  have : Line.openBuffer { l with shadow := sh } = l.openBuffer := rfl
  rw [this]; split <;> rfl

theorem offer_withShadow (l : Line) (sh e) : Line.offer { l with shadow := sh } e = { l.offer e with shadow := sh } := by
  simp only [Line.offer, closeOpen_withShadow]
  split
  · rfl
  · simp only [show Line.pendingEvents { l.closeOpen with shadow := sh } = l.closeOpen.pendingEvents from rfl]
    split <;> rfl

theorem wentOff_withShadow (l : Line) (sh c t) :
    Line.wentOff { l with shadow := sh } c t = { l.wentOff c t with shadow := sh } := by
  simp only [Line.wentOff, closeOpen_withShadow, offer_withShadow]

/-- A delivered probe before its event: idle, the result word, an applied rate. -/
def Line.probeTaken (l : Line) (k : Probe) (r : ProbeResult) (n now : Nat) : Line :=
  let l := { l with probe := none, probeResult := r.toWord n }
  if k.apply = true ∧ r = .found then { l with effDivisor := rateDivisor n, effFraction := 0, generatorStart := now } else l

theorem probeTaken_withShadow (l : Line) (sh k r n now) :
    Line.probeTaken { l with shadow := sh } k r n now = { Line.probeTaken l k r n now with shadow := sh } := by
  simp only [Line.probeTaken]; split <;> rfl

/-- "PROBE_READY" latched. -/
def Line.probeFlagged (l : Line) : Line := { l with flags := l.flags ||| Flag.probeReady.mask }

theorem delivered_eq (l : Line) (k r n now t) :
    l.delivered k r n now t = Line.probeFlagged ((Line.probeTaken l k r n now).offer ⟨.probeDone, r.code, word n,
      reportedRun k.shortest, word k.edges, t⟩) :=
  rfl

theorem delivered_withShadow (l : Line) (sh k r n now t) :
    Line.delivered { l with shadow := sh } k r n now t = { l.delivered k r n now t with shadow := sh } := by
  rw [delivered_eq, delivered_eq, probeTaken_withShadow, offer_withShadow]
  rfl

theorem unprobed_withShadow (l : Line) (sh now t) :
    Line.unprobed { l with shadow := sh } now t = { l.unprobed now t with shadow := sh } := by
  simp only [Line.unprobed]; split
  · exact delivered_withShadow l sh _ _ _ _ _
  · rfl

theorem freshRing_withShadow (l : Line) (sh) : Line.freshRing { l with shadow := sh } = { l.freshRing with shadow := sh } := by
  simp only [Line.freshRing, Line.unparked]; split <;> rfl

theorem unwalked_withShadow (l : Line) (sh) : Line.unwalked { l with shadow := sh } = { l.unwalked with shadow := sh } := by
  simp only [Line.unwalked, freshRing_withShadow]; split <;> rfl

theorem line_abandonProbe_unprobed (p : Part) :
    (p.abandonProbe i).line i = (p.line i).unprobed p.now p.counter :=
  line_abandonProbe p i

theorem line_abandonStep (p : Part) (j) : (p.abandonStep i).line j = p.line j := by
  unfold Part.abandonStep
  split
  · split <;> rfl
  · rfl

theorem abandonStep_eq (p : Part) (h : (p.line i).walk.isSome = true) : p.abandonStep i = p.stepDropped i := by
  unfold Part.abandonStep Part.stepDropped
  cases hf : p.writer.flight with
  | none => simp only
  | some f =>
    obtain ⟨k, g⟩ := f
    cases g with
    | walkStep got a => cases a <;> simp [h]
    | reclaimRead _ _ _ => simp only
    | writing _ => simp only

theorem stepDropped_none (p : Part) (h : (p.line i).walk.isSome = false) : p.stepDropped i = p := by
  unfold Part.stepDropped; split <;> simp [h]

/-- Beside the step in flight, the abandonment of a step changes nothing of the part. -/
theorem stepDropped_eq (p : Part) : ∃ w, p.stepDropped i = { p with writer := w } := by
  unfold Part.stepDropped; split
  · split
    · exact ⟨_, rfl⟩
    · exact ⟨_, rfl⟩
  · exact ⟨_, rfl⟩

theorem freshRing_withWalk (l : Line) (x) : Line.freshRing { l with walk := x } = { l.freshRing with walk := x } := by
  simp only [Line.freshRing, Line.unparked]; split <;> rfl

theorem freshRing_flags (l : Line) : l.freshRing.flags = l.flags := by
  simp only [Line.freshRing, Line.unparked]; split <;> rfl

/-- What the abandonment of a walk leaves of the line. -/
theorem line_abandonWalk (p : Part) : (p.abandonWalk i).line i = (p.line i).unwalked := by
  unfold Part.abandonWalk Line.unwalked
  by_cases h : (p.line i).walk.isSome = true
  · rw [if_pos (show (p.line i).resuming = true from h), if_pos h, line_latch, line_makeFresh, line_onLine, line_abandonStep, freshRing_withWalk, freshRing_flags]; rfl
  · rw [if_neg (show ¬ (p.line i).resuming = true from h), if_neg h]

/-- The read of a walk depends on the map in force, the walk and the ring base alone. -/
theorem walkAddr_congr {p q : Part} (hm : q.map = p.map) (hw : (q.line i).walk = (p.line i).walk)
    (hb : (q.line i).ringBase = (p.line i).ringBase) (n) : q.walkAddr i n = p.walkAddr i n := by
  simp only [Part.walkAddr, Part.ringAddr, Part.reportAddr, hm, hw, hb]

theorem LineStep.stepDropped {p q : Part} (h : LineStep i p q) (hw : (q.line i).walk = (p.line i).walk)
    (hb : (q.line i).ringBase = (p.line i).ringBase) : LineStep i (p.stepDropped i) (q.stepDropped i) := by
  have hwr := h.writer
  unfold Part.stepDropped
  rw [hwr, hw]
  split
  · rename_i k got hf
    rw [walkAddr_congr h.map hw hb]
    split
    · refine ⟨?_, h.2.1, h.2.2⟩
      have := congrArg (fun o : Part =>
        { o with writer := { o.writer with flight := some ⟨k, .walkStep got (some (p.walkAddr i got.length))⟩ } }) h.1
      simpa [Part.outside, hwr] using this
    · exact h
  · exact h

/-- The step dropped depends on the map in force, the line and the writer alone. -/
theorem stepDropped_writer_congr {p q : Part} (hm : q.map = p.map) (hl : q.line i = p.line i) (hw : q.writer = p.writer) :
    (q.stepDropped i).writer = (p.stepDropped i).writer := by
  have e : ∀ n, q.walkAddr i n = p.walkAddr i n := walkAddr_congr hm (by rw [hl]) (by rw [hl])
  unfold Part.stepDropped
  rw [hw]
  split
  · rw [hl, e]
    split
    · rfl
    · exact hw
  · exact hw

@[simp] theorem stepDropped_map (p : Part) : (p.stepDropped i).map = p.map := by
  obtain ⟨w, h⟩ := stepDropped_eq (i := i) p; rw [h]

@[simp] theorem stepDropped_line (p : Part) (j) : (p.stepDropped i).line j = p.line j := by
  obtain ⟨w, h⟩ := stepDropped_eq (i := i) p; rw [h]; rfl

/-- The abandonment of a walk touches the line, its reports and the step in flight, nothing else. -/
theorem lineStep_abandonWalk (p : Part) : LineStep i (p.stepDropped i) (p.abandonWalk i) := by
  unfold Part.abandonWalk
  split
  · rename_i h
    rw [abandonStep_eq p h]
    exact (((lineStep_onLine _ i _).trans (lineStep_makeFresh _ i)).trans (lineStep_latch _ i _))
  · rename_i h
    rw [stepDropped_none p (by simpa [Line.resuming] using h)]
    exact .refl i _

theorem unprobed_walk (l : Line) (now t) : (l.unprobed now t).walk = l.walk := by
  unfold Line.unprobed; split
  · simp [Line.delivered]
  · rfl

theorem unprobed_shadow (l : Line) (now t) : (l.unprobed now t).shadow = l.shadow := by
  unfold Line.unprobed; split
  · simp [Line.delivered]
  · rfl

theorem unprobed_ringBase (l : Line) (now t) : (l.unprobed now t).ringBase = l.ringBase := by
  simp only [Line.ringBase, Line.setting, unprobed_shadow]

theorem lineStep_listenToOff (p : Part) (c) : LineStep i (p.stepDropped i) (p.listenToOff i c) := by
  refine (LineStep.stepDropped (lineStep_abandonProbe p i) ?_ ?_).trans
    ((lineStep_abandonWalk _).trans (lineStep_enterOff _ i c))
  · rw [line_abandonProbe_unprobed, unprobed_walk]
  · rw [line_abandonProbe_unprobed, unprobed_ringBase]

/-- The line after its way from "LISTEN" to "OFF". -/
theorem line_listenToOff (p : Part) (c) :
    (p.listenToOff i c).line i = (((p.line i).unprobed p.now p.counter).unwalked).wentOff c p.counter := by
  have h1 : ((p.abandonProbe i).abandonWalk i).counter = p.counter := by
    have := (lineStep_abandonWalk (i := i) (p.abandonProbe i)).counter
    rw [this]
    have h2 : ∀ q : Part, (q.stepDropped i).counter = q.counter := by
      intro q; obtain ⟨w, hw⟩ := stepDropped_eq (i := i) q; rw [hw]
    rw [h2]; exact (lineStep_abandonProbe p i).counter
  simp [Part.listenToOff, h1, line_abandonWalk, line_abandonProbe_unprobed]

/-- What is reported since `p` is reported when the step of a walk in flight is dropped as well. -/
theorem NotedBut.stepDropped {ws : List Nat} {p q : Part} (h : NotedBut i ws p q) (hw : (q.line i).walk = (p.line i).walk)
    (hb : (q.line i).ringBase = (p.line i).ringBase) : NotedBut i ws (p.stepDropped i) (q.stepDropped i) := by
  obtain ⟨x, hx⟩ := stepDropped_eq (i := i) p
  obtain ⟨y, hy⟩ := stepDropped_eq (i := i) q
  have hs := h.step.stepDropped hw hb
  rw [hx, hy] at hs ⊢
  exact ⟨hs, h.lcb, h.sums, h.keys⟩

/-- The abandonment of a walk reports all but word 32, which entry to "OFF" queues. -/
theorem but_abandonWalk (p : Part) : NotedBut i [32] (p.stepDropped i) (p.abandonWalk i) := by
  unfold Part.abandonWalk
  split
  · rename_i h
    rw [abandonStep_eq p h]
    have n : NotedBut i [32] (p.stepDropped i) ((p.stepDropped i).onLine i fun l => { l with walk := none }) := by
      refine but_onLine _ i _ rfl fun w hw => ?_
      apply reportValue_congr <;> intros <;> first | rfl | contradiction
    exact n.trans (.ofNoted _ ((noted_makeFresh _ i).trans (noted_latch _ i _)))
  · rename_i h
    rw [stepDropped_none p (by simpa [Line.resuming] using h)]
    exact .ofNoted _ (.refl i p)

theorem noted_listenToOff (p : Part) (c) : Noted i (p.stepDropped i) (p.listenToOff i c) := by
  have hp : NotedBut i [32] (p.stepDropped i) ((p.abandonProbe i).stepDropped i) := by
    refine (NotedBut.ofNoted _ (noted_abandonProbe p i)).stepDropped ?_ ?_
    · rw [line_abandonProbe_unprobed, unprobed_walk]
    · rw [line_abandonProbe_unprobed, unprobed_ringBase]
  exact (hp.trans ((but_abandonWalk _).trans (.ofNoted _ (noted_enterOff _ i c)))).pending (mem_queueUpdate_self _ _ _)

theorem mem_enterOff (p : Part) (c) :
    (ReportWord.lcb i 32, ((p.enterOff i c).line i).report 32) ∈ (p.enterOff i c).reports :=
  mem_queueUpdate_self _ _ _

/-! ### Entry to "LISTEN", validation -/

theorem report_ring_congr (l m : Line) (h : l.ring = m.ring) (w : Nat) (h1 : 37 ≤ w) (h2 : w ≤ 42) : l.report w = m.report w := by
  simp only [Line.report, h]
  have a1 : w ≠ 32 := by omega
  have a2 : w ≠ 33 := by omega
  have a3 : w ≠ 34 := by omega
  have a4 : w ≠ 35 := by omega
  have a5 : w ≠ 36 := by omega
  simp [a1, a2, a3, a4, a5, h2]

theorem reports_onLine (p : Part) (f) : (p.onLine i f).reports = p.reports := rfl

theorem reports_setRing (p : Part) (f) : (p.setRing i f).reports = p.reports := rfl

theorem reports_unpark (p : Part) : (p.unpark i).reports = p.reports := rfl

theorem stateWord_offer (l : Line) (e) : (l.offer e).stateWord = l.stateWord := by
  simp [Line.stateWord, Line.resuming, Line.probing]

/-- The line after entry to "LISTEN". -/
theorem line_startListening (p : Part) : (p.startListening i).line i = (p.line i).listening p.rxPin[i] p.svPin[i] p.now := by
  have e1 : ((p.setRate i ((p.line i).setting 4) ((p.line i).setting 5))).rxPin = p.rxPin := (lineStep_setRate p i _ _).rxPin
  have e2 : ((p.setRate i ((p.line i).setting 4) ((p.line i).setting 5))).svPin = p.svPin := (lineStep_setRate p i _ _).svPin
  have e3 : ((p.setRate i ((p.line i).setting 4) ((p.line i).setting 5))).now = p.now := (lineStep_setRate p i _ _).now
  simp only [Part.startListening]
  rw [show ∀ (q : Part) (w), (q.queueLcb i w).line i = q.line i from fun _ _ => rfl, line_setConditions, line_onLine, line_setRate, e1, e2, e3]
  simp only [Line.listening, Line.enterListen, Line.startReceiver, Line.startQuiet]
  cases p.rxPin[i] <;> rfl

theorem mem_startListening_state (p : Part) :
    (ReportWord.lcb i 32, ((p.startListening i).line i).report 32) ∈ (p.startListening i).reports :=
  mem_queueLcb_self _ _

theorem mem_startListening_rate (p : Part) (w) (hw : w = 43 ∨ w = 44) :
    (ReportWord.lcb i w, ((p.startListening i).line i).report w) ∈ (p.startListening i).reports := by
  rw [line_startListening]
  have h : (ReportWord.lcb i w, ((p.setRate i ((p.line i).setting 4) ((p.line i).setting 5)).line i).report w) ∈ (p.startListening i).reports := by
    refine (mem_queueLcb_ne _ _ _ _ (by omega)).2 ((mem_queueLcbIf_ne _ _ i i _ _ _ (by omega)).2 ?_)
    rw [reports_onLine, reports_onLine]
    have : ((p.setRate i ((p.line i).setting 4) ((p.line i).setting 5)).line i) = ((p.onLine i fun l => { l with effDivisor := (p.line i).setting 4, effFraction := (p.line i).setting 5, generatorStart := p.now }).line i) := line_queueLcbs _ _ _ _
    rw [this]
    exact mem_queueLcbs _ _ _ _ (by simpa using hw)
  rw [line_setRate] at h
  rcases hw with rfl | rfl <;> exact h

theorem mem_makeFresh_ring (p : Part) (w) (h : 36 ≤ w ∧ w ≤ 42) :
    (ReportWord.lcb i w, ((p.makeFresh i).line i).report w) ∈ (p.makeFresh i).reports := by
  have e : (p.makeFresh i).line i = ((p.setRing i Ring.fresh).unpark i).line i := by simp [Part.makeFresh]
  rw [e]
  refine (mem_noteLine_lcb _ _ _ _ _ _).2 (mem_queueLcbs _ _ _ _ ?_)
  have : w = 36 ∨ w = 37 ∨ w = 38 ∨ w = 39 ∨ w = 40 ∨ w = 41 ∨ w = 42 := by omega
  simpa using this

theorem listening_withShadow (l : Line) (sh rx sv now) (h4 : sh[4] = l.shadow[4]) (h5 : sh[5] =
    l.shadow[5]) (h11 : sh[11] = l.shadow[11]) (h3 : sh[3] = l.shadow[3]) (h18 : sh[18] = l.shadow[18]) :
   Line.listening { l with shadow := sh } rx sv now = { l.listening rx sv now with shadow := sh } := by
  have e4 : Line.setting { l with shadow := sh } 4 = l.setting 4 := congrArg BitVec.toNat h4
  have e5 : Line.setting { l with shadow := sh } 5 = l.setting 5 := congrArg BitVec.toNat h5
  have e11 : Line.setting { l with shadow := sh } 11 = l.setting 11 := congrArg BitVec.toNat h11
  have e18 : Line.setting { l with shadow := sh } 18 = l.setting 18 := congrArg BitVec.toNat h18
  have e3 : Line.frame { l with shadow := sh } = l.frame := congrArg FrameFormat.ofWord h3
  simp only [Line.listening, e4, e5, e11, e18, e3]

theorem isProtected_setShadow (p : Part) (w v) (j) : (p.setShadow i w v).isProtected j = p.isProtected j := by
  by_cases h : j = i
  · subst h; simp only [Part.isProtected, Part.hasWork, line_setShadow]; rfl
  · simp only [Part.isProtected, Part.hasWork, (lineStep_setShadow p w v).2.1 j h]; rfl

theorem setting_setShadow_zero (l : Line) (v) (k : Fin 22) (h : k ≠ 0) :
    Line.setting { l with shadow := l.shadow.set (0:Fin 22).val v } k = l.setting k :=
  setting_setShadow_ne l 0 k v (Ne.symm h)

theorem validate_setShadow (p : Part) (v) : (p.setShadow i 0 v).validate i = p.validate i := by
  have hl := line_setShadow (i := i) p 0 v
  have hs (k : Fin 22) (h : k ≠ 0) : ((p.setShadow i 0 v).line i).setting k = (p.line i).setting k := by rw [hl]; exact setting_setShadow_zero _ v k h
  have h3 : ((p.setShadow i 0 v).line i).shadow[3] = (p.line i).shadow[3] := by rw [hl]; simp
  have hb : ((p.setShadow i 0 v).line i).ringBase = (p.line i).ringBase := by simp only [Line.ringBase]; rw [hs 7 (by decide), hs 8 (by decide)]
  have hz : ((p.setShadow i 0 v).line i).ringSize = (p.line i).ringSize := by simp only [Line.ringSize]; rw [hs 9 (by decide)]
  have hplace : (p.setShadow i 0 v).ringInPlace i = p.ringInPlace i := by
    simp only [Part.ringInPlace, hb, hz, isProtected_setShadow]
    congr 1
    apply List.all_congr rfl
    intro j
    by_cases h : j = i
    · simp [h]
    · simp only [(lineStep_setShadow p 0 v).2.1 j h]
  simp only [Part.validate, Part.validationChecks, hplace, h3]
  simp only [hs 4 (by decide), hs 5 (by decide), hs 6 (by decide), hs 7 (by decide), hs 8 (by decide), hs 9 (by decide), hs 10 (by decide), hs 11 (by decide), hs 12 (by decide), hs 13 (by decide), hs 14 (by decide), hs 15 (by decide), hs 16 (by decide), hs 17 (by decide), hs 18 (by decide), hs 19 (by decide), hs 20 (by decide), hs 21 (by decide)]

/-- A mode request whose decision changes nothing but the mode status. -/
theorem takes_request_same {c : Instr} (ok : Word → Bool) {v : Word} {o k} (hc : exec c s =
    s.lcbHost i 0 lanes d ok) (hr : Reaches s i) (hv : s.part.merged i 0 lanes d = v) (hok : ok v = true)
    (h : (s.part.setShadow i 0 v).decideRequest i v =
      (s.part.setShadow i 0 v, o, k)) : Takes c s i 0 lanes d s.part ((s.part.line i).requested v o k) [33] :=
  takes_request [33] ok hc hr hv hok h (noted_setShadow _ _ _ _ (by decide) (by decide)) (by simp) (by rw [line_setShadow]; rfl)

theorem report_listening_offer (l : Line) (rx sv now e) :
    ∀ w, w = 43 ∨ w = 44 ∨ w = 32 → ((l.listening rx sv now).offer e).report w = (l.listening rx sv now).report w := by
  intro w h; rcases h with rfl | rfl | rfl <;> simp [Line.report, stateWord_offer]

theorem refuseHeld_none (p : Part) (h : p.heldFor i = none) : p.refuseHeld i = p := by
  rw [refuseHeld_eq, h]; exact releaseHold_none h

theorem freshRing_shadow (l : Line) : l.freshRing.shadow = l.shadow := by
  simp only [Line.freshRing, Line.unparked]; split <;> rfl

theorem lineStep_drain (p : Part) : LineStep i p (p.onLine i fun l => { l with state := .drain }) := lineStep_onLine _ _ _

theorem released_withState (l : Line) (x now t c k) : Line.released { l with state := x } now t c k = l.released now t c k := rfl

/-! ### A command -/

/-- A command taken: the line its decision leaves, with the command status word set; word 34 and the words of the decision are
pending, and every report word that has changed. -/
theorem takeCommand_event {p p' q : Part} {v : Word} {o} (ws : List Nat) (h : (p.setShadow i 1 v).decideCommand i v = (q, o))
    (hs : Noted i p' q) (hw : ∀ w ∈ ws, w = 34 ∨ (ReportWord.lcb i w, (q.line i).report w) ∈ q.reports) :
    NotedEvent p' (p.takeCommand i v) i { q.line i with commandStatus := ⟨loByte v, o⟩ } ws := by
  have e : p.takeCommand i v = (q.onLine i fun l => { l with commandStatus := ⟨loByte v, o⟩ }).queueLcb i 34 := by
    simp only [Part.takeCommand, h]
  rw [e]
  have n : Noted i q ((q.onLine i fun l => { l with commandStatus := ⟨loByte v, o⟩ }).queueLcb i 34) :=
    (Noting.queueLcb ((Noting.start i [] q).onLine _ [34] fun w hw _ => by
      apply reportValue_congr <;> intros <;> first | rfl | simp_all)).still (by rw [line_queueLcb, line_onLine]; rfl)
  refine ⟨⟨(hs.trans n).step, by simp, fun w hw' => ?_⟩, (hs.trans n).reported⟩
  by_cases e : w = 34
  · subst e
    have : ((q.onLine i fun l => { l with commandStatus := ⟨loByte v, o⟩ }).line i) = { q.line i with commandStatus := ⟨loByte v, o⟩ } := by simp
    rw [← this]; exact mem_queueUpdate_self _ _ _
  · rw [report_withCommandStatus _ _ _ e]
    exact (mem_queueUpdate_lcb i i w 34 _ _ _ e).2 ((hw w hw').resolve_left e)

/-- A host write of word 1 that the line can be reached by takes the command. -/
theorem takes_command {c : Instr} {p' q : Part} {v : Word} {o} (ws : List Nat) {l : Line} (ok : Word → Bool)
    (hc : exec c s = s.lcbHost i 1 lanes d ok) (hr : Reaches s i) (hv : s.part.merged i 1 lanes d = v) (hok : ok v = true)
    (h : (s.part.setShadow i 1 v).decideCommand i v = (q, o)) (hs : Noted i p' q)
    (hw : ∀ w ∈ ws, w = 34 ∨ (ReportWord.lcb i w, (q.line i).report w) ∈ q.reports)
    (hl : { q.line i with commandStatus := ⟨loByte v, o⟩ } = l) : Takes c s i 1 lanes d p' l ws := by
  refine ⟨s.part.takeCommand i v, ?_, hl ▸ takeCommand_event ws h hs hw⟩
  rw [hc, lcbHost_eq hr 1 lanes d ok (by rw [hv]; exact hok)]
  have := arrives_lcb s.part i 1 (by omega) hr.2.1 hr.2.2 lanes d
  simp only [show ((1 : Fin 22).val) = 1 from rfl]
  rw [this]
  simp [Part.lcbWrite, hv]

/-- A command whose decision changes nothing but the command status. -/
theorem takes_command_same {c : Instr} (ok : Word → Bool) {v : Word} {o} (hc : exec c s =
    s.lcbHost i 1 lanes d ok) (hr : Reaches s i) (hv : s.part.merged i 1 lanes d = v) (hok : ok v = true)
    (h : (s.part.setShadow i 1 v).decideCommand i v =
      (s.part.setShadow i 1 v, o)) : Takes c s i 1 lanes d s.part ((s.part.line i).commanded v o) [34] :=
  takes_command [34] ok hc hr hv hok h (noted_setShadow _ _ _ _ (by decide) (by decide)) (by simp) (by rw [line_setShadow]; rfl)

theorem decideCommand_armed (p : Part) (h : p.state = .armed) (v : Word) : ((p.setShadow i 1 v).decideCommand i v) =
  if v = 1 then (p.setShadow i 1 v).commandClose i
  else if v = 2 then (p.setShadow i 1 v).commandFlush i
  else if v = 3 then (p.setShadow i 1 v).commandProbe i false
  else if v = 4 then (p.setShadow i 1 v).commandProbe i true
  else if v = 5 then (p.setShadow i 1 v).commandDiscard i
  else if v = 6 then (p.setShadow i 1 v).commandResetCounts i
  else (p.setShadow i 1 v, .unknown) := by
  have : (p.setShadow i 1 v).state = .armed := h
  simp [Part.decideCommand, this]

theorem overtake_readOvertaken (p : Part) : p.overtake i = p.readOvertaken i := by
  obtain ⟨f, hf⟩ : ∃ f, p.writer.flight = f := ⟨_, rfl⟩
  have hw : p.writer = ⟨f, p.writer.pointer⟩ := by rw [← hf]
  unfold Part.overtake Part.readOvertaken
  simp only [hf]
  match f, hw with
  | none, _ => rfl
  | some ⟨k, .walkStep _ _⟩, _ => rfl
  | some ⟨k, .writing _⟩, _ => rfl
  | some ⟨k, .reclaimRead job n o⟩, hw =>
    by_cases hk : k = i
    · subst hk; simp
    · have e : (o || k == i) = o := by simp [hk]
      simp only [if_neg hk, e]
      exact congrArg (fun w => ({ p with writer := w } : Part)) hw

theorem LineStep.readOvertaken {p q : Part} (h : LineStep i p q) : LineStep i (p.readOvertaken i) (q.readOvertaken i) := by
  have hwr := h.writer
  unfold Part.readOvertaken
  rw [hwr]
  split
  · rename_i k job n o hf
    refine ⟨?_, h.2.1, h.2.2⟩
    have := congrArg (fun x : Part => { x with writer := { x.writer with flight := some ⟨k, .reclaimRead job n (o || k == i)⟩ } }) h.1
    simpa [Part.outside, hwr] using this
  · exact h

theorem line_readOvertaken (p : Part) (j) : (p.readOvertaken i).line j = p.line j := by
  unfold Part.readOvertaken; split <;> rfl

theorem unparked_withShadow (l : Line) (sh) : Line.unparked { l with shadow := sh } = { l.unparked with shadow := sh } := by
  simp only [Line.unparked]; split <;> rfl

theorem unparked_shadow (l : Line) : l.unparked.shadow = l.shadow := by
  simp only [Line.unparked]; split <;> rfl

theorem dropQueue_withShadow (l : Line) (sh k) :
    Line.dropQueue { l with shadow := sh } k = { l.dropQueue k with shadow := sh } :=
  rfl

theorem dropQueue_state (l : Line) (k) : (l.dropQueue k).state = l.state := rfl

end Sys2Proof.Machine
end

