-- ==== Sys2Proof/Laws/Rings.lean ====
section
/-! SUPPORT. The ring of a line: retire, reclaim, commit, discard, the end of a walk, each as one event of the line. -/

namespace Sys2Proof.Machine

variable {s : State} {i : LineNo} {lanes : Lanes} {d : Word}

/-! ### Report words -/

theorem liveConditions_congr (l m : Line) (h1 : l.openCondition = m.openCondition) (h2 : l.stuckCondition =
    m.stuckCondition) (h3 : l.ring = m.ring) (h4 : l.breakCredit = m.breakCredit) (h5 : l.setting 15 = m.setting 15) :
   l.liveConditions = m.liveConditions := by
  simp only [Line.liveConditions, Line.ringDue, h1, h2, h3, h4, h5]

theorem mem_setRate (p : Part) (a b w) (hw : w = 43 ∨ w = 44) :
    (ReportWord.lcb i w, ((p.setRate i a b).line i).report w) ∈ (p.setRate i a b).reports := by
  have e : ((p.setRate i a b).line i) = (p.onLine i fun l => { l with effDivisor := a, effFraction := b, generatorStart := p.now }).line i := by
    simp only [Part.setRate, line_queueLcbs]
  rw [e]; exact mem_queueLcbs _ _ _ _ (by simpa using hw)

theorem mem_noteDue (p before : Part) (h : (p.line i).ringDue ≠ (before.line i).ringDue) :
    (ReportWord.lcb i 36, ((p.noteDue i before).line i).report 36) ∈ (p.noteDue i before).reports := by
  rw [line_noteDue]
  have hb : ((p.line i).ringDue != (before.line i).ringDue) = true := by simpa using h
  simp only [Part.noteDue, hb, Part.queueLcbIf, if_true]
  exact (mem_noteLine_lcb _ _ _ _ _ _).2 (mem_queueLcb_self _ _)

theorem mem_count (p : Part) (c : Counter) (n : Nat) (hn : n ≠ 0) (h : (p.line i).counter c ≠ 65535) (hc : c =
    .entriesRefused ∨ c = .entriesLost) :
    (ReportWord.lcb i (46 + c.index.val), ((p.count i c n).line i).report (46 + c.index.val)) ∈ (p.count i c n).reports := by
  have hne : satAdd ((p.line i).counter c) n ≠ (p.line i).counter c := by
    have hlt := ((p.line i).counter c).isLt
    unfold satAdd
    split
    · exact fun e => h e.symm
    · intro e
      have := congrArg BitVec.toNat e
      simp only [BitVec.toNat_add, BitVec.toNat_ofNat] at this
      omega
  unfold Part.count
  dsimp only
  rw [if_neg hne]
  exact mem_queueLcb_self _ _

theorem report_withTallies (l : Line) (t) (w) : Line.report { l with tallies := t } w = l.report w := rfl

/-- One entry refused: counter and tally; word 51 is pending unless the counter is saturated. -/
theorem refuseEntry_event (p : Part) :
    LineEvent p (p.refuseEntry i) i ((p.line i).tallied 0 1) (if (p.line i).counter .entriesRefused =
      65535 then [] else [51]) := by
  refine ⟨lineStep_refuseEntry _ _, ?_, ?_⟩
  · rw [line_refuseEntry]
    simp only [Line.tallied]
    rw [satAdd_zero, satAdd_zero, setCounter_self]
  · intro w hw
    split at hw
    · simp at hw
    · rename_i h
      have : w = 51 := by simpa using hw
      subst this
      have e : (p.line i).tallied 0 1 = (p.refuseEntry i).line i := by
        rw [line_refuseEntry]
        simp only [Line.tallied]
        rw [satAdd_zero, satAdd_zero, setCounter_self]
      rw [e]
      have := mem_count (i := i) p .entriesRefused 1 (by decide) h (.inl rfl)
      unfold Part.refuseEntry
      rw [line_onLine, report_withTallies]
      exact this

/-- One entry lost: counter and tally; word 50 is pending unless the counter is saturated. -/
theorem loseEntries_event (p : Part) :
    LineEvent p (p.loseEntries i 1) i ((p.line i).tallied 1 0) (if (p.line i).counter .entriesLost =
      65535 then [] else [50]) := by
  have e : (p.line i).tallied 1 0 = (p.loseEntries i 1).line i := by
    rw [line_loseEntries]
    simp only [Line.tallied, satAdd_zero]
    rw [show ∀ l : Line, ∀ x, (l.setCounter .entriesLost x).setCounter .entriesRefused (l.counter .entriesRefused) = l.setCounter .entriesLost x from ?_]
    intro l x
    simp only [Line.setCounter, Line.counter, Counter.index]
    have := set_refused_self l.counters x
    simpa using this
  refine ⟨lineStep_loseEntries _ _ _, e.symm, ?_⟩
  intro w hw
  split at hw
  · simp at hw
  · rename_i h
    have : w = 50 := by simpa using hw
    subst this
    rw [e]
    have := mem_count (i := i) p .entriesLost 1 (by decide) h (.inr rfl)
    unfold Part.loseEntries
    rw [line_onLine, report_withTallies]
    exact this

theorem mem_count_self (p : Part) (c : Counter) (h : (p.line i).counter c ≠ 65535) :
    (ReportWord.lcb i (46 + c.index.val), ((p.count i c 1).line i).report (46 + c.index.val)) ∈ (p.count i c 1).reports := by
  have hne : satAdd ((p.line i).counter c) 1 ≠ (p.line i).counter c := by
    have hlt := ((p.line i).counter c).isLt
    unfold satAdd
    split
    · exact fun e => h e.symm
    · intro e
      have := congrArg BitVec.toNat e
      simp only [BitVec.toNat_add, BitVec.toNat_ofNat] at this
      omega
  unfold Part.count
  dsimp only
  rw [if_neg hne]
  exact mem_queueLcb_self _ _

theorem or_ne_self (f m : Word) (n : Nat) (hn : n < 16) (hm : m.getLsbD n = true) (h : f.getLsbD n = false) : f ||| m ≠ f := by
  intro e
  have := congrArg (·.getLsbD n) e
  simp [hm, h] at this

theorem mem_latch_self (p : Part) (f : Flag) (h : (p.line i).flags.getLsbD f.position = false) :
    (ReportWord.lcb i 35, ((p.latch i f).line i).report 35) ∈ (p.latch i f).reports := by
  have hne : (p.line i).flags ||| f.mask ≠ (p.line i).flags := by
    refine or_ne_self _ _ f.position (by cases f <;> decide) (by cases f <;> decide) h
  simp only [Part.latch, Part.changeFlags, if_neg hne, line_noteLine]
  exact (mem_noteLine_lcb _ _ _ _ _ _).2 (mem_queueLcb_self _ _)

theorem and_not_ne_self (f m : Word) (n : Nat) (hn : n < 16) (hm : m.getLsbD n = true) (h : f.getLsbD n = true) :
    f &&& ~~~m ≠ f := by
  intro e
  have := congrArg (fun x : Word => x.getLsbD n) e
  rw [BitVec.getLsbD_and, BitVec.getLsbD_not, hm, h] at this; simp at this

theorem mem_unlatch_self (p : Part) (f : Flag) (h : (p.line i).flags.getLsbD f.position = true) :
    (ReportWord.lcb i 35, ((p.unlatch i f).line i).report 35) ∈ (p.unlatch i f).reports := by
  have hne : (p.line i).flags &&& ~~~f.mask ≠ (p.line i).flags := by
    refine and_not_ne_self _ _ f.position (by cases f <;> decide) (by cases f <;> decide) h
  simp only [Part.unlatch, Part.changeFlags, if_neg hne, line_noteLine]
  exact (mem_noteLine_lcb _ _ _ _ _ _).2 (mem_queueLcb_self _ _)

theorem mem_latch_ne (p : Part) (f : Flag) (w v) (h : w ≠ 35) :
    (ReportWord.lcb i w, v) ∈ (p.latch i f).reports ↔ (ReportWord.lcb i w, v) ∈ p.reports := mem_changeFlags_ne _ _ _ _ _ _ h

theorem mem_noteDue_ne (p b : Part) (w v) (h : w ≠ 36) :
    (ReportWord.lcb i w, v) ∈ (p.noteDue i b).reports ↔ (ReportWord.lcb i w, v) ∈ p.reports := by
  unfold Part.noteDue
  rw [mem_noteLine_lcb, mem_queueLcbIf_ne _ _ _ _ _ _ _ h]

theorem completeHost_read (s : State) (a : Addr) (h : s.part.port.serving = some (.host ⟨a, .read⟩)) :
    s.completeHost none = { s with part := (Part.snoop (s.part.hostRead (s.mem.readWord a)) a (s.mem.readWord a)).arbitrate } := by
  simp only [State.completeHost, Part.servedHost, h, Memory.access, Part.hostCompletes, Part.hostFollows, Part.hostRead]

theorem hostRead_decode (p : Part) (d) (a : Addr) : (p.hostRead d).decode a = p.decode a := rfl

theorem hostRead_liveRing (p : Part) (d) (j) : (p.hostRead d).liveRing j = p.liveRing j := rfl

theorem hostRead_line (p : Part) (d) (j) : (p.hostRead d).line j = p.line j := rfl

/-! ### Size read and retire -/

theorem ring_of_liveRing {p : Part} {r : Ring} (h : p.liveRing i = some r) : (p.line i).ring = .present r := by
  unfold Part.liveRing at h
  split at h
  · rename_i r' hr; split at h
    · simp at h; rw [hr, h]
    · simp at h
  · simp at h

theorem sizeValid_iff (r : Ring) (size n : Nat) : r.sizeValid size n = true ↔ r.admitsSize size n := by
  obtain ⟨a, b, c, e, f, ps, g, h, j, k⟩ := r
  cases ps <;> simp [Ring.sizeValid, Ring.admitsSize, Ring.runEnd, and_assoc]

theorem readOvertaken_setLine (p : Part) (x : Line) :
    (p.setLine i x).readOvertaken i = { p.readOvertaken i with lines := p.lines.set i x } := by
  unfold Part.readOvertaken
  simp only [show (p.setLine i x).writer = p.writer from rfl]
  obtain ⟨⟨f, pt⟩⟩ : ∃ w, w = p.writer := ⟨_, rfl⟩
  rcases p with ⟨⟩
  dsimp only
  split <;> rfl

theorem ring_remove_eq (r : Ring) (size n now time : Nat) : r.remove size n now time = r.withoutOldest size n now time := by
  obtain ⟨a, b, c, e, f, ps, g, h, j, k⟩ := r
  simp only [Ring.remove, Ring.withoutOldest, Ring.skipPad, Ring.readTo, wrapOffset, coalesceStarted, Coalesce.start, csPeriods, Config.periodsPerCentisecond, Nat.mul_comm]
  cases ps <;> dsimp only
  split <;> split <;> rfl

theorem unparked_frame (l : Line) :
    l.unparked.shadow = l.shadow ∧ l.unparked.ring = l.ring ∧ l.unparked.openCondition = l.openCondition ∧
      l.unparked.stuckCondition = l.stuckCondition ∧ l.unparked.breakCredit = l.breakCredit ∧ l.unparked.flags = l.flags ∧
        l.unparked.counters = l.counters ∧ l.unparked.walk = l.walk := by
  unfold Line.unparked; split <;> exact ⟨rfl, rfl, rfl, rfl, rfl, rfl, rfl, rfl⟩

theorem ringDue_present (l : Line) (r : Ring) (h : l.ring = .present r) : l.ringDue = r.due (l.setting 15) := by
  simp [Line.ringDue, h]

/-- A record retired by the host: the ring without its oldest record, and the words that report it. -/
theorem retire_event (p : Part) (r r' : Ring) (n : Nat) (hring : (p.line i).ring = .present r) (h' : r' =
    r.withoutOldest (p.line i).ringSize n p.now ((p.line i).setting 16)) :
    LineEvent (p.readOvertaken i) (p.retire i r n) i { p.line i with ring := .present r' }.unparked ([38, 39, 42] ++
      (if r'.padStart ≠ r.padStart then [41] else []) ++
            (if r'.due ((p.line i).setting 15) ≠ r.due ((p.line i).setting 15) then [36] else [])) := by
  simp only [Part.retire, ring_remove_eq, ← h', overtake_readOvertaken]
  let q1 := ((p.setRing i r').unpark i).readOvertaken i
  let q2 := q1.queueLcbs i [38, 39, 42]
  let q3 := q2.queueLcbIf (r'.padStart != r.padStart) i 41
  have l1 : q1.line i = { p.line i with ring := .present r' }.unparked := by
    show (Part.readOvertaken _ i).line i = _
    rw [line_readOvertaken, line_unpark, line_setRing]
  have l2 : q2.line i = q1.line i := line_queueLcbs _ _ _ _
  have l3 : q3.line i = q1.line i := by show (Part.queueLcbIf _ _ _ _).line i = _; rw [line_queueLcbIf, l2]
  show LineEvent _ (q3.noteDue i p) _ _ _
  refine ⟨?_, ?_, ?_⟩
  · have s1 : LineStep i (p.readOvertaken i) q2 := (LineStep.readOvertaken ((lineStep_setRing p i r').trans (lineStep_unpark _ _))).trans (lineStep_queueLcbs _ _ _)
    exact (s1.trans (lineStep_queueLcbIf _ _ _ _)).trans (lineStep_noteDue _ _ _)
  · rw [line_noteDue, l3, l1]
  · intro w hw
    simp only [List.mem_append] at hw
    rw [← l1, ← l3]
    rcases hw with (hw | hw) | hw
    · have h36 : w ≠ 36 := by simp at hw; omega
      have h41 : w ≠ 41 := by simp at hw; omega
      rw [mem_noteDue_ne _ _ _ _ h36, mem_queueLcbIf_ne _ _ _ _ _ _ _ h41, l3]
      exact mem_queueLcbs _ _ _ _ hw
    · split at hw
      · rename_i hb
        simp at hw; subst hw
        rw [mem_noteDue_ne _ _ _ _ (by decide)]
        have : (r'.padStart != r.padStart) = true := by simpa using hb
        rw [l3, ← l2]
        simp only [q3, this, Part.queueLcbIf, if_true]
        exact mem_queueLcb_self _ _
      · simp at hw
    · split at hw
      · rename_i hb
        simp at hw; subst hw
        have := mem_noteDue (i := i) q3 p (by
          rw [ringDue_present _ _ hring, l3, l1, ringDue_present _ r' (unparked_frame _).2.1]
          have : ({ p.line i with ring := .present r' } : Line).unparked.setting 15 = (p.line i).setting 15 := by
            simp [Line.setting, (unparked_frame _).1]
          rw [this]; exact hb)
        rwa [line_noteDue] at this
      · simp at hw

theorem ringDue_congr (l m : Line) (h : l.ring = m.ring) (h2 : l.shadow = m.shadow) : l.ringDue = m.ringDue := by
  simp [Line.ringDue, Line.setting, h, h2]

/-- What is reported since `p` is reported when a reclaim read in flight is overtaken as well. -/
theorem Noting.readOvertaken {ws : List Nat} {p q : Part} (h : Noting i ws p q) :
    Noting i ws (p.readOvertaken i) (q.readOvertaken i) := by
  have hr : ∀ x : Part, (x.readOvertaken i).reports = x.reports := fun x => by unfold Part.readOvertaken; split <;> rfl
  refine ⟨h.step.readOvertaken, ?_, ?_, ?_⟩
  · simpa only [line_readOvertaken, hr] using h.lcb
  · simpa only [hr] using h.base
  · have k := h.keys
    unfold Keyed at k ⊢
    simpa only [hr] using k

/-- A summary noted against `p` is noted against what differs from it in the writer alone. -/
theorem noteLine_readOvertaken (p q : Part) : q.noteLine i (p.readOvertaken i) = q.noteLine i p := by
  unfold Part.readOvertaken
  split <;> rfl

theorem noteDue_readOvertaken (p q : Part) : q.noteDue i (p.readOvertaken i) = q.noteDue i p := by
  unfold Part.readOvertaken
  split <;> rfl

theorem noted_retire (p : Part) (r : Ring) (n : Nat) (h : (p.line i).ring = .present r) :
    Noted i (p.readOvertaken i) (p.retire i r n) := by
  unfold Part.retire
  extract_lets l r' q
  rw [← noteDue_readOvertaken]
  have hl : l.ring = .present r := h
  have n0 : Noting i [41, 36] (p.readOvertaken i) q := by
    have n : Noting i [38, 39, 42, 41, 36] p ((p.setRing i r').unpark i) := by
      have n := (Noting.start i [] p).setRing r r' h [38, 39, 42, 41, 36] (fun n => absurd (by simp) n) fun w hw h1 h2 => by
        have : w = 37 ∨ w = 40 := by simp at hw; omega
        rcases this with rfl | rfl <;> simp [Ring.report, r', Ring.remove_kept]
      exact n.onLine Line.unparked [] fun w _ _ => (unparked_hidden _).2 w
    have e : q = (((p.setRing i r').unpark i).readOvertaken i).queueLcbs i [38, 39, 42] := by
      simp only [q, overtake_readOvertaken]
    rw [e]
    exact Noting.queueLcbs (ks := [38, 39, 42]) n.readOvertaken
  have rr : ∀ x : Part, (x.readOvertaken i).reports = x.reports := fun x => by unfold Part.readOvertaken; split <;> rfl
  have el : q.line i = { l with ring := .present r' }.unparked := by
    simp only [q, overtake_readOvertaken]
    rw [line_queueLcbs, line_readOvertaken, line_unpark, line_setRing]
  have er : ∀ w u, w ∉ [38, 39, 42] → ((ReportWord.lcb i w, u) ∈ q.reports ↔ (ReportWord.lcb i w, u) ∈ (p.readOvertaken i).reports) := by
    intro w u hw
    simp only [q, overtake_readOvertaken]
    rw [mem_queueLcbs_ne _ _ _ _ _ hw, rr, rr]
    rfl
  have n1 : Noting i [36] (p.readOvertaken i) (q.queueLcbIf (r'.padStart != r.padStart) i 41) := by
    refine n0.queueLcbIf fun hp => ⟨?_, fun u => er 41 u (by decide)⟩
    have hp : r'.padStart = r.padStart := by simpa using hp
    rw [el, (unparked_hidden _).2, line_readOvertaken]
    exact report_withRing l r r' h 41 (by simp) fun _ _ => by simp [Ring.report, hp]
  refine Noting.noteDue n1 (fun e => ?_) fun u => ?_
  · rw [line_queueLcbIf, el, line_readOvertaken] at e ⊢
    have u := unparked_frame { l with ring := .present r' }
    have ed : Line.ringDue { l with ring := .present r' } = l.ringDue := by
      rw [← e]; exact ringDue_congr _ _ u.2.1.symm u.1.symm
    rw [← liveConditions_of_ring ed]
    exact liveConditions_congr _ _ u.2.2.1 u.2.2.2.1 u.2.1 u.2.2.2.2.1 (by simp only [Line.setting, u.1])
  · rw [mem_queueLcbIf_ne _ _ _ _ _ _ _ (by decide)]
    exact er 36 u (by decide)

/-- FLUSH reports what it changes. -/
theorem noted_flushRing (p : Part) (r : Ring) (h : (p.line i).ring = .present r) :
    Noted i (p.readOvertaken i) (p.flushRing i) := by
  unfold Part.flushRing Line.ring?
  rw [h]
  dsimp only
  rw [← noteLine_readOvertaken, overtake_readOvertaken]
  have n := (Noting.start i [] p).setRing r r.flush h [36, 38, 39, 41, 42] (fun n => absurd (by simp) n) fun w hw h1 h2 => by
    have : w = 37 ∨ w = 40 := by simp at hw; omega
    rcases this with rfl | rfl <;> rfl
  have n := n.onLine Line.unparked [] fun w _ _ => (unparked_hidden _).2 w
  exact Noting.noteLine (Noting.queueLcbs n.readOvertaken)

/-! ### Reclaim -/

theorem report_withFlags (l : Line) (f) (w) (h : w ≠ 35) : Line.report { l with flags := f } w = l.report w := by
  simp only [Line.report, if_neg h]; rfl

theorem report_offer (l : Line) (e) (w) : (l.offer e).report w = l.report w := by
  have h1 : (l.offer e).liveConditions = l.liveConditions := liveConditions_congr _ _ (by simp) (by simp) (by simp) (by simp) (by simp [Line.setting])
  have h2 : (l.offer e).stateWord = l.stateWord := stateWord_offer _ _
  have h3 : (l.offer e).probeResult = l.probeResult ∧ (l.offer e).effDivisor = l.effDivisor ∧ (l.offer e).effFraction = l.effFraction ∧ (l.offer e).fenceTag = l.fenceTag := by
    unfold Line.offer Line.closeOpen
    split
    · simp
    · split <;> dsimp only <;> split <;> simp
  simp only [Line.report, h1, h2, h3.1, h3.2.1, h3.2.2.1, h3.2.2.2, offer_ring, offer_modeStatus, offer_commandStatus, offer_flags, offer_counters]

/-- A record reclaimed: as a retire, counted, and with the lease broken where it was open. -/
theorem reclaim_event (p : Part) (r r' : Ring) (n : Nat) (hring : (p.line i).ring = .present r) (h' : r' =
    r.withoutOldest (p.line i).ringSize n p.now ((p.line i).setting 16)) :
    let l := p.line i
    let ws := [38, 39, 42] ++ (if l.counter .recordsReclaimed = 65535 then [] else [48]) ++
        (if r'.padStart ≠ r.padStart then [41] else []) ++
        (if r'.due (l.setting 15) ≠ r.due (l.setting 15) then [36] else [])
    let l' := Line.setCounter { l with ring := .present r' } .recordsReclaimed (satAdd (l.counter .recordsReclaimed) 1)
    (r.lease = .closed → LineEvent p (p.reclaim i r n) i l' ws) ∧
      (r.lease ≠ .closed →
        LineEvent p (p.reclaim i r n) i
          (Line.offer { l' with flags := l.flags ||| 64 } ⟨.leaseBroken, r.nextSeq - word r.count, 0, 0, 0, p.counter⟩)
          (ws ++ (if l.flags.getLsbD 6 then [] else [35]))) := by
  intro l ws l'
  let q1 := ((p.setRing i r').queueLcbs i [38, 39, 42])
  let q2 := q1.count i .recordsReclaimed 1
  let q3 := q2.queueLcbIf (r'.padStart != r.padStart) i 41
  let q4 := q3.noteDue i p
  have e : p.reclaim i r n = if r.lease.isOpen then (q4.latch i .leaseBroken).offer i .leaseBroken (r.nextSeq - word r.count) 0 0 0 else q4 := by
    simp only [Part.reclaim, ring_remove_eq, ← h']; rfl
  have l1 : q1.line i = { l with ring := .present r' } := by
    show (Part.queueLcbs _ i _).line i = _
    rw [line_queueLcbs, line_setRing]
  have l2 : q2.line i = l' := by
    show (Part.count _ i _ _).line i = _
    rw [line_count, l1]; rfl
  have l3 : q3.line i = l' := by show (Part.queueLcbIf _ _ _ _).line i = _; rw [line_queueLcbIf, l2]
  have l4 : q4.line i = l' := by show (Part.noteDue _ _ _).line i = _; rw [line_noteDue, l3]
  have s4 : LineStep i p q4 :=
    ((((lineStep_setRing _ _ _).trans (lineStep_queueLcbs _ _ _)).trans (lineStep_count _ _ _ _)).trans (lineStep_queueLcbIf _ _ _ _)).trans (lineStep_noteDue _ _ _)
  have m4 : ∀ w ∈ ws, (ReportWord.lcb i w, l'.report w) ∈ q4.reports := by
    intro w hw
    simp only [ws, List.mem_append] at hw
    rcases hw with ((hw | hw) | hw) | hw
    · have h36 : w ≠ 36 := by simp at hw; omega
      have h41 : w ≠ 41 := by simp at hw; omega
      have h48 : w ≠ 46 + Counter.recordsReclaimed.index.val := by simp at hw; simp [Counter.index]; omega
      rw [mem_noteDue_ne _ _ _ _ h36, mem_queueLcbIf_ne _ _ _ _ _ _ _ h41]
      refine (mem_count_ne _ _ _ _ _ h48).2 ?_
      have := mem_queueLcbs (p.setRing i r') i [38, 39, 42] w hw
      rw [line_setRing] at this
      have er : l'.report w = Line.report { p.line i with ring := .present r' } w := by
        simp at hw; rcases hw with rfl | rfl | rfl <;> rfl
      rw [er]; exact this
    · split at hw
      · simp at hw
      · rename_i hb
        simp at hw; subst hw
        rw [mem_noteDue_ne _ _ _ _ (by decide), mem_queueLcbIf_ne _ _ _ _ _ _ _ (by decide), ← l2]
        exact mem_count_self (i := i) q1 .recordsReclaimed (by rw [l1]; exact hb)
    · split at hw
      · rename_i hb
        simp at hw; subst hw
        rw [mem_noteDue_ne _ _ _ _ (by decide)]
        have : (r'.padStart != r.padStart) = true := by simpa using hb
        rw [← l2]
        simp only [q3, this, Part.queueLcbIf, if_true]
        exact mem_queueLcb_self _ _
      · simp at hw
    · split at hw
      · rename_i hb
        simp at hw; subst hw
        have := mem_noteDue (i := i) q3 p (by
          rw [ringDue_present _ _ hring, l3, ringDue_present _ r' rfl]
          exact hb)
        rwa [line_noteDue, l3] at this
      · simp at hw
  constructor
  · intro hc
    rw [e, hc, if_neg (by simp [Lease.isOpen])]
    exact ⟨s4, l4, m4⟩
  · intro hc
    rw [e, if_pos (by cases hh : r.lease <;> simp_all [Lease.isOpen])]
    refine ⟨(s4.trans (lineStep_latch _ _ _)).trans (lineStep_offer _ _ _ _ _ _ _), ?_, ?_⟩
    · rw [line_offer, line_latch, l4, s4.trans (lineStep_latch q4 i .leaseBroken) |>.counter]
      rfl
    · intro w hw
      rw [reports_offer, report_offer]
      rcases List.mem_append.1 hw with hw | hw
      · have h35 : w ≠ 35 := by
          intro h; subst h
          simp only [ws, List.mem_append] at hw
          rcases hw with ((hw | hw) | hw) | hw
          · simp at hw
          all_goals (split at hw <;> simp at hw)
        rw [mem_latch_ne _ _ _ _ h35, report_withFlags _ _ _ h35]
        exact m4 w hw
      · split at hw
        · simp at hw
        · rename_i hb
          simp at hw; subst hw
          have := mem_latch_self (i := i) q4 .leaseBroken (by rw [l4]; show l.flags.getLsbD 6 = false; simpa using hb)
          rw [line_latch, l4] at this
          exact this

/-- A ring found corrupt: fresh, "RING_RESET" latched, a "MODE" event offered. -/
theorem corruptRing_event (p : Part) (n : Nat) :
    LineEvent p (p.corruptRing i n) i
        (Line.offer { (p.line i).freshRing with flags := (p.line i).flags ||| 128 }
          ⟨.mode, (p.line i).state.code, 8, if n % 2 = 1 ∨ n < 10 ∨ 138 < n then 5 else 7, (p.line i).state.code, p.counter⟩)
        ([36, 37, 38, 39, 40, 41, 42] ++ (if (p.line i).flags.getLsbD 7 then [] else [35])) := by
  have ff := freshRing_flags (p.line i)
  have s1 : LineStep i p ((p.makeFresh i).latch i .ringReset) := (lineStep_makeFresh _ _).trans (lineStep_latch _ _ _)
  refine ⟨s1.trans (lineStep_offerMode _ _ _ _ _ _), ?_, ?_⟩
  · unfold Part.corruptRing
    dsimp only
    rw [line_offerMode, line_latch, line_makeFresh, s1.counter, ff]
    have : (corruptReason n).code = if n % 2 = 1 ∨ n < 10 ∨ 138 < n then 5 else 7 := by
      unfold corruptReason; split <;> rfl
    rw [this]; rfl
  · intro w hw
    rw [report_offer]
    have key : ∀ v, (ReportWord.lcb i w, v) ∈ ((p.makeFresh i).latch i .ringReset).reports → (ReportWord.lcb i w, v) ∈ (p.corruptRing i n).reports := fun v h => h
    refine key _ ?_
    rcases List.mem_append.1 hw with hw | hw
    · have h35 : w ≠ 35 := by simp at hw; omega
      have h36 : 36 ≤ w ∧ w ≤ 42 := by simp at hw; omega
      rw [mem_latch_ne _ _ _ _ h35, report_withFlags _ _ _ h35]
      have := mem_makeFresh_ring (i := i) p w h36
      rwa [line_makeFresh] at this
    · split at hw
      · simp at hw
      · rename_i hb
        simp at hw; subst hw
        have := mem_latch_self (i := i) (p.makeFresh i) .ringReset (by rw [line_makeFresh, ff]; show (p.line i).flags.getLsbD 7 = false; simpa using hb)
        rw [line_latch, line_makeFresh, ff] at this
        exact this

/-! ### Commit -/

theorem ring_commit_eq (r : Ring) (size n : Nat) (pad : Option Nat) (seq now time) :
    r.commit size n pad seq now time = r.withRecord size n pad seq now time := by
  obtain ⟨a, b, c, e, f, ps, g, h, j, k⟩ := r
  cases pad <;> simp only [Ring.commit, Ring.withRecord, Ring.skipPad, Ring.readTo, wrapOffset, coalesceStarted, Coalesce.start, csPeriods, Config.periodsPerCentisecond, Nat.mul_comm]
  split <;> rfl

/-- A ring word, 36 to 42, of line `i`. -/
def ReportWord.ofRing (i : LineNo) (u : ReportWord) : Bool := (List.range 7).any fun k => u == .lcb i (36 + k)

/-- The pending ring words of line `i`, in order. -/
def ringReports (i : LineNo) (r : List (ReportWord × Word)) : List ReportWord := (r.map Prod.fst).filter (ReportWord.ofRing i)

theorem queueUpdate_keys (w v) (r : List (ReportWord × Word)) (h : ∀ x, (w, x) ∉ r) :
    (queueUpdate w v r).map Prod.fst = r.map Prod.fst ++ [w] := by
  induction r with
  | nil => rfl
  | cons x t ih =>
    obtain ⟨k, u⟩ := x
    have hk : k ≠ w := by rintro rfl; exact h u (by simp)
    simp only [queueUpdate, if_neg hk, List.map_cons, List.cons_append]
    rw [ih fun x hx => h x (List.mem_cons_of_mem _ hx)]

theorem ringReports_queueBase (w v) (r) : ringReports i (queueUpdate (.base w) v r) = ringReports i r := by
  have hb : ReportWord.ofRing i (.base w) = false := by simp [ReportWord.ofRing]
  unfold ringReports
  induction r with
  | nil => simp [queueUpdate, hb]
  | cons x t ih =>
    obtain ⟨k, u⟩ := x
    simp only [queueUpdate]; split
    · rename_i h; subst h; rfl
    · simp only [List.map_cons, List.filter_cons]; rw [ih]

theorem ringReports_queueUpdate (w v) (r : List (ReportWord × Word)) (h1 : 36 ≤ w) (h2 : w ≤ 42) (h : ∀ x,
    (ReportWord.lcb i w, x) ∉ r) :
    ringReports i (queueUpdate (.lcb i w) v r) = ringReports i r ++ [.lcb i w] := by
  unfold ringReports
  rw [queueUpdate_keys _ _ _ h, List.filter_append]
  have : ReportWord.ofRing i (.lcb i w) = true := by simp [ReportWord.ofRing]; exact ⟨w - 36, by omega, by omega⟩
  simp [this]

theorem ringReports_noteLine (p before : Part) : ringReports i (p.noteLine i before).reports = ringReports i p.reports := by
  simp only [Part.noteLine, Part.queueBaseIf]
  split <;> split <;> split <;> simp only [Part.queueBase, Part.queueValue, ringReports_queueBase]

theorem not_mem_of_ringReports (r : List (ReportWord × Word)) (w) (h1 : 36 ≤ w) (h2 : w ≤ 42)
    (h : ReportWord.lcb i w ∉ ringReports i r) :
    ∀ x, (ReportWord.lcb i w, x) ∉ r := by
  intro x hx
  apply h
  unfold ringReports
  have : ReportWord.ofRing i (.lcb i w) = true := by simp [ReportWord.ofRing]; exact ⟨w - 36, by omega, by omega⟩
  rw [List.mem_filter]; exact ⟨List.mem_map.2 ⟨_, hx, rfl⟩, this⟩
/-- One queued word. -/
theorem ringReports_queueLcb (p : Part) (w) (l : List Nat) (h1 : 36 ≤ w) (h2 : w ≤ 42) (hl : ringReports i p.reports =
    l.map (.lcb i)) (hw : w ∉ l) :
    ringReports i (p.queueLcb i w).reports = (l ++ [w]).map (.lcb i) := by
  show ringReports i (queueUpdate _ _ _) = _
  rw [ringReports_queueUpdate _ _ _ h1 h2 (not_mem_of_ringReports _ _ h1 h2 (by rw [hl]; simpa using hw)), hl]; simp

theorem ringReports_queueLcbIf (p : Part) (c : Bool) (w) (l : List Nat) (h1 : 36 ≤ w) (h2 : w ≤ 42)
    (hl : ringReports i p.reports = l.map (.lcb i)) (hw : w ∉ l) :
    ringReports i (p.queueLcbIf c i w).reports = (l ++ (if c = true then [w] else [])).map (.lcb i) := by
  unfold Part.queueLcbIf
  cases c
  · simpa using hl
  · exact ringReports_queueLcb p w l h1 h2 hl hw

/-- A record committed: the ring with it, and the words that report it, in their order. -/
theorem commitRing_event (p : Part) (r r' : Ring) (n : Nat) (pad seq) (hring : (p.line i).ring = .present r) (h' : r' =
    r.withRecord (p.line i).ringSize n pad seq p.now ((p.line i).setting 16)) :
    let l := p.line i
    let ws := [42, 39, 40] ++ (if pad = none then [] else [41]) ++ (if r'.r = r.r then [] else [38]) ++
          (if r'.due (l.setting 15) = r.due (l.setting 15) then [] else [36]) ++ [37]
    LineEvent p (p.commitRing i r n pad seq) i { l with ring := .present r' } ws ∧
      ((∀ k v, 36 ≤ k → k ≤ 42 → (ReportWord.lcb i k,
        v) ∉ p.reports) → ringReports i (p.commitRing i r n pad seq).reports = ws.map (ReportWord.lcb i)) := by
  intro l ws
  let q1 := (p.setRing i r').queueLcbs i [42, 39, 40]
  let q2 := q1.queueLcbIf pad.isSome i 41
  let q3 := q2.queueLcbIf (r'.r != r.r) i 38
  let q4 := q3.queueLcbIf ((q3.line i).ringDue != l.ringDue) i 36
  have e : p.commitRing i r n pad seq = (q4.queueLcb i 37).noteLine i p := by
    simp only [Part.commitRing, ring_commit_eq, ← h']; rfl
  have l1 : q1.line i = { l with ring := .present r' } := by
    show (Part.queueLcbs _ i _).line i = _
    rw [line_queueLcbs, line_setRing]
  have l2 : q2.line i = q1.line i := line_queueLcbIf _ _ _ _ _
  have l3 : q3.line i = q1.line i := (line_queueLcbIf _ _ _ _ _).trans l2
  have l4 : q4.line i = q1.line i := (line_queueLcbIf _ _ _ _ _).trans l3
  have hdue : ((q3.line i).ringDue != l.ringDue) = !decide (r'.due (l.setting 15) = r.due (l.setting 15)) := by
    rw [l3, l1, ringDue_present _ r' rfl, ringDue_present _ _ hring]
    show (r'.due (l.setting 15) != r.due (l.setting 15)) = _
    cases r'.due (l.setting 15) <;> cases r.due (l.setting 15) <;> rfl
  rw [e]
  refine ⟨⟨?_, ?_, ?_⟩, fun hnone => ?_⟩
  · exact (((((((lineStep_setRing _ _ _).trans (lineStep_queueLcbs _ _ _)).trans (lineStep_queueLcbIf _ _ _ _)).trans (lineStep_queueLcbIf _ _ _ _)).trans (lineStep_queueLcbIf _ _ _ _)).trans (lineStep_queueLcb _ _ _)).trans (lineStep_noteLine _ _ _))
  · rw [line_noteLine]; exact l4.trans l1
  · intro w hw
    rw [mem_noteLine_lcb, ← l1]
    by_cases h37 : w = 37
    · subst h37; rw [← l4]; exact mem_queueLcb_self _ _
    rw [mem_queueLcb_ne _ _ _ _ h37]
    simp only [ws, List.mem_append] at hw
    rcases hw with (((hw | hw) | hw) | hw) | hw
    · have h : w ≠ 36 ∧ w ≠ 41 ∧ w ≠ 38 := by simp at hw; omega
      rw [mem_queueLcbIf_ne _ _ _ _ _ _ _ h.1, mem_queueLcbIf_ne _ _ _ _ _ _ _ h.2.2, mem_queueLcbIf_ne _ _ _ _ _ _ _ h.2.1]
      have := mem_queueLcbs (p.setRing i r') i [42, 39, 40] w hw
      rwa [← line_queueLcbs (p.setRing i r') i i [42, 39, 40]] at this
    · split at hw
      · simp at hw
      · rename_i hb
        simp at hw; subst hw
        rw [mem_queueLcbIf_ne _ _ _ _ _ _ _ (by decide), mem_queueLcbIf_ne _ _ _ _ _ _ _ (by decide)]
        have : pad.isSome = true := Option.isSome_iff_ne_none.2 hb
        simp only [q2, this, Part.queueLcbIf, if_true]
        exact mem_queueLcb_self _ _
    · split at hw
      · simp at hw
      · rename_i hb
        simp at hw; subst hw
        rw [mem_queueLcbIf_ne _ _ _ _ _ _ _ (by decide), ← l2]
        have : (r'.r != r.r) = true := by simpa using hb
        simp only [q3, this, Part.queueLcbIf, if_true]
        exact mem_queueLcb_self _ _
    · split at hw
      · simp at hw
      · rename_i hb
        simp at hw; subst hw
        rw [← l3]
        simp only [q4, hdue, decide_eq_false hb, Part.queueLcbIf]
        exact mem_queueLcb_self _ _
    · simp at hw; exact absurd hw h37
  · rw [ringReports_noteLine]
    have k0 : ringReports i (p.setRing i r').reports = ([] : List Nat).map (.lcb i) := by
      show ringReports i p.reports = _
      unfold ringReports
      rw [List.map_nil, List.filter_eq_nil_iff]
      intro u hu
      obtain ⟨⟨u', v⟩, hm, rfl⟩ := List.mem_map.1 hu
      intro hc
      simp [ReportWord.ofRing] at hc
      obtain ⟨k, hk, rfl⟩ := hc
      exact hnone (36 + k) v (by omega) (by omega) hm
    have k1 : ringReports i q1.reports = [42, 39, 40].map (.lcb i) := by
      have a1 := ringReports_queueLcb (i := i) _ 42 [] (by decide) (by decide) k0 (by decide)
      have a2 := ringReports_queueLcb (i := i) _ 39 _ (by decide) (by decide) a1 (by decide)
      exact ringReports_queueLcb (i := i) _ 40 _ (by decide) (by decide) a2 (by decide)
    have k2 := ringReports_queueLcbIf (i := i) q1 pad.isSome 41 _ (by decide) (by decide) k1 (by decide)
    have k3 := ringReports_queueLcbIf (i := i) q2 (r'.r != r.r) 38 _ (by decide) (by decide) k2 (by split <;> decide)
    have k4 := ringReports_queueLcbIf (i := i) q3 ((q3.line i).ringDue != l.ringDue) 36 _ (by decide) (by decide) k3 (by split <;> split <;> decide)
    have k5 := ringReports_queueLcb (i := i) q4 37 _ (by decide) (by decide) k4 (by split <;> split <;> split <;> decide)
    rw [k5]
    congr 1
    simp only [ws, hdue]
    cases pad <;> simp

/-! ### Discard -/

theorem kindWord_eq (k : Nat) (i : LineNo) (hk : k < 256) : kindWord (word k) i = word (256 * k + i.val) := by
    have := i.isLt
    simp only [kindWord, word]
    apply BitVec.eq_of_toNat_eq
    simp only [BitVec.toNat_or, BitVec.toNat_shiftLeft, BitVec.toNat_ofNat, Nat.shiftLeft_eq]
    rw [Nat.mod_eq_of_lt (show k < 2^16 by omega), Nat.mod_eq_of_lt (show k * 2^8 < 2^16 by omega), Nat.mod_eq_of_lt (show i.val < 2^16 by omega),
      Nat.mod_eq_of_lt (show 256 * k + i.val < 2^16 by omega), Nat.mul_comm k]
    rw [← Nat.two_pow_add_eq_or_of_lt (show i.val < 2^8 by omega)]

theorem padWords_eq (i : LineNo) (size : Nat) (pad : Option Nat) : padWords i size pad = (match pad with
      | none => []
      | some k => [(k, word (256 * 15 + i.val)), (k + 1, word (size - k))]) := by
  cases pad with
  | none => rfl
  | some k => simp only [padWords, wordsFrom, show kindWord padKind i = word (256 * 15 + i.val) from kindWord_eq 15 i (by decide)]

theorem jobSize_words (l : Line) (job : TakenJob) :
    l.jobSize job = (match job with | .data _ => 9 + l.payloadLimit / 2 + (9 + l.payloadLimit / 2) % 2 | .event _ _ => 10) := by
  cases job <;> rfl

theorem LineEvent.setFlight {p q : Part} {l ws} (h : LineEvent p q i l ws) (x) :
    LineEvent { p with writer := ⟨x, p.writer.pointer⟩ } (q.setFlight x) i l ws := by
  refine ⟨⟨?_, h.1.2.1, h.1.2.2⟩, h.2.1, h.2.2⟩
  have := congrArg (fun y : Part => { y with writer := ⟨x, p.writer.pointer⟩ }) h.1.1
  have hw := h.1.writer
  have hptr : p.writer.pointer = q.writer.pointer := by rw [hw]
  unfold Part.setFlight
  rw [hptr] at this ⊢; exact this

/-- The job in flight is no matter of the reports. -/
theorem Noted.setFlight {p q : Part} (h : Noted i p q) (x) :
    Noted i { p with writer := ⟨x, p.writer.pointer⟩ } (q.setFlight x) := by
  refine ⟨?_, ?_, h.keys⟩
  · exact (LineEvent.setFlight (l := q.line i) (ws := []) ⟨h.step, rfl, fun w hw => by simp at hw⟩ x).1
  · have hr : Reported p (q.setFlight x) := by
      intro w v hv
      rw [reportValue_part (p := q) (q := q.setFlight x) rfl rfl rfl rfl rfl rfl rfl] at hv
      exact h.reported w v hv
    exact Reported.of_same hr (fun w => (reportValue_part rfl rfl rfl rfl rfl rfl rfl w).symm) rfl

/-- A job discarded: the discard tally, the counter, what the line takes back. -/
theorem discardJob_event (p : Part) (r : Ring) (job : TakenJob) (l l' : Line) (bytes : Nat) (hl : l = p.line i)
   (h1 : l.takeBack job = l' ∧ l.lostBytes job = bytes) :
        LineEvent { p with writer := ⟨none, p.writer.pointer⟩ } (p.discardJob i r job) i
          (Line.setCounter
            { l' with
              ring := .present
                { r with discardRecords := satAdd r.discardRecords 1, discardBytes := satAdd r.discardBytes bytes } }
            .recordsDiscarded (satAdd (l.counter .recordsDiscarded) 1))
          (if l.counter .recordsDiscarded = 65535 then [] else [47]) := by
  let q := p.onLine i fun l => { (l.takeBack job) with ring := .present { r with discardRecords := satAdd r.discardRecords 1, discardBytes := satAdd r.discardBytes bytes } }
  have lq : q.line i = { l' with ring := .present { r with discardRecords := satAdd r.discardRecords 1, discardBytes := satAdd r.discardBytes bytes } } := by
    show (Part.onLine _ _ _).line i = _
    rw [line_onLine, ← hl, h1.1]
  have hcnt : l'.counters = l.counters := by rw [← h1.1]; cases job <;> rfl
  have e : p.discardJob i r job = (q.count i .recordsDiscarded 1).setFlight none := by
    unfold Part.discardJob; dsimp only; rw [← hl, h1.2]
  have hcc : (q.line i).counter .recordsDiscarded = l.counter .recordsDiscarded := by
    rw [lq]; unfold Line.counter; dsimp only; rw [hcnt]
  rw [e]
  have hline : (q.count i .recordsDiscarded 1).line i = Line.setCounter
            { l' with
              ring := .present
                { r with discardRecords := satAdd r.discardRecords 1, discardBytes := satAdd r.discardBytes bytes } }
            .recordsDiscarded (satAdd (l.counter .recordsDiscarded) 1) := by rw [line_count, hcc, lq]
  refine LineEvent.setFlight ⟨(lineStep_onLine _ _ _).trans (lineStep_count _ _ _ _), hline, ?_⟩ none
  · intro w hw
    split at hw
    · simp at hw
    · rename_i hc
      simp at hw; subst hw
      have := mem_count_self (i := i) q .recordsDiscarded (by rw [hcc]; exact hc)
      rw [hline] at this
      exact this

theorem takeBack_kept (l : Line) (job : TakenJob) :
    (l.takeBack job).ring = l.ring ∧ (l.takeBack job).summary = l.summary ∧
      ∀ w, (l.takeBack job).reportValue? w = l.reportValue? w := by
  cases job <;> exact ⟨rfl, rfl, fun _ => rfl⟩

theorem noted_discardJob (p : Part) (r : Ring) (job : TakenJob) (h : (p.line i).ring = .present r) :
    Noted i { p with writer := ⟨none, p.writer.pointer⟩ } (p.discardJob i r job) := by
  have k := takeBack_kept (p.line i) job
  have tb : Noted i p (p.onLine i fun l => l.takeBack job) := noted_onLine p i _ k.2.1 k.2.2
  have sr := noted_setRing (p.onLine i fun l => l.takeBack job) i r
    { r with
      discardRecords := satAdd r.discardRecords 1
      discardBytes := satAdd r.discardBytes ((p.line i).lostBytes job) }
    (by rw [line_onLine, k.1]; exact h) rfl ⟨rfl, rfl, rfl, rfl, rfl, rfl⟩
  have e : (p.onLine i fun l => l.takeBack job).setRing i
      { r with
        discardRecords := satAdd r.discardRecords 1
        discardBytes := satAdd r.discardBytes ((p.line i).lostBytes job) } =
      p.onLine i fun l => { (l.takeBack job) with
        ring := .present
          { r with
            discardRecords := satAdd r.discardRecords 1
            discardBytes := satAdd r.discardBytes ((p.line i).lostBytes job) } } := by
    simp only [Part.setRing, onLine_eq, line_setLine, setLine_setLine]
  rw [e] at sr
  exact ((tb.trans sr).trans (noted_count _ i .recordsDiscarded 1)).setFlight none

/-! ### Walk -/

theorem coalesce_start_eq (now time : Nat) : Coalesce.start now time = coalesceStarted now time := by
  simp only [coalesceStarted, Coalesce.start, csPeriods, Config.periodsPerCentisecond, Nat.mul_comm]

theorem report_withWalk (l : Line) (x) (w) (h : w ≠ 32) : Line.report { l with walk := x } w = l.report w := by
  simp only [Line.report, if_neg h]; rfl

/-- A walk failed: a fresh ring, "RING_RESET", a "MODE" event. -/
theorem walkFails_event (p : Part) (reason : WalkReason) :
    LineEvent p (p.walkFails i reason) i ((p.line i).walkFailed reason.code p.counter) [32, 36, 37, 38, 39, 40, 41, 42] := by
  let q1 := (p.makeFresh i).latch i .ringReset
  let q2 := q1.onLine i fun l => { l with walk := none }
  let q3 := q2.queueLcb i 32
  have ff := freshRing_flags (p.line i)
  have s1 : LineStep i p q1 := (lineStep_makeFresh _ _).trans (lineStep_latch _ _ _)
  have s3 : LineStep i p q3 := (s1.trans (lineStep_onLine _ _ _)).trans (lineStep_queueLcb _ _ _)
  have l1 : q1.line i = { (p.line i).freshRing with flags := (p.line i).flags ||| 128 } := by
    show (Part.latch _ _ _).line i = _
    rw [line_latch, line_makeFresh, ff]; rfl
  have l2 : q2.line i = { (p.line i).freshRing with walk := none, flags := (p.line i).flags ||| 128 } := by
    show (Part.onLine _ _ _).line i = _
    rw [line_onLine, l1]
  have e : p.walkFails i reason = q3.offerMode i .listen .ringUntrusted reason.code .off := rfl
  rw [e]
  refine ⟨s3.trans (lineStep_offerMode _ _ _ _ _ _), ?_, ?_⟩
  · rw [line_offerMode, show q3.line i = q2.line i from rfl, l2, s3.counter]; rfl
  · intro w hw
    show _ ∈ q3.reports
    unfold Line.walkFailed
    rw [report_offer]
    by_cases h32 : w = 32
    · subst h32; rw [← l2]; exact mem_queueLcb_self _ _
    · rw [mem_queueLcb_ne _ _ _ _ h32]
      have h36 : 36 ≤ w ∧ w ≤ 42 := by simp at hw; omega
      show _ ∈ q1.reports
      rw [mem_latch_ne _ _ _ _ (by omega)]
      have := mem_makeFresh_ring (i := i) p w h36
      rw [line_makeFresh] at this
      have e2 : Line.report { (p.line i).freshRing with walk := none, flags := (p.line i).flags ||| 128 } w = (p.line i).freshRing.report w := by
        have a1 := report_withFlags { (p.line i).freshRing with walk := none } ((p.line i).flags ||| 128) w (by omega)
        have a2 := report_withWalk (p.line i).freshRing none w h32
        exact a1.trans a2
      rw [e2]; exact this

/-- A walk ended with success: the ring it read is the line's. -/
theorem walkSucceeds_event (p : Part) (run : WalkRun) :
    LineEvent p (p.walkSucceeds i run) i ((p.line i).walkEnded run p.now p.counter) [32, 36, 37, 38, 39, 40, 41, 42] := by
  let q1 := p.onLine i fun l => { l with ring := .present (run.ring p.now (l.setting 16)), walk := none }
  let q2 := (q1.queueLcbs i [36, 37, 38, 39, 40, 41, 42]).noteLine i p
  let q3 := q2.queueLcb i 32
  have s3 : LineStep i p q3 := (((lineStep_onLine _ _ _).trans (lineStep_queueLcbs _ _ _)).trans (lineStep_noteLine _ _ _)).trans (lineStep_queueLcb _ _ _)
  have l1 : q1.line i = { p.line i with ring := .present (run.ring p.now ((p.line i).setting 16)), walk := none } := by
    show (Part.onLine _ _ _).line i = _
    rw [line_onLine]
  have l2 : q2.line i = q1.line i := by
    show (Part.noteLine _ _ _).line i = _
    rw [line_noteLine, line_queueLcbs]
  have e : p.walkSucceeds i run = q3.offerMode i .listen .resumed (word run.found) .off := rfl
  have er : (p.line i).walkEnded run p.now p.counter = (q1.line i).offer ⟨.mode, 1, 7, word run.found, 0, p.counter⟩ := by
    rw [l1]; unfold Line.walkEnded WalkRun.ring; simp only [coalesce_start_eq]
    cases run.lastSeq <;> rfl
  rw [e, er]
  refine ⟨s3.trans (lineStep_offerMode _ _ _ _ _ _), ?_, ?_⟩
  · rw [line_offerMode, show q3.line i = q2.line i from rfl, l2, s3.counter]; rfl
  · intro w hw
    show _ ∈ q3.reports
    rw [report_offer]
    by_cases h32 : w = 32
    · subst h32; rw [← l2]; exact mem_queueLcb_self _ _
    · rw [mem_queueLcb_ne _ _ _ _ h32]
      show _ ∈ (Part.noteLine _ _ _).reports
      rw [mem_noteLine_lcb]
      exact mem_queueLcbs _ _ _ _ (by simp at hw ⊢; omega)

/-- A walk goes on, or ends with success when no words remain. -/
theorem walkContinues_event (p : Part) (run : WalkRun) :
    LineEvent p (p.walkContinues i run) i ((p.line i).walkedTo run p.now p.counter) (walkReports
      ((p.line i).walkedTo run p.now p.counter)) := by
  unfold Part.walkContinues Line.walkedTo
  split
  · have : walkReports ((p.line i).walkEnded run p.now p.counter) = [32, 36, 37, 38, 39, 40, 41, 42] := by
      unfold walkReports; rw [if_pos]; unfold Line.walkEnded; simp
    rw [this]; exact walkSucceeds_event p run
  · refine ⟨lineStep_onLine _ _ _, by rw [line_onLine], ?_⟩
    intro w hw; simp [walkReports] at hw

theorem walkFails_reports (p : Part) (reason : WalkReason) :
    LineEvent p (p.walkFails i reason) i ((p.line i).walkFailed reason.code p.counter) (walkReports
      ((p.line i).walkFailed reason.code p.counter)) := by
  have : walkReports ((p.line i).walkFailed reason.code p.counter) = [32, 36, 37, 38, 39, 40, 41, 42] := by
      unfold walkReports; rw [if_pos]; unfold Line.walkFailed; simp
  rw [this]; exact walkFails_event p reason

/-! ### Buffers and conditions -/

theorem LineEvent.setLine (p : Part) (l : Line) :
    LineEvent p (p.setLine i l) i l [] :=
  ⟨lineStep_setLine _ _ _, line_setLine _ _ _, fun w hw => by simp at hw⟩

theorem mem_setConditions (p : Part) (a b : Bool) (h : a ≠ (p.line i).openCondition ∨ b ≠ (p.line i).stuckCondition) :
    (ReportWord.lcb i 36, ((p.setConditions i a b).line i).report 36) ∈ (p.setConditions i a b).reports := by
  have h5 : (a != (p.line i).openCondition || b != (p.line i).stuckCondition) = true := by simpa using h
  unfold Part.setConditions
  dsimp only
  rw [h5]
  exact mem_queueLcb_self _ _

theorem openBuffer_none (l : Line) (h : ∀ (k : Fin 2) c, l.buffers[k] ≠ .opened c) : l.openBuffer = none := by
  unfold Line.openBuffer
  have h0 := h 0; have h1 := h 1
  have a0 : l.buffers[0].openContents = none := by
    cases hb : l.buffers[0] <;> first | rfl | exact absurd hb (h0 _)
  have a1 : l.buffers[1].openContents = none := by
    cases hb : l.buffers[1] <;> first | rfl | exact absurd hb (h1 _)
  rw [a0, a1]

theorem openBuffer_some (l : Line) (k : Fin 2) (c) (h : l.buffers[k] = .opened c) (h' : ∀
    (j : Fin 2) x, j ≠ k → l.buffers[j] ≠ .opened x) :
    l.openBuffer = some (k, c) := by
  unfold Line.openBuffer
  match k, h, h' with
  | 0, h, h' =>
    have : l.buffers[0] = .opened c := h
    rw [this]; rfl
  | 1, h, h' =>
    have e1 : l.buffers[1] = .opened c := h
    have e0 : l.buffers[0].openContents = none := by
      cases hb : l.buffers[0] <;> first | rfl | exact absurd hb (h' 0 _ (by decide))
    rw [e0, e1]; rfl

theorem pendingEvents_eq (l : Line) :
    l.pendingEvents = l.jobs.countP (fun j => match j with | .event _ => true | .data _ => false) :=
  List.countP_eq_length_filter.symm

theorem pendingEvents_closeOpen (l : Line) : l.closeOpen.pendingEvents = l.pendingEvents := by
  unfold Line.closeOpen; split
  · rfl
  · simp [Line.pendingEvents]

theorem closeOpen_dropped (l : Line) : l.closeOpen.droppedEvents = l.droppedEvents := by
  unfold Line.closeOpen; split <;> rfl

end Sys2Proof.Machine
end

