-- ==== Sys2Proof/Laws/Transmit.lean ====
section
/-! SUPPORT. The transmit queue: the head begins, acts and leaves; the rate probe delivers. -/

namespace Sys2Proof.Machine

variable {s : State} {i : LineNo} {lanes : Lanes} {d : Word}

/-! ### The window -/

theorem exec_windowWrite (hr : Reaches s i) (w : Fin 16) :
    exec (.windowWrite i w lanes d) s =
      answers s (s.part.windowArrives i lanes d ⟨windowAddr s.part.regionBase i w.val, .write lanes d⟩) := by
  show (if s.part.hasLine i = true then _ else _) = _
  rw [if_pos hr.2.1, host_ready hr.1]
  simp [Part.hostArrives, Part.writeArrives, Part.writeBlocked, decode_window s.part i w.val w.isLt hr.2.1 hr.2.2]

theorem entry_ofWord_none (d : Word) (h : 5 < (hiByte d).toNat ∨ ((hiByte d).toNat = 1 ∨
    (hiByte d).toNat = 2) ∧ loByte d = 0 ∨ (hiByte d).toNat = 3 ∧ 11 < (loByte d).toNat) :
    Entry.ofWord d = none := by
  unfold Entry.ofWord EntryKind.ofCode
  generalize hiByte d = b at h ⊢
  rcases h with h | ⟨h, h2⟩ | ⟨h, h2⟩
  · split <;> rename_i e <;> first | rfl | (split at e <;> first | omega | cases e)
  · rcases h with h | h <;> simp [h, h2]
  · have : 12 ≤ (loByte d).toNat := by omega
    simp [h, this]

/-! ### The head -/

theorem runHead_begin (n : Nat) (p : Part) (e rest) (h1 : (p.line i).state = .drive) (h2 : (p.line i).acting = none) (h3 :
    (p.line i).queue = e :: rest) :
    Part.runHead (n + 1) p i = Part.runHead n (p.beginEntry i e) i := by
  simp [Part.runHead, h1, h2, h3, LineState.sends]

theorem runHead_acting (n : Nat) (p : Part) (h2 : (p.line i).acting ≠ none) : Part.runHead n p i = p := by
  cases n with
  | zero => rfl
  | succ n =>
    have : (p.line i).acting.isNone = false := by cases h : (p.line i).acting <;> simp_all
    simp [Part.runHead, this]

theorem runHead_empty (n : Nat) (p : Part) (h1 : (p.line i).state ≠ .drain) (h3 : (p.line i).queue = []) :
    Part.runHead n p i = p := by
  cases n with
  | zero => rfl
  | succ n =>
    simp only [Part.runHead, h3, if_neg h1]; split <;> rfl

theorem leaveHead_none (p : Part) (h : p.heldFor i = none) :
    p.leaveHead i = p.onLine i fun l => { l with queue := l.queue.tail, acting := none } := by
  unfold Part.leaveHead Part.takeHeld
  split
  · rename_i x hx
    have hx' : p.held = some x := hx
    rw [if_neg]
    intro e
    simp [Part.heldFor, hx', e] at h
  · rfl

/-- A host write forwarded beside an event of the line: the event is that of the part without the forward. -/
theorem forward_event (a : HostAccess) (X : Part) (l' : Line) (ws : List Nat) (p : Part) (h : Noted i (p.forward a) X)
    (hl : X.line i = l') (hw : ∀ w ∈ ws, (ReportWord.lcb i w, l'.report w) ∈ X.reports) :
    ∃ q : Part, X = q.forward a ∧ NotedEvent p q i l' ws := by
  refine ⟨{ X with port := p.port }, ?_, ⟨⟨?_, h.step.2.1, h.step.2.2⟩, hl, hw⟩, ?_⟩
  · have := h.step.port
    show X = { X with port := { p.port with waiting := some a } }
    rw [show ({ p.port with waiting := some a } : Machine.Port) = X.port from this.symm]
  · have := congrArg (fun x : Part => { x with port := p.port }) h.step.1
    exact this
  · have hr : Reported (p.forward a) { X with port := p.port } := fun w v hv =>
      h.reported w v (by rw [← hv]; exact (reportValue_part rfl rfl rfl rfl rfl rfl rfl w).symm)
    exact hr.of_same (fun w => (reportValue_part rfl rfl rfl rfl rfl rfl rfl w).symm) rfl

/-- The head leaves: a held write of the line is released and its entry joins the queue. -/
theorem leaveHead_event (p : Part) :
    LineStep i (p.releaseHold i) (p.leaveHead i) ∧ (p.leaveHead i).line i = (p.line i).headLeft (p.heldEntries i) ∧
      (p.leaveHead i).reports = p.reports ∧ (p.leaveHead i).heldFor i = none := by
  unfold Part.leaveHead Part.takeHeld Part.releaseHold Part.heldEntries Part.heldFor
  rcases hh : p.held with _ | h
  · simp only [show (p.onLine i fun l => { l with queue := l.queue.tail, acting := none }).held = none from hh]
    refine ⟨lineStep_onLine _ _ _, ?_, rfl, ?_⟩
    · rw [line_onLine]; simp [Line.headLeft]
    · simp [show (p.onLine i fun l => { l with queue := l.queue.tail, acting := none }).held = none from hh]
  · simp only [show (p.onLine i fun l => { l with queue := l.queue.tail, acting := none }).held = some h from hh]
    by_cases hl : h.line = i
    · simp only [if_pos hl]
      let q : Part := { p with held := none, port := { p.port with waiting := some h.access } }
      have : ({ ((p.onLine i fun l => { l with queue := l.queue.tail, acting := none }).onLine i fun l => { l with queue := l.queue ++ [h.entry] }) with held := none } : Part).forward h.access
         = (q.onLine i fun l => { l with queue := l.queue.tail ++ [h.entry], acting := none }) := by
        simp only [onLine_eq, line_setLine, setLine_setLine]; rfl
      refine ⟨?_, ?_, rfl, rfl⟩
      · show LineStep i q _
        rw [this]; exact lineStep_onLine _ _ _
      · rw [this, line_onLine]; rfl
    · simp only [if_neg hl]
      refine ⟨lineStep_onLine _ _ _, ?_, rfl, ?_⟩
      · rw [line_onLine]; simp [Line.headLeft]
      · simp only [show (p.onLine i fun l => { l with queue := l.queue.tail, acting := none }).held = some h from hh, if_neg hl]

theorem noted_leaveHead (p : Part) : Noted i (p.releaseHold i) (p.leaveHead i) := by
  obtain ⟨h1, h2, h3, _⟩ := leaveHead_event (i := i) p
  have hr : (p.releaseHold i).reports = p.reports := reports_releaseHold p i
  refine (Noting.mk h1 (fun w v _ hv => ?_) (fun w v => by rw [h3, hr]) (fun x => ?_) : Noting i [] _ _).still ?_
  · rw [h2] at hv
    refine .inr ⟨?_, fun u => by rw [h3, hr]⟩
    rw [line_releaseHold]; exact hv
  · unfold Keyed at x ⊢
    rw [h3, ← hr]; exact x
  · rw [h2, line_releaseHold]; rfl

theorem reported_leaveHead (p : Part) : Reported p (p.leaveHead i) := reported_releaseHold (noted_leaveHead p).reported

theorem keyed_leaveHead {p : Part} (h : Keyed p) : Keyed (p.leaveHead i) := (noted_leaveHead p).keys (keyed_releaseHold i h)

theorem report_headLeft (l : Line) (h w) : (l.headLeft h).report w = l.report w := rfl

theorem runHead_stop (n : Nat) (p : Part) (h : (p.line i).state.sends = false) : Part.runHead n p i = p := by
  cases n with
  | zero => rfl
  | succ n => simp [Part.runHead, h]

/-- More than the entries that can act at one moment: the queue and a held entry. -/
def Part.headFuel (p : Part) (i : LineNo) : Nat := (p.line i).queue.length + p.heldCount i + 1

theorem LineEvent.leaveHead {p q : Part} {l' : Line} {ws : List Nat} (h : LineEvent p q i l' ws) :
    LineEvent (p.releaseHold i) (q.leaveHead i) i (l'.headLeft (p.heldEntries i)) ws := by
  obtain ⟨h1, h2, h3, h4⟩ := leaveHead_event (i := i) q
  refine ⟨(h.1.releaseHold).trans h1, ?_, fun w hw => ?_⟩
  · rw [h2, h.2.1, show q.heldEntries i = p.heldEntries i by simp [Part.heldEntries, heldFor_congr h.1.held]]
  · rw [h3, report_headLeft]; exact h.2.2 w hw

theorem headFuel_leaveHead {p q : Part} (e rest) (hq : (p.line i).queue = e :: rest) (hk : q.held =
    p.held) (hl : (q.line i).queue = (p.line i).queue) :
    Part.headFuel (q.leaveHead i) i + 1 = Part.headFuel p i := by
  obtain ⟨h1, h2, h3, h4⟩ := leaveHead_event (i := i) q
  unfold Part.headFuel
  rw [h2, Line.headLeft]
  simp only [Part.heldEntries, Part.heldCount, h4, hl, hq, heldFor_congr hk, List.tail_cons, List.length_append, List.length_map, List.length_cons]
  cases h : p.heldFor i <;> simp

theorem report_breaksRefused (l : Line) : l.report 52 = l.counters.toList.getD 6 0 := by simp [Line.report]

theorem mem_refuseEntry_ne (q : Part) (w v) (h : w ≠ 51) :
    (ReportWord.lcb i w, v) ∈ (q.refuseEntry i).reports ↔ (ReportWord.lcb i w, v) ∈ q.reports := by
  unfold Part.refuseEntry
  exact mem_count_ne _ .entriesRefused _ _ _ h

theorem tallied_breaksRefused (l : Line) (c d : Nat) : (l.tallied c d).counters.toList.getD 6 0 = l.counters.toList.getD 6 0 := by
  simp [Line.tallied, Line.setCounter, Counter.index]

/-- A BREAK entry refused: both counters and the tally. -/
theorem refuseBreak_event (p : Part) : LineEvent p ((p.count i .breaksRefused 1).refuseEntry i) i
    (((p.line i).setCounter .breaksRefused (satAdd ((p.line i).counter .breaksRefused) 1)).tallied 0 1)
          ((if (p.line i).counter .breaksRefused = 65535 then [] else [52]) ++
            (if (p.line i).counter .entriesRefused = 65535 then [] else [51])) := by
  have e := refuseEntry_event (i := i) (p.count i .breaksRefused 1)
  rw [line_count] at e
  have hc : ((p.line i).setCounter .breaksRefused (satAdd ((p.line i).counter .breaksRefused) 1)).counter .entriesRefused = (p.line i).counter .entriesRefused := by
    simp [Line.setCounter, Line.counter, Counter.index]
  rw [hc] at e
  refine ⟨(lineStep_count _ _ _ _).trans e.1, e.2.1, fun w hw => ?_⟩
  rcases List.mem_append.1 hw with hw | hw
  · split at hw
    · simp at hw
    · rename_i h
      simp at hw; subst hw
      have : (ReportWord.lcb i 52, ((p.count i .breaksRefused 1).line i).report 52) ∈ (p.count i .breaksRefused 1).reports := mem_count_self (i := i) p .breaksRefused h
      rw [mem_refuseEntry_ne _ _ _ (by decide)]
      rw [line_count] at this
      have e2 : Line.report (((p.line i).setCounter .breaksRefused (satAdd ((p.line i).counter .breaksRefused) 1)).tallied 0 1) 52 = Line.report ((p.line i).setCounter .breaksRefused (satAdd ((p.line i).counter .breaksRefused) 1)) 52 := by
        rw [report_breaksRefused, report_breaksRefused]; exact tallied_breaksRefused _ _ _
      rw [e2]; exact this
  · exact e.2.2 w hw

/-- A FENCE entry acts: the event with the tallies, the tallies zeroed, "FENCE_DONE", the tag. -/
theorem headFence_event (p : Part) (v : Byte) (l : Line) (hl : l = p.line i) :
    ∃ q : Part, p.headFence i v = q.leaveHead i ∧ LineEvent p q i
          { l.offer ⟨.fenceDone, v.zeroExtend 16, l.tallies.lost, l.tallies.refused, l.tallies.sent, p.counter⟩ with
            tallies := ⟨0, 0, 0⟩, flags := l.flags ||| 2, fenceTag := v }
          (53 :: if l.flags.getLsbD 1 then [] else [35]) := by
  subst hl
  let q1 := p.offer i .fenceDone (v.zeroExtend 16) (p.line i).tallies.lost (p.line i).tallies.refused (p.line i).tallies.sent
  let q1' := q1.onLine i fun l => { l with tallies := ⟨0, 0, 0⟩ }
  let q2 := q1'.latch i .fenceDone
  let q3 := (q2.onLine i fun l => { l with fenceTag := v }).queueLcb i 53
  have s3 : LineStep i p q3 := ((((lineStep_offer _ _ _ _ _ _ _).trans (lineStep_onLine _ _ _)).trans (lineStep_latch _ _ _)).trans (lineStep_onLine _ _ _)).trans (lineStep_queueLcb _ _ _)
  have lq1 : q1.line i = (p.line i).offer ⟨.fenceDone, v.zeroExtend 16, (p.line i).tallies.lost, (p.line i).tallies.refused, (p.line i).tallies.sent, p.counter⟩ := by
    simp only [q1]; rw [line_offer]
  have lq3 : q3.line i = { (q1.line i) with tallies := ⟨0, 0, 0⟩, flags := (q1.line i).flags ||| 2, fenceTag := v } := by
    simp only [q3, q2, q1']
    rw [show ∀ q : Part, (q.queueLcb i 53).line i = q.line i from fun _ => rfl, line_onLine, line_latch, line_onLine]; rfl
  have hf : (q1.line i).flags = (p.line i).flags := by rw [lq1]; simp
  refine ⟨q3, rfl, s3, ?_, fun w hw => ?_⟩
  · rw [lq3, hf, lq1]
  · rw [← hf, ← lq1, ← lq3]
    rcases List.mem_cons.1 hw with rfl | hw
    · exact mem_queueLcb_self _ _
    · split at hw
      · simp at hw
      · rename_i h
        simp at hw; subst hw
        show _ ∈ (Part.queueLcb _ i 53).reports
        have e1 : q1'.line i = { q1.line i with tallies := ⟨0, 0, 0⟩ } := by simp only [q1', line_onLine]
        have := mem_latch_self (i := i) q1' .fenceDone (by rw [e1]; show (q1.line i).flags.getLsbD 1 = false; rw [hf]; simpa using h)
        rw [mem_queueLcb_ne _ _ _ _ (by decide)]
        have e2 : (q3.line i).report 35 = ((q1'.latch i .fenceDone).line i).report 35 := by
          rw [lq3, line_latch, e1]; rfl
        rw [e2]; exact this

theorem admitsBreak_false (l : Line) (h1 : l.shadow[6] ≠ 1) (h2 : ¬ (l.shadow[6] = 2 ∧ l.breakCredit = true)) :
    l.admitsBreak = false := by
  simp only [Line.admitsBreak]
  by_cases h6 : l.shadow[6] = 2
  · have : l.breakCredit = false := by by_contra hb; exact h2 ⟨h6, by simpa using hb⟩
    simp [this, h6]
  · simp [show ¬ l.shadow[6] = 2#16 from h6, show ¬ l.shadow[6] = 1#16 from h1]

theorem noted_setActing (p : Part) (a : Acting) : Noted i p (p.setActing i a) := noted_onLine p i _ rfl fun _ => rfl

theorem noted_zeroTallies (p : Part) (x : Tallies) : Noted i p (p.onLine i fun l => { l with tallies := x }) :=
  noted_onLine p i _ rfl fun _ => rfl

/-- After a head has begun, it acts, or the line no longer sends, or it has left. -/
theorem beginEntry_cases (p : Part) (e rest) (hq : (p.line i).queue = e :: rest) :
    ((p.beginEntry i e).line i).acting ≠ none ∨ ((p.beginEntry i e).line i).state.sends = false ∨
      Part.headFuel (p.beginEntry i e) i + 1 = Part.headFuel p i := by
  obtain ⟨kind, v⟩ := e
  cases kind with
  | data => left; show ((p.setActing i _).line i).acting ≠ none; rw [Part.setActing, line_onLine]; simp
  | pause => left; show ((p.setActing i _).line i).acting ≠ none; rw [Part.setActing, line_onLine]; simp
  | brk =>
    show ((p.headBreak i v).line i).acting ≠ none ∨ _ ∨ Part.headFuel (p.headBreak i v) i + 1 = _
    by_cases h : (p.line i).admitsBreak = true
    · left
      unfold Part.headBreak; dsimp only; rw [if_pos h, Part.setActing, line_onLine]; simp
    · right; right
      unfold Part.headBreak; dsimp only; rw [if_neg h]
      have := refuseBreak_event (i := i) p
      have hl : (((p.count i .breaksRefused 1).refuseEntry i).line i).queue = (p.line i).queue := by
        rw [this.2.1]; simp only [Line.tallied, Line.setCounter]
      exact headFuel_leaveHead (p := p) _ _ hq this.1.held hl
  | rate =>
    right; right
    have h := line_setRate p i (rateDivisor v.toNat) 0
    have hs := (lineStep_setRate p i (rateDivisor v.toNat) 0).held
    have e : p.beginEntry i ⟨.rate, v⟩ = (p.setRate i (rateDivisor v.toNat) 0).leaveHead i := rfl
    rw [e]
    exact headFuel_leaveHead _ _ hq hs (by rw [h])
  | fence =>
    right; right
    show Part.headFuel (p.headFence i v) i + 1 = _
    obtain ⟨q, e, ev⟩ := headFence_event (i := i) p v _ rfl
    rw [e]; exact headFuel_leaveHead _ _ hq ev.1.held (by rw [ev.2.1]; simp)
  | drop =>
    right; left
    show ((p.headDrop i).line i).state.sends = false
    unfold Part.headDrop; rw [line_enterRelease]; rfl

theorem runHead_fuel (n : Nat) :
    ∀ (m : Nat) (p : Part), Part.headFuel p i ≤ n → Part.headFuel p i ≤ m → Part.runHead n p i = Part.runHead m p i := by
  induction n with
  | zero => intro m p h; simp [Part.headFuel] at h
  | succ n ih =>
    intro m p h1 h2
    cases m with
    | zero => simp [Part.headFuel] at h2
    | succ m =>
      simp only [Part.runHead]
      split
      · split
        · rfl
        · rename_i e rest hq
          rcases beginEntry_cases p e rest hq with h | h | h
          · rw [runHead_acting _ _ h, runHead_acting _ _ h]
          · rw [runHead_stop _ _ h, runHead_stop _ _ h]
          · exact ih _ _ (by omega) (by omega)
      · rfl

theorem heldCount_le (p : Part) : p.heldCount i ≤ 1 := by unfold Part.heldCount; split <;> omega

/-- The queue advances by its head: the fuel is always enough. -/
theorem advanceQueue_begin (p : Part) (e rest) (h1 : (p.line i).state.sends = true) (h2 : (p.line i).acting =
    none) (hq : (p.line i).queue = e :: rest) :
    p.advanceQueue i = (p.beginEntry i e).advanceQueue i := by
  have e1 : p.advanceQueue i = Part.runHead ((p.line i).queue.length + 2) (p.beginEntry i e) i := by
    unfold Part.advanceQueue
    show Part.runHead (((p.line i).queue.length + 2) + 1) p i = _
    simp only [Part.runHead, h1, h2, hq]; rfl
  rw [e1]
  rcases beginEntry_cases p e rest hq with h | h | h
  · unfold Part.advanceQueue; rw [runHead_acting _ _ h, runHead_acting _ _ h]
  · unfold Part.advanceQueue; rw [runHead_stop _ _ h, runHead_stop _ _ h]
  · unfold Part.advanceQueue
    have := heldCount_le (i := i) p
    have := heldCount_le (i := i) (p.beginEntry i e)
    refine runHead_fuel _ _ _ ?_ ?_
    · have : Part.headFuel p i = (p.line i).queue.length + p.heldCount i + 1 := rfl
      omega
    · unfold Part.headFuel; omega

theorem advanceQueue_acting (p : Part) (h : (p.line i).acting ≠ none) : p.advanceQueue i = p := runHead_acting _ _ h

theorem advanceQueue_stop (p : Part) (h : (p.line i).state.sends = false) : p.advanceQueue i = p := runHead_stop _ _ h

theorem sends_iff (x : LineState) : x.sends = true ↔ x = .drive ∨ x = .drain := by cases x <;> simp [LineState.sends]

theorem leaveHead_eq (p : Part) :
    p.leaveHead i = { p.releaseHold i with lines := p.lines.set i ((p.line i).headLeft (p.heldEntries i)) } := by
  unfold Part.leaveHead Part.takeHeld Part.releaseHold Part.heldEntries Part.heldFor
  rcases hh : p.held with _ | h
  · simp only [show (p.onLine i fun l => { l with queue := l.queue.tail, acting := none }).held = none from hh]
    rw [onLine_eq]; simp [Line.headLeft]; rfl
  · simp only [show (p.onLine i fun l => { l with queue := l.queue.tail, acting := none }).held = some h from hh]
    by_cases hl : h.line = i
    · simp only [if_pos hl]
      simp only [onLine_eq, line_setLine, setLine_setLine]; rfl
    · simp only [if_neg hl]
      rw [onLine_eq]; simp [Line.headLeft]; rfl

/-- A byte sent: counter and tally; word 49 is pending unless the counter is saturated. -/
theorem byteSent_event (p : Part) : LineEvent p (p.byteSent i) i
    { (p.line i).setCounter .bytesSent (satAdd ((p.line i).counter .bytesSent) 1) with
          tallies := { (p.line i).tallies with sent := satAdd (p.line i).tallies.sent 1 } }
     (if (p.line i).counter .bytesSent = 65535 then [] else [49]) := by
  refine ⟨lineStep_byteSent _ _, line_byteSent _ _, fun w hw => ?_⟩
  split at hw
  · simp at hw
  · rename_i h
    simp at hw; subst hw
    have : (ReportWord.lcb i 49, ((p.count i .bytesSent 1).line i).report 49) ∈ (p.count i .bytesSent 1).reports := mem_count_self (i := i) p .bytesSent h
    rw [line_count] at this
    exact this

/-! ### Probe and receiver -/

/-- A probe delivered: the line with its result, and the words that report it. -/
theorem deliverProbe_event (p : Part) (k : Probe) (r : ProbeResult) (n : Nat) : LineEvent p (p.deliverProbe i k r n) i
   ((p.line i).delivered k r n p.now p.counter)
   ([32, 45] ++ (if (p.line i).flags.getLsbD 2 then [] else [35]) ++ (if k.apply = true ∧ r = .found then [43, 44] else [])) := by
  refine ⟨lineStep_deliverProbe _ _ _ _ _, line_deliverProbe _ _ _ _ _, ?_⟩
  rw [← line_deliverProbe]
  unfold Part.deliverProbe
  extract_lets p1 p2 p3 p4
  have h1 : p1.line i = { p.line i with probe := none } := by simp only [p1]; rw [show ∀ q : Part, (q.queueLcb i 32).line i = q.line i from fun _ => rfl, line_onLine]
  have h2 : p2.line i = { p.line i with probe := none, probeResult := r.toWord n } := by simp only [p2]; rw [show ∀ q : Part, (q.queueLcb i 45).line i = q.line i from fun _ => rfl, line_onLine, h1]
  have h3 : p3.line i = if k.apply = true ∧ r = .found then
        { p.line i with
          probe := none, probeResult := r.toWord n, effDivisor := rateDivisor n, effFraction := 0, generatorStart := p2.now }
      else { p.line i with probe := none, probeResult := r.toWord n } := by
    simp only [p3]
    by_cases h : k.apply = true ∧ r = .found
    · rw [if_pos h, if_pos (by simpa using h), line_setRate, h2]
    · rw [if_neg h, if_neg (by simpa using h), h2]
  have h4 : p4.line i = (p3.line i).offer ⟨.probeDone, r.code, word n, reportedRun k.shortest, word k.edges, p3.counter⟩ := by
    simp only [p4]; rw [line_offer]
  have hr (w : Nat) (hw : w ≠ 35) : ((p4.latch i .probeReady).line i).report w = (p3.line i).report w := by
    rw [line_latch, report_withFlags _ _ _ hw, h4, report_offer]
  have m1 : (ReportWord.lcb i 32, (p1.line i).report 32) ∈ p1.reports := mem_queueLcb_self _ _
  have m2 : (ReportWord.lcb i 45, (p2.line i).report 45) ∈ p2.reports := mem_queueLcb_self _ _
  have m2' : (ReportWord.lcb i 32, (p1.line i).report 32) ∈ p2.reports := (mem_queueLcb_ne _ _ _ _ (by decide)).2 m1
  have keep3 (w v) (hw : w ≠ 43) (hw' : w ≠ 44) (h : (ReportWord.lcb i w, v) ∈ p2.reports) : (ReportWord.lcb i w, v) ∈ p3.reports := by
    simp only [p3]
    split
    · show (ReportWord.lcb i w, v) ∈ (Part.queueLcb (Part.queueLcb _ i 43) i 44).reports
      rw [mem_queueLcb_ne _ _ _ _ hw', mem_queueLcb_ne _ _ _ _ hw]; exact h
    · exact h
  have e32 : (p3.line i).report 32 = (p1.line i).report 32 := by rw [h3, h1]; split <;> rfl
  have e45 : (p3.line i).report 45 = (p2.line i).report 45 := by rw [h3, h2]; split <;> rfl
  intro w hw
  rcases List.mem_append.1 hw with hw | hw
  · rcases List.mem_append.1 hw with hw | hw
    · have : w = 32 ∨ w = 45 := by simpa using hw
      rcases this with rfl | rfl
      · rw [hr _ (by decide), mem_latch_ne _ _ _ _ (by decide), e32]; exact keep3 _ _ (by decide) (by decide) m2'
      · rw [hr _ (by decide), mem_latch_ne _ _ _ _ (by decide), e45]; exact keep3 _ _ (by decide) (by decide) m2
    · split at hw
      · simp at hw
      · rename_i h
        simp at hw; subst hw
        refine mem_latch_self (i := i) p4 .probeReady ?_
        rw [h4, offer_flags, h3]
        have : (if k.apply = true ∧ r = .found then ({ p.line i with
          probe := none, probeResult := r.toWord n, effDivisor := rateDivisor n, effFraction := 0, generatorStart := p2.now } : Line)
          else { p.line i with probe := none, probeResult := r.toWord n }).flags = (p.line i).flags := by split <;> rfl
        rw [this]; exact (by simpa using h : (p.line i).flags.getLsbD 2 = false)
  · split at hw
    · rename_i h
      have hw' : w = 43 ∨ w = 44 := by simpa using hw
      have hne : w ≠ 35 := by rcases hw' with rfl | rfl <;> decide
      rw [hr _ hne, mem_latch_ne _ _ _ _ hne]
      have : p3 = p2.setRate i (rateDivisor n) 0 := by simp only [p3]; rw [if_pos (by simpa using h)]
      rw [show p4.reports = p3.reports from rfl, this]
      exact mem_setRate p2 _ _ _ hw'
    · simp at hw

theorem countsFall_iff (p : Part) : p.countsFall i = true ↔
    p.rxPin[i] = .mark ∧ (∀ u, p.taken.rx[i] = some u → u + 2 ≤ p.now) ∧
      p.hasLine i = true ∧ (p.line i).state ≠ .off ∧ (p.line i).openCondition = false := by
  unfold Part.countsFall Part.listening Part.active canTake
  cases p.taken.rx[i] with
  | none => simp [and_assoc]
  | some u =>
    have : decide (u + Config.holdPeriods ≤ p.now) = true ↔ u + 2 ≤ p.now := by
      rw [decide_eq_true_iff]
      exact Iff.rfl
    simp only [Bool.and_eq_true, beq_iff_eq, this, Option.some.injEq, forall_eq', bne_iff_ne, Bool.not_eq_eq_eq_not,
      Bool.not_true, and_assoc]

theorem receiver_fall_eq (r : Machine.Receiver) (now bt : Nat) : r.fall now bt = (match r with
             | .hunt none => .hunt (some now)
             | .hunt (some e) => .hunt (some (if e + bt / 2 < now then now else e))
             | .frame f => .frame { (f.fill .mark now) with lastFall := now }
             | x => x) := by
  rcases r with _ | e | _ | _ | _ <;> try rfl
  cases e with
  | none => rfl
  | some e => simp only [Receiver.fall]; split <;> rfl

theorem offer_withReceiver (l : Line) (r e) : Line.offer { l with receiver := r } e = { l.offer e with receiver := r } := by
  have hc : Line.closeOpen { l with receiver := r } = { l.closeOpen with receiver := r } := by
    simp only [Line.closeOpen]
    have : Line.openBuffer { l with receiver := r } = l.openBuffer := rfl
    rw [this]; split <;> rfl
  simp only [Line.offer, hc]
  split
  · rfl
  · simp only [show Line.pendingEvents { l.closeOpen with receiver := r } = l.closeOpen.pendingEvents from rfl]
    split <;> rfl

theorem shorter_eq (x : Option Nat) (n : Nat) : shorter x n = some (min (x.getD n) n) := by
  cases x with
  | none => simp [shorter]
  | some m => simp only [shorter, Option.getD_some]; split <;> congr 1 <;> omega

theorem probeRise_eq (l : Line) (now : Nat) : l.probeRise now = { l with probe :=
             match l.probe with
             | some ⟨apply, start, edges, shortest, some t⟩ =>
               some ⟨apply, start, edges, some (min (shortest.getD (now - t)) (now - t)), none⟩
             | x => x } := by
  unfold Line.probeRise
  rcases h : l.probe with _ | ⟨a, b, c, d, _ | t⟩
  · dsimp only; rw [← h]
  · dsimp only; rw [← h]
  · dsimp only; rw [shorter_eq]

theorem report_withReceiver (l : Line) (r w) : Line.report { l with receiver := r } w = l.report w := rfl

end Sys2Proof.Machine
end

