-- ==== Sys2Proof/Laws/Events.lean ====
section
/-! SUPPORT. What every event of one line keeps: it reports each report word that it changes (R17), makes no word pending twice,
and leaves the other lines, the part state, the map and a closing write alone. -/

namespace Sys2Proof.Machine

variable {i : LineNo}

/-- From `p` to `q` an event of line `i`: what it changes is reported, no word becomes pending twice, the other lines, the part
state, the map and a closing write are as they were. -/
structure Affects (i : LineNo) (p q : Part) : Prop where
  reported : Reported p q
  keys : Keyed p → Keyed q
  closing : q.closing = p.closing
  map : q.map = p.map
  other : ∀ j, j ≠ i → q.line j = p.line j
  state : q.state = p.state

theorem Affects.refl (p : Part) : Affects i p p := ⟨.refl p, id, rfl, rfl, fun _ _ => rfl, rfl⟩

theorem Affects.trans {p q r : Part} (h : Affects i p q) (k : Affects i q r) : Affects i p r :=
  ⟨h.reported.trans k.reported, fun x => k.keys (h.keys x), k.closing.trans h.closing, k.map.trans h.map,
      fun j hj => (k.other j hj).trans (h.other j hj), k.state.trans h.state⟩

/-- A noted change of a line is such an event. -/
theorem Affects.of {p q : Part} (h : Noted i p q) : Affects i p q :=
  ⟨h.reported, h.keys, h.step.closing, h.step.map, h.step.2.1, h.step.state⟩

/-- So is a change beyond the lines, the report words and the pending set. -/
theorem Affects.same {p q : Part} (hl : q.lines = p.lines) (hs : q.state = p.state) (hm : q.map = p.map)
    (hc : q.resetCause = p.resetCause) (hh : q.handsOff = p.handsOff) (hf : q.forced = p.forced) (hb : q.blocked = p.blocked)
    (hk : q.closing = p.closing) (hr : q.reports = p.reports) : Affects i p q :=
  ⟨Reported.of_same (.refl q) (reportValue_part hl hs hm hc hh hf hb) hr, by unfold Keyed; rw [hr]; exact id, hk, hm,
      fun j _ => by simp only [Part.line, hl], hs⟩

theorem Affects.ite {p q r : Part} {c : Prop} [Decidable c] (h : Affects i p q) (k : Affects i p r) :
    Affects i p (if c then q else r) := by
  split <;> assumption

theorem affects_forward (p : Part) (a) : Affects i p (p.forward a) := .same rfl rfl rfl rfl rfl rfl rfl rfl rfl

theorem affects_at (p : Part) (t) : Affects i p (p.at t) := .same rfl rfl rfl rfl rfl rfl rfl rfl rfl

theorem affects_setFlight (p : Part) (t) : Affects i p (p.setFlight t) := .same rfl rfl rfl rfl rfl rfl rfl rfl rfl

theorem affects_releaseHold (p : Part) : Affects i p (p.releaseHold i) := by
  unfold Part.releaseHold; split
  · exact .same rfl rfl rfl rfl rfl rfl rfl rfl rfl
  · exact .refl p

theorem affects_enterRelease (p : Part) (t c) : Affects i p (p.enterRelease i t c) :=
    (affects_releaseHold p).trans (.of (noted_enterRelease p i t c))

theorem affects_leaveHead (p : Part) : Affects i p (p.leaveHead i) := (affects_releaseHold p).trans (.of (noted_leaveHead p))

theorem affects_beginEntry (p : Part) (e : Entry) : Affects i p (p.beginEntry i e) := by
  have leave : ∀ q : Part, Noted i p q → Affects i p (q.leaveHead i) := fun q h => (Affects.of h).trans (affects_leaveHead q)
  obtain ⟨kind, v⟩ := e
  cases kind with
  | data => exact .of (noted_setActing p _)
  | pause => exact .of (noted_setActing p _)
  | rate => exact leave _ (noted_setRate p i _ _)
  | brk =>
    show Affects i p (p.headBreak i v)
    unfold Part.headBreak
    extract_lets l q
    have hq : Noted i p q := .ite (noted_setCredit p i _) (.refl i p)
    split
    · exact .of (hq.trans (noted_setActing q _))
    · exact leave _ ((noted_count p i _ 1).trans (noted_refuseEntry _ i))
  | fence =>
    have tag : ∀ q : Part, Noted i q ((q.onLine i fun l => { l with fenceTag := v }).queueLcb i 53) := fun q =>
      (Noting.queueLcb ((Noting.start i [] q).onLine _ [53] fun w hw _ => by
        apply reportValue_congr <;> intros <;> first | rfl | simp_all)).still (by rw [line_queueLcb, line_onLine]; rfl)
    exact leave _ ((((noted_offer p i _ _ _ _ _).trans (noted_zeroTallies _ _)).trans (noted_latch _ i _)).trans (tag _))
  | drop =>
    have h : Noted i p (p.onLine i fun l => { l with queue := l.queue.tail, acting := none }) :=
        noted_onLine p i _ rfl fun _ => rfl
    exact (Affects.of h).trans (affects_enterRelease _ _ _)

/-- The queue that advances is such an event, whatever entries act. -/
theorem affects_runHead (n : Nat) (p : Part) : Affects i p (Part.runHead n p i) := by
  induction n generalizing p with
  | zero => exact .refl p
  | succ n ih =>
    simp only [Part.runHead]
    split
    · split
      · split
        · exact affects_enterRelease p _ _
        · exact .refl p
      · exact (affects_beginEntry p _).trans (ih _)
    · exact .refl p

theorem affects_advanceQueue (p : Part) : Affects i p (p.advanceQueue i) := affects_runHead _ p

theorem affects_onLine (p : Part) (f : Line → Line) (hs : (f (p.line i)).summary = (p.line i).summary) (h :
    ∀ w, (f (p.line i)).reportValue? w = (p.line i).reportValue? w) : Affects i p (p.onLine i f) :=
  .of (noted_onLine p i f hs h)

theorem affects_stepDropped (p : Part) : Affects i p (p.stepDropped i) := by
  obtain ⟨w, h⟩ := stepDropped_eq (i := i) p; rw [h]; exact .same rfl rfl rfl rfl rfl rfl rfl rfl rfl

theorem affects_listenToOff (p : Part) (c) : Affects i p (p.listenToOff i c) :=
    (affects_stepDropped p).trans (.of (noted_listenToOff p c))

theorem affects_refuseHeld (p : Part) : Affects i p (p.refuseHeld i) :=
    (affects_releaseHold p).trans (.of (noted_refuseHeld p i))

theorem affects_discardQueue (p : Part) : Affects i p (p.discardQueue i) :=
    (affects_releaseHold p).trans (.of (noted_discardQueue p i))

theorem affects_queueLcb (p : Part) (k) : Affects i p (p.queueLcb i k) := .of (noted_queueLcb p i k)

theorem affects_but (p q : Part) (h : NotedBut i [32] p q) : Affects i p (q.queueLcb i 32) := .of h.queueLcb

theorem affects_enterDrain (p : Part) : Affects i p (p.enterDrain i) := by
  unfold Part.enterDrain
  extract_lets q
  have n : NotedBut i [32] (p.releaseHold i) q := by
    have a : NotedBut i [32] p (p.onLine i fun l => { l with state := .drain }) := by
      refine but_onLine p i _ rfl fun w hw => ?_
      apply reportValue_congr <;> intros <;> first | rfl | simp_all
    exact (a.releaseHold).trans (.ofNoted _ (noted_refuseHeld _ i))
  split
  · have hx := noted_enterRelease q i .listen .request
    have k : NotedBut i [32] (q.releaseHold i) (q.enterRelease i .listen .request) := .ofNoted _ hx
    have n2 := (n.releaseHold).trans k
    exact ((affects_releaseHold p).trans (affects_releaseHold _)).trans (.of (n2.pending (mem_enterRelease q i _ _)))
  · exact (affects_releaseHold p).trans (.of n.queueLcb)

theorem affects_enterSettle (p : Part) : Affects i p (p.enterSettle i) := by
  unfold Part.enterSettle
  extract_lets q
  have n : NotedBut i [32] p q := by
    refine but_onLine p i _ rfl fun w hw => ?_
    apply reportValue_congr <;> intros <;> first | rfl | simp_all
  have m : Noted i p (q.queueLcb i 32) := n.queueLcb
  have e : Part.queueLcb { q with markHold := q.markHold.set i none } i 32 =
      { q.queueLcb i 32 with markHold := q.markHold.set i none } := rfl
  rw [e]
  exact (Affects.of m).trans (.same rfl rfl rfl rfl rfl rfl rfl rfl rfl)

theorem affects_requestFromOff (p : Part) (b) : Affects i p (p.requestFromOff i b).1 := by
  unfold Part.requestFromOff; split
  · exact .refl p
  · split
    · exact .refl p
    · cases b
      · exact .of (noted_enterFresh p i)
      · exact .of (noted_enterResuming p i)

/-- A mode request, whatever it asks and in whatever line state. -/
theorem affects_decideRequest (p : Part) (v) : Affects i p (p.decideRequest i v).1 := by
  unfold Part.decideRequest
  split; · exact .refl p
  split
  · unfold Part.requestOff; split
    · exact .refl p
    · exact affects_listenToOff p _
    · exact .of (noted_retarget p i _ _)
    · exact affects_enterRelease p _ _
  split
  · unfold Part.requestListen; split
    · exact affects_requestFromOff p _
    · exact .refl p
    · exact affects_enterRelease p _ _
    · exact affects_enterDrain p
    · exact .refl p
    · exact .of (noted_retarget p i _ _)
  split
  · unfold Part.requestResume; split
    · exact affects_requestFromOff p _
    · exact .refl p
  split
  · unfold Part.requestDrive; dsimp only
    split
    · exact .refl p
    · split; · exact .refl p
      split; · exact .refl p
      exact affects_enterSettle p
    · exact .of (noted_enterDrive p i _)
    · exact .refl p
    · exact .refl p
  · exact .refl p

theorem affects_takeRequest (p : Part) (v) : Affects i p (p.takeRequest i v) := by
  unfold Part.takeRequest
  extract_lets d
  have h0 : Affects i p (p.setShadow i 0 v) := .of (noted_setShadow p i 0 v (by decide) (by decide))
  refine (h0.trans (affects_decideRequest _ v)).trans (.of ?_)
  exact (Noting.queueLcb ((Noting.start i [] d.1).onLine _ [33] fun w hw _ => by
        apply reportValue_congr <;> intros <;> first | rfl | simp_all)).still (by rw [line_queueLcb, line_onLine]; rfl)

theorem affects_flushRing (p : Part) : Affects i p (p.flushRing i) := by
  cases h : (p.line i).ring with
  | present r =>
    have n := noted_flushRing p r h
    have : Affects i p (p.readOvertaken i) := by
      unfold Part.readOvertaken; split
      · exact .same rfl rfl rfl rfl rfl rfl rfl rfl rfl
      · exact .refl p
    exact this.trans (.of n)
  | _ => unfold Part.flushRing; simp only [Line.ring?, h]; exact .refl p

/-- A command, whatever it asks and in whatever line state. -/
theorem affects_decideCommand (p : Part) (v) : Affects i p (p.decideCommand i v).1 := by
  unfold Part.decideCommand
  have pr : ∀ b, Affects i p (p.commandProbe i b).1 := by
    intro b; unfold Part.commandProbe; split
    · split
      · exact .refl p
      · exact .of (noted_startProbe p i b)
    · exact .refl p
  split; · exact .refl p
  split; · exact .of (noted_closeOpen p i)
  split
  · unfold Part.commandFlush; split; · exact .refl p
    split; · exact .refl p
    exact affects_flushRing p
  split; · exact pr _
  split; · exact pr _
  split
  · unfold Part.commandDiscard; split
    · dsimp only; split
      · exact (affects_discardQueue p).trans (affects_enterRelease _ _ _)
      · exact affects_discardQueue p
    · exact .refl p
  split
  · exact .of ((Noting.queueLcbs ((Noting.start i [] p).onLine _ [46, 47, 48, 49, 50, 51, 52] 
        fun w hw _ => by
          apply reportValue_congr <;> intros <;>
            first | rfl | (simp only [List.mem_cons, not_or] at hw; omega))).still (by rw [line_queueLcbs, line_onLine]; rfl))
  · exact .refl p

theorem affects_takeCommand (p : Part) (v) : Affects i p (p.takeCommand i v) := by
  unfold Part.takeCommand
  extract_lets d
  have h0 : Affects i p (p.setShadow i 1 v) := .of (noted_setShadow p i 1 v (by decide) (by decide))
  refine (h0.trans (affects_decideCommand _ v)).trans (.of ?_)
  exact (Noting.queueLcb ((Noting.start i [] d.1).onLine _ [34] fun w hw _ => by
        apply reportValue_congr <;> intros <;> first | rfl | simp_all)).still (by rw [line_queueLcb, line_onLine]; rfl)

/-! ### Events of a line that may be absent -/

/-- An event of line `i` that leaves an absent line at its initial values (log 26). -/
def AffectsLine (i : LineNo) (p q : Part) : Prop :=
    Affects i p q ∧ (p.hasLine i = true ∨ (p.line i = Line.initial → q.line i = Line.initial))

theorem AffectsLine.has {p q : Part} (h : Affects i p q) (k : p.hasLine i = true) : AffectsLine i p q := ⟨h, .inl k⟩

theorem AffectsLine.refl (p : Part) : AffectsLine i p p := ⟨.refl p, .inr id⟩

/-- An event that leaves a line with initial values alone. -/
theorem affectsLine_of {p q : Part} (h : Affects i p q) (k : p.line i = Line.initial → q = p) : AffectsLine i p q :=
    ⟨h, .inr fun e => by rw [k e]; exact e⟩

theorem affects_placeByte (p : Part) (b) : Affects i p (p.placeByte i b) := .of (noted_placeByte p i b)

theorem affects_receiver (p : Part) (f : Line → Receiver) : Affects i p (p.onLine i fun l => { l with receiver := f l }) :=
    .of (noted_receiver p i f)

theorem affectsLine_expireSettle (p : Part) : AffectsLine i p (p.expireSettle i) := by
  refine affectsLine_of ?_ fun e => by simp [Part.expireSettle, e, Line.initial]
  unfold Part.expireSettle; split
  · split
    · exact ((affects_at p _).trans (.of (noted_enterDrive _ i _))).trans (affects_advanceQueue _)
    · exact .refl p
  · exact .refl p

theorem affectsLine_expireRelease (p : Part) : AffectsLine i p (p.expireRelease i) := by
  refine affectsLine_of ?_ fun e => by simp [Part.expireRelease, e, Line.initial]
  unfold Part.expireRelease; split
  · split
    · extract_lets q r
      have hq : Affects i p q := affects_at p _
      refine hq.trans ?_
      split
      · exact .of (noted_enterOff _ i _)
      · have n : NotedBut i [32] q r := by
          refine but_onLine q i _ rfl fun w hw => ?_
          apply reportValue_congr <;> intros <;> first | rfl | simp_all
        exact .of ((n.trans (.ofNoted _ (noted_offerMode r i _ _ _ _))).queueLcb)
    · exact .refl p
  · exact .refl p

theorem affectsLine_completeByte (p : Part) : AffectsLine i p (p.completeByte i) := by
  refine affectsLine_of ?_ fun e => by simp [Part.completeByte, e, Line.initial]
  unfold Part.completeByte; split
  · extract_lets q
    have h : Affects i p q := ((affects_at p _).trans (.of (noted_byteSent _ i))).trans (affects_leaveHead _)
    split
    · exact h.trans (.of (noted_onLine q i _ rfl fun _ => rfl))
    · exact h.trans (affects_advanceQueue _)
  · exact .refl p

theorem affectsLine_endBreakSpace (p : Part) : AffectsLine i p (p.endBreakSpace i) := by
  refine affectsLine_of ?_ fun e => by simp [Part.endBreakSpace, e, Line.initial]
  unfold Part.endBreakSpace; split
  · exact (affects_at p _).trans (.of (noted_setActing _ _))
  · exact .refl p

theorem affectsLine_endBreakMark (p : Part) : AffectsLine i p (p.endBreakMark i) := by
  refine affectsLine_of ?_ fun e => by simp [Part.endBreakMark, e, Line.initial]
  unfold Part.endBreakMark; split
  · exact ((affects_at p _).trans (affects_leaveHead _)).trans (affects_advanceQueue _)
  · exact .refl p

theorem affectsLine_endPause (p : Part) : AffectsLine i p (p.endPause i) := by
  refine affectsLine_of ?_ fun e => by simp [Part.endPause, e, Line.initial]
  unfold Part.endPause; split
  · exact ((affects_at p _).trans (affects_leaveHead _)).trans (affects_advanceQueue _)
  · exact .refl p

theorem hasLine_of_active {p : Part} (h : p.active i = true) : p.hasLine i = true := by simp [Part.active] at h; exact h.1

theorem hasLine_of_listening {p : Part} (h : p.listening i = true) : p.hasLine i = true :=
    by simp [Part.listening] at h; exact hasLine_of_active h.1

theorem AffectsLine.trans {p q r : Part} (h : AffectsLine i p q) (k : AffectsLine i q r) : AffectsLine i p r :=
  ⟨h.1.trans k.1, by
    have e := hasLine_of_map _ _ h.1.map i
    rcases h.2 with a | a
    · exact .inl a
    · rcases k.2 with b | b
      · exact .inl (by rw [← e]; exact b)
      · exact .inr fun x => b (a x)⟩

/-- An event after a change beyond the line. -/
theorem affectsLine_after {p q r : Part} (h : Affects i p q) (hl : q.line i = p.line i) (k : AffectsLine i q r) :
    AffectsLine i p r :=
  ⟨h.trans k.1, by
    rcases k.2 with k | k
    · exact .inl (by rw [← hasLine_of_map _ _ h.map i]; exact k)
    · exact .inr fun e => k (hl.trans e)⟩

theorem affectsLine_rxFalls (p : Part) (w) : AffectsLine i p (p.rxFalls i w) := by
  unfold Part.rxFalls; split; · exact .refl p
  extract_lets q
  have h : Affects i p q := .same rfl rfl rfl rfl rfl rfl rfl rfl rfl
  refine affectsLine_after h rfl ?_
  split
  · rename_i hl
    exact .has ((Affects.of (noted_onLine q i _ rfl fun _ => rfl)).trans (.of (noted_probeFall _ i))) (hasLine_of_listening hl)
  · exact .refl _

theorem affectsLine_rxRises (p : Part) (w) : AffectsLine i p (p.rxRises i w) := by
  unfold Part.rxRises; split; · exact .refl p
  extract_lets q r
  have h : Affects i p q := .same rfl rfl rfl rfl rfl rfl rfl rfl rfl
  refine affectsLine_after h rfl ?_
  split
  · rename_i hl
    have k : Affects i q r := .of (noted_onLine q i _ (probeRise_hidden _ _).1 (fun w => (probeRise_hidden _ _).2 w))
    exact .has ((k.trans (.of (noted_setConditions _ i _ _))).trans (.of (noted_receiverRises _ i))) (hasLine_of_listening hl)
  · exact .refl _

theorem affectsLine_sampleStart (p : Part) : AffectsLine i p (p.sampleStart i) := by
  refine affectsLine_of ?_ fun e => by simp [Part.sampleStart, e, Line.initial]
  unfold Part.sampleStart; split
  · extract_lets q
    have hq : Affects i p q := affects_at p _
    refine hq.trans ?_
    split
    · exact .of (noted_takeStartBit _ i _)
    · exact affects_receiver _ _
  · exact .refl p

theorem affectsLine_byteArrives (p : Part) : AffectsLine i p (p.byteArrives i) := by
  refine affectsLine_of ?_ fun e => by simp [Part.byteArrives, e, Line.initial]
  unfold Part.byteArrives; split
  · extract_lets q
    have hq : Affects i p q := affects_at p _
    refine hq.trans ?_
    unfold Part.finishFrame
    extract_lets b go
    split
    · split
      · exact (affects_receiver _ fun _ => _).trans (affects_placeByte _ _)
      · exact affects_receiver _ fun _ => _
    · exact (affects_receiver _ fun _ => _).trans (affects_placeByte _ _)
  · exact .refl p

theorem affectsLine_breakStarts (p : Part) : AffectsLine i p (p.breakStarts i) := by
  refine affectsLine_of ?_ fun e => by simp [Part.breakStarts, e, Line.initial]
  unfold Part.breakStarts; split
  · exact ((affects_at p _).trans (.of (noted_closeOpen _ i))).trans (.of (noted_onLine _ i _ rfl fun _ => rfl))
  · exact .refl p

theorem affectsLine_gapExpires (p : Part) : AffectsLine i p (p.gapExpires i) := by
  refine affectsLine_of ?_ fun e => by simp [Part.gapExpires, e, Line.initial]
  unfold Part.gapExpires; split
  · exact ((affects_at p _).trans (.of (noted_closeOpen _ i))).trans (.of (noted_onLine _ i _ rfl fun _ => rfl))
  · exact .refl p

theorem affectsLine_quietExpires (p : Part) : AffectsLine i p (p.quietExpires i) := by
  refine affectsLine_of ?_ fun e => by simp [Part.quietExpires, e, Line.initial]
  unfold Part.quietExpires; split
  · exact (affects_at p _).trans (.of (noted_onLine _ i _ rfl fun _ => rfl))
  · exact .refl p

theorem affectsLine_probeTimesOut (p : Part) (b) : AffectsLine i p (p.probeTimesOut i b) := by
  refine affectsLine_of ?_ fun e => by simp [Part.probeTimesOut, e, Line.initial]
  unfold Part.probeTimesOut; split
  · exact (affects_at p _).trans (.of (noted_endProbe _ i _))
  · exact .refl p

/-- The 5 s expiry with the falling edge that comes together with it, if any. -/
theorem affectsLine_probeExpires (p : Part) (b) : AffectsLine i p (p.probeExpires i b) := by
  unfold Part.probeExpires
  extract_lets q
  have h : AffectsLine i p q := affectsLine_probeTimesOut p b
  split
  · exact h.trans (affectsLine_rxFalls q 0)
  · exact h

theorem affectsLine_signalFalls (p : Part) : AffectsLine i p (p.signalFalls i) := by
  unfold Part.signalFalls; split
  · extract_lets q
    have hq : Affects i p q := .same rfl rfl rfl rfl rfl rfl rfl rfl rfl
    refine affectsLine_after hq rfl ?_
    split
    · rename_i h
      refine .has (.of (noted_onLine q i _ ?_ fun w => ?_)) (hasLine_of_active h)
      · split <;> rfl
      · split <;> rfl
    · exact .refl q
  · exact .refl p

theorem affectsLine_signalRises (p : Part) : AffectsLine i p (p.signalRises i) := by
  unfold Part.signalRises; split
  · exact .refl p
  · extract_lets q
    have hq : Affects i p q := .same rfl rfl rfl rfl rfl rfl rfl rfl rfl
    refine affectsLine_after hq rfl ?_
    split
    · rename_i h
      refine .has (.of (noted_onLine q i _ ?_ fun w => ?_)) (hasLine_of_active h)
      · split <;> rfl
      · split <;> rfl
    · exact .refl q

theorem affectsLine_lineOpens (p : Part) : AffectsLine i p (p.lineOpens i) := by
  cases h : (p.line i).invalidRun with
  | none => unfold Part.lineOpens; rw [h]; exact .refl p
  | some t =>
    by_cases hl : p.listening i = true
    · exact .has ((affects_at p t).trans (.of (noted_lineOpens p i t h hl))) (hasLine_of_listening hl)
    · unfold Part.lineOpens; rw [h]; dsimp only; rw [if_neg hl]; exact .refl p

theorem affectsLine_becomesStuck (p : Part) : AffectsLine i p (p.becomesStuck i) := by
  cases h : (p.line i).spaceTimer with
  | none => unfold Part.becomesStuck; rw [h]; exact .refl p
  | some t =>
    by_cases hl : p.listening i = true
    · exact .has ((affects_at p t).trans (.of (noted_becomesStuck p i t h hl))) (hasLine_of_listening hl)
    · unfold Part.becomesStuck; rw [h]; dsimp only; rw [if_neg hl]; exact .refl p

theorem affectsLine_lineRestores (p : Part) : AffectsLine i p (p.lineRestores i) := by
  cases h : (p.line i).validRun with
  | none => unfold Part.lineRestores; rw [h]; exact .refl p
  | some t =>
    by_cases ha : p.active i = true
    · by_cases ho : (p.line i).openCondition = true
      · exact .has ((affects_at p t).trans (.of (noted_lineRestores p i t h ha ho))) (hasLine_of_active ha)
      · unfold Part.lineRestores; rw [h]; dsimp only; rw [if_neg (by simp [ho])]; exact .refl p
    · unfold Part.lineRestores; rw [h]; dsimp only; rw [if_neg (by simp [ha])]; exact .refl p

theorem affectsLine_lapseLease (p : Part) : AffectsLine i p (p.lapseLease i) := by
  refine affectsLine_of ?_ fun e => by simp [Part.lapseLease, e, Line.initial, Line.ring?]
  unfold Part.lapseLease Line.ring?
  split
  · rename_i r hr
    have hr' : (p.line i).ring = .present r := by
      cases h : (p.line i).ring with
      | present x => rw [h] at hr; cases hr; rfl
      | _ => rw [h] at hr; cases hr
    split
    · rename_i n t hlease
      have a : Affects i (p.at t) ((p.at t).setRing i { r with lease := .opened n none }) :=
          .of (noted_setRing _ i r _ hr' rfl ⟨rfl, rfl, rfl, rfl, rfl, rfl⟩)
      exact ((affects_at p t).trans a).trans (.of (noted_unpark _ i))
    · exact .refl p
  · exact .refl p

theorem affectsLine_expireCoalesce (p : Part) : AffectsLine i p (p.expireCoalesce i) := by
  refine affectsLine_of ?_ fun e => by simp [Part.expireCoalesce, e, Line.initial, Line.ring?]
  cases h : (p.line i).ring with
  | present r =>
    cases hc : r.coalesce with
    | running t => exact (affects_at p t).trans (.of (noted_expireCoalesce p i r t h hc))
    | _ => simp only [Part.expireCoalesce, Line.ring?, h, hc]; exact .refl p
  | _ => simp only [Part.expireCoalesce, Line.ring?, h]; exact .refl p

theorem present_of_ring {l : Line} {r : Ring} (h : l.ring? = some r) : l.ring = .present r := by
  unfold Line.ring? at h; split at h
  · rename_i hh; cases h; exact hh
  · cases h

/-- The space check, whatever follows it. -/
theorem affects_spaceCheck (p : Part) (job) : Affects i p (p.spaceCheck i job) := by
  unfold Part.spaceCheck
  extract_lets l
  split
  · exact affects_setFlight p _
  · rename_i r hr
    have hr' : (p.line i).ring = .present r := present_of_ring hr
    extract_lets lay
    split
    · split
      · exact affects_setFlight p _
      · unfold Part.startGap
        extract_lets ws q
        have n : Affects i p q := by
          have a := noted_setRing p i r { r with discardRecords := 0, discardBytes := 0 } hr' rfl ⟨rfl, rfl, rfl, rfl, rfl, rfl⟩
          have b := noted_onLine (p.setRing i { r with discardRecords := 0, discardBytes :=
              0 }) i (fun l => { l with droppedEvents := 0 }) rfl (fun _ => rfl)
          have := a.trans b
          simp only [Part.setRing, onLine_eq, line_setLine, setLine_setLine] at this
          simp only [q, onLine_eq]
          exact .of this
        exact n.trans (affects_setFlight _ _)
    · split
      · unfold Part.makeRoom; split
        · exact (Affects.of (noted_onLine p i _ rfl fun _ => rfl)).trans (affects_setFlight _ _)
        · exact affects_setFlight _ _
      · have := noted_discardJob p r job hr'
        exact (show Affects i p { p with writer :=
            ⟨none, p.writer.pointer⟩ } from .same rfl rfl rfl rfl rfl rfl rfl rfl rfl).trans (.of this)

theorem affectsLine_spaceCheck (p : Part) (job) : AffectsLine i p (p.spaceCheck i job) :=
  ⟨affects_spaceCheck p job, .inr fun e => by simp [Part.spaceCheck, e, Line.initial, Line.ring?]⟩

theorem affectsLine_reclaimReturns (p : Part) (job n o d) : AffectsLine i p (p.reclaimReturns i job n o d) := by
  refine ⟨?_, .inr fun e => by simp [Part.reclaimReturns, e, Line.initial, Line.ring?]⟩
  unfold Part.reclaimReturns
  split
  · exact affects_setFlight p _
  · rename_i r hr
    split
    · exact affects_spaceCheck p _
    · split
      · exact (Affects.of (noted_reclaim p i r _ (present_of_ring hr))).trans (affects_spaceCheck _ _)
      · exact (Affects.of (noted_corruptRing p i _)).trans (affects_spaceCheck _ _)

theorem affectsLine_commitRecord (p : Part) (w) : AffectsLine i p (p.commitRecord i w) := by
  refine ⟨?_, .inr fun e => by simp [Part.commitRecord, e, Line.initial, Line.ring?]⟩
  unfold Part.commitRecord
  split
  · exact affects_setFlight p _
  · rename_i r hr
    extract_lets q
    have h : Affects i p q := .of (noted_commitRing p i r _ _ _ (present_of_ring hr))
    split
    · split
      · exact h.trans (affects_setFlight _ _)
      · exact h.trans (affects_setFlight _ _)
    · refine (h.trans (Affects.of (noted_onLine q i _ ?_ fun _ => ?_))).trans (affects_setFlight _ _)
      · unfold Line.freeJob; split <;> rfl
      · unfold Line.freeJob; split <;> rfl

theorem affects_walkContinues (p : Part) (run) (h : (p.line i).walk.isSome = true) : Affects i p (p.walkContinues i run) :=
    .of (noted_walkContinues p i run h)

/-- A walk read that returns. -/
theorem affectsLine_walkReturns (p : Part) (got a d) : AffectsLine i p (p.walkReturns i got a d) := by
  refine ⟨?_, .inr fun e => ?_⟩
  · unfold Part.walkReturns; split; · exact affects_setFlight _ _
    split
    · refine (affects_setFlight p none).trans ?_
      generalize p.setFlight none = q
      unfold Part.walkStep; split
      · rename_i hw _
        unfold Part.walkPointers; extract_lets size; split
        · exact affects_walkContinues _ _ (by simp [hw])
        · exact .of (noted_walkFails q i _)
      · rename_i hw _
        unfold Part.walkHeader; extract_lets size k; split
        · exact .of (noted_walkFails q i _)
        · exact affects_walkContinues _ _ (by simp [hw])
      · exact .refl _
    · exact affects_setFlight _ _
  · have hl : ((p.setFlight none).line i).walk = none := by
      show (p.line i).walk = none
      rw [e]; rfl
    unfold Part.walkReturns; split; · exact e
    split
    · unfold Part.walkStep; rw [hl]; exact e
    · exact e

/-- The writer selects the work of some line. -/
theorem affectsLine_writerSelects (p : Part) : ∃ j, AffectsLine j p p.writerSelects := by
  unfold Part.writerSelects
  split
  · rename_i j hf hs
    have hj : p.hasLine j = true := by
      unfold Part.selected at hs
      have := List.find?_some hs
      simp [Part.offersWork] at this
      exact this.1.1
    refine ⟨j, ?_⟩
    split
    · rename_i w _
      refine .has ?_ hj
      refine (show Affects j p { p with writer := { p.writer with pointer := some j } } from
          .same rfl rfl rfl rfl rfl rfl rfl rfl rfl).trans ?_
      generalize ({ p with writer := { p.writer with pointer := some j } } : Part) = q
      cases w with
      | walk => exact affects_setFlight _ _
      | retained job => exact (Affects.of (noted_onLine q j _ rfl fun _ => rfl)).trans (affects_spaceCheck _ _)
      | listed job =>
        cases job with
        | data b => exact (Affects.of (noted_onLine q j _ rfl fun _ => rfl)).trans (affects_spaceCheck _ _)
        | event e => exact (Affects.of (noted_onLine q j _ rfl fun _ => rfl)).trans (affects_spaceCheck _ _)
    · exact .refl p
  · exact ⟨0, .refl p⟩

end Sys2Proof.Machine
end

