-- ==== Sys2Proof/Laws/Changes.lean ====
section
/-! SUPPORT. What a host access, a snooped read and entry to "ARMED" keep: every report word that changes is reported (R17), none
becomes pending twice, absent lines stay as they were. -/

namespace Sys2Proof.Machine

/-- From `p` to `q` what changes is reported, no word becomes pending twice, absent lines stay as they were, a closing write goes
on. -/
structure Changes (p q : Part) : Prop where
  absent : AbsentInitial p → AbsentInitial q
  reported : Reported p q
  keys : Keyed p → Keyed q
  closing : p.closing = true → q.closing = true

theorem Changes.refl (p : Part) : Changes p p := ⟨id, .refl p, id, id⟩

theorem Changes.trans {p q r : Part} (h : Changes p q) (k : Changes q r) : Changes p r :=
  ⟨fun x => k.absent (h.absent x), h.reported.trans k.reported, fun x => k.keys (h.keys x), fun x => k.closing (h.closing x)⟩

/-- An event of one line is such a change. -/
theorem Changes.ofLine {i} {p q : Part} (h : AffectsLine i p q) : Changes p q := by
  refine ⟨fun ha j hj => ?_, h.1.reported, h.1.keys, fun x => h.1.closing.trans x⟩
  have hj' : p.hasLine j = false := by rw [← hasLine_of_map _ _ h.1.map j]; exact hj
  by_cases e : j = i
  · subst e
    rcases h.2 with k | k
    · rw [k] at hj'; cases hj'
    · exact k (ha j hj')
  · rw [h.1.other j e]; exact ha j hj'

theorem Changes.same {p q : Part} (hl : q.lines = p.lines) (hs : q.state = p.state) (hm : q.map = p.map)
    (hc : q.resetCause = p.resetCause) (hh : q.handsOff = p.handsOff) (hf : q.forced = p.forced) (hb : q.blocked = p.blocked)
    (hk : q.closing = p.closing) (hr : q.reports = p.reports) : Changes p q := by
  have h : Affects 0 p q := .same hl hs hm hc hh hf hb hk hr
  have h1 : Affects 1 p q := .same hl hs hm hc hh hf hb hk hr
  refine ⟨fun ha j hj => ?_, h.reported, h.keys, fun x => h.closing.trans x⟩
  have hj' : p.hasLine j = false := by rw [← hasLine_of_map _ _ h.map j]; exact hj
  have : q.line j = p.line j := by simp only [Part.line, hl]
  rw [this]; exact ha j hj'

theorem changes_forward (p : Part) (a) : Changes p (p.forward a) := .same rfl rfl rfl rfl rfl rfl rfl rfl rfl

/-- `q` is `p` with the words `ws` queued, each that has a value with that value; nothing else has changed. -/
structure Queues (ws : List ReportWord) (p q : Part) : Prop where
  val : ∀ w, q.reportValue? w = p.reportValue? w
  now : ∀ w v, w ∈ ws → p.reportValue? w = some v → (w, v) ∈ q.reports
  rest : ∀ w, w ∉ ws → ∀ u, (w, u) ∈ q.reports ↔ (w, u) ∈ p.reports
  keys : Keyed p → Keyed q
  fr : { q with reports := [] } = { p with reports := [] }

theorem Queues.refl (p : Part) : Queues [] p p := ⟨fun _ => rfl, fun _ _ h => (by cases h), fun _ _ _ => Iff.rfl, id, rfl⟩

theorem Queues.trans {ws vs} {p q r : Part} (h : Queues ws p q) (k : Queues vs q r) : Queues (ws ++ vs) p r := by
  refine ⟨fun w => (k.val w).trans (h.val w), fun w v hw hv => ?_, fun w hw u => ?_, fun x => k.keys (h.keys x),
      k.fr.trans h.fr⟩
  · by_cases hk : w ∈ vs
    · exact k.now w v hk (by rw [h.val]; exact hv)
    · have : w ∈ ws := (List.mem_append.1 hw).resolve_right hk
      exact (k.rest w hk v).2 (h.now w v this hv)
  · simp only [List.mem_append, not_or] at hw
    exact (k.rest w hw.2 u).trans (h.rest w hw.1 u)

theorem queues_of {p : Part} (w : ReportWord) (v : Word) (h : ∀ u, p.reportValue? w = some u → u = v) :
    Queues [w] p (p.queueValue w v) := by
  refine ⟨fun _ => reportValue_part rfl rfl rfl rfl rfl rfl rfl _, fun x u hx hu => ?_, fun x hx u => ?_,
      fun k => k.queueValue _ _, rfl⟩
  · simp only [List.mem_singleton] at hx; subst hx
    rw [h u hu]; exact mem_queueUpdate_self _ _ _
  · simp only [List.mem_singleton] at hx
    exact mem_queueUpdate_ne _ _ _ _ _ hx

theorem queues_base (p : Part) (w : Nat) : Queues [.base w] p (p.queueBase w) := by
  refine queues_of _ _ fun u hu => ?_
  simp only [Part.reportValue?] at hu
  split at hu <;> simp_all

theorem queues_lcb (p : Part) (i w) : Queues [.lcb i w] p (p.queueLcb i w) := queues_of _ _ fun u hu => reportValue_some hu

theorem queues_bases (p : Part) (ws : List Nat) : Queues (ws.map .base) p (p.queueBases ws) := by
  induction ws generalizing p with
  | nil => exact .refl p
  | cons w ws ih => exact (queues_base p w).trans (ih _)

theorem queues_lcbs (p : Part) (i) (ws : List Nat) : Queues (ws.map (.lcb i)) p (p.queueLcbs i ws) := by
  induction ws generalizing p with
  | nil => exact .refl p
  | cons w ws ih => exact (queues_lcb p i w).trans (ih _)

theorem Queues.has {ws} {p q : Part} (h : Queues ws p q) (j) : q.hasLine j = p.hasLine j := by
  have := congrArg (fun x : Part => x.map) h.fr
  exact hasLine_of_map _ _ this j

theorem queues_forLines (p : Part) (ws : List Nat) :
    Queues (((List.finRange 32).filter p.hasLine).flatMap fun i => ws.map (.lcb i)) p (p.forLines fun i q => q.queueLcbs i ws) := by
  unfold Part.forLines
  generalize List.finRange 32 = is
  have gen : ∀ (is : List LineNo) (q : Part), (∀ j, q.hasLine j = p.hasLine j) →
      Queues ((is.filter p.hasLine).flatMap fun i => ws.map (.lcb i)) q
        (is.foldl (fun q i => if q.hasLine i then q.queueLcbs i ws else q) q) := by
    intro is
    induction is with
    | nil => intro q _; exact .refl q
    | cons i is ih =>
      intro q hq
      rw [List.foldl_cons]
      cases h : p.hasLine i with
      | true =>
        rw [if_pos (by rw [hq]; exact h), List.filter_cons_of_pos h, List.flatMap_cons]
        exact (queues_lcbs q i ws).trans (ih _ fun j => ((queues_lcbs q i ws).has j).trans (hq j))
      | false =>
        rw [if_neg (by rw [hq, h]; decide), List.filter_cons_of_neg (by simp [h])]
        exact ih q hq
  exact gen is p fun _ => rfl

/-- Words queued after a change that leaves every other report word as it was. -/
theorem Queues.reported {ws} {p0 p q : Part} (h : Queues ws p q) (hr : p.reports = p0.reports)
    (h0 : ∀ w v, w ∉ ws → p.reportValue? w = some v → p0.reportValue? w = some v) : Reported p0 q := by
  intro w v hv
  rw [h.val] at hv
  by_cases hw : w ∈ ws
  · exact .inl (h.now w v hw hv)
  · exact .inr ⟨h0 w v hw hv, fun u => by rw [h.rest w hw u, hr]⟩

theorem Queues.changes {ws} {p0 p q : Part} (h : Queues ws p q) (hr : p.reports = p0.reports) (hc : p.closing = p0.closing)
    (ha : AbsentInitial p0 → AbsentInitial p)
    (h0 : ∀ w v, w ∉ ws → p.reportValue? w = some v → p0.reportValue? w = some v) : Changes p0 q := by
  refine ⟨fun x j hj => ?_, h.reported hr h0, fun k => h.keys (by unfold Keyed; rw [hr]; exact k), fun x => ?_⟩
  · have e : q.line j = p.line j := by
      have hf := h.fr
      have : q.lines = p.lines := by have := congrArg (fun x : Part => x.lines) hf; exact this
      simp only [Part.line, this]
    rw [e]; exact ha x j (by rw [← h.has]; exact hj)
  · have hf := h.fr
    have : q.closing = p.closing := by have := congrArg (fun x : Part => x.closing) hf; exact this
    rw [this, hc]; exact x

theorem baseReport_of_value {p : Part} {w : Nat} {v : Word} (h : p.reportValue? (.base w) = some v) :
    32 ≤ w ∧ w ≤ 45 ∧ w ≠ 33 ∧ p.baseReport w = v := by
  simp only [Part.reportValue?] at h; split at h
  · rename_i k; exact ⟨k.1, k.2.1, k.2.2, Option.some.inj h⟩
  · cases h

theorem value_of_baseReport {p : Part} {w : Nat} {v : Word} (h : 32 ≤ w ∧ w ≤ 45 ∧ w ≠ 33) (e : p.baseReport w = v) :
    p.reportValue? (.base w) = some v := by
  simp only [Part.reportValue?]; rw [if_pos h, e]

/-- A base-block report word depends on these fields. -/
theorem baseReport_congr {p q : Part} (w : Nat) (hl : q.lines = p.lines) (hm : q.map = p.map) (hc : q.resetCause = p.resetCause)
    (h32 : w = 32 → q.state = p.state) (h37 : w = 37 → q.summaryFlags = p.summaryFlags) (hb :
        w < 42 ∨ q.blocked = p.blocked) (h45 : 32 ≤ w ∧ w ≤ 45 ∧ w ≠ 33) :
    q.baseReport w = p.baseReport w := by
  have el : ∀ i, q.line i = p.line i := fun i => by simp only [Part.line, hl]
  have eh : ∀ i, q.hasLine i = p.hasLine i := hasLine_of_map _ _ hm
  have c : w = 32 ∨ w = 37 ∨ (w ≠ 32 ∧ w ≠ 37) := by omega
  rcases c with rfl | rfl | c
  · simp [Part.baseReport, h32 rfl]
  · simp [Part.baseReport, h37 rfl]
  · rcases hb with hb | hb
    · have d : w < 34 ∨ w = 34 ∨ w = 35 ∨ w = 36 ∨ w = 38 ∨ w = 39 ∨ w = 40 ∨ w = 41 := by omega
      rcases d with d | rfl | rfl | rfl | rfl | rfl | rfl | rfl
      · omega
      all_goals simp [Part.baseReport, Part.summaryHalf, el, eh, hc]
    · simp only [Part.baseReport, c, if_false, Part.summaryHalf, el, eh, hc, hb]

theorem changes_recordBlocked (p : Part) (a r) : Changes p (p.recordBlocked a r) := by
  unfold Part.recordBlocked
  refine (queues_bases _ _).changes rfl rfl (fun h => h) fun w v hw hv => ?_
  cases w with
  | lcb i w => exact hv
  | base w =>
    obtain ⟨h1, h2, h3, e⟩ := baseReport_of_value hv
    have n : w ≠ 42 ∧ w ≠ 43 ∧ w ≠ 44 ∧ w ≠ 45 ∧ w ≠ 37 := by simp at hw; omega
    refine value_of_baseReport ⟨h1, h2, h3⟩ ?_
    rw [← e]
    symm; exact baseReport_congr (p := p) w rfl rfl rfl (fun _ => rfl) (fun h => by omega) (.inl (by omega)) ⟨h1, h2, h3⟩

/-- A gate write, entry to "ARMING" included. -/
theorem changes_gate (p : Part) (l v) : Changes p (p.gateEvent l v) := by
  unfold Part.gateEvent
  split
  · split
    · exact .same rfl rfl rfl rfl rfl rfl rfl rfl rfl
    · split
      · unfold Part.enterArming
        refine ((queues_bases (p.intoArming v) _).trans (queues_base _ 32)).changes rfl rfl (fun h => h) fun w u hw hv => ?_
        cases w with
        | lcb i w => exact hv
        | base w =>
          obtain ⟨h1, h2, h3, e⟩ := baseReport_of_value hv
          simp only [List.mem_append, List.mem_singleton, ReportWord.base.injEq, not_or, List.mem_map, exists_eq_right,
              List.mem_filter, not_and] at hw
          refine value_of_baseReport ⟨h1, h2, h3⟩ ?_
          by_cases c : w = 42 ∨ w = 43 ∨ w = 44 ∨ w = 45 ∨ w = 37
          · have := hw.1 (by simp; omega)
            simp only [bne_iff_ne, ne_eq, not_not] at this
            rw [← this, e]
          · have n : w ≠ 42 ∧ w ≠ 43 ∧ w ≠ 44 ∧ w ≠ 45 ∧ w ≠ 37 ∧ w ≠ 32 := by omega
            rw [← e]
            symm; exact baseReport_congr (p :=
                p) w rfl rfl rfl (fun h => by omega) (fun h => by omega) (.inl (by omega)) ⟨h1, h2, h3⟩
      · exact .same rfl rfl rfl rfl rfl rfl rfl rfl rfl
  · exact .refl p

theorem changes_baseAck (p : Part) (m) : Changes p (p.baseAcknowledge m) := by
  unfold Part.baseAcknowledge
  refine (queues_base _ _).changes rfl rfl (fun h => h) fun w v hw hv => ?_
  cases w with
  | lcb i w => exact hv
  | base w =>
    obtain ⟨h1, h2, h3, e⟩ := baseReport_of_value hv
    have n : w ≠ 37 := by simpa using hw
    refine value_of_baseReport ⟨h1, h2, h3⟩ ?_
    rw [← e]
    by_cases c : w < 42
    · symm; exact baseReport_congr (p := p) w rfl rfl rfl (fun _ => rfl) (fun h => by omega) (.inl c) ⟨h1, h2, h3⟩
    · have : w = 42 ∨ w = 43 ∨ w = 44 ∨ w = 45 := by omega
      rcases this with rfl | rfl | rfl | rfl <;> rfl

/-- Each existing line in turn has its event. -/
theorem changes_lines (p : Part) (f : LineNo → Part → Part) (h : ∀ i q, Affects i q (f i q)) : Changes p (p.forLines f) := by
  unfold Part.forLines
  generalize List.finRange 32 = is
  induction is generalizing p with
  | nil => exact .refl p
  | cons i is ih =>
    rw [List.foldl_cons]
    refine Changes.trans ?_ (ih _)
    split
    · exact .ofLine (.has (h i p) ‹_›)
    · exact .refl p

theorem changes_disarm (p : Part) : Changes p p.startDisarm := by
  unfold Part.startDisarm
  have a : Changes p (Part.queueBase { p with state := .disarming } 32) := by
    refine (queues_base _ _).changes rfl rfl (fun h => h) fun w v hw hv => ?_
    cases w with
    | lcb i w => exact hv
    | base w =>
      obtain ⟨h1, h2, h3, e⟩ := baseReport_of_value hv
      have n : w ≠ 32 := by simpa using hw
      refine value_of_baseReport ⟨h1, h2, h3⟩ ?_
      rw [← e]
      symm; exact baseReport_congr (p := p) w rfl rfl rfl (fun h => by omega) (fun _ => rfl) (.inr rfl) ⟨h1, h2, h3⟩
  refine a.trans (changes_lines _ _ fun i q => ?_)
  unfold Part.disarmLine; split
  · exact .refl q
  · exact affects_listenToOff q _
  · exact .of (noted_retarget q i _ _)
  · exact affects_enterRelease q _ _

/-- A change of the summary flags, and of the lines after it, is reported once word 37 is noted against the part before. -/
theorem changes_noteSummary {p p1 r : Part} (h1 : ∀ w, w ≠ .base 37 → p1.reportValue? w = p.reportValue? w) (hr :
    p1.reports = p.reports)
    (hc : p1.closing = p.closing) (ha : AbsentInitial p → AbsentInitial p1) (h : Changes p1 r) :
        Changes p (r.noteSummary p) := by
  have v37 : ∀ x : Part, x.reportValue? (.base 37) = some x.summaryFlags :=
      fun x => by simp [Part.reportValue?, Part.baseReport]
  have ks : Keyed p → Keyed r := fun k => h.keys (by unfold Keyed; rw [hr]; exact k)
  unfold Part.noteSummary; split
  · rename_i e
    refine ⟨fun x => h.absent (ha x), fun w v hv => ?_, ks, fun x => h.closing (hc.trans x)⟩
    rcases h.reported w v hv with k | ⟨k, m⟩
    · exact .inl k
    · refine .inr ⟨?_, fun u => by rw [m u, hr]⟩
      by_cases hw : w = .base 37
      · subst hw; rw [v37] at hv ⊢; rw [← e]; exact hv
      · rw [← h1 w hw]; exact k
  · have b := queues_base r 37
    refine ⟨fun x j hj => ?_, fun w v hv => ?_, fun k => b.keys (ks k), fun x => h.closing (hc.trans x)⟩
    · exact h.absent (ha x) j hj
    · by_cases hw : w = .base 37
      · subst hw; rw [b.val] at hv; exact .inl (b.now _ _ (by simp) hv)
      · rw [b.val] at hv
        have i := b.rest w (by simpa using hw)
        rcases h.reported w v hv with k | ⟨k, m⟩
        · exact .inl ((i v).2 k)
        · exact .inr ⟨by rw [← h1 w hw]; exact k, fun u => by rw [i u, m u, hr]⟩

theorem reportValue_ne_summary {p p1 : Part} (hl : p1.lines = p.lines) (hs : p1.state = p.state) (hm : p1.map = p.map)
    (hc : p1.resetCause = p.resetCause) (hb : p1.blocked = p.blocked) (w : ReportWord) (hw : w ≠ .base 37) :
        p1.reportValue? w = p.reportValue? w := by
  have el : ∀ i, p1.line i = p.line i := fun i => by simp only [Part.line, hl]
  have eh : ∀ i, p1.hasLine i = p.hasLine i := hasLine_of_map _ _ hm
  cases w with
  | lcb i w => simp only [Part.reportValue?, el]
  | base w =>
    have n : w ≠ 37 := fun e => hw (by rw [e])
    simp only [Part.reportValue?, Part.baseReport, n, if_false, Part.summaryHalf, el, eh, hs, hc, hb]

theorem affects_quiesceLine {i} (p : Part) : Affects i p (p.quiesceLine i) := by
  unfold Part.quiesceLine; split
  · exact affects_enterRelease p _ _
  · exact .refl p

theorem changes_forceWord (p : Part) (v) : Changes p (p.forceWord v) := by
  have v37 : ∀ (b : Bool) w, w ≠ .base 37 → ({ p with forced := b } : Part).reportValue? w = p.reportValue? w :=
      fun b w hw => by apply reportValue_ne_summary (p := p) (p1 := { p with forced := b }) <;> first | rfl | assumption
  have f1 : Changes { p with forced := true } (({ p with forced := true } : Part).forLines Part.forceLine) :=
    changes_lines _ _ fun i q => (Affects.of (noted_setHeld q i _ _)).trans (affects_quiesceLine _)
  have f2 : Changes { p with forced := false } (({ p with forced := false } : Part).forLines Part.unforceLine) :=
    changes_lines _ _ fun i q => (Affects.of (noted_setHeld q i _ _))
  unfold Part.forceWord; split
  · exact changes_noteSummary (p1 := { p with forced := true }) (v37 _) rfl rfl (fun h => h) f1
  · split
    · exact changes_noteSummary (p1 := { p with forced := false }) (v37 _) rfl rfl (fun h => h) f2
    · exact .refl p

theorem changes_baseWrite (p : Part) (w l d a) : Changes p (p.baseWrite w l d a) := by
  unfold Part.baseWrite
  split; · exact changes_baseAck p _
  split; · exact changes_forward p _
  split
  · refine Changes.trans ?_ (changes_forward _ _)
    unfold Part.setAttentionEnable; split
    · exact .same rfl rfl rfl rfl rfl rfl rfl rfl rfl
    · split
      · exact .same rfl rfl rfl rfl rfl rfl rfl rfl rfl
      · exact .refl p
  split; · exact (changes_forceWord p _).trans (changes_forward _ _)
  split
  · refine Changes.trans ?_ (changes_forward _ _)
    unfold Part.disarmWord; split
    · exact changes_disarm p
    · exact .refl p
  · exact changes_forward p _

theorem changes_lcbWrite (p : Part) (i w l d a) (hi : p.hasLine i = true) : Changes p (p.lcbWrite i w l d a) := by
  unfold Part.lcbWrite
  split; · exact (Changes.ofLine (.has (affects_takeRequest p _) hi)).trans (changes_forward _ _)
  split; · exact (Changes.ofLine (.has (affects_takeCommand p _) hi)).trans (changes_forward _ _)
  split; · exact (Changes.ofLine (.has (.of (noted_takeAcknowledge p i _)) hi))
  split
  · exact (Changes.ofLine (.has (.of (noted_takeSetting p i _ _)) hi)).trans (changes_forward _ _)
  · exact changes_forward p _

theorem changes_window (p : Part) (i l d a) (hi : p.hasLine i = true) : Changes p (p.windowArrives i l d a) := by
  unfold Part.windowArrives
  extract_lets k
  split; · exact (Changes.ofLine (.has (.of (noted_refuseEntry p i)) hi)).trans (changes_forward _ _)
  split
  · exact (Changes.ofLine (.has (.of (noted_refuseEntry p i)) hi)).trans (changes_forward _ _)
  · split
    · extract_lets q
      have h : Affects i p q := (Affects.of (noted_onLine p i _ rfl fun _ => rfl)).trans (affects_forward _ _)
      split
      · exact .ofLine (.has (h.trans (affects_advanceQueue _)) hi)
      · exact .ofLine (.has h hi)
    · split
      · exact (Changes.ofLine (.has (.of (noted_loseEntries p i _)) hi)).trans (changes_forward _ _)
      · exact .same rfl rfl rfl rfl rfl rfl rfl rfl rfl

theorem hasLine_of_decode (p : Part) (a) :
    (∀ i w, p.decode a = .lcb i w → p.hasLine i = true) ∧ (∀ i, p.decode a = .window i → p.hasLine i = true) := by
  constructor
  all_goals
    intros
    rename_i h
    unfold Part.decode Part.decodeConsole Part.decodeRing at h
    dsimp only at h
    repeat' split at h
    all_goals first | cases h | skip
    all_goals assumption

/-- The arrival of a host access, whatever it is. -/
theorem changes_hostArrives (p : Part) (a : HostAccess) : Changes p (p.hostArrives a) := by
  unfold Part.hostArrives
  split
  · unfold Part.readArrives; split
    · exact .same rfl rfl rfl rfl rfl rfl rfl rfl rfl
    · split
      · exact .same rfl rfl rfl rfl rfl rfl rfl rfl rfl
      · split
        · exact .same rfl rfl rfl rfl rfl rfl rfl rfl rfl
        · exact changes_forward _ _
    · exact changes_forward _ _
  · unfold Part.writeArrives
    extract_lets b
    split
    · exact changes_recordBlocked _ _ _
    · split
      · exact (changes_gate p _ _).trans (changes_forward _ _)
      · exact changes_baseWrite _ _ _ _ _
      · rename_i h; exact changes_lcbWrite _ _ _ _ _ _ ((hasLine_of_decode p _).1 _ _ h)
      · rename_i h; exact changes_window _ _ _ _ _ ((hasLine_of_decode p _).2 _ h)
      · exact changes_forward _ _

theorem changes_hostFollows (p : Part) (a) : Changes p (p.hostFollows a) := by
  unfold Part.hostFollows; split
  · exact .refl p
  · split
    · exact .refl p
    · exact changes_hostArrives p _

theorem affectsLine_snoopRing {i} (p : Part) (k d) : AffectsLine i p (p.snoopRing i k d) := by
  unfold Part.snoopRing
  split
  · exact .refl p
  · rename_i r hr
    have hring := ring_of_liveRing hr
    have ov : Affects i p (p.readOvertaken i) := by
      unfold Part.readOvertaken; split
      · exact .same rfl rfl rfl rfl rfl rfl rfl rfl rfl
      · exact .refl p
    have nini : ∀ q : Part, p.line i = Line.initial → q.line i = Line.initial := fun q e => by rw [e] at hring; cases hring
    refine ⟨?_, .inr (nini _)⟩
    split
    · unfold Part.readSize; extract_lets l t
      split; · exact .refl p
      split
      · split
        · have a : Affects i p (p.setRing i { r with lease := .opened d.toNat none }) :=
            .of (noted_setRing p i r _ hring rfl ⟨rfl, rfl, rfl, rfl, rfl, rfl⟩)
          exact a.trans (.of (noted_unpark _ i))
        · have a : Affects i p (p.setRing i { r with lease := .opened d.toNat (some (p.now + msPeriods t)) }) :=
            .of (noted_setRing p i r _ hring rfl ⟨rfl, rfl, rfl, rfl, rfl, rfl⟩)
          refine a.trans ?_
          rw [overtake_readOvertaken]
          unfold Part.readOvertaken; split
          · exact .same rfl rfl rfl rfl rfl rfl rfl rfl rfl
          · exact .refl _
      · exact .of (noted_latch p i _)
    · split
      · split
        · exact ov.trans (.of (noted_retire p r _ hring))
        · exact .refl p
      · exact .refl p

/-- A snooped read. -/
theorem changes_snoop (p : Part) (a d) : Changes p (p.snoop a d) := by
  unfold Part.snoop; split
  · exact .ofLine (affectsLine_snoopRing p _ _)
  · rename_i i w h
    split
    · exact .ofLine (.has (.of (noted_snoopProbe p i d)) ((hasLine_of_decode p _).1 _ _ h))
    · exact .refl p
  · exact .refl p

theorem changes_hostCompletes (p : Part) (a d) : Changes p (p.hostCompletes a d) := by
  unfold Part.hostCompletes; split
  · exact (show Changes p { p with readData := d, hostWait :=
      false } from .same rfl rfl rfl rfl rfl rfl rfl rfl rfl).trans (changes_snoop _ _ _)
  · exact .same rfl rfl rfl rfl rfl rfl rfl rfl rfl

/-- Entry to "ARMED" reports every word that then has a value. -/
theorem changes_enterArmed (p : Part) (hs : ∀ i, p.line i = Line.initial) : Changes p p.enterArmed := by
  unfold Part.enterArmed
  extract_lets p0 p1
  have q33 : Queues [.base 33] p.comeIntoForce (p.comeIntoForce.queueValue (.base 33) SetupResult.ok.code) :=
      queues_of _ _ fun u hu => by
    simp [Part.reportValue?] at hu
  have hp1 : Queues _ p.comeIntoForce p1 := q33.trans (queues_bases _ [34, 35, 36, 37, 38, 39, 40, 41, 42, 43, 44, 45])
  have hp2 := hp1.trans ((queues_forLines p1 armingLcbWords).trans (queues_base _ 32))
  refine hp2.changes rfl rfl (fun h j hj => ?_) fun w v hw hv => ?_
  · have hj' : (p.comeIntoForce).hasLine j = false := hj
    simp only [Part.hasLine, Part.comeIntoForce, decide_eq_false_iff_not] at hj'
    simp only [Part.line, Part.comeIntoForce]
    simp [hj']
  · simp only [List.mem_append, not_or] at hw
    cases w with
    | base w =>
      obtain ⟨h1, h2, h3, e⟩ := baseReport_of_value hv
      exfalso
      have := hw.2.2
      have := hw.1.2
      simp at *
      omega
    | lcb i w =>
      have hp1has : p1.hasLine i = p.comeIntoForce.hasLine i := hp1.has i
      have hinit : ∀ x : Bool, w ∉ armingLcbWords → Line.reportValue? { Line.initial with heldHandsOff := x } w = none := by
        intro x hn
        unfold Line.reportValue?
        split
        · rename_i hc
          exfalso
          have h37 : 37 ≤ w ∧ w ≤ 42 := by
            simp [armingLcbWords] at hn
            by_contra hcon
            have : w < 37 ∨ 42 < w := by omega
            rcases this with h | h
            · omega
            · have := hn.2.2.2.2.2
              have := this (w - 43)
              omega
          have := hc.2.2 h37
          simp [Line.ring?, Line.initial] at this
        · rfl
      cases hh : p.comeIntoForce.hasLine i with
      | true =>
        have hn : w ∉ armingLcbWords := by
          intro hm
          apply hw.2.1
          simp only [List.mem_flatMap, List.mem_filter, List.mem_map]
          exact ⟨i, ⟨List.mem_finRange i, by rw [hp1has]; exact hh⟩, w, hm, rfl⟩
        simp only [Part.hasLine, Part.comeIntoForce, decide_eq_true_eq] at hh
        simp only [Part.reportValue?] at hv
        have : p.comeIntoForce.line i = { Line.initial with heldHandsOff := p.handsOff } := by
          simp only [Part.line, Part.comeIntoForce]; simp [hh]
        rw [this, hinit _ hn] at hv; cases hv
      | false =>
        simp only [Part.hasLine, Part.comeIntoForce, decide_eq_false_iff_not] at hh
        have : p.comeIntoForce.line i = Line.initial := by
          simp only [Part.line, Part.comeIntoForce]; simp [hh]
        simp only [Part.reportValue?] at hv ⊢
        rw [this] at hv
        rw [hs]; exact hv

end Sys2Proof.Machine
end

