-- ==== Sys2Proof/Laws/Memory.lean ====
section
/-! SUPPORT. Memory: every write keeps the canonical form, reads what it wrote, and touches no other cell. -/

namespace Sys2Proof.Machine

/-- The head of a list, if any, lies above `a`. -/
def Memory.above (a : Nat) : Memory → Bool
  | [] => true
  | (j, _) :: _ => decide (a < j)

theorem wf_cons_iff (k : Nat) (b : Byte) (m : Memory) :
    Memory.wf ((k, b) :: m) = true ↔ b ≠ Config.unwrittenByte ∧ Memory.above k m = true ∧ Memory.wf m = true := by
  cases m <;> simp [Memory.wf, Memory.above, and_assoc]

theorem above_mono {a k : Nat} {m : Memory} (h : a < k) (hm : Memory.above k m = true) : Memory.above a m = true := by
  cases m <;> simp_all [Memory.above]; omega

theorem cons_wf {a : Nat} {b : Byte} {m : Memory} (ha : Memory.above a m = true) (hm : Memory.wf m = true) :
    Memory.wf (Memory.cons a b m) = true := by
  unfold Memory.cons; split
  · exact hm
  · exact (wf_cons_iff a b m).2 ⟨‹_›, ha, hm⟩

theorem cons_above {a k : Nat} {b : Byte} {m : Memory} (h : a < k) (hm : Memory.above a m = true) :
    Memory.above a (Memory.cons k b m) = true := by
  unfold Memory.cons; split <;> simp_all [Memory.above]

theorem writeByte_above {c a : Nat} {b : Byte} {m : Memory} (h : c < a) (hm : Memory.above c m = true)
    (hw : Memory.wf m = true) : Memory.above c (Memory.writeByte m a b) = true := by
  cases m with
  | nil => exact cons_above h hm
  | cons p rest =>
    have hk : c < p.1 := by simpa [Memory.above] using hm
    have hr := ((wf_cons_iff p.1 p.2 rest).1 hw).2.1
    unfold Memory.writeByte; split
    · exact cons_above h hm
    · split
      · exact cons_above h (above_mono hk hr)
      · simpa [Memory.above] using hk

/-- A byte write keeps the canonical form. -/
theorem writeByte_wf {m : Memory} (a : Nat) (b : Byte) (hw : Memory.wf m = true) :
    Memory.wf (Memory.writeByte m a b) = true := by
  induction m with
  | nil => exact cons_wf rfl rfl
  | cons p rest ih =>
    obtain ⟨hb, hr, hrest⟩ := (wf_cons_iff p.1 p.2 rest).1 hw
    unfold Memory.writeByte; split
    · exact cons_wf (by simpa [Memory.above] using ‹a < p.1›) hw
    · split
      · exact cons_wf (by simpa [‹a = p.1›] using hr) hrest
      · exact (wf_cons_iff _ _ _).2 ⟨hb, writeByte_above (by omega) hr hrest, ih hrest⟩

/-- Below every listed cell nothing is listed. -/
theorem readByte_above {m : Memory} {a k : Nat} (hk : k ≤ a) (ha : Memory.above a m = true) (hw : Memory.wf m = true) :
    Memory.readByte m k = Config.unwrittenByte := by
  induction m generalizing a with
  | nil => rfl
  | cons p rest ih =>
    have hp : a < p.1 := by simpa [Memory.above] using ha
    obtain ⟨-, hr, hrest⟩ := (wf_cons_iff p.1 p.2 rest).1 hw
    unfold Memory.readByte
    rw [if_neg (by omega)]
    exact ih (by omega) hr hrest

theorem readByte_cons (m : Memory) (a k : Nat) (b : Byte) (h : k ≠ a) :
    Memory.readByte (Memory.cons a b m) k = Memory.readByte m k := by
  unfold Memory.cons; split
  · rfl
  · simp [Memory.readByte, Ne.symm h]

/-- A byte write leaves every other cell as it reads. -/
theorem readByte_writeByte_ne (m : Memory) (a k : Nat) (b : Byte) (h : k ≠ a) :
    Memory.readByte (Memory.writeByte m a b) k = Memory.readByte m k := by
  induction m with
  | nil => exact readByte_cons [] a k b h
  | cons p rest ih =>
    unfold Memory.writeByte; split
    · exact readByte_cons _ a k b h
    · split
      · rw [readByte_cons _ a k b h]; simp [Memory.readByte, ← ‹a = p.1›, Ne.symm h]
      · simp only [Memory.readByte, ih]

/-- A byte write is read back. -/
theorem readByte_writeByte {m : Memory} (a : Nat) (b : Byte) (hw : Memory.wf m = true) :
    Memory.readByte (Memory.writeByte m a b) a = b := by
  have hc : ∀ {n : Memory}, Memory.above a n = true → Memory.wf n = true → Memory.readByte (Memory.cons a b n) a = b := by
    intro n ha hn
    unfold Memory.cons; split
    · rw [readByte_above (Nat.le_refl a) ha hn]; exact (Eq.symm ‹_›)
    · simp [Memory.readByte]
  induction m with
  | nil => exact hc rfl rfl
  | cons p rest ih =>
    obtain ⟨hb, hr, hrest⟩ := (wf_cons_iff p.1 p.2 rest).1 hw
    unfold Memory.writeByte; split
    · exact hc (by simpa [Memory.above] using ‹a < p.1›) hw
    · split
      · exact hc (by simpa [‹a = p.1›] using hr) hrest
      · rw [Memory.readByte, if_neg (fun e => ‹¬a = p.1› e.symm), ih hrest]

/-! ### Words -/

/-- A lane write keeps the canonical form. -/
theorem writeLanes_wf {m : Memory} (a : Addr) (lanes : Lanes) (d : Word) (hw : Memory.wf m = true) :
    Memory.wf (Memory.writeLanes m a lanes d) = true := by
  cases lanes <;> simp only [Memory.writeLanes]
  · exact writeByte_wf _ _ (writeByte_wf _ _ hw)
  · exact writeByte_wf _ _ hw
  · exact writeByte_wf _ _ hw

/-- An access keeps the canonical form. -/
theorem access_wf {m : Memory} (q : Serving) (hw : Memory.wf m = true) : Memory.wf (Memory.access m q).1 = true := by
  rcases q with ⟨a, _ | ⟨lanes, d⟩⟩ | ⟨_, a, v⟩ | _ | _ | _ | ⟨a, d⟩
  · exact hw
  · exact writeLanes_wf a lanes d hw
  · exact writeLanes_wf a .both v hw
  · exact hw
  · exact hw
  · exact hw
  · exact writeLanes_wf a .both d hw

theorem cells_ne {a k : Addr} (h : k ≠ a) : k.toNat ≠ a.toNat := fun e => h (BitVec.eq_of_toNat_eq e)

/-- A lane write leaves every other word as it reads. -/
theorem readWord_writeLanes_ne (m : Memory) (a k : Addr) (lanes : Lanes) (d : Word) (h : k ≠ a) :
    Memory.readWord (Memory.writeLanes m a lanes d) k = Memory.readWord m k := by
  have hn := cells_ne h
  have h1 : highCell k ≠ highCell a := by simp only [highCell]; omega
  have h2 : lowCell k ≠ lowCell a := by simp only [lowCell]; omega
  have h3 : highCell k ≠ lowCell a := by simp only [highCell, lowCell]; omega
  have h4 : lowCell k ≠ highCell a := by simp only [highCell, lowCell]; omega
  cases lanes <;> simp [Memory.readWord, Memory.writeLanes, readByte_writeByte_ne, h1, h2, h3, h4]

theorem wordOfBytes_hiByte_loByte (d : Word) : wordOfBytes (hiByte d) (loByte d) = d := by
  ext k hk
  simp only [wordOfBytes, hiByte, loByte]
  by_cases h8 : k < 8
  · simp [h8, BitVec.getLsbD_eq_getElem hk]
  · have : k - 8 < 8 := by omega
    have h2 : 8 + (k - 8) = k := by omega
    simp [h8, this, h2, hk]

theorem hiByte_wordOfBytes (a b : Byte) : hiByte (wordOfBytes a b) = a := by
  ext k hk
  have h1 : 8 + k < 16 := by omega
  have h2 : k < 16 := by omega
  simp [wordOfBytes, hiByte, h1, h2, BitVec.getLsbD_eq_getElem hk]

theorem loByte_wordOfBytes (a b : Byte) : loByte (wordOfBytes a b) = b := by
  ext k hk
  simp [wordOfBytes, loByte]

/-- A full-word write is read back (R1). -/
theorem readWord_writeLanes_both {m : Memory} (a : Addr) (d : Word) (hw : Memory.wf m = true) :
    Memory.readWord (Memory.writeLanes m a .both d) a = d := by
  have h : highCell a ≠ lowCell a := by simp only [highCell, lowCell]; omega
  simp only [Memory.readWord, Memory.writeLanes]
  rw [readByte_writeByte _ _ (writeByte_wf _ _ hw), readByte_writeByte_ne _ _ _ _ (Ne.symm h), readByte_writeByte _ _ hw,
    wordOfBytes_hiByte_loByte]

end Sys2Proof.Machine
end

