-- ==== Sys2Proof/Tests/Slice0.lean ====
section
/-! SUPPORT. Small tests of the model, and for every statement that has hypotheses a state and operands that meet them
(`test_premises_<Statement>`), with one witness for each clause. -/

namespace Sys2Proof.Tests

open Sys2Proof.Machine

/-! ## Well-formed commands: one ill-formed term for each check -/

theorem test_illFormed_attentionEnable :
    (Instr.attentionEnable .both 2).wellFormed = false ∧ (Instr.attentionEnable .low 1).wellFormed = false ∧
      (Instr.attentionEnable .both 1).wellFormed = true := by decide

theorem test_illFormed_modeRequests :
    (Instr.modeRequestOff 0 .both 1).wellFormed = false ∧ (Instr.modeRequestListen 0 .low 2).wellFormed = false ∧
      (Instr.modeRequestListenResume 0 .both 3).wellFormed = false ∧ (Instr.modeRequestDrive 0 .high 0x0100).wellFormed = false ∧
      (Instr.modeRequestUnknown 0 .both 3).wellFormed = false ∧ (Instr.modeRequestUnknown 0 .both 4).wellFormed = true := by
  decide

theorem test_illFormed_commands :
    (Instr.close 0 .both 2).wellFormed = false ∧ (Instr.flush 0 .both 1).wellFormed = false ∧
      (Instr.probe 0 .low 4).wellFormed = false ∧ (Instr.probeApply 0 .both 3).wellFormed = false ∧
      (Instr.discardTx 0 .both 6).wellFormed = false ∧ (Instr.resetCounts 0 .both 5).wellFormed = false ∧
      (Instr.commandUnknown 0 .both 6).wellFormed = false ∧ (Instr.commandUnknown 0 .both 7).wellFormed = true := by decide

theorem test_illFormed_settingsWrite :
    (Instr.settingsWrite 0 3 .both 0).wellFormed = false ∧ (Instr.settingsWrite 0 21 .both 0).wellFormed = false ∧
      (Instr.settingsWrite 0 7 .both 0).wellFormed = true := by decide

/-! ## Small states -/

/-- A line in a line state, everything else as at arming. -/
def lineIn (x : LineState) : Line := { Line.initial with state := x }

/-- A fresh ring with a record of 10 words, the lease as given. -/
def oneRecord (lease : Lease) : Ring := ⟨10, 0, 10, 1, 1, none, lease, 0, 0, .running 294912⟩

/-- A line in "LISTEN" with a ring of 256 words at 0, payload limit 16, service level 0. -/
def ringLine (r : Ring) : Line :=
  { lineIn .listen with
    shadow := (((lineIn .listen).shadow.set 9 1).set 11 16).set 4 96
    payloadLimit := 16
    ring := .present r }

/-- The armed part of setup region 0x010000, two lines, hold limit 5, allowance 4, with line 0 as given. -/
def armedWith (l : Line) : Machine.Part :=
  { Part.reset with
    state := .armed
    setupCopy := [1, 0, 2, 5, 0, 0, 4]
    map := some ⟨0x010000, 2⟩
    port := ⟨0, 4, none, none⟩
    nextTick := some 294912
    lines := Part.reset.lines.set 0 l }

/-- A state of a part, the bank empty, nothing waiting. -/
def stateOf (p : Machine.Part) : State := { State.reset with part := p }

/-- The part serving an access. -/
def serving (p : Machine.Part) (q : Serving) : Machine.Part := { p with port := { p.port with serving := some q } }

/-- The part with a job in flight for line 0. -/
def flying (p : Machine.Part) (g : Stage) : Machine.Part := { p with writer := ⟨some ⟨0, g⟩, some 0⟩ }

/-- The record that a test writes: an event job of line 0 with the ring words `todo` left. -/
def eventWriting (todo : List (Nat × Word)) : Writing :=
  ⟨.event ⟨.stuck, 0, 0, 0, 0, 0⟩ 0, false, ⟨none, 0⟩, 0, 10, none, todo⟩

theorem mapSound_armedWith (l : Line) : (armedWith l).MapSound := by
  show (0x010000 : Addr).toNat + 2559 ≤ 0x1FFEFF ∧ 1 ≤ 2 ∧ 2 ≤ 32
  decide

theorem reaches_armedWith (l : Line) : Reaches (stateOf (armedWith l)) 0 := ⟨rfl, rfl, mapSound_armedWith l⟩

theorem line_armedWith (l : Line) : (armedWith l).line 0 = l := rfl

/-! ## Worked examples of the spec, in small -/

/-- 02, the worked example of the timestamp pair: word 46 at 0x0001FFFF captures 0xFFFF, which word 47 returns after a carry. -/
theorem test_timestampPair :
    (({ armedWith (lineIn .off) with counter := 0x0001FFFF } : Machine.Part).readStampHigh.readData,
      { ({ armedWith (lineIn .off) with counter := 0x0001FFFF } : Machine.Part).readStampHigh with
        counter := 0x00020000 }.readStampLow.readData) = (0x0001, 0xFFFF) := by decide

/-- 02, the worked example of gate progress. -/
theorem test_gateProgress :
    (nextProgress 0 0x93A5, nextProgress 0 0x6C1E, nextProgress 1 0x6C1E, nextProgress 1 0x93A5, nextProgress 2 0x0F7D,
      nextProgress 2 0x0001) = (0, 1, 1, 2, 3, 0) := by decide

/-- 01, the worked example of arbitration with an allowance of 2: both wait at count 1, then at count 2. -/
theorem test_arbitration :
    ({ Part.reset with
        reports := [(.base 37, 0)], port := ⟨1, 2, none, some ⟨5, .read⟩⟩ } : Machine.Part).grant.port =
      ⟨2, 2, some (.host ⟨5, .read⟩), none⟩ ∧
    ({ Part.reset with
        reports := [(.base 37, 0)], port := ⟨2, 2, none, some ⟨5, .read⟩⟩ } : Machine.Part).grant.port =
      ⟨0, 2, some (.report (.base 37) (baseWordAddr 37) 0), some ⟨5, .read⟩⟩ := by decide

/-- A part with allowance 2 and count 1 that serves a host access, a report update pending. -/
def busy16 : Machine.Part :=
  { Part.reset with reports := [(.base 37, 0)], port := ⟨1, 2, some (.host ⟨5, .write .both 1⟩), none⟩ }

/-- 01, the worked example of arbitration, rows 2 and 3: H1 completes and H2 arrives, so H2 is served and the count becomes 2; H2
completes and H3 arrives, so the internal access is served and H3 is held. -/
theorem test_arbitrationRun :
    ((stateOf busy16).completeHost (some ⟨6, .read⟩)).part.port = ⟨2, 2, some (.host ⟨6, .read⟩), none⟩ ∧
      (((stateOf busy16).completeHost (some ⟨6, .read⟩)).completeHost (some ⟨7, .read⟩)).part.port =
        ⟨0, 2, some (.report (.base 37) (baseWordAddr 37) 0), some ⟨7, .read⟩⟩ ∧
      (((stateOf busy16).completeHost (some ⟨6, .read⟩)).completeHost (some ⟨7, .read⟩)).part.hostWait = true := by decide +kernel

/-- The same example, row 1: a host access and an internal request arrive together at an idle port; both wait at count 0. -/
theorem test_arrivesTogether :
    (({ Part.reset with port := ⟨0, 2, none, none⟩ } : Machine.Part).hostFollows (some ⟨5, .read⟩)).port =
      ⟨0, 2, none, some ⟨5, .read⟩⟩ ∧
    ({ Part.reset with
        reports := [(.base 37, 0)], port := ⟨0, 2, none, some ⟨5, .read⟩⟩ } : Machine.Part).arbitrate.port =
      ⟨1, 2, some (.host ⟨5, .read⟩), none⟩ := by decide +kernel

/-- 11 R172: a change is taken two periods after the last, not one; a change of a signal-valid input waits for its moment. -/
theorem test_twoPeriods :
    ((Part.reset.rxFalls 0 5).rxRises 0 1).rxPin[(0 : LineNo)] = .space ∧
      ((Part.reset.rxFalls 0 5).rxRises 0 2).rxPin[(0 : LineNo)] = .mark ∧
      ((Part.reset.rxFalls 0 5).rxRises 0 2).now = 7 ∧
      ((Part.reset.signalFalls 0).signalRises 0).now = 2 ∧ Part.reset.assertHandsOff.releaseHandsOff.now = 2 ∧
      Part.reset.assertReset.releaseReset.now = 2 := by decide +kernel

/-- 02 R26: a region base of 0x1FF600 reaches into the base block; 40 lines are too many. -/
theorem test_validateSetup :
    validateSetup [31, 0xF600, 1, 0, 0, 0, 1] (crc [31, 0xF600, 1, 0, 0, 0, 1]) = .badRegion ∧
      validateSetup [31, 0xF500, 1, 0, 0, 0, 1] (crc [31, 0xF500, 1, 0, 0, 0, 1]) = .ok ∧
      validateSetup [1, 0, 40, 0, 0, 0, 1] (crc [1, 0, 40, 0, 0, 0, 1]) = .badLines ∧
      validateSetup [1, 0, 40, 0, 0, 0, 1] (crc [1, 0, 40, 0, 0, 0, 1] + 1) = .badCheck := by decide +kernel

/-- 06 R104: the size of a "DATA" record for the payload limits of the table. -/
theorem test_dataSize :
    ([16, 18, 64, 128, 256].map fun n => Line.dataSize { Line.initial with payloadLimit := n }) = [18, 18, 42, 74, 138] := by
  decide

/-- R24: the register starts at 0xFFFF; one word of zeros takes it to 0x1D0F. -/
theorem test_crc : crc [] = 0xFFFF ∧ crc [0] = 0x1D0F := by decide +kernel

/-- 08 R140: 0x55 as 8 data bits, even parity, 1 stop bit. -/
theorem test_frameLevels :
    frameLevels ⟨8, .even, 1⟩ 0x55 =
      [.space, .mark, .space, .mark, .space, .mark, .space, .mark, .space, .space, .mark] := by decide

/-- 05 R82: the same frame is received without error; with its parity bit wrong, or its stop bit at space, in error. -/
theorem test_deframe :
    deframe ⟨8, .even, 1⟩ (frameLevels ⟨8, .even, 1⟩ 0x55).tail = ⟨0x55, false⟩ ∧
      (deframe ⟨8, .odd, 1⟩ (frameLevels ⟨8, .even, 1⟩ 0x55).tail).error = true ∧
      (deframe ⟨8, .none, 1⟩ [.mark, .mark, .mark, .mark, .mark, .mark, .mark, .mark, .space]).error = true := by decide

/-- 09 R158: too few edges; a run of one bit at 9600 bit/s; a run between two rates. -/
theorem test_classifyProbe :
    classifyProbe 7 (some 3072) = (.tooFew, 0) ∧ classifyProbe 8 (some 3072) = (.found, 5) ∧
      classifyProbe 64 (some 2000) = (.noMatch, 6) := by decide

/-- 11.5: an entry word of each kind, and one of each refused form. -/
theorem test_entryWords :
    Entry.ofWord 0x0041 = some ⟨.data, 0x41⟩ ∧ Entry.ofWord 0x0119 = some ⟨.brk, 0x19⟩ ∧ Entry.ofWord 0x0201 = some ⟨.pause, 1⟩ ∧
      Entry.ofWord 0x030B = some ⟨.rate, 11⟩ ∧ Entry.ofWord 0x04FF = some ⟨.fence, 0xFF⟩ ∧ Entry.ofWord 0x0500 = some ⟨.drop, 0⟩ ∧
      Entry.ofWord 0x0100 = none ∧ Entry.ofWord 0x0200 = none ∧ Entry.ofWord 0x030C = none ∧ Entry.ofWord 0x0600 = none := by
  decide

/-- The canonical bank: writing the value an unwritten byte reads as removes the cell. -/
theorem test_memory :
    Memory.writeLanes [] 3 .both 0x1200 = [(7, 0x12)] ∧ Memory.writeLanes [(7, 0x12)] 3 .high 0x0034 = [] ∧
      Memory.readWord [(7, 0x12)] 3 = 0x1200 := by decide

/-- R133: the read of a walk abandoned before its grant stays at its own address (log 22). -/
theorem test_abandonedRead :
    let p := flying (armedWith { ringLine ⟨10, 0, 10, 1, 1, none, .closed, 0, 0, .stopped⟩ with
      walk := some (.records ⟨10, 0, 1, 10, 4, 6, 1, none, none⟩) }) (.walkStep [0x1003] none)
    p.otherRequest = some (.walkRead 5) ∧ (p.abandonWalk 0).otherRequest = some (.walkRead 5) ∧
      ((p.abandonWalk 0).line 0).walk = none := by decide +kernel

/-- R33 (log 32): entry to "ARMING" with a write recorded reports what the zeroing changes; 12.1: after a reset, word 32 alone. -/
theorem test_enterArming :
    ({ Part.reset with blocked := ⟨2, 0x1FFF03, .setupLocked, true⟩ }.enterArming 0).reports =
        [(.base 42, 0), (.base 43, 0), (.base 44, 0), (.base 45, 0), (.base 37, 0), (.base 32, 2)] ∧
      (Part.reset.enterArming 0).reports = [(.base 32, 2)] := by decide +kernel

/-- R73, R33, R166: a line opens with "FAULT" in its attention mask: 35 with the summaries that follow the flag, then 36 (log 12). -/
theorem test_lineOpens :
    ((armedWith { lineIn .listen with invalidRun := some 9, shadow := (lineIn .listen).shadow.set 21 4 }).lineOpens 0).reports =
      [(.lcb 0 35, 8), (.base 37, 4), (.base 38, 1), (.lcb 0 36, 1)] := by decide +kernel

/-- R62, R159, R160: a probing line goes to "OFF": 32 and 45 of the probe, 35 of its flag; its mode keeps 32 pending. -/
theorem test_probeAbandoned :
    let p := (armedWith { lineIn .listen with probe := some ⟨false, 0, 0, none, none⟩ }).listenToOff 0 .request
    p.reports = [(.lcb 0 32, 0), (.lcb 0 45, 0x0400), (.lcb 0 35, 4)] := by decide +kernel

/-- R70, R150: a quiesced line that loses two entries and refuses a held write. -/
theorem test_quiesceReports :
    ((armedWith { lineIn .settle with queue := [⟨.data, 0⟩, ⟨.data, 1⟩] }).assertHandsOff).reports =
      [(.lcb 0 32, 0x0106), (.lcb 0 50, 2), (.lcb 1 32, 0x0100), (.base 37, 1)] ∧
    Line.dropReports { lineIn .settle with queue := [⟨.data, 0⟩, ⟨.data, 1⟩] } 1 = [50, 51] := by decide +kernel

/-- R82: the bits that a change settles, at the level it ends (log 15). -/
theorem test_fill :
    (FrameRun.fill ⟨⟨8, .none, 1⟩, 16, 0, [], 0⟩ .space 25).samples = [.space] ∧
      (FrameRun.fill ⟨⟨8, .none, 1⟩, 16, 0, [], 0⟩ .space 24).samples = [] ∧
      (FrameRun.fill ⟨⟨8, .none, 1⟩, 16, 0, [.space], 0⟩ .mark 57).samples = [.space, .mark, .mark] := by decide

/-! ## Premises: the step and the resets -/

theorem test_premises_StepRunsFrontCommand :
    { State.reset with pending := [.powerOn] }.pending = Instr.powerOn :: [] ∧ State.reset.pending = [] := by decide

theorem test_premises_PinResetAndMarkHold :
    (Part.reset.markHold.set 0 (some 5))[(0 : LineNo)] = some 5 ∧ (serving Part.reset (.setupRead 0)).resetLow = false ∧ (serving Part.reset (.setupRead 0)).servesInternal = true ∧
      Part.reset.resetLow = false ∧ Part.reset.servesInternal = false ∧ Part.reset.taken.reset = none ∧
      Part.reset.assertReset.resetLow = true ∧ Part.reset.assertReset.taken.reset = some 0 := by decide +kernel

/-- A part with a pin reset waiting for the access it serves. -/
def resetting (q : Serving) (g : Stage) : Machine.Part := { flying (serving (armedWith (lineIn .listen)) q) g with resetPending := true }

theorem test_premises_PinResetOvertakesInternalAccess :
    (∀ q ∈ [Serving.setupRead 0, .report (.base 37) 0 0, .recordWord 0 0, .reclaimRead 0, .walkRead 0],
      (resetting q (.walkStep [] none)).resetPending = true ∧ (resetting q (.walkStep [] none)).port.serving = some q ∧
        (resetting q (.walkStep [] none)).servesInternal = true) ∧
    (resetting (.report (.base 37) 0 0) (.walkStep [] none)).servesClosing = false ∧
    ({ resetting (.report (.base 32) 0 1) (.walkStep [] none) with closing := true } : Machine.Part).servesClosing = true ∧
    (resetting (.walkRead 0) (.walkStep [] (some 0))).writer.flight = some ⟨0, .walkStep [] (some 0)⟩ ∧
    (resetting (.recordWord 0 0) (.writing (eventWriting [(0, 0), (1, 0)]))).writer.flight =
      some ⟨0, .writing (eventWriting [(0, 0), (1, 0)])⟩ ∧
    1 < (eventWriting [(0, 0), (1, 0)]).todo.length ∧ (eventWriting [(1, 0)]).todo.length = 1 ∧
    (resetting (.reclaimRead 0) (.reclaimRead (.data 0) 0 false)).writer.flight = some ⟨0, .reclaimRead (.data 0) 0 false⟩ ∧
    ([] : List Word).length + 1 < ((armedWith { lineIn .listen with walk := some .pointers }).line 0).stepReads ∧
    [(0 : Word), 0, 0, 0].length + 1 = ((armedWith { lineIn .listen with walk := some .pointers }).line 0).stepReads := by
  decide

/-! ## Premises: hands-off, force, disarm -/

/-- A driving line whose queue is full, with a write held for it. -/
def holding : Machine.Part :=
  { armedWith { lineIn .drive with queue := List.replicate 64 ⟨.pause, 1⟩, acting := some (.pause 9) } with
    held := some ⟨0, ⟨.data, 0⟩, ⟨windowAddr 0x010000 0 0, .write .both 0⟩, 147⟩ }

theorem test_premises_HandsOffInput :
    holding.handsOff = false ∧ holding.hasLine 0 = true ∧ (holding.line 0).heldHandsOff = false ∧ holding.state ≠ .dormant ∧
      holding.held = some ⟨0, ⟨.data, 0⟩, ⟨windowAddr 0x010000 0 0, .write .both 0⟩, 147⟩ ∧
      (holding.line 0).state.quiesced = true ∧ (armedWith (lineIn .off)).held = none ∧
      ({ armedWith { lineIn .off with heldHandsOff := true } with handsOff := true } : Machine.Part).handsOff = true ∧
      ((armedWith { lineIn .off with heldHandsOff := true }).line 0).heldHandsOff = true ∧
      holding.taken.handsOff = none ∧ Part.reset.assertHandsOff.taken.handsOff = some 0 := by decide +kernel

theorem test_premises_ForceWord :
    Ready (stateOf (armedWith (lineIn .drive))) ∧ (armedWith (lineIn .drive)).state = .armed ∧
      ((armedWith (lineIn .drive)).line 0).heldForced = false ∧ (armedWith (lineIn .drive)).forced = false ∧
      ((armedWith { lineIn .off with heldForced := true }).line 0).heldForced = true ∧
      Ready State.reset ∧ Part.reset.state ≠ .armed := by
  refine ⟨rfl, rfl, rfl, rfl, rfl, rfl, ?_⟩
  decide

theorem test_premises_DisarmStarts :
    (∀ x : LineState, Ready (stateOf (armedWith (lineIn x))) ∧ (armedWith (lineIn x)).state = .armed ∧
      (armedWith (lineIn x)).hasLine 0 = true ∧ ((armedWith (lineIn x)).line 0).state = x ∧
      ((armedWith (lineIn x)).line 0).probe = none ∧ ((armedWith (lineIn x)).line 0).walk = none) ∧
    (armedWith (lineIn .off)).hasLine 2 = false ∧ LineState.settle.quiesced = true ∧ LineState.drive.quiesced = true ∧
    LineState.drain.quiesced = true ∧ Ready State.reset ∧ Part.reset.state ≠ .armed ∧
    (∀ l g, Ready (stateOf (flying (armedWith l) g)) ∧ (flying (armedWith l) g).writer.flight = some ⟨0, g⟩) ∧
    ((armedWith { lineIn .listen with walk := some .pointers }).line 0).walk = some .pointers ∧
    (∀ k, ((armedWith { lineIn .listen with probe := some k }).line 0).probe = some k) ∧
    (armedWith (lineIn .listen)).writer.flight = none :=
  ⟨fun _ => ⟨rfl, rfl, rfl, rfl, rfl, rfl⟩, rfl, rfl, rfl, rfl, rfl, by decide, fun _ _ => ⟨rfl, rfl⟩, rfl, fun _ => rfl, rfl⟩

/-! ## Premises: the gate, arming, the closing write -/

theorem test_premises_GateSequence :
    (∀ n ∈ [0, 1, 2, 3], Ready (stateOf { Part.reset with gateProgress := n }) ∧
      ({ Part.reset with gateProgress := n } : Machine.Part).state = .dormant ∧
      ({ Part.reset with gateProgress := n } : Machine.Part).resetLow = false) ∧
    Ready (stateOf (armedWith (lineIn .off))) ∧ (armedWith (lineIn .off)).state ≠ .dormant ∧
    Ready (stateOf { Part.reset with resetLow := true }) ∧ Lanes.low ≠ .both :=
  ⟨fun _ _ => ⟨rfl, rfl, rfl⟩, rfl, by decide, rfl, by decide⟩

/-- A part in "ARMING" that serves the read of setup word `w`, with the words read so far. -/
def arming (w : Nat) (copy : List Word) (check : Word) : Machine.Part :=
  { serving Part.reset (.setupRead w) with state := .arming, setupCopy := copy, checkValue := some check }

theorem test_premises_SetupReads :
    (arming 5 [1, 0, 2, 5, 0] 0).resetPending = false ∧ (arming 5 [1, 0, 2, 5, 0] 0).port.serving = some (.setupRead 5) ∧
      ([1, 0, 2, 5, 0] ++ [Memory.readWord [] (baseWordAddr 5)]).length ≠ 7 ∧
      ([1, 0, 2, 5, 0, 0] ++ [Memory.readWord [] (baseWordAddr 6)]).length = 7 ∧
      (arming 6 [1, 0, 2, 5, 0, 0] 0).checkValue = some 0 ∧
      validateSetup ([1, 0, 2, 5, 0, 0] ++ [Memory.readWord [] (baseWordAddr 6)]) 0 ≠ .ok := by decide +kernel

/-- The bank with setup word 6 at 4. -/
def setupBank : Memory := Memory.writeLanes [] (baseWordAddr 6) .both 4

theorem test_premises_ValidSetupArms :
    (arming 6 [1, 0, 2, 5, 0, 0] (crc [1, 0, 2, 5, 0, 0, 4])).resetPending = false ∧
      (arming 6 [1, 0, 2, 5, 0, 0] (crc [1, 0, 2, 5, 0, 0, 4])).checkValue = some (crc [1, 0, 2, 5, 0, 0, 4]) ∧
      [1, 0, 2, 5, 0, 0] ++ [Memory.readWord setupBank (baseWordAddr 6)] = [1, 0, 2, 5, 0, 0, 4] ∧
      validateSetup [1, 0, 2, 5, 0, 0, 4] (crc [1, 0, 2, 5, 0, 0, 4]) = .ok := by decide +kernel

/-- A part whose closing write is being served. -/
def closingPart : Machine.Part := { serving (arming 6 [] 0) (.report (.base 32) (baseWordAddr 32) 1) with closing := true }

theorem test_premises_ClosingWrite :
    closingPart.resetPending = false ∧ closingPart.closing = true ∧ closingPart.reports = [] ∧ closingPart.port.waiting = none ∧
      closingPart.port.serving = some (.report (.base 32) (baseWordAddr 32) 1) ∧
      ({ closingPart with reports := [(.base 37, 0)] } : Machine.Part).reports ≠ [] ∧
      ({ closingPart with port := { closingPart.port with waiting := some ⟨5, .write .low 1⟩ } } : Machine.Part).port.waiting =
        some ⟨5, .write .low 1⟩ := by decide

/-- A part in "DISARMING" whose closing write is being served while a host read of LCB word 45 of line 0 waits. -/
def closingRead (flags : Word) : Machine.Part :=
  { armedWith { lineIn .off with flags } with
    state := .disarming
    closing := true
    port := ⟨0, 4, some (.report (.base 32) (baseWordAddr 32) 1), some ⟨lcbAddr 0x010000 0 45, .read⟩⟩ }

theorem test_premises_ClosingWrite_read :
    (closingRead 4).resetPending = false ∧ (closingRead 4).closing = true ∧ (closingRead 4).reports = [] ∧
      (closingRead 4).port.waiting = some ⟨lcbAddr 0x010000 0 45, .read⟩ ∧
      (closingRead 4).decode (lcbAddr 0x010000 0 45) = .lcb 0 45 ∧
      Memory.readWord (Memory.writeLanes [] (baseWordAddr 32) .both 1) (lcbAddr 0x010000 0 45) =
        ((closingRead 4).line 0).probeResult ∧
      ((closingRead 4).line 0).flags.getLsbD 2 = true ∧ ((closingRead 0).line 0).flags.getLsbD 2 = false ∧
      closingPart.decode 5 = .plain := by decide +kernel

/-! ## Premises: the paths of a host access -/

theorem test_premises_BlockedWriteRecorded :
    Ready (stateOf (armedWith (lineIn .off))) ∧
      (armedWith (lineIn .off)).writeBlocked (baseWordAddr 6) .both 0 = some .setupLocked ∧
      (armedWith (lineIn .off)).writeBlocked (baseWordAddr 47) .both 0 = some .reportWord ∧
      (armedWith (lineIn .listen)).writeBlocked (lcbAddr 0x010000 0 11) .both 16 = some .locked ∧
      (armedWith (lineIn .listen)).writeBlocked (lcbAddr 0x010000 0 4) .both 4096 = some .range :=
  ⟨rfl, by decide +kernel, by decide +kernel, by decide +kernel, by decide +kernel⟩

/-- The armed part with line 0 in "LISTEN" and its ring of 256 words at 0. -/
def ringPart (r : Ring) : Machine.Part := armedWith (ringLine r)

theorem test_premises_BlockedClasses :
    (ringPart (oneRecord .closed)).MapSound ∧ Part.reset.state = .dormant ∧ Part.reset.map = none ∧
      (ringPart (oneRecord .closed)).hasLine 1 = true ∧ (ringPart (oneRecord .closed)).isProtected 0 = true ∧
      ((ringPart (oneRecord .closed)).line 0).ringBase = 0 ∧ ((ringPart (oneRecord .closed)).line 0).ringSize = 256 ∧
      (0 : Addr).toNat < 0 + 256 ∧ (255 : Addr).toNat < 0 + 256 ∧ (255 : Addr).toNat < 0x1FFF00 ∧
      (255 : Addr).toNat < (ringPart (oneRecord .closed)).regionBase.toNat :=
  ⟨mapSound_armedWith (ringLine (oneRecord .closed)), rfl, rfl, by decide +kernel, by decide +kernel, by decide +kernel,
    by decide +kernel, by decide, by decide, by decide, by decide +kernel⟩

theorem test_premises_AccessesForwarded_dormant :
    Ready State.reset ∧ State.reset.part.state = .dormant ∧ AsleepInDormant State.reset.part ∧
      State.reset.part.hostWait = false ∧ ((5 : Addr) ≠ gateAddr ∧ (⟨gateAddr, .read⟩ : HostAccess).op = .read) := by
  refine ⟨rfl, rfl, fun _ => ⟨rfl, rfl, rfl, rfl, rfl, fun i => ?_⟩, rfl, by decide, rfl⟩
  simp [State.reset, Part.reset, Part.line]

/-- The part in "ARMING". -/
def armingPart : Machine.Part := { Part.reset with state := .arming }

theorem test_premises_AccessesForwarded :
    (∀ l, Ready (stateOf (armedWith l)) ∧ (armedWith l).MapSound) ∧ Ready (stateOf armingPart) ∧ armingPart.MapSound ∧
      (armedWith (lineIn .off)).state ≠ .dormant ∧ (armingPart.state ≠ .armed ∧ armingPart.state ≠ .disarming) ∧
      (baseWordAddr 45 ≠ baseWordAddr 46 ∧ baseWordAddr 45 ≠ baseWordAddr 47) ∧ armingPart.hasLine 0 = false ∧
      (armedWith (lineIn .off)).hasLine 1 = true ∧ (armedWith (lineIn .off)).hasLine 2 = false ∧
      (armedWith (lineIn .off)).map = some ⟨0x010000, 2⟩ ∧ Lanes.low ≠ .both ∧ ((2 : Word) ≠ 0 ∧ (2 : Word) ≠ 1) ∧
      ((0xF0F1 : Word) ≠ 0xF0F0 ∧ (0xF0F1 : Word) ≠ 0x0F0F) ∧ (0x2D70 : Word) ≠ 0x2D71 :=
  ⟨fun l => ⟨rfl, mapSound_armedWith l⟩, rfl, trivial, by decide, by decide, by decide, rfl, rfl, rfl, rfl, by decide, by decide,
    by decide, by decide⟩

/-- No window word is 5, the last word below the region, or a word of the LCBs. -/
theorem test_premises_AccessesForwarded_reads (a : Addr)
    (h : a = 5 ∨ a = 0x00FFFF ∨ a = lcbAddr 0x010000 0 45 ∨ a = lcbAddr 0x010000 31 63) :
    ∀ (i : LineNo) (w : Nat), (armedWith (lineIn .off)).hasLine i = true → w < 16 →
      a ≠ windowAddr (armedWith (lineIn .off)).regionBase i w := by
  have k : ∀ (i : LineNo), ∀ w < 16, (5 : Addr) ≠ windowAddr 0x010000 i w ∧ 0x00FFFF ≠ windowAddr 0x010000 i w ∧
      lcbAddr 0x010000 0 45 ≠ windowAddr 0x010000 i w ∧ lcbAddr 0x010000 31 63 ≠ windowAddr 0x010000 i w := by decide +kernel
  intro i w _ hw
  rcases h with rfl | rfl | rfl | rfl
  · exact (k i w hw).1
  · exact (k i w hw).2.1
  · exact (k i w hw).2.2.1
  · exact (k i w hw).2.2.2

theorem test_premises_AccessesForwarded_plain :
    ((0x00FFFF : Addr).toNat < 0x1FFF00 ∧ (0x00FFFF : Addr).toNat < (0x010000 : Addr).toNat) ∧
      ((0x010A00 : Addr).toNat < 0x1FFF00 ∧ (0x010000 : Addr).toNat + 2560 ≤ (0x010A00 : Addr).toNat) ∧
      (∀ i, (armedWith (lineIn .off)).isProtected i = false) ∧
      (∀ i, (ringPart (oneRecord .closed)).isProtected i = true → ((ringPart (oneRecord .closed)).line i).ringBase +
        ((ringPart (oneRecord .closed)).line i).ringSize ≤ (256 : Addr).toNat) := by decide +kernel

theorem test_premises_HostAccessCompletes :
    MemoryCanonical (stateOf (serving (armedWith (lineIn .off)) (.host ⟨5, .write .low 7⟩))) ∧
      (serving (armedWith (lineIn .off)) (.host ⟨5, .write .low 7⟩)).port.serving = some (.host ⟨5, .write .low 7⟩) ∧
      (serving (armedWith (lineIn .off)) (.host ⟨5, .read⟩)).port.serving = some (.host ⟨5, .read⟩) ∧
      (serving (armedWith (lineIn .off)) (.host ⟨5, .read⟩)).port.waiting = none ∧
      (serving (armedWith (lineIn .off)) (.host ⟨5, .read⟩)).held = none ∧
      (serving (armedWith (lineIn .off)) (.host ⟨5, .read⟩)).decode 5 = .plain := by
  refine ⟨rfl, rfl, rfl, rfl, rfl, ?_⟩
  decide +kernel

theorem test_premises_PortArbitration :
    let q (n : Nat) (host : Option HostAccess) (r : List (ReportWord × Word)) : Machine.Part :=
      { Part.reset with reports := r, port := ⟨n, 2, none, host⟩ }
    (serving Part.reset (.setupRead 0)).port.serving = some (.setupRead 0) ∧
      (q 0 none []).internalRequest = none ∧ (q 0 (some ⟨5, .read⟩) []).internalRequest = none ∧
      (q 1 (some ⟨5, .read⟩) [(.base 37, 0)]).internalRequest = some (.report (.base 37) (baseWordAddr 37) 0) ∧
      (q 1 (some ⟨5, .read⟩) [(.base 37, 0)]).port.passOver < (q 1 (some ⟨5, .read⟩) [(.base 37, 0)]).port.allowance ∧
      (q 2 (some ⟨5, .read⟩) [(.base 37, 0)]).port.passOver = (q 2 (some ⟨5, .read⟩) [(.base 37, 0)]).port.allowance ∧
      (q 2 none [(.base 37, 0)]).port.waiting = none := by decide

/-- A line whose resume walk stands at `w`. -/
def walkingAt (w : Walk) : Line := { ringLine (oneRecord .closed) with walk := some w }

theorem test_premises_PortArbitration_requests :
    (armingPart.state = .arming ∧ armingPart.setupCopy.length < 7) ∧ ¬ (armedWith (lineIn .off)).state = .arming ∧
      (arming 6 [1, 0, 2, 5, 0, 0, 4] 0).setupCopy.length = 7 ∧ (armedWith (lineIn .off)).writer.flight = none ∧
      (∀ l g, (flying (armedWith l) g).writer.flight = some ⟨0, g⟩) ∧
      (∀ w, ((armedWith (walkingAt w)).line 0).walk = some w) ∧ (armedWith (lineIn .off)).map = some ⟨0x010000, 2⟩ ∧
      [37, 38, 40, 41, 42][4]? = some 42 ∧ (eventWriting [(9, 0)]).todo = (9, 0) :: [] :=
  ⟨⟨rfl, by decide⟩, nofun, rfl, rfl, fun _ _ => rfl, fun _ => rfl, rfl, rfl, rfl⟩

theorem test_premises_DisarmCompletes :
    let q : Machine.Part := { armedWith (lineIn .off) with state := .disarming }
    q.state = .disarming ∧ q.closing = false ∧ q.reports = [] ∧ q.arbitrate.closing = true ∧
      (∀ i, q.hasLine i = true → (q.line i).state = .off ∧ q.hasWork i = false) := by decide +kernel

/-- A part in "DISARMING" with every line drained, one word pending and a host access waiting at a free port. -/
def lastPending (passed : Nat) : Machine.Part :=
  { armedWith (lineIn .off) with
    state := .disarming
    reports := [(.base 37, 0)]
    port := ⟨passed, 4, none, some ⟨5, .read⟩⟩ }

theorem test_premises_DisarmCompletes_grant :
    DisarmEnds { armedWith (lineIn .off) with state := .disarming } ∧ ¬ DisarmEnds (lastPending 4) ∧
      DisarmEnds (lastPending 4).grant ∧ ¬ DisarmEnds (lastPending 3) ∧ ¬ DisarmEnds (lastPending 3).grant ∧
      ¬ DisarmEnds (armedWith (lineIn .off)).grant ∧ ¬ DisarmEnds armingPart.grant := by
  unfold DisarmEnds
  decide +kernel

theorem test_premises_ReportQueue :
    (∀ u, (ReportWord.base 37, u) ∉ ([(.base 38, 0)] : List (ReportWord × Word))) ∧
      ([(.base 37, 5), (.base 38, 0)] : List (ReportWord × Word)) = [] ++ (.base 37, 5) :: [(.base 38, 0)] ∧
      (([(.base 37, 5), (.base 38, 0)] : List (ReportWord × Word)).map Prod.fst).Nodup ∧
      Memory.wf (Memory.writeLanes [] 5 .both 7) = true ∧
      (serving (armedWith (lineIn .off)) (.report (.base 37) (baseWordAddr 37) 0)).servesClosing = false ∧
      (lineIn .off).modeStatus.offset < 32 ∧ (ringLine (oneRecord .closed)).ring = .present (oneRecord .closed) := by
  refine ⟨?_, ?_, ?_, ?_, ?_, ?_, ?_⟩
  · intro u; simp
  all_goals decide

theorem test_premises_HostWaitsItsTurn : holding.busBusy = true ∧ (serving Part.reset (.host ⟨5, .read⟩)).busBusy = true := by
  decide

/-! ## Premises: part control, mode requests -/

theorem test_premises_AttentionEnableAndAcknowledge :
    (∀ x : PartState, Ready (stateOf { armedWith (lineIn .off) with state := x }) ∧
      ({ armedWith (lineIn .off) with state := x } : Machine.Part).state = x) ∧ Lanes.low ≠ .both ∧ (2 : Word) ≠ 0 ∧ (2 : Word) ≠ 1 :=
  ⟨fun _ => ⟨rfl, rfl⟩, by decide, by decide, by decide⟩

theorem test_premises_TimestampPair :
    (∀ x : PartState, Ready (stateOf { armedWith (lineIn .off) with state := x }) ∧
      ({ armedWith (lineIn .off) with state := x } : Machine.Part).state = x) ∧
    (armedWith (lineIn .off)).readStampHigh.captured = some 0 ∧ (armedWith (lineIn .off)).captured = none ∧
    (armedWith (lineIn .off)).nextTick = some 294912 ∧ Part.reset.nextTick = none :=
  ⟨fun _ => ⟨rfl, rfl⟩, rfl, rfl, rfl, rfl⟩

/-- A request of value `v` reaches the line in every line state. -/
theorem test_premises_requests (x : LineState) (w : Fin 22) (v : Word) (hw : w = 0 ∨ w = 1) :
    Reaches (stateOf (armedWith (lineIn x))) 0 ∧ (armedWith (lineIn x)).state = .armed ∧
      (armedWith (lineIn x)).merged 0 w .both v = v ∧ ((armedWith (lineIn x)).line 0).state = x := by
  refine ⟨reaches_armedWith _, rfl, ?_, rfl⟩
  rcases hw with rfl | rfl <;> rfl

/-- A request of one lane: the other comes from the shadow. -/
theorem test_premises_oneLane : (armedWith (lineIn .off)).merged 0 0 .low 0x5503 = 3 := by decide

theorem test_premises_ModeRequestOff : ∀ x : LineState,
    Reaches (stateOf (armedWith (lineIn x))) 0 ∧ (armedWith (lineIn x)).state = .armed ∧
      (armedWith (lineIn x)).merged 0 0 .both 0 = 0 ∧ ((armedWith (lineIn x)).line 0).state = x :=
  fun x => test_premises_requests x 0 0 (.inl rfl)

/-- A line in "OFF" whose settings pass validation. -/
def validLine : Line :=
  { lineIn .off with
    shadow := ((((((lineIn .off).shadow.set 3 0x0108).set 4 4095).set 9 128).set 11 256).set 19 255).set 20 1
    }

/-- A line in "OFF" with a job left, so protected. -/
def busyLine : Line := { validLine with jobs := [.data 0] }

theorem test_premises_ModeRequestListen :
    ((∀ x : LineState, (armedWith (lineIn x)).merged 0 0 .both 1 = 1 ∧ ((armedWith (lineIn x)).line 0).state = x) ∧
      (armedWith busyLine).isProtected 0 = true ∧ (armedWith busyLine).merged 0 0 .both 1 = 1) ∧
    (armedWith (lineIn .off)).isProtected 0 = false ∧ (armedWith (lineIn .off)).validate 0 = some 3 ∧
    ((armedWith (lineIn .drive)).line 0).queue = [] ∧ (holding.line 0).queue ≠ [] ∧ (holding.line 0).state = .drive ∧
    (armedWith validLine).isProtected 0 = false :=
  ⟨⟨fun _ => ⟨rfl, rfl⟩, rfl, rfl⟩, rfl, by decide +kernel, rfl, by decide, rfl, rfl⟩

/-- The ring of 128 units at 0 overlaps no console region at 0x010000: it ends at 0x7FFF. -/
theorem test_premises_validLine : (armedWith validLine).validate 0 = none := by decide +kernel

theorem test_premises_ModeRequestListenResume :
    (∀ x : LineState, (armedWith (lineIn x)).merged 0 0 .both 2 = 2 ∧ ((armedWith (lineIn x)).line 0).state = x) ∧
    (armedWith busyLine).isProtected 0 = true ∧ (armedWith validLine).isProtected 0 = false :=
  ⟨fun _ => ⟨rfl, rfl⟩, rfl, rfl⟩

theorem test_premises_ModeRequestDrive :
    (∀ x : LineState, (armedWith (lineIn x)).merged 0 0 .both 3 = 3 ∧ ((armedWith (lineIn x)).line 0).state = x) ∧
    (lineIn .listen).heldHandsOff = false ∧ (lineIn .listen).heldForced = false ∧ (lineIn .listen).walk = none ∧
    (lineIn .listen).probe = none ∧ { lineIn .listen with heldForced := true }.heldForced = true ∧
    { lineIn .listen with walk := some .pointers }.walk ≠ none :=
  ⟨fun _ => ⟨rfl, rfl⟩, rfl, rfl, rfl, rfl, rfl, by decide⟩

/-- The armed part, disarming. -/
def disarmingWith (l : Line) : Machine.Part := { armedWith l with state := .disarming }

theorem test_premises_ModeRequestRefused :
    Reaches (stateOf (disarmingWith (lineIn .listen))) 0 ∧ (disarmingWith (lineIn .listen)).state = .disarming ∧
      (∀ n : Fin 5, (disarmingWith (lineIn .listen)).merged 0 0 .both (BitVec.ofNat 16 n) = BitVec.ofNat 16 n) ∧ 3 < (4 : Word).toNat ∧
      (armedWith (lineIn .listen)).merged 0 0 .both 4 = 4 :=
  ⟨⟨rfl, rfl, mapSound_armedWith (lineIn .listen)⟩, rfl, by decide, by decide, rfl⟩

theorem test_premises_ListenValidation : (armedWith validLine).map = some ⟨0x010000, 2⟩ := rfl

/-! ## Premises: commands, settings, the window -/

theorem test_premises_CommandsOfEveryState :
    (∀ n : Fin 8, (armedWith (lineIn .listen)).merged 0 1 .both (BitVec.ofNat 16 n) = BitVec.ofNat 16 n ∧
      (disarmingWith (lineIn .listen)).merged 0 1 .both (BitVec.ofNat 16 n) = BitVec.ofNat 16 n) ∧
    Reaches (stateOf (armedWith (lineIn .listen))) 0 ∧ Reaches (stateOf (disarmingWith (lineIn .listen))) 0 :=
  ⟨by decide +kernel, reaches_armedWith _, ⟨rfl, rfl, mapSound_armedWith (lineIn .listen)⟩⟩

theorem test_premises_Flush :
    Reaches (stateOf (ringPart (oneRecord .closed))) 0 ∧ (ringPart (oneRecord .closed)).merged 0 1 .both 2 = 2 ∧
      ((ringPart (oneRecord .closed)).line 0).state ≠ .off ∧ ((ringPart (oneRecord .closed)).line 0).walk = none ∧
      ((ringPart (oneRecord .closed)).line 0).ring = .present (oneRecord .closed) ∧
      { lineIn .listen with walk := some .pointers }.walk ≠ none :=
  ⟨reaches_armedWith (ringLine (oneRecord .closed)), by decide +kernel, by decide +kernel, by decide +kernel, rfl, by decide⟩

theorem test_premises_ProbeCommands :
    (∀ x : LineState, (armedWith (lineIn x)).merged 0 1 .both 3 = 3 ∧ (armedWith (lineIn x)).merged 0 1 .both 4 = 4 ∧
      ((armedWith (lineIn x)).line 0).state = x) ∧
    { lineIn .listen with probe := some ⟨false, 0, 0, none, none⟩ }.probe ≠ none :=
  ⟨fun x => by cases x <;> decide +kernel, by decide⟩

theorem test_premises_DiscardTx :
    (∀ x : LineState, (armedWith (lineIn x)).merged 0 1 .both 5 = 5 ∧ ((armedWith (lineIn x)).line 0).state = x) ∧
    ((lineIn .drain).dropQueue 0).queue = [] ∧
    ({ lineIn .drain with queue := [⟨.data, 0⟩], acting := some (.byte ⟨8, .none, 1⟩ 16 0 0) }.dropQueue 0).queue ≠ [] :=
  ⟨fun _ => ⟨rfl, rfl⟩, rfl, by decide⟩

theorem test_premises_LineAcknowledge :
    Reaches (stateOf (armedWith (lineIn .off))) 0 ∧ Reaches (stateOf (disarmingWith (lineIn .off))) 0 :=
  ⟨reaches_armedWith (lineIn .off), ⟨rfl, rfl, mapSound_armedWith (lineIn .off)⟩⟩

theorem test_premises_SettingsWrite :
    (∀ x : LineState, Reaches (stateOf (armedWith (lineIn x))) 0) ∧
    (∀ w : Fin 22, (armedWith (lineIn .listen)).merged 0 w .both 256 = 256) ∧
    (settingInRange 4 4095 = true ∧ settingInRange 4 4096 = false ∧ settingInRange 4 0 = false) ∧
    (settingInRange 12 255 = true ∧ settingInRange 12 256 = false ∧ settingInRange 19 0 = false) ∧
    ((lineIn .off).state = .off ∧ (armedWith busyLine).isProtected 0 = true) :=
  ⟨fun _ => reaches_armedWith _, by decide, by decide, by decide, rfl, rfl⟩

theorem test_premises_WindowWriteRefused :
    Reaches (stateOf (armedWith (lineIn .settle))) 0 ∧ 5 < (hiByte 0x0600).toNat ∧
      ((hiByte 0x0200).toNat = 2 ∧ loByte 0x0200 = 0) ∧ ((hiByte 0x030C).toNat = 3 ∧ 11 < (loByte 0x030C).toNat) ∧
      ¬((lineIn .drain).state = .settle ∨ (lineIn .drain).state = .drive) ∧ (disarmingWith (lineIn .settle)).state = .disarming :=
  ⟨reaches_armedWith _, by decide, by decide, by decide, by decide, rfl⟩

/-- The armed part with hold limit 0. -/
def noHold (l : Line) : Machine.Part := { armedWith l with setupCopy := [1, 0, 2, 0, 0, 0, 4] }

/-- A settling line with `n` entries. -/
def settling (n : Nat) : Line := { lineIn .settle with queue := List.replicate n ⟨.data, 0⟩ }

theorem test_premises_WindowWriteTaken :
    (∀ n, Reaches (stateOf (armedWith (settling n))) 0) ∧ (settling 63).queue.length < 64 ∧ 64 ≤ (settling 64).queue.length ∧
      (noHold (settling 64)).holdLimit = 0 ∧ (armedWith (settling 64)).holdLimit ≠ 0 ∧
      Entry.ofWord 0x0041 = some ⟨.data, 0x41⟩ ∧ (lineIn .drive).queue = [] ∧ (lineIn .drive).acting = none ∧
      holding.held ≠ none ∧ (noHold (settling 64)).held = none :=
  ⟨fun _ => reaches_armedWith _, by decide, by decide, rfl, by decide, by decide, rfl, rfl, by decide, rfl⟩

theorem test_premises_WindowRead : Reaches (stateOf (armedWith (settling 64))) 0 ∧ (settling 64).queue.length ≤ 64 :=
  ⟨reaches_armedWith _, by decide⟩

/-! ## Premises: snooped reads, the writer -/

theorem test_premises_ProbeResultRead :
    (serving (armedWith (lineIn .listen)) (.host ⟨lcbAddr 0x010000 0 45, .read⟩)).hasLine 0 = true ∧
      (serving (armedWith (lineIn .listen)) (.host ⟨lcbAddr 0x010000 0 45, .read⟩)).port.serving =
        some (.host ⟨lcbAddr (armedWith (lineIn .listen)).regionBase 0 45, .read⟩) ∧
      (armedWith (lineIn .listen)).MapSound ∧ Memory.readWord [] (lcbAddr 0x010000 0 45) = (lineIn .listen).probeResult ∧
      Memory.readWord [] (lcbAddr 0x010000 0 45) ≠ { lineIn .listen with probeResult := 0x0105 }.probeResult :=
  ⟨rfl, rfl, mapSound_armedWith _, rfl, by decide⟩

theorem test_premises_RingReads :
    (ringPart (oneRecord .closed)).decode 1 = .ring 0 ((oneRecord .closed).r + 1) ∧
      (ringPart (oneRecord .closed)).liveRing 0 = some (oneRecord .closed) ∧
      (ringPart (oneRecord (.opened 10 none))).decode 9 = .ring 0 ((oneRecord .closed).r + 10 - 1) ∧
      (ringPart (oneRecord (.opened 10 none))).decode 255 = .ring 0 255 ∧
      (serving (ringPart (oneRecord .closed)) (.host ⟨1, .read⟩)).port.serving = some (.host ⟨1, .read⟩) ∧
      (armedWith { ringLine (oneRecord .closed) with ring := .unknown }).liveRing 0 = none := by decide +kernel

theorem test_premises_RingReads_sizes :
    (oneRecord .closed).admitsSize 256 10 ∧ ¬ (oneRecord .closed).admitsSize 256 12 ∧ ¬ (oneRecord .closed).admitsSize 256 0 ∧
      (oneRecord .closed).count ≠ 0 ∧ { oneRecord .closed with count := 0 }.count = 0 ∧
      (ringLine (oneRecord .closed)).setting 17 = 0 := by
  refine ⟨?_, ?_, ?_, by decide, rfl, rfl⟩ <;> simp [Ring.admitsSize, oneRecord]

/-- A line in "LISTEN" that offers a data job. -/
def offering (jobs : List Job) : Machine.Part := armedWith { ringLine (oneRecord .closed) with jobs := jobs }

theorem test_premises_WriterSelects :
    let offers := fun (p : Machine.Part) (i : LineNo) => p.hasLine i = true ∧
      ((p.line i).walk ≠ none ∨ (p.line i).parked = none ∧ ((p.line i).retained ≠ none ∨ (p.line i).jobs ≠ []))
    (∀ jobs ∈ [[Job.data 0], [.event ⟨.stuck, 0, 0, 0, 0, 0⟩]],
      (offering jobs).writer.flight = none ∧ offers (offering jobs) 0 ∧ (∀ j, offers (offering jobs) j → j = 0)) ∧
    (∀ j, ¬ offers (offering []) j) ∧ (flying (offering []) (.walkStep [] none)).writer.flight ≠ none ∧
    offers (armedWith { lineIn .listen with walk := some .pointers }) 0 ∧
    offers (armedWith { lineIn .listen with retained := some (.data 0) }) 0 := by decide +kernel

theorem test_premises_SpaceCheck :
    (∀ r : Ring, (ringLine r).ring = .present r ∧ (ringLine r).ringSize = 256) ∧
    ((ringLine (oneRecord .closed)).shadow[10] ≠ 1 ∧ { ringLine (oneRecord .closed) with
        shadow := (ringLine (oneRecord .closed)).shadow.set 10 1 }.shadow[10] = 1) ∧
    ((oneRecord .closed).discardRecords = 0 ∧ (oneRecord .closed).discardBytes = 0 ∧
      ¬({ oneRecord .closed with discardRecords := 1 }.discardRecords = 0)) ∧
    (10 ≤ 256 - 246 ∧ 256 - 248 < (256 - 248) + 10) :=
  ⟨fun _ => ⟨rfl, rfl⟩, by decide, by decide, by decide⟩

/-- The part with a record word of line 0 being served. -/
def writing (todo : List (Nat × Word)) : Machine.Part :=
  flying (serving (ringPart (oneRecord .closed)) (.recordWord 5 7)) (.writing (eventWriting todo))

theorem test_premises_RecordWriting :
    (∀ todo, (writing todo).resetPending = false ∧ (writing todo).port.serving = some (.recordWord 5 7) ∧
      (writing todo).writer.flight = some ⟨0, .writing (eventWriting todo)⟩ ∧
      ((writing todo).line 0).ring = .present (oneRecord .closed)) ∧
    1 < (eventWriting [(0, 0), (1, 0)]).todo.length ∧ (eventWriting [(1, 0)]).todo.length = 1 ∧
    (16 ≤ 256 ∧ 18 ≤ 9 + 256 / 2 + (9 + 256 / 2) % 2 ∧ 9 + 256 / 2 + (9 + 256 / 2) % 2 ≤ 138) ∧
    (eventWriting [(1, 0)]).isGap = false ∧ { eventWriting [(1, 0)] with isGap := true }.isGap = true ∧
    ((writing []).reports = []) :=
  ⟨fun _ => ⟨rfl, rfl, rfl, rfl⟩, by decide, rfl, by decide, rfl, rfl, rfl⟩

/-- The part with a reclaim read of line 0 being served, presented at R = `noted`. -/
def reclaiming (noted : Nat) (overtaken : Bool) (r : Ring) : Machine.Part :=
  flying (serving (ringPart r) (.reclaimRead 1)) (.reclaimRead (.data 0) noted overtaken)

theorem test_premises_ReclaimRead :
    (∀ n o r, (reclaiming n o r).resetPending = false ∧ (reclaiming n o r).port.serving = some (.reclaimRead 1) ∧
      (reclaiming n o r).writer.flight = some ⟨0, .reclaimRead (.data 0) n o⟩ ∧ ((reclaiming n o r).line 0).ring = .present r) ∧
    (oneRecord .closed).r ≠ 12 ∧ (oneRecord .closed).r = 0 ∧ (oneRecord (.opened 10 none)).lease ≠ .closed ∧
    Memory.readWord (Memory.writeLanes [] 1 .both 10) 1 = 10 ∧ Memory.readWord [] 1 = 0 :=
  ⟨fun _ _ _ => ⟨rfl, rfl, rfl, rfl⟩, by decide, rfl, by decide, by decide, rfl⟩

/-- The part with a walk read of line 0 being served. -/
def walking (w : Walk) (got : List Word) (abandoned : Option Addr) : Machine.Part :=
  flying (serving (armedWith { ringLine (oneRecord .closed) with walk := some w }) (.walkRead 1)) (.walkStep got abandoned)

/-- A walk that stands at offset 0 with 10 words to go. -/
def walkRun : WalkRun := ⟨10, 0, 1, 10, 0, 10, 0, none, none⟩

theorem test_premises_WalkReads :
    (∀ w got a, (walking w got a).resetPending = false ∧ (walking w got a).port.serving = some (.walkRead 1) ∧
      (walking w got a).writer.flight = some ⟨0, .walkStep got a⟩ ∧ ((walking w got a).line 0).walk = some w) ∧
    [(0 : Word), 0, 0].length + 1 < 5 ∧ [(0 : Word)].length + 1 < 3 ∧
    [((2 : Word), decide ((0x00 : Nat) ≠ 0x01)), (7, decide (walkRun.remaining < 12))].find? (fun c => c.2) = some (2, true) ∧
    ([((7 : Word), decide (walkRun.remaining < 10)), (6, decide (walkRun.lastSeq ≠ none))].find? (fun c => c.2)) = none :=
  ⟨fun _ _ _ => ⟨rfl, rfl, rfl, rfl⟩, by decide, by decide, by decide, by decide⟩

/-! ## Premises: transmitting and receiving -/

/-- A driving line with one entry. -/
def driving (e : Entry) : Line := { lineIn .drive with queue := [e] }

theorem test_premises_HeadActs :
    (∀ k v, ((armedWith (driving ⟨k, v⟩)).line 0).state = .drive ∧ ((armedWith (driving ⟨k, v⟩)).line 0).acting = none ∧
      ((armedWith (driving ⟨k, v⟩)).line 0).queue = ⟨k, v⟩ :: []) ∧
    (lineIn .drain).queue = [] ∧ (lineIn .drain).acting = none ∧ (lineIn .listen).state ≠ .drive ∧ (lineIn .listen).state ≠ .drain ∧
    (lineIn .drive).shadow[6] ≠ 1 ∧ ¬((lineIn .drive).shadow[6] = 2 ∧ (lineIn .drive).breakCredit = true) ∧
    { lineIn .drive with shadow := (lineIn .drive).shadow.set 6 1 }.shadow[6] = 1 ∧
    { lineIn .drive with shadow := (lineIn .drive).shadow.set 6 2, breakCredit := true }.shadow[6] = 2 :=
  ⟨fun _ _ => ⟨rfl, rfl, rfl⟩, rfl, rfl, by decide, by decide, by decide, by decide, rfl, rfl⟩

theorem test_premises_SettleAndRelease :
    { lineIn .settle with settleTimer := some 9 }.settleTimer = some 9 ∧ (lineIn .settle).settleTimer = none ∧
      (∀ x, ({ lineIn .release with releaseTimer := some 9, target := x }.releaseTimer = some 9 ∧
        { lineIn .release with releaseTimer := some 9, target := x }.target = x)) ∧ (lineIn .release).releaseTimer = none :=
  ⟨rfl, rfl, fun _ => ⟨rfl, rfl⟩, rfl⟩

theorem test_premises_EntriesEnd :
    (∀ x a, ((armedWith { lineIn x with acting := some a }).line 0).acting = some a ∧
      ((armedWith { lineIn x with acting := some a }).line 0).state = x) ∧
    (armedWith (lineIn .listen)).driverEnabled 0 = false ∧ (∀ a, (armedWith { lineIn .drive with acting := a }).driverEnabled 0 = true) ∧
    (0 + 0 * 3072 ≤ (armedWith (lineIn .drive)).now ∧ (armedWith (lineIn .drive)).now < 0 + (0 + 1) * 3072) ∧
    (frameLevels ⟨8, .none, 1⟩ 0x55)[0]? = some .space :=
  ⟨fun _ _ => ⟨rfl, rfl⟩, rfl, fun _ => rfl, by decide, rfl⟩

theorem test_premises_RxEdges :
    (∀ r, (armedWith { lineIn .listen with receiver := r }).rxPin[(0 : LineNo)] = .mark ∧
      (armedWith { lineIn .listen with receiver := r }).hasLine 0 = true ∧
      ((armedWith { lineIn .listen with receiver := r }).line 0).receiver = r ∧
      ((armedWith { lineIn .listen with receiver := r }).line 0).state ≠ .off ∧
      ((armedWith { lineIn .listen with receiver := r }).line 0).openCondition = false) ∧
    ({ Part.reset with rxPin := Part.reset.rxPin.set 0 .space } : Machine.Part).rxPin[(0 : LineNo)] = .space ∧
    (∀ n, { lineIn .listen with probe := some ⟨false, 0, n, none, none⟩ }.probe = some ⟨false, 0, n, none, none⟩) ∧
    62 + 1 ≠ 64 ∧ 63 + 1 = 64 ∧ (∀ u, Part.reset.taken.rx[(0 : LineNo)] = some u → u + 2 ≤ 0) ∧
    (∀ u, (Part.reset.rxFalls 0 0).taken.rx[(0 : LineNo)] = some u → u + 2 ≤ (Part.reset.rxFalls 0 0).now + 2) ∧
    (Part.reset.rxFalls 0 0).taken.rx[(0 : LineNo)] = some 0 ∧ ¬ 0 + 2 ≤ (Part.reset.rxFalls 0 0).now + 1 :=
  ⟨fun _ => ⟨rfl, rfl, rfl, nofun, rfl⟩, rfl, fun _ => rfl, by decide, by decide, nofun,
    fun u h => by cases (show some 0 = some u from h); decide, rfl, by decide⟩

/-- A frame of 8 data bits, no parity, 1 stop bit, whose nine samples are at `v`. -/
def frameOf (v : Level) : FrameRun := ⟨⟨8, .none, 1⟩, 3072, 0, List.replicate 9 v, 0⟩

theorem test_premises_FrameSamples :
    ((armedWith { lineIn .listen with receiver := .hunt (some 0) }).line 0).receiver = .hunt (some 0) ∧
      ((armedWith { lineIn .listen with receiver := .frame (frameOf .space) }).line 0).receiver = .frame (frameOf .space) ∧
      ((frameOf .space).complete .space).framingError = true ∧ Level.mark ∉ ((frameOf .space).complete .space).samples ∧
      ((frameOf .mark).complete .mark).framingError = false ∧
      ({ frameOf .mark with samples := [.mark] }.complete .space).framingError = true ∧
      Level.mark ∈ ({ frameOf .mark with samples := [.mark] }.complete .space).samples ∧ 0 < (frameOf .mark).bitTime := by decide

theorem test_premises_FramesSentAndReceived :
    { lineIn .off with shadow := (lineIn .off).shadow.set 3 0x0108 }.shadow[3].toNat = 256 * 1 + 16 * 0 + 8 ∧
    { lineIn .off with shadow := (lineIn .off).shadow.set 3 0x0227 }.shadow[3].toNat = 256 * 2 + 16 * 2 + 7 ∧
    (List.replicate 11 Level.mark).length =
      (⟨8, .odd, 2⟩ : Machine.FrameFormat).dataBits + 1 + (⟨8, .odd, 2⟩ : Machine.FrameFormat).stopBits ∧
    (List.replicate 8 Level.mark).length =
      (⟨7, .none, 1⟩ : Machine.FrameFormat).dataBits + 0 + (⟨7, .none, 1⟩ : Machine.FrameFormat).stopBits := by decide

theorem test_premises_BreakGapQuiet :
    { lineIn .listen with receiver := .spaceRun 0 30720 none }.receiver = .spaceRun 0 30720 none ∧
      { lineIn .listen with gapTimer := some 9 }.gapTimer = some 9 ∧ (lineIn .listen).gapTimer = none ∧
      { lineIn .listen with quietTimer := some 9 }.quietTimer = some 9 ∧ (lineIn .listen).quietTimer = none :=
  ⟨rfl, rfl, rfl, rfl, rfl⟩

/-- A line in "LISTEN" with its two buffers as given. -/
def buffered (a b : Buffer) : Line := { lineIn .listen with buffers := #v[a, b] }

theorem test_premises_EventsAndBytes :
    (∀ k : Fin 2, ∀ c, (buffered .free .free).buffers[k] ≠ .opened c) ∧
    (∀ c, (buffered (.closed c) (.opened c)).buffers[(1 : Fin 2)] = .opened c ∧
      (∀ (j : Fin 2) x, j ≠ 1 → (buffered (.closed c) (.opened c)).buffers[j] ≠ .opened x)) ∧
    (∀ c, (buffered (.closed c) (.writing c)).buffers[0] ≠ .free ∧ (buffered (.closed c) (.writing c)).buffers[1] ≠ .free ∧
      (buffered (.closed c) .free).buffers[1] = .free) ∧
    (List.replicate 3 (Job.event ⟨.stuck, 0, 0, 0, 0, 0⟩)).countP
      (fun j => match j with | .event _ => true | .data _ => false) < 4 := by
  refine ⟨?_, fun c => ⟨rfl, ?_⟩, fun c => ⟨nofun, nofun, rfl⟩, by decide⟩
  · intro k c
    match k with
    | 0 => exact nofun
    | 1 => exact nofun
  · intro j x hj
    match j with
    | 0 => exact nofun
    | 1 => exact absurd rfl hj

theorem test_premises_LineFaults :
    (armedWith { lineIn .listen with invalidRun := some 9 }).hasLine 0 = true ∧ Part.reset.svPin[(0 : LineNo)] = true ∧
      (Part.reset.svPin.set 0 false)[(0 : LineNo)] = false ∧
      { lineIn .listen with invalidRun := some 9 }.invalidRun = some 9 ∧ (lineIn .listen).openCondition = false ∧
      { lineIn .listen with validRun := some 9, openCondition := true }.openCondition = true ∧
      { lineIn .listen with spaceTimer := some 9 }.spaceTimer = some 9 ∧ (lineIn .listen).state ≠ .off ∧
      Part.reset.taken.sv[(0 : LineNo)] = none ∧ (Part.reset.signalFalls 0).taken.sv[(0 : LineNo)] = some 0 :=
  ⟨rfl, rfl, rfl, rfl, rfl, rfl, rfl, nofun, rfl, rfl⟩

theorem test_premises_RingTimers :
    (∀ r, ((armedWith (ringLine r)).line 0).ring = .present r) ∧ (oneRecord (.opened 10 (some 9))).lease = .opened 10 (some 9) ∧
      (∀ n t, (oneRecord (.opened 10 none)).lease ≠ .opened n (some t)) ∧ (oneRecord .closed).coalesce = .running 294912 ∧
      (∀ t, { oneRecord .closed with coalesce := .expired }.coalesce ≠ .running t) :=
  ⟨fun _ => rfl, rfl, nofun, rfl, nofun⟩

theorem test_premises_ProbeWindowEnds :
    { lineIn .listen with probe := some ⟨true, 0, 8, some 3072, none⟩ }.probe = some ⟨true, 0, 8, some 3072, none⟩ ∧
      (lineIn .listen).probe = none ∧ (7 : Nat) < 8 ∧ 8 ≤ (8 : Nat) ∧ 20 * ((3072 - 2926) + (2926 - 3072)) ≤ 2926 :=
  ⟨rfl, rfl, by decide, by decide, by decide⟩

/-- A part whose probe has counted `edges` edges, one period before its 5 s. -/
def probing (edges : Nat) : Machine.Part :=
  { armedWith { lineIn .listen with probe := some ⟨false, 0, edges, some 3072, none⟩ } with
    now := 147455999
    taken := { Part.reset.taken with rx := Part.reset.taken.rx.set 0 (some 147455998) } }

theorem test_premises_ProbeWindowEnds_together :
    ((probing 63).line 0).probe = some ⟨false, 0, 63, some 3072, none⟩ ∧ (probing 63).now + 1 = 0 + 5 * 29491200 ∧
      (probing 63).rxPin[(0 : LineNo)] = .mark ∧
      (∀ u, (probing 63).taken.rx[(0 : LineNo)] = some u → u + 2 ≤ (probing 63).now + 1) ∧ (probing 63).hasLine 0 = true ∧
      ((probing 63).line 0).state ≠ .off ∧ ((probing 63).line 0).openCondition = false := by
  refine ⟨rfl, rfl, rfl, fun u h => ?_, rfl, nofun, rfl⟩
  cases h
  decide

/-- The edges that the first "PROBE_DONE" event of line 0 reports. -/
def edgesReported (p : Machine.Part) : Option Word :=
  match (p.line 0).jobs with
  | .event e :: _ => some e.d
  | _ => none

/-- The 64th edge and the expiry together give 64 edges in either order; an edge that is not the 64th does not count once the
expiry is taken. -/
theorem test_probeExpiryTogether :
    edgesReported (((probing 63).rxFalls 0 1).probeExpires 0 false) = some 64 ∧
      edgesReported ((probing 63).probeExpires 0 true) = some 64 ∧ edgesReported ((probing 62).probeExpires 0 true) = some 62 ∧
      ((probing 63).probeExpires 0 true).rxPin[(0 : LineNo)] = .space := by decide +kernel

theorem test_premises_Attention :
    (∀ r, ((armedWith (ringLine r)).line 0).ring = .present r) ∧ (∀ r, (lineIn .off).ring ≠ .present r) :=
  ⟨fun _ => rfl, nofun⟩

/-! ## Premises: the invariants -/

theorem test_premises_StepKeepsMemoryCanonical :
    MemoryCanonical { State.reset with mem := [(7, 0x12)] } ∧ MemoryCanonical State.reset ∧
      step State.reset = .next { State.reset with part := { State.reset.part with now := 1 } } := ⟨rfl, rfl, rfl⟩

theorem test_premises_StepKeepsBounds :
    PortBounded (stateOf (armedWith (settling 64))) ∧ (settling 64).queue.length ≤ 64 := by
  refine ⟨⟨by decide, by decide, by decide, nofun⟩, by decide⟩

theorem test_premises_StepKeepsMapAndDormancy :
    MapInForce (stateOf (armedWith (lineIn .off))) ∧ DormantSound (stateOf (armedWith (lineIn .off))) :=
  ⟨⟨mapSound_armedWith _, by decide⟩, nofun, nofun, nofun, nofun⟩

/-- An armed part with two words pending. -/
def pendingTwo : Machine.Part := { armedWith (lineIn .listen) with reports := [(.lcb 0 35, 0), (.base 37, 0)] }

theorem test_premises_StepKeepsReports :
    (MapInForce (stateOf pendingTwo) ∧ DormantSound (stateOf pendingTwo) ∧ ReportsSound pendingTwo ∧ AbsentInitial pendingTwo) ∧
      ∃ t, step { stateOf pendingTwo with pending := [.stuck 0] } = .next t ∧
        t.part.port.serving = some (.report (.lcb 0 35) 0x010023 0) := by
  have h1 : pendingTwo.reportValue? (.lcb 0 35) = some 0 := by decide +kernel
  have h2 : pendingTwo.reportValue? (.base 37) = some 0 := by decide +kernel
  have h3 : ∀ i : LineNo, pendingTwo.hasLine i = false → pendingTwo.line i = Line.initial := by decide +kernel
  refine ⟨⟨⟨mapSound_armedWith (lineIn .listen), by decide⟩, ⟨nofun, nofun, nofun, nofun⟩, ⟨by decide, fun w u v h hv _ => ?_⟩, h3⟩,
    _, rfl, by decide +kernel⟩
  rcases List.mem_cons.1 h with e | h
  · cases e
    exact Option.some.inj (h1.symm.trans hv)
  · cases List.mem_singleton.1 h
    exact Option.some.inj (h2.symm.trans hv)

end Sys2Proof.Tests
end

/-! PROOFS. The control words, the timestamp pair and the centisecond counter (R30, R33, R38, R39). -/

namespace Sys2Proof.Machine

/-! ### The part states -/

theorem inForce_iff (x : PartState) : x.inForce = true ↔ x = .armed ∨ x = .disarming := by
  cases x <;> simp [PartState.inForce]

/-- A part state in which no map is in force is none in which one is. -/
theorem not_inForce_of {x : PartState} (h : x = .arming ∨ x = .dormant) : ¬ x.inForce = true := by
  rcases h with rfl | rfl <;> exact nofun

theorem ne_dormant_of_inForce {x : PartState} (h : x.inForce = true) : x ≠ .dormant := by
  rintro rfl
  cases h

/-! ### Word 16: the attention enable (R30) -/

/-- A write to word 16 finds the bus free: it arrives at the base block. -/
theorem exec_attentionEnable {s : State} (h : Ready s) (lanes : Lanes) (d : Word) :
    exec (.attentionEnable lanes d) s = answers s (s.part.hostArrives (baseWriteTo 16 lanes d)) := host_ready h _

/-- A write to word 16 that arrives: a full-word write in force sets the attention enable; every write is forwarded. -/
theorem arrives_attentionEnable (p : Part) (lanes : Lanes) (d : Word) :
    p.hostArrives (baseWriteTo 16 lanes d) =
      (if lanes = .both ∧ p.state.inForce = true then p.setAttentionEnable d else p).forward (baseWriteTo 16 lanes d) := by
  rw [arrives_base p 16 (by omega) (by omega) (by omega)]
  by_cases hd : p.state = .dormant
  · simp [hd, PartState.inForce]
  · by_cases hl : lanes = .both <;> by_cases hf : p.state.inForce = true <;> simp [Part.baseWrite, hd, hl, hf]

/-- A value other than 0 and 1 leaves the attention enable. -/
theorem setAttentionEnable_other (p : Part) {d : Word} (h0 : d ≠ 0) (h1 : d ≠ 1) : p.setAttentionEnable d = p := by
  rw [Part.setAttentionEnable, if_neg h0, if_neg h1]

/-! ### Word 19: the acknowledgement of "BLOCKED_WRITE" (R33) -/

theorem exec_baseAcknowledge {s : State} (h : Ready s) (lanes : Lanes) (m : Word) :
    exec (.baseAcknowledge lanes m) s = answers s (s.part.hostArrives (baseWriteTo 19 lanes m)) := host_ready h _

/-- A write to word 19 that arrives: intercepted in force, else forwarded. -/
theorem arrives_baseAcknowledge (p : Part) (lanes : Lanes) (m : Word) :
    p.hostArrives (baseWriteTo 19 lanes m) =
      if p.state.inForce = true then p.baseAcknowledge (laneMask lanes m) else p.forward (baseWriteTo 19 lanes m) := by
  rw [arrives_base p 19 (by omega) (by omega) (by omega)]
  by_cases hf : p.state.inForce = true
  · simp [Part.baseWrite, ne_dormant_of_inForce hf, hf]
  · by_cases hl : lanes = .both <;> simp [Part.baseWrite, hf, hl]

/-- A mask bit of the low lane counts unless the high lane alone is strobed (R9). -/
theorem laneMask_bit_low (lanes : Lanes) (m : Word) {n : Nat} (h : n < 8) :
    (laneMask lanes m).getLsbD n = (lanes != .high && m.getLsbD n) := by
  cases lanes
  · rfl
  · rw [laneMask, mergeLanes]
    interval_cases n <;> simp
  · rw [laneMask, mergeLanes]
    interval_cases n <;> simp [bne]

/-- Settles O22. Each write is rewritten to what it does at its arrival; the part state and the lanes then decide. -/
theorem attentionEnableAndAcknowledge : Obligations.AttentionEnableAndAcknowledge := by
  refine ⟨fun s lanes d hr => ⟨fun h => ?_, fun h => ?_⟩, fun s lanes mask hr => ⟨fun h => ?_, fun h => ?_⟩⟩
  · have hf := (inForce_iff _).2 h
    rw [exec_attentionEnable hr, exec_attentionEnable hr, arrives_attentionEnable, arrives_attentionEnable]
    simp only [hf, and_self, if_true]
    exact ⟨rfl, rfl⟩
  · rw [exec_attentionEnable hr, arrives_attentionEnable]
    split
    · next hc =>
      obtain ⟨hl, hf⟩ := hc
      rcases h with h | h | h | ⟨h0, h1⟩
      · exact absurd hf (not_inForce_of (.inl h))
      · exact absurd hf (not_inForce_of (.inr h))
      · exact absurd hl h
      · rw [setAttentionEnable_other s.part h0 h1]
    · rfl
  · refine ⟨s.part.baseAcknowledge (laneMask lanes mask), ?_, ?_, ?_, rfl⟩
    · rw [exec_baseAcknowledge hr, arrives_baseAcknowledge, if_pos ((inForce_iff _).2 h)]
    · rw [← laneMask_bit_low lanes mask (by omega)]
      rfl
    · simp only [Part.baseAcknowledge, queueBase_reports, baseReport_37, summaryFlags_queueBase]
  · rw [exec_baseAcknowledge hr, arrives_baseAcknowledge, if_neg (not_inForce_of h)]

/-! ### Words 46 and 47, and the tick (R38, R39) -/

theorem exec_timestampHighRead {s : State} (h : Ready s) :
    exec .timestampHighRead s = answers s (s.part.hostArrives ⟨baseWordAddr 46, .read⟩) := host_ready h _

theorem exec_timestampLowRead {s : State} (h : Ready s) :
    exec .timestampLowRead s = answers s (s.part.hostArrives ⟨baseWordAddr 47, .read⟩) := host_ready h _

theorem read_stampHigh (p : Part) : p.hostArrives ⟨baseWordAddr 46, .read⟩ =
    if p.state.inForce = true then p.readStampHigh else p.forward ⟨baseWordAddr 46, .read⟩ := by
  rw [read_base p 46 (by omega)]
  simp

theorem read_stampLow (p : Part) : p.hostArrives ⟨baseWordAddr 47, .read⟩ =
    if p.state.inForce = true then p.readStampLow else p.forward ⟨baseWordAddr 47, .read⟩ := by
  rw [read_base p 47 (by omega)]
  simp

/-- With a capture, word 47 returns and releases it; with none it returns the low half and changes nothing else. -/
theorem readStampLow_eq (p : Part) :
    (∀ c, p.captured = some c → p.readStampLow = { p with readData := c, captured := none }) ∧
      (p.captured = none → p.readStampLow = { p with readData := stampLow p.counter }) := by
  refine ⟨fun c h => ?_, fun h => ?_⟩
  · rw [Part.readStampLow, h]; rfl
  · cases p; cases h; rfl

theorem stampHigh_eq (t : Stamp) : stampHigh t = t.extractLsb' 16 16 := by
  ext k hk
  simp [stampHigh]

theorem stampLow_eq (t : Stamp) : stampLow t = t.extractLsb' 0 16 := by
  ext k hk
  simp [stampLow]

/-- The counter wraps from its last value to 0. -/
theorem stamp_succ (t : Stamp) : t + 1 = if t = 4294967295 then 0 else t + 1 := by
  split
  · next h => rw [h]; rfl
  · rfl

/-- The end of a 10 ms interval, of a counter that runs and of one that is stopped. -/
theorem tick_eq (p : Part) :
    (∀ t, p.nextTick = some t → p.tick =
      { p with
        now := max p.now t
        counter := if p.counter = 4294967295 then 0 else p.counter + 1
        nextTick := some (t + 294912) }) ∧
    (p.nextTick = none → p.tick = p) := by
  refine ⟨fun t h => ?_, fun h => ?_⟩
  · rw [← stamp_succ]
    simp only [Part.tick, h]
    rfl
  · simp only [Part.tick, h]

/-- Settles O23. The reads are what they do at their arrival; the halves of the counter are its bits. -/
theorem timestampPair : Obligations.TimestampPair := by
  refine ⟨fun s hr => ⟨fun h => ?_, fun h => ?_⟩, fun s => ⟨fun t h => ?_, fun h => ?_⟩⟩
  · rw [exec_timestampHighRead hr, exec_timestampLowRead hr, read_stampHigh, read_stampLow, if_pos ((inForce_iff _).2 h),
      if_pos ((inForce_iff _).2 h), ← stampHigh_eq, ← stampLow_eq]
    have low := readStampLow_eq s.part
    exact ⟨rfl, fun c hc => congrArg (answers s) (low.1 c hc), fun hc => congrArg (answers s) (low.2 hc)⟩
  · have hf := not_inForce_of h
    rw [exec_timestampHighRead hr, exec_timestampLowRead hr, read_stampHigh, read_stampLow, if_neg hf, if_neg hf]
    exact ⟨rfl, rfl⟩
  · exact congrArg (answers s) ((tick_eq s.part).1 t h)
  · exact congrArg (answers s) ((tick_eq s.part).2 h)

end Sys2Proof.Machine

/-! PROOFS. Mode requests that are refused, and the acknowledgement of a line (R34, R47, R55). -/

namespace Sys2Proof.Machine

variable {s : State} {i : LineNo} {lanes : Lanes} {d v : Word}

/-! ### A request that does nothing but take its outcome -/

/-- In "DISARMING" every request is refused busy, whatever its value. -/
theorem decideRequest_disarming {p : Part} (h : p.state = .disarming) (v : Word) :
    p.decideRequest i v = (p, .refusedBusy, 0) := if_pos h

/-- In "ARMED" a code beyond the four requests is unknown. -/
theorem decideRequest_unknown {p : Part} (h : p.state = .armed) (hv : 3 < v.toNat) :
    p.decideRequest i v = (p, .unknown, 0) := by
  have code : ∀ k : Nat, k ≤ 3 → v ≠ BitVec.ofNat 16 k := by
    rintro k hk rfl
    rw [BitVec.toNat_ofNat] at hv
    omega
  have h0 : v ≠ 0 := code 0 (by omega)
  have h1 : v ≠ 1 := code 1 (by omega)
  have h2 : v ≠ 2 := code 2 (by omega)
  have h3 : v ≠ 3 := code 3 (by omega)
  rw [Part.decideRequest, if_neg (by rw [h]; exact nofun), if_neg h0, if_neg h1, if_neg h2, if_neg h3]

/-- A host write of a mode request whose decision leaves the part alone: the shadow and the mode status are taken, word 33 is
queued. -/
theorem takes_outcome {c : Instr} (ok : Word → Bool) {o : RequestOutcome} (hc : exec c s = s.lcbHost i 0 lanes d ok)
    (hr : Reaches s i) (hv : s.part.merged i 0 lanes d = v) (hok : ok v = true)
    (h : (s.part.setShadow i 0 v).decideRequest i v = (s.part.setShadow i 0 v, o, 0)) :
    Takes c s i 0 lanes d s.part ((s.part.line i).requested v o 0) [33] :=
  takes_request [33] ok hc hr hv hok h (noted_setShadow s.part i 0 v (by decide) (by decide))
    (fun _ hw => .inl (List.mem_singleton.1 hw)) (by rw [line_setShadow]; rfl)

/-- Settles O28. In both part states the decision leaves the part alone; the five rows of a request differ in the values that
they let pass only. -/
theorem modeRequestRefused : Obligations.ModeRequestRefused := by
  intro s i lanes d v hr hv
  refine ⟨fun hs h3 => ?_, fun hs c hc h => ?_⟩
  · exact takes_outcome (fun v => decide (3 < v.toNat)) rfl hr hv (decide_eq_true h3) (decideRequest_unknown (p := s.part.setShadow i 0 v) hs h3)
  · have busy {c : Instr} (ok : Word → Bool) (hc : exec c s = s.lcbHost i 0 lanes d ok) (hok : ok v = true) :
        Takes c s i 0 lanes d s.part ((s.part.line i).requested v .refusedBusy 0) [33] :=
      takes_outcome ok hc hr hv hok (decideRequest_disarming (p := s.part.setShadow i 0 v) hs v)
    simp only [List.mem_cons, List.not_mem_nil, or_false] at hc
    rcases hc with rfl | rfl | rfl | rfl | rfl
    · exact busy (· == 0) rfl h
    · exact busy (· == 1) rfl h
    · exact busy (· == 2) rfl h
    · exact busy (· == 3) rfl h
    · exact busy (fun v => decide (3 < v.toNat)) rfl h

/-! ### The acknowledgement of a line (R55) -/

/-- The mask that is taken has the unstrobed lane's bits zero (R9). -/
theorem laneMask_eq (lanes : Lanes) (m : Word) :
    laneMask lanes m = (match lanes with | .both => m | .high => m &&& 0xFF00 | .low => m &&& 0x00FF) := by
  cases lanes with
  | both => rfl
  | high => simp [laneMask, mergeLanes]
  | low => simp [laneMask, mergeLanes]

theorem acknowledged_eq (l : Line) (m : Word) : l.acknowledged m = l.acknowledgedFlags m := by
  simp only [Line.acknowledged, Line.acknowledgedFlags, Bool.and_eq_true]
  rfl

/-- An acknowledge mask taken: the flags that remain, word 35 pending, and every report word that has changed. -/
theorem takeAcknowledge_event (p : Part) (m : Word) :
    NotedEvent p (p.takeAcknowledge i m) i { p.line i with flags := (p.line i).acknowledgedFlags m } [35] := by
  have n := noted_takeAcknowledge p i m
  have hl : (p.takeAcknowledge i m).line i = { p.line i with flags := (p.line i).acknowledgedFlags m } := by
    rw [Part.takeAcknowledge, line_noteLine, line_queueLcb, line_onLine, acknowledged_eq]
  refine ⟨⟨n.step, hl, fun w hw => ?_⟩, n.reported⟩
  rw [List.mem_singleton.1 hw, ← hl, Part.takeAcknowledge, line_noteLine, mem_noteLine_lcb]
  exact mem_queueLcb_self _ _

/-- A host write of word 2 that the line can be reached by is intercepted: its mask is taken, nothing is forwarded. -/
theorem exec_lineAcknowledge (hr : Reaches s i) (m : Word) :
    exec (.lineAcknowledge i lanes m) s = answers s (s.part.takeAcknowledge i (laneMask lanes m)) := by
  have ⟨_, hi, hs⟩ := hr
  exact (lcbHost_eq hr 2 lanes m anyValue rfl).trans
    (congrArg (answers s) (arrives_lcb s.part i 2 (by omega) hi hs lanes m))

/-- Settles O34. -/
theorem lineAcknowledge : Obligations.LineAcknowledge := by
  intro s i lanes mask m hr hm
  obtain rfl : laneMask lanes mask = m := (laneMask_eq lanes mask).trans hm.symm
  exact ⟨_, exec_lineAcknowledge hr mask, takeAcknowledge_event s.part _⟩

end Sys2Proof.Machine

/-! PROOFS. The setup reads, the validation of the setup copy, and entry to "ARMED" (R24 to R27). -/

namespace Sys2Proof.Machine

/-! ### The completion of a setup read -/

/-- A setup read completes with no pin reset waiting: its data goes to the Setup and Time Unit. -/
theorem exec_setupReadComplete {s : State} {w : Nat} (hr : s.part.resetPending = false)
    (hs : s.part.port.serving = some (.setupRead w)) :
    exec .setupReadComplete s = answers s (s.part.freePort.setupData (Memory.readWord s.mem (baseWordAddr w))) := by
  show execSetupReadComplete s = _
  simp only [execSetupReadComplete, hs, State.complete, Memory.access, Part.completed, hr]
  rfl

/-- The data joins the setup copy; validation follows the seventh. -/
theorem setupData_eq {p : Part} {d : Word} {copy : List Word} (hc : copy = p.setupCopy ++ [d]) :
    p.setupData d =
      if copy.length = 7 then { p with setupCopy := copy }.validated else { p with setupCopy := copy } := by
  rw [hc]; rfl

/-- A validation that fails queues its result and starts the closing write. -/
theorem validated_fails {p : Part} {check : Word} (hk : p.checkValue = some check) (h : validateSetup p.setupCopy check ≠ .ok) :
    p.validated = (p.queueValue (.base 33) (validateSetup p.setupCopy check).code).queueClosing := by
  unfold Part.validated
  rw [hk, Option.getD_some]
  split
  · next e => exact absurd e h
  · rfl

theorem validated_ok {p : Part} {check : Word} (hk : p.checkValue = some check) (h : validateSetup p.setupCopy check = .ok) :
    p.validated = p.enterArmed := by
  simp only [Part.validated, hk, Option.getD_some, h]

/-! ### The CRC (R24) -/

/-- One bit of the CRC compares the top bit of the register with bit `15 - k` of the word. -/
theorem crcBit_getMsbD (r w : Word) {k : Nat} (hk : k < 16) :
    crcBit r (w.getMsbD k) = if r.getLsbD 15 = w.getLsbD (15 - k) then r <<< 1 else (r <<< 1) ^^^ 0x1021 := by
  have hr : r.getMsbD 0 = r.getLsbD 15 := by simp [BitVec.getMsbD]
  have hw : w.getMsbD k = w.getLsbD (15 - k) := by simp [BitVec.getMsbD, hk]
  rw [crcBit, hr, hw]
  simp

/-- The CRC of a list with one more word. -/
theorem crc_append (ws : List Word) (w : Word) : crc (ws ++ [w]) =
    (List.range 16).foldl
      (fun (r : Word) k => if r.getLsbD 15 = w.getLsbD (15 - k) then r <<< 1 else (r <<< 1) ^^^ 0x1021) (crc ws) := by
  have last : crc (ws ++ [w]) = crcWord (crc ws) w := by rw [crc, crc, List.foldl_append]; rfl
  rw [last, crcWord]
  exact foldl_congr _ _ _ _ fun r k hk => crcBit_getMsbD r w (List.mem_range.1 hk)

/-! ### The checks of validation (R26) -/

/-- Validation of a full copy, by its seven words. -/
theorem validateSetup_eq (w0 w1 w2 w3 w4 w5 w6 check : Word) :
    validateSetup [w0, w1, w2, w3, w4, w5, w6] check =
      if crc [w0, w1, w2, w3, w4, w5, w6] ≠ check then .badCheck
      else if 31 < w0.toNat ∨ w1.toNat % 256 ≠ 0 ∨ 0x1FFEFF < 65536 * w0.toNat + w1.toNat + 2559 then .badRegion
      else if w2 = 0 ∨ 32 < w2.toNat then .badLines
      else if 63 < w3.toNat then .badHold
      else if w6 = 0 ∨ 64 < w6.toNat then .badAllowance
      else .ok := by
  have zero (w : Word) : w.toNat = 0 ↔ w = 0 := ⟨fun h => BitVec.eq_of_toNat_eq h, fun h => by rw [h]; rfl⟩
  simp only [← zero]
  rfl

/-- Settles O11. A setup read is its data joining the copy; the rest are the checks and the CRC, each by its own equation. -/
theorem setupReads : Obligations.SetupReads := by
  refine ⟨fun s w copy hr hs hc => ?_, validateSetup_eq, rfl, rfl, crc_append⟩
  have hc' : copy = s.part.freePort.setupCopy ++ [Memory.readWord s.mem (baseWordAddr w)] := hc
  rw [exec_setupReadComplete hr hs, setupData_eq hc']
  refine ⟨fun h7 => by rw [if_neg h7], fun h7 check hk hv => ?_⟩
  rw [if_pos h7, validated_fails (p := { s.part.freePort with setupCopy := copy }) hk hv]
  rfl

/-! ### Updates of several words -/

/-- The part with the updates `us` made to its pending set, in order. -/
def Part.queuing (p : Part) (us : List (ReportWord × Word)) : Part := { p with reports := queueAll us p.reports }

@[simp] theorem line_queuing (p : Part) (us : List (ReportWord × Word)) (i : LineNo) : (p.queuing us).line i = p.line i := rfl

@[simp] theorem hasLine_queuing (p : Part) (us : List (ReportWord × Word)) : (p.queuing us).hasLine = p.hasLine := rfl

@[simp] theorem baseReport_queuing (p : Part) (us : List (ReportWord × Word)) (w : Nat) :
    (p.queuing us).baseReport w = p.baseReport w := rfl

theorem queuing_queuing (p : Part) (us vs : List (ReportWord × Word)) : (p.queuing us).queuing vs = p.queuing (us ++ vs) := by
  simp only [Part.queuing, queueAll_append]

theorem queueValue_queuing (p : Part) (w : ReportWord) (v : Word) : p.queueValue w v = p.queuing [(w, v)] := rfl

theorem queueBase_queuing (p : Part) (w : Nat) : p.queueBase w = p.queuing [(.base w, p.baseReport w)] := rfl

theorem queueBases_queuing (p : Part) (ws : List Nat) :
    p.queueBases ws = p.queuing (ws.map fun w => (.base w, p.baseReport w)) := queueBases_eq p ws

theorem queueLcbs_queuing (p : Part) (i : LineNo) (ws : List Nat) :
    p.queueLcbs i ws = p.queuing (ws.map fun w => (.lcb i w, (p.line i).report w)) := by
  induction ws generalizing p with
  | nil => rfl
  | cons w ws ih => exact (ih (p.queueLcb i w)).trans (queuing_queuing p [(.lcb i w, (p.line i).report w)] _)

/-- The words `ws` of every existing line, queued in line order. -/
theorem forLines_queueLcbs (p : Part) (ws : List Nat) :
    (p.forLines fun i q => q.queueLcbs i ws) =
      p.queuing
        (((List.finRange 32).filter p.hasLine).flatMap fun i => ws.map fun w => (.lcb i w, (p.line i).report w)) := by
  refine forLines_induction p _ (fun done q => q = p.queuing
    ((done.filter p.hasLine).flatMap fun i => ws.map fun w => (.lcb i w, (p.line i).report w))) rfl fun done i q _ hq => ?_
  rw [hq, hasLine_queuing, List.filter_append, List.flatMap_append]
  by_cases h : p.hasLine i = true
  · rw [if_pos h, List.filter_cons_of_pos h, queueLcbs_queuing, line_queuing, queuing_queuing]
    simp
  · rw [if_neg h, List.filter_cons_of_neg h]
    simp

/-! ### Entry to "ARMED" (R27) -/

/-- The lines as they come into force: as `Line.initial`, each existing one with held reason "HANDS_OFF" as the flag stands. -/
theorem line_comeIntoForce (p : Part) (i : LineNo) : p.comeIntoForce.line i =
    { Line.initial with heldHandsOff := p.comeIntoForce.hasLine i && p.handsOff } := by
  by_cases h : i.val < copyWord p.setupCopy 2
  · simp [Part.line, Part.hasLine, Part.comeIntoForce, h]
  · simp [Part.line, Part.hasLine, Part.comeIntoForce, h]
    rfl

/-- A line at arming shows its held reason in word 32, and 0 in every other word that arming writes. -/
theorem arming_lcbUpdates (i : LineNo) (b : Bool) :
    (armingLcbWords.map fun w => (ReportWord.lcb i w, Line.report { Line.initial with heldHandsOff := b } w)) =
      (.lcb i 32, bitIf b 8) ::
        [33, 34, 35, 36, 43, 44, 45, 46, 47, 48, 49, 50, 51, 52, 53].map fun w => (.lcb i w, 0) := by
  cases b <;> rfl

/-- A summary of a flag that no line has at arming is 0. -/
theorem summaryHalf_comeIntoForce (p : Part) (f : Line → Bool) (half : Nat)
    (hf : ∀ b, f { Line.initial with heldHandsOff := b } = false) : p.comeIntoForce.summaryHalf f half = 0 := by
  have still : ∀ is : List LineNo, is.foldl (fun (w : Word) i =>
      if i.val / 16 = half then w ||| bitIf (p.comeIntoForce.hasLine i && f (p.comeIntoForce.line i)) (i.val % 16) else w) 0 =
        0 := by
    intro is
    induction is with
    | nil => rfl
    | cons i is ih => rw [List.foldl_cons, line_comeIntoForce, hf, Bool.and_false]; simpa [bitIf] using ih
  exact still _

/-- No line has a fault at arming, and forced quiesce is clear. -/
theorem summaryFlags_comeIntoForce (p : Part) :
    p.comeIntoForce.summaryFlags = bitIf p.handsOff 0 ||| bitIf p.blocked.latched 3 := by
  have fault : p.comeIntoForce.lineFault = false := by
    rw [Part.lineFault, List.any_eq_false]
    intro i _
    rw [line_comeIntoForce]
    simp [Line.hasFault, Line.initial]
  rw [Part.summaryFlags, fault]
  simp [Part.comeIntoForce, bitIf]

/-- The base-block words of the arming reports, by their values at entry to "ARMED". -/
theorem arming_baseUpdates (p : Part) :
    ([34, 35, 36, 37, 38, 39, 40, 41, 42, 43, 44, 45].map fun w => (ReportWord.base w, p.comeIntoForce.baseReport w)) =
      [(.base 34, p.resetCause.code), (.base 35, 0xEB32), (.base 36, 1),
        (.base 37, bitIf p.handsOff 0 ||| bitIf p.blocked.latched 3), (.base 38, 0), (.base 39, 0), (.base 40, 0),
        (.base 41, 0)] ++ p.blocked.updates := by
  have attention (h : Nat) : p.comeIntoForce.summaryHalf Line.attention h = 0 :=
    summaryHalf_comeIntoForce p _ h fun b => by cases b <;> decide
  have activity (h : Nat) : p.comeIntoForce.summaryHalf (fun l => l.flag .activity) h = 0 :=
    summaryHalf_comeIntoForce p _ h fun b => by cases b <;> decide
  simp only [List.map_cons, List.map_nil, Part.baseReport, attention, activity, summaryFlags_comeIntoForce]
  rfl

/-- Entry to "ARMED" brings the setup copy into force and queues the arming reports. -/
theorem enterArmed_eq (p : Part) : p.enterArmed =
    p.comeIntoForce.queuing (armingReports (copyWord p.setupCopy 2) p.resetCause p.handsOff p.blocked) := by
  have lines : (((List.finRange 32).filter p.comeIntoForce.hasLine).flatMap fun i =>
      armingLcbWords.map fun w => (ReportWord.lcb i w, (p.comeIntoForce.line i).report w)) =
      ((List.finRange 32).filter fun i => decide (i.val < copyWord p.setupCopy 2)).flatMap fun i =>
        (.lcb i 32, bitIf p.handsOff 8) ::
          [33, 34, 35, 36, 43, 44, 45, 46, 47, 48, 49, 50, 51, 52, 53].map fun w => (.lcb i w, 0) := by
    refine List.flatMap_congr fun i hi => ?_
    rw [line_comeIntoForce, (List.mem_filter.1 hi).2, Bool.true_and, arming_lcbUpdates]
  show (((p.comeIntoForce.queueValue (.base 33) 1).queueBases [34, 35, 36, 37, 38, 39, 40, 41, 42, 43, 44, 45]).forLines
    fun i q => q.queueLcbs i armingLcbWords).queueBase 32 = _
  rw [queueValue_queuing, queueBases_queuing, queueBase_queuing, forLines_queueLcbs]
  simp only [hasLine_queuing, line_queuing, baseReport_queuing, queuing_queuing]
  rw [arming_baseUpdates, lines]
  rfl

/-- A stamp put together from its halves is their concatenation. -/
theorem stamp_of_halves (a b : Word) : a.zeroExtend 32 <<< 16 ||| b.zeroExtend 32 = a ++ b := by
  apply BitVec.eq_of_getLsbD_eq
  intro k hk
  rw [show (a ++ b : Stamp).getLsbD k = if k < 16 then b.getLsbD k else a.getLsbD (k - 16) from BitVec.getLsbD_append]
  by_cases h : k < 16
  · simp [h, hk]
  · simp [h, hk, BitVec.getLsbD_of_ge b k (by omega)]

/-- What comes into force from a full copy (R27). -/
theorem comeIntoForce_eq (p : Part) {w0 w1 w2 w3 w4 w5 w6 : Word} (h : p.setupCopy = [w0, w1, w2, w3, w4, w5, w6]) :
    p.comeIntoForce =
      { p with
        state := .armed
        checkValue := none
        map := some ⟨BitVec.ofNat 21 (65536 * w0.toNat + w1.toNat), w2.toNat⟩
        port := { p.port with allowance := w6.toNat }
        counter := w4 ++ w5
        nextTick := some (p.now + 294912)
        attentionEnable := false
        forced := false
        writer := ⟨none, none⟩
        lines := Vector.ofFn fun i =>
          if i.val < w2.toNat then { Line.initial with heldHandsOff := p.handsOff } else Line.initial } := by
  rw [← stamp_of_halves, Part.comeIntoForce, h]
  rfl

/-- Settles O12. The seventh setup read makes the copy full; entry to "ARMED" is then by its equation. -/
theorem validSetupArms : Obligations.ValidSetupArms := by
  intro s w w0 w1 w2 w3 w4 w5 w6 check hr hs hk hc hv
  have full : [w0, w1, w2, w3, w4, w5, w6].length = 7 := rfl
  rw [exec_setupReadComplete hr hs, setupData_eq (p := s.part.freePort) hc.symm, if_pos full,
    validated_ok (p := { s.part.freePort with setupCopy := [w0, w1, w2, w3, w4, w5, w6] }) hk hv, enterArmed_eq,
    comeIntoForce_eq _ rfl]
  rfl

end Sys2Proof.Machine

/-! PROOFS. The signal-valid input and the faults of a line (R73 to R75, R86). -/

namespace Sys2Proof.Machine

variable {i : LineNo}

theorem msPeriods_hundred : msPeriods 100 = 10 * 294912 := rfl

theorem active_iff (p : Part) : p.active i = true ↔ p.hasLine i = true ∧ (p.line i).state ≠ .off := by
  simp [Part.active]

theorem listening_of {p : Part} (hi : p.hasLine i = true) (hs : (p.line i).state ≠ .off) (ho : (p.line i).openCondition = false) :
    p.listening i = true := by
  simp [Part.listening, (active_iff p).2 ⟨hi, hs⟩, ho]

/-! ### The signal-valid input (R73) -/

/-- A change of the input is taken on line `i`, which becomes `f` of itself when it is not in "OFF". -/
theorem takeSv_active (p : Part) (v : Bool) (f : Line → Line) :
    (if (p.takeSv i v).active i = true then (p.takeSv i v).onLine i f else p.takeSv i v) =
      (p.takeSv i v).setLine i (if p.hasLine i = true ∧ (p.line i).state ≠ .off then f (p.line i) else p.line i) := by
  by_cases h : p.hasLine i = true ∧ (p.line i).state ≠ .off
  · rw [if_pos ((active_iff (p.takeSv i v)).2 h), if_pos h]
    rfl
  · rw [if_neg fun ha => h ((active_iff (p.takeSv i v)).1 ha), if_neg h]
    exact (setLine_self (p.takeSv i v) i).symm

theorem signalFalls_eq (p : Part) : p.signalFalls i =
    if p.svPin[i] = true then
      (p.takeSv i false).setLine i
        (if p.hasLine i = true ∧ (p.line i).state ≠ .off then
          if (p.line i).openCondition then { p.line i with validRun := none }
          else { p.line i with invalidRun := some (firstTake p.taken.sv[i] p.now + 10 * 294912) }
        else p.line i)
    else p := by
  unfold Part.signalFalls
  split
  · exact takeSv_active p false _
  · rfl

theorem signalRises_eq (p : Part) : p.signalRises i =
    if p.svPin[i] = true then p
    else
      (p.takeSv i true).setLine i
        (if p.hasLine i = true ∧ (p.line i).state ≠ .off then
          if (p.line i).openCondition then
            { p.line i with validRun := some (firstTake p.taken.sv[i] p.now + 10 * 294912) }
          else { p.line i with invalidRun := none }
        else p.line i) := by
  unfold Part.signalRises
  split
  · rfl
  · exact takeSv_active p true _

/-! ### A fault that is raised: a flag, the conditions, an event -/

/-- A flag latched, the conditions set, an event offered with no details. -/
def Part.raised (p : Part) (i : LineNo) (f : Flag) (isOpen isStuck : Bool) (k : EventKind) : Part :=
  ((p.latch i f).setConditions i isOpen isStuck).offer i k 0 0 0 0

theorem line_raised (p : Part) (f : Flag) (a b : Bool) (k : EventKind) :
    (p.raised i f a b k).line i =
      Line.offer { p.line i with flags := (p.line i).flags ||| f.mask, openCondition := a, stuckCondition := b }
        ⟨k, 0, 0, 0, 0, p.counter⟩ := by
  have hc : ((p.latch i f).setConditions i a b).counter = p.counter :=
    ((lineStep_latch p i f).trans (lineStep_setConditions _ i a b)).counter
  rw [Part.raised, line_offer, line_setConditions, line_latch, hc]

/-- A raised fault makes word 36 pending where a condition changes, word 35 where the flag was clear. -/
theorem mem_raised (p : Part) (f : Flag) (a b : Bool) (k : EventKind) :
    ∀ w ∈ (if a = (p.line i).openCondition ∧ b = (p.line i).stuckCondition then [] else [36]) ++
        (if (p.line i).flags.getLsbD f.position then [] else [35]),
      (ReportWord.lcb i w, ((p.raised i f a b k).line i).report w) ∈ (p.raised i f a b k).reports := by
  intro w hw
  rw [Part.raised, reports_offer, line_offer, report_offer]
  rcases List.mem_append.1 hw with hw | hw
  · split at hw
    · cases hw
    · next h =>
      rw [List.mem_singleton.1 hw]
      exact mem_setConditions (p.latch i f) a b (by rw [line_latch]; exact not_and_or.1 h)
  · split at hw
    · cases hw
    · next h =>
      have h35 := mem_latch_self p f (Bool.eq_false_iff.2 h)
      rw [List.mem_singleton.1 hw, line_setConditions, Part.setConditions, mem_queueLcbIf_ne _ _ _ _ _ _ _ (by decide)]
      exact h35

/-- A raised fault that is noted: line `i`, `m` before it, becomes `l`. -/
theorem raised_event {p q : Part} {m l : Line} {f : Flag} {a b : Bool} {k : EventKind} (n : Noted i p (q.raised i f a b k))
    (hm : q.line i = m)
    (hl : Line.offer { m with flags := m.flags ||| f.mask, openCondition := a, stuckCondition := b }
      ⟨k, 0, 0, 0, 0, q.counter⟩ = l) :
    NotedEvent p (q.raised i f a b k) i l
      ((if a = m.openCondition ∧ b = m.stuckCondition then [] else [36]) ++
        (if m.flags.getLsbD f.position then [] else [35])) := by
  have hline : (q.raised i f a b k).line i = l := by rw [line_raised, hm, hl]
  have hmem := mem_raised (i := i) q f a b k
  rw [hline, hm] at hmem
  exact ⟨⟨n.step, hline, hmem⟩, n.reported⟩

/-! ### The line-open fault and its end (R73, R86) -/

/-- The line after a received break under way, if any, has ended (R85). -/
def Line.breakEnded (l : Line) (now : Moment) (stamp : Stamp) : Line :=
  match l.receiver with
  | .brk start reached =>
    l.offer ⟨.breakSeen, satWord ((now - start) / 294912), if reached then 1 else 0, 0, 0, stamp⟩
  | _ => l

theorem line_endReceivedBreak (p : Part) : (p.endReceivedBreak i).line i = (p.line i).breakEnded p.now p.counter := by
  cases h : (p.line i).receiver with
  | brk start reached =>
    simp only [Part.endReceivedBreak, Line.breakEnded, h, line_offer]
    cases reached <;> rfl
  | _ => simp only [Part.endReceivedBreak, Line.breakEnded, h]

theorem breakEnded_kept (l : Line) (now : Moment) (stamp : Stamp) :
    (l.breakEnded now stamp).probe = l.probe ∧ (l.breakEnded now stamp).flags = l.flags ∧
      (l.breakEnded now stamp).openCondition = l.openCondition := by
  unfold Line.breakEnded
  split <;> simp

theorem probeDropRun_eq (l : Line) :
    l.probeDropRun = { l with probe := l.probe.map fun k => { k with run := none } } := by
  unfold Line.probeDropRun
  split
  · next h => cases l; cases h; rfl
  · next h => rw [h]; rfl

/-- The part as the line-open fault finds it: a break ended, the receiver in "HUNT", the timers of the input stopped. -/
def Part.openedReceiver (p : Part) (i : LineNo) : Part :=
  (p.endReceivedBreak i).onLine i fun l =>
    { l with receiver := .hunt none, invalidRun := none, spaceTimer := none }.probeDropRun

theorem line_openedReceiver (p : Part) : (p.openedReceiver i).line i =
    { (p.line i).breakEnded p.now p.counter with
      receiver := .hunt none
      invalidRun := none
      spaceTimer := none
      probe := (p.line i).probe.map fun k => { k with run := none } } := by
  rw [Part.openedReceiver, line_onLine, line_endReceivedBreak, probeDropRun_eq]
  simp only [(breakEnded_kept (p.line i) p.now p.counter).1]

theorem lineOpens_eq {p : Part} {t : Moment} (h : (p.line i).invalidRun = some t) (hl : p.listening i = true) :
    p.lineOpens i = ((p.at t).openedReceiver i).raised i .lineOpen true false .lineOpen := by
  unfold Part.lineOpens
  rw [h]
  dsimp only
  rw [if_pos hl]
  rfl

/-- The line-open fault: the line afterwards, and the words that are pending. -/
theorem lineOpens_event {p : Part} {t : Moment} (h : (p.line i).invalidRun = some t) (hi : p.hasLine i = true)
    (hs : (p.line i).state ≠ .off) (ho : (p.line i).openCondition = false) :
    NotedEvent (p.at t) (p.lineOpens i) i
      (Line.offer
        { (p.line i).breakEnded (p.at t).now p.counter with
          receiver := .hunt none
          invalidRun := none
          spaceTimer := none
          probe := (p.line i).probe.map fun k => { k with run := none }
          openCondition := true
          stuckCondition := false
          flags := (p.line i).flags ||| 8 } ⟨.lineOpen, 0, 0, 0, 0, p.counter⟩)
      (36 :: if (p.line i).flags.getLsbD 3 then [] else [35]) := by
  have hl := listening_of hi hs ho
  have n := noted_lineOpens p i t h hl
  rw [lineOpens_eq h hl] at n ⊢
  obtain ⟨_, hf, hc⟩ := breakEnded_kept (p.line i) (p.at t).now p.counter
  have hcount : ((p.at t).openedReceiver i).counter = p.counter :=
    ((lineStep_endReceivedBreak (p.at t) i).trans (lineStep_onLine _ i _)).counter
  have e := raised_event n (line_openedReceiver (p.at t)) rfl
  simp only [hcount, line_at, at_counter, hf, hc, ho] at e
  exact e

/-- The receiver starts in "HUNT" at mark, with a space run at space (R86). -/
theorem startReceiver_eq (l : Line) (v : Level) (now : Moment) : l.startReceiver v now =
    { l with
      receiver := if v = .mark then .hunt none else .spaceRun now l.frameTime none
      spaceTimer := if v = .mark then none else some (now + 200 * 294912) } := by
  cases v <;> rfl

/-- The part as the restored line leaves it before its receiver starts. -/
def Part.restored (p : Part) (i : LineNo) : Part :=
  ((p.onLine i fun l => { l with validRun := none }).setConditions i false false).offer i .lineRestored 0 0 0 0

theorem line_restored (p : Part) : (p.restored i).line i =
    Line.offer { p.line i with validRun := none, openCondition := false, stuckCondition := false }
      ⟨.lineRestored, 0, 0, 0, 0, p.counter⟩ := by
  have hc : ((p.onLine i fun l => { l with validRun := none }).setConditions i false false).counter = p.counter :=
    ((lineStep_onLine p i _).trans (lineStep_setConditions _ i _ _)).counter
  rw [Part.restored, line_offer, line_setConditions, line_onLine, hc]

theorem lineStep_restored (p : Part) : LineStep i p (p.restored i) :=
  ((lineStep_onLine p i _).trans (lineStep_setConditions _ i _ _)).trans (lineStep_offer _ i _ _ _ _ _)

/-- Word 36 is pending once the open condition has ended. -/
theorem mem_restored {p : Part} (h : (p.line i).openCondition = true) :
    (ReportWord.lcb i 36, ((p.restored i).line i).report 36) ∈ (p.restored i).reports := by
  rw [Part.restored, reports_offer, line_offer, report_offer]
  refine mem_setConditions (p.onLine i fun l => { l with validRun := none }) false false (.inl ?_)
  rw [line_onLine, h]
  exact nofun

theorem lineRestores_eq {p : Part} {t : Moment} (h : (p.line i).validRun = some t) (ha : p.active i = true)
    (ho : (p.line i).openCondition = true) :
    p.lineRestores i =
      ((p.at t).restored i).onLine i fun l => l.startReceiver ((p.at t).restored i).rxPin[i] ((p.at t).restored i).now := by
  unfold Part.lineRestores
  rw [h]
  dsimp only
  rw [if_pos (by rw [ha, ho]; rfl)]
  rfl

/-- The line restored: the valid-run timer is done, no condition stands, the event is offered, and the receiver starts by the level
of its input (R86). -/
theorem lineRestores_event {p : Part} {t : Moment} (h : (p.line i).validRun = some t) (hi : p.hasLine i = true)
    (hs : (p.line i).state ≠ .off) (ho : (p.line i).openCondition = true) :
    NotedEvent (p.at t) (p.lineRestores i) i
      { Line.offer { p.line i with validRun := none, openCondition := false, stuckCondition := false }
          ⟨.lineRestored, 0, 0, 0, 0, p.counter⟩ with
        receiver := if p.rxPin[i] = .mark then .hunt none else .spaceRun (p.at t).now (p.line i).frameTime none
        spaceTimer := if p.rxPin[i] = .mark then none else some ((p.at t).now + 200 * 294912) } [36] := by
  have ha := (active_iff p).2 ⟨hi, hs⟩
  have n := noted_lineRestores p i t h ha ho
  have step := lineStep_restored (i := i) (p.at t)
  rw [lineRestores_eq h ha ho, step.rxPin, step.now] at n ⊢
  have mem : (ReportWord.lcb i 36, (((p.at t).restored i).line i).report 36) ∈ ((p.at t).restored i).reports := mem_restored ho
  have line : (((p.at t).restored i).line i).frameTime = (p.line i).frameTime := by
    rw [line_restored]
    simp [Line.frameTime, Line.frame, Line.bitTime]
  refine ⟨⟨n.step, ?_, fun w hw => ?_⟩, n.reported⟩
  · rw [line_onLine, startReceiver_eq, line, line_restored]
    rfl
  · rw [List.mem_singleton.1 hw]
    rw [line_restored] at mem
    exact mem

/-! ### The stuck condition (R74, R84) -/

theorem becomesStuck_eq {p : Part} {t : Moment} (h : (p.line i).spaceTimer = some t) (hl : p.listening i = true) :
    p.becomesStuck i =
      ((p.at t).onLine i fun l => { l with spaceTimer := none, receiver := l.receiver.reachStuck }).raised i .stuck
        (p.line i).openCondition true .stuck := by
  unfold Part.becomesStuck
  rw [h]
  dsimp only
  rw [if_pos hl]
  simp only [line_onLine]
  rfl

theorem becomesStuck_event {p : Part} {t : Moment} (h : (p.line i).spaceTimer = some t) (hi : p.hasLine i = true)
    (hs : (p.line i).state ≠ .off) (ho : (p.line i).openCondition = false) :
    NotedEvent (p.at t) (p.becomesStuck i) i
      (Line.offer
        { p.line i with
          spaceTimer := none
          receiver := (p.line i).receiver.reachStuck
          stuckCondition := true
          flags := (p.line i).flags ||| 16 } ⟨.stuck, 0, 0, 0, 0, p.counter⟩)
      ((if (p.line i).stuckCondition then [] else [36]) ++ (if (p.line i).flags.getLsbD 4 then [] else [35])) := by
  have hl := listening_of hi hs ho
  have n := noted_becomesStuck p i t h hl
  rw [becomesStuck_eq h hl] at n ⊢
  have e := raised_event n (line_onLine _ i _) rfl
  simp only [line_at, true_and] at e
  cases hk : (p.line i).stuckCondition <;> rw [hk] at e <;> exact e

/-- Settles O54. -/
theorem lineFaults : Obligations.LineFaults := by
  refine ⟨fun s i l now t hl hnow ht => ?_, fun s i t p l hl hi hs hp => ?_⟩
  · have hnow : now = firstTake s.part.taken.sv[i] s.part.now := hnow
    subst hl ht hnow
    have falls := congrArg (answers s) (signalFalls_eq (i := i) s.part)
    have rises := congrArg (answers s) (signalRises_eq (i := i) s.part)
    refine ⟨fun h => ?_, fun h => ?_, fun h => ?_, fun h => ?_⟩ <;> simp only [h, if_true, if_false, Bool.false_eq_true] at falls rises
    · exact falls
    · exact falls
    · exact rises
    · exact rises
  · subst hl hp
    refine ⟨fun h ho => ⟨_, rfl, ?_⟩, fun h ho => ⟨_, rfl, ?_⟩, fun h ho => ⟨_, rfl, ?_⟩⟩
    · exact lineOpens_event h hi hs ho
    · exact lineRestores_event h hi hs ho
    · exact becomesStuck_event h hi hs ho

end Sys2Proof.Machine

/-! PROOFS. The Assembler: the close of a buffer, the offering of an event, the placing of a byte (R87 to R97). -/

namespace Sys2Proof.Machine

variable {i : LineNo}

/-! ### The close of a buffer (R89) -/

/-- No buffer of the line but `k` is "OPEN". -/
def Line.onlyOpen (l : Line) (k : Fin 2) : Prop := ∀ (j : Fin 2) x, j ≠ k → l.buffers[j] ≠ .opened x

theorem closeOpen_none {l : Line} (h : ∀ (k : Fin 2) c, l.buffers[k] ≠ .opened c) : l.closeOpen = l := by
  simp only [Line.closeOpen, openBuffer_none l h]

theorem closeOpen_some {l : Line} {k : Fin 2} {c : Contents} (h : l.buffers[k] = .opened c) (ho : l.onlyOpen k) :
    l.closeOpen = { l with buffers := l.buffers.set k (.closed c), jobs := l.jobs ++ [.data k], gapTimer := none } := by
  simp only [Line.closeOpen, openBuffer_some l k c h ho]

/-! ### The offering of an event (R94) -/

theorem offer_off {l : Line} (h : l.state = .off) (e : Event) : l.offer e = l := by
  rw [Line.offer, if_pos h]

/-- A line that is not in "OFF" closes its buffer, and queues the event or counts its drop. -/
theorem offer_on {l : Line} (h : l.state ≠ .off) (e : Event) : l.offer e =
    if l.pendingEvents < 4 then { l.closeOpen with jobs := l.closeOpen.jobs ++ [.event e] }
    else { l.closeOpen with droppedEvents := satAdd l.droppedEvents 1 } := by
  rw [Line.offer, if_neg h]
  simp only [pendingEvents_closeOpen, closeOpen_dropped]

/-! ### A byte that joins a buffer (R88, R90, R91) -/

theorem append_eq (c : Contents) (b : RxByte) : c.append b =
    ⟨c.bytes ++ [b.value], if b.error then c.errors + 1 else c.errors,
      if b.error = true ∧ c.firstError = none then some c.bytes.length else c.firstError, c.stamp⟩ := by
  simp [Contents.append]

theorem isLineEnd_iff (l : Line) (b : RxByte) : l.isLineEnd b = true ↔
    b.error = false ∧ (l.shadow[13] = 1 ∧ b.value = 0x0D ∨ l.shadow[13] = 2 ∧ b.value = 0x0A) := by
  simp [Line.isLineEnd]

/-- A byte that fills buffer `k` or ends a line closes it; any other leaves it "OPEN" and restarts the gap timer. -/
theorem fill_eq {l : Line} {k : Fin 2} (ho : l.onlyOpen k) (c : Contents) (b : RxByte) (now : Moment) :
    l.fill k c b now =
      if c.bytes.length = l.payloadLimit ∨ l.isLineEnd b = true then
        { l with buffers := l.buffers.set k (.closed c), jobs := l.jobs ++ [.data k], gapTimer := none }
      else
        { l with
          buffers := l.buffers.set k (.opened c)
          gapTimer := if l.setting 12 = 0 then none else some (now + msPeriods (l.setting 12)) } := by
  unfold Line.fill
  extract_lets gap m
  have hk : m.buffers[k] = .opened c := by simp [m]
  have hm : m.onlyOpen k := fun j x hj => by
    have hne : k.val ≠ j.val := fun e => hj (Fin.ext e.symm)
    have := ho j x hj
    simpa [m, hne] using this
  have cond : (decide (c.bytes.length = m.payloadLimit) || m.isLineEnd b) = true ↔
      c.bytes.length = l.payloadLimit ∨ l.isLineEnd b = true := by simp [m, Line.isLineEnd]
  by_cases h : c.bytes.length = l.payloadLimit ∨ l.isLineEnd b = true
  · rw [if_pos (cond.2 h), if_pos h, closeOpen_some hk hm]
    simp [m]
  · rw [if_neg (mt cond.1 h), if_neg h]

/-- A byte that joins the contents `c` of buffer `k`, which become `c'`. -/
theorem fill_append {l : Line} {k : Fin 2} {c c' : Contents} {b : RxByte} (ho : l.onlyOpen k) (hc : c.append b = c')
    (now : Moment) :
    l.fill k c' b now =
      if c.bytes.length + 1 = l.payloadLimit ∨
          b.error = false ∧ (l.shadow[13] = 1 ∧ b.value = 0x0D ∨ l.shadow[13] = 2 ∧ b.value = 0x0A) then
        { l with buffers := l.buffers.set k (.closed c'), jobs := l.jobs ++ [.data k], gapTimer := none }
      else
        { l with
          buffers := l.buffers.set k (.opened c')
          gapTimer := if l.setting 12 = 0 then none else some (now + msPeriods (l.setting 12)) } := by
  have hlen : c'.bytes.length = c.bytes.length + 1 := by rw [← hc, append_eq]; exact List.length_append
  rw [fill_eq ho, hlen]
  simp only [isLineEnd_iff]

/-- The byte opens buffer 0 when it is "FREE", else buffer 1 when that is. -/
theorem freeBuffer_eq (l : Line) : l.freeBuffer =
    if l.buffers[0] = .free then some 0 else if l.buffers[1] = .free then some 1 else none := rfl

theorem placeByte_open {p : Part} {k : Fin 2} {c : Contents} (h : (p.line i).buffers[k] = .opened c)
    (ho : (p.line i).onlyOpen k) (b : RxByte) :
    p.placeByte i b = p.setLine i ((p.line i).fill k (c.append b) b p.now) := by
  simp only [Part.placeByte, openBuffer_some _ k c h ho, onLine_eq]

theorem placeByte_free {p : Part} {k : Fin 2} (h : ∀ (j : Fin 2) c, (p.line i).buffers[j] ≠ .opened c)
    (hf : (p.line i).freeBuffer = some k) (b : RxByte) :
    p.placeByte i b = p.setLine i ((p.line i).fill k (Contents.append ⟨[], 0, none, p.counter⟩ b) b p.now) := by
  simp only [Part.placeByte, openBuffer_none _ h, hf, onLine_eq]

theorem placeByte_lost {p : Part} (h : ∀ (j : Fin 2) c, (p.line i).buffers[j] ≠ .opened c)
    (hf : (p.line i).freeBuffer = none) (b : RxByte) : p.placeByte i b = p.overrun i := by
  simp only [Part.placeByte, openBuffer_none _ h, hf]

/-! ### A byte that is lost (R97) -/

/-- The line with one lost byte counted and "OVERRUN" latched, before its event. -/
def Line.overrunCounted (l : Line) : Line :=
  { l.setCounter .overrunBytes (satAdd (l.counter .overrunBytes) 1) with flags := l.flags ||| 32 }

/-- The line after a byte has been lost: the pending "OVERRUN" event has grown, or a new one is offered. -/
def Line.overrunTaken (l : Line) (stamp : Stamp) : Line :=
  if l.jobs.any Job.isOverrun then { l.overrunCounted with jobs := l.jobs.map Job.grown }
  else l.overrunCounted.offer ⟨.overrun, 1, 0, 0, 0, stamp⟩

/-- No report word shows the event of a lost byte. -/
theorem report_overrunTaken (l : Line) (stamp : Stamp) (w : Nat) :
    (l.overrunTaken stamp).report w = l.overrunCounted.report w := by
  unfold Line.overrunTaken
  split
  · rfl
  · exact report_offer _ _ _

/-- The part with a lost byte of line `i` counted and "OVERRUN" latched, before its event. -/
def Part.overrunCounted (p : Part) (i : LineNo) : Part := (p.count i .overrunBytes 1).latch i .overrun

theorem line_overrunCounted (p : Part) : (p.overrunCounted i).line i = (p.line i).overrunCounted := by
  rw [Part.overrunCounted, line_latch, line_count]
  rfl

theorem counter_overrunCounted (p : Part) : (p.overrunCounted i).counter = p.counter :=
  LineStep.counter ((lineStep_count p i .overrunBytes 1).trans (lineStep_latch (p.count i .overrunBytes 1) i .overrun))

/-- Word 46 is pending unless the counter is saturated, word 35 where "OVERRUN" was clear. -/
theorem mem_overrunCounted (p : Part) :
    ∀ w ∈ (if (p.line i).counter .overrunBytes = 65535 then [] else [46]) ++
        (if (p.line i).flags.getLsbD 5 then [] else [35]),
      (ReportWord.lcb i w, ((p.overrunCounted i).line i).report w) ∈ (p.overrunCounted i).reports := by
  intro w hw
  rcases List.mem_append.1 hw with hw | hw
  · split at hw
    · cases hw
    · next h =>
      rw [List.mem_singleton.1 hw, Part.overrunCounted, mem_latch_ne _ _ _ _ (by decide), line_latch,
        report_withFlags _ _ _ (by decide)]
      exact mem_count_self p .overrunBytes h
  · split at hw
    · cases hw
    · next h =>
      rw [List.mem_singleton.1 hw]
      refine mem_latch_self (p.count i .overrunBytes 1) .overrun ?_
      rw [line_count]
      exact Bool.eq_false_iff.2 h

theorem overrun_eq (p : Part) : p.overrun i =
    if (p.line i).jobs.any Job.isOverrun then
      (p.overrunCounted i).onLine i fun l => { l with jobs := l.jobs.map Job.grown }
    else (p.overrunCounted i).offer i .overrun 1 0 0 0 := by
  have hj : ((p.overrunCounted i).line i).jobs = (p.line i).jobs := by rw [line_overrunCounted]; rfl
  rw [← hj]
  rfl

/-- A lost byte: the line afterwards, and the words that are pending. -/
theorem overrun_event (p : Part) :
    NotedEvent p (p.overrun i) i ((p.line i).overrunTaken p.counter)
      ((if (p.line i).counter .overrunBytes = 65535 then [] else [46]) ++
        (if (p.line i).flags.getLsbD 5 then [] else [35])) := by
  have n := noted_overrun p i
  have reports : (p.overrun i).reports = (p.overrunCounted i).reports := by
    rw [overrun_eq]
    split
    · rw [onLine_eq, setLine_reports]
    · rw [reports_offer]
  refine ⟨⟨n.step, ?_, fun w hw => ?_⟩, n.reported⟩
  · rw [overrun_eq, Line.overrunTaken]
    split
    · rw [line_onLine, line_overrunCounted]; rfl
    · rw [line_offer, line_overrunCounted, counter_overrunCounted]
  · rw [reports, report_overrunTaken, ← line_overrunCounted]
    exact mem_overrunCounted p w hw

/-- Settles O53. A byte joins a buffer by `fill_append`, whether the buffer was "OPEN" or "FREE"; with neither it is lost. -/
theorem eventsAndBytes : Obligations.EventsAndBytes := by
  refine ⟨fun l => ⟨closeOpen_none, fun k c h ho => closeOpen_some h ho, fun e => ?_⟩, fun p i b l hl => ?_⟩
  · have count := pendingEvents_eq l
    refine ⟨fun h => offer_off h e, fun h hp => ?_, fun h hp => ?_⟩
    · rw [offer_on h, if_pos (count.trans_lt hp)]
    · rw [offer_on h, if_neg (Nat.not_lt.2 (hp.trans_eq count.symm))]
  · subst hl
    have joined {k : Fin 2} {c : Contents} (ho : (p.line i).onlyOpen k)
        (h : p.placeByte i b = p.setLine i ((p.line i).fill k (c.append b) b p.now)) :=
      calc p.placeByte i b
        _ = p.setLine i ((p.line i).fill k (c.append b) b p.now) := h
        _ = p.setLine i ((p.line i).fill k _ b p.now) := by rw [append_eq c b]
        _ = p.setLine i _ := congrArg (p.setLine i) (fill_append ho (append_eq c b) p.now)
    have alone (h : ∀ (k : Fin 2) c, (p.line i).buffers[k] ≠ .opened c) (k : Fin 2) : (p.line i).onlyOpen k := fun j x _ => h j x
    refine ⟨fun k c h ho => joined ho (placeByte_open h ho b), fun h => ⟨fun h0 => ?_, fun h0 h1 => ?_, fun h0 h1 => ?_⟩⟩
    · exact joined (alone h 0) (placeByte_free h (by rw [freeBuffer_eq, if_pos h0]) b)
    · exact joined (alone h 1) (placeByte_free h (by rw [freeBuffer_eq, if_neg h0, if_pos h1]) b)
    · rw [placeByte_lost h (by rw [freeBuffer_eq, if_neg h0, if_neg h1])]
      exact overrun_event p

end Sys2Proof.Machine

/-! PROOFS. The samples of a frame: the levels that its bits take, a candidate start bit, the last stop bit (R81, R82, R98, R99). -/

namespace Sys2Proof.Machine

variable {i : LineNo}

/-! ### The levels that the bits of a frame take (R82) -/

/-- Bit `j` of a frame is settled as before, at level `v` where `c` holds of it, or not at all. -/
def TakesLevels (old : List Level) (n : Nat) (v : Level) (c : Nat → Prop) (new : List Level) : Prop :=
  ∀ j, j < old.length ∧ new[j]? = old[j]? ∨ old.length ≤ j ∧ j < n ∧ c j ∧ new[j]? = some v ∨
    old.length ≤ j ∧ ¬(j < n ∧ c j) ∧ new[j]? = none

/-- Levels added up to bit `m` settle the bits below `m`. -/
theorem takesLevels_append (old : List Level) {n m : Nat} (v : Level) {c : Nat → Prop} (hm : ∀ j, j < m ↔ j < n ∧ c j) :
    TakesLevels old n v c (old ++ List.replicate (m - old.length) v) := by
  intro j
  by_cases hold : j < old.length
  · exact .inl ⟨hold, List.getElem?_append_left hold⟩
  · have hge : old.length ≤ j := Nat.le_of_not_lt hold
    rw [List.getElem?_append_right hge, List.getElem?_replicate]
    by_cases h : j < m
    · have hc := (hm j).1 h
      exact .inr (.inl ⟨hge, hc.1, hc.2, if_pos (by omega)⟩)
    · exact .inr (.inr ⟨hge, mt (hm j).2 h, if_neg (by omega)⟩)

/-- The bits that a change at `now` settles are those whose moments lie before it. -/
theorem lt_due_iff {b n e now : Nat} (hb : 0 < b) (j : Nat) :
    j < min n ((now - (e + b / 2) - 1) / b) ↔ j < n ∧ e + (j + 1) * b + b / 2 < now := by
  have pos : 0 < (j + 1) * b := Nat.mul_pos (Nat.succ_pos j) hb
  rw [Nat.lt_min, ← Nat.succ_le_iff (m := j) (n := _ / b), Nat.le_div_iff_mul_le hb, Nat.succ_eq_add_one]
  omega

theorem fill_levels (f : FrameRun) (v : Level) (now : Moment) (hb : 0 < f.bitTime) :
    TakesLevels f.samples f.format.bitsAfterStart v (fun j => f.edge + (j + 1) * f.bitTime + f.bitTime / 2 < now)
      (f.fill v now).samples := takesLevels_append f.samples v (lt_due_iff hb)

theorem complete_levels (f : FrameRun) (v : Level) :
    TakesLevels f.samples f.format.bitsAfterStart v (fun _ => True) (f.complete v).samples :=
  takesLevels_append f.samples v fun _ => (and_iff_left trivial).symm

/-! ### A candidate start bit (R81, R98, R99) -/

theorem offer_withFlags (l : Line) (g e) : Line.offer { l with flags := g } e = { l.offer e with flags := g } := by
  have hc : Line.closeOpen { l with flags := g } = { l.closeOpen with flags := g } := by
    simp only [Line.closeOpen, show Line.openBuffer { l with flags := g } = l.openBuffer from rfl]
    split <;> rfl
  simp only [Line.offer, hc, show Line.pendingEvents { l.closeOpen with flags := g } = l.closeOpen.pendingEvents from rfl]
  split
  · rfl
  · split <;> rfl

/-- The line after the activity watch at a start bit: on a quiet line "ACTIVITY" is latched and its event offered (R99). -/
def Line.activityNoticed (l : Line) (now : Moment) (stamp : Stamp) : Line :=
  if l.quiet then
    Line.offer { l with flags := l.flags ||| 1 } ⟨.activity, satWord ((now - l.quietStart) / 29491200), 0, 0, 0, stamp⟩
  else l

theorem activityNoticed_kept (l : Line) (now : Moment) (stamp : Stamp) :
    (l.activityNoticed now stamp).frame = l.frame ∧ (l.activityNoticed now stamp).bitTime = l.bitTime ∧
      (l.activityNoticed now stamp).setting 18 = l.setting 18 := by
  unfold Line.activityNoticed
  split <;> simp [Line.frame, Line.bitTime, Line.setting]

theorem line_noticeActivity (p : Part) : (p.noticeActivity i).line i = (p.line i).activityNoticed p.now p.counter := by
  unfold Part.noticeActivity Line.activityNoticed
  split
  · rw [line_latch, line_offer, offer_withFlags (p.line i) ((p.line i).flags ||| 1), offer_flags]
    rfl
  · rfl

/-- Word 35 is pending where the watch latches "ACTIVITY". -/
theorem mem_noticeActivity {p : Part} (hq : (p.line i).quiet = true) (hf : (p.line i).flags.getLsbD 0 = false) :
    (ReportWord.lcb i 35, ((p.noticeActivity i).line i).report 35) ∈ (p.noticeActivity i).reports := by
  rw [Part.noticeActivity, if_pos hq]
  refine mem_latch_self _ .activity ?_
  rw [line_offer, offer_flags]
  exact hf

/-- The line after a start bit with its edge at `e` has been taken at `now`. -/
def Line.startTaken (l : Line) (e now : Moment) (stamp : Stamp) : Line :=
  { l.activityNoticed now stamp with
    receiver := .frame ⟨l.frame, l.bitTime, e, [], e⟩
    quiet := false
    quietStart := now
    quietTimer := if l.setting 18 = 0 then none else some (now + 29491200 * l.setting 18) }

theorem startQuiet_eq (l : Line) (now : Moment) : l.startQuiet now =
    { l with
      quiet := false
      quietStart := now
      quietTimer := if l.setting 18 = 0 then none else some (now + 29491200 * l.setting 18) } := by
  rw [Nat.mul_comm]
  rfl

/-- A start bit taken: the line afterwards, and word 35 where the watch latches "ACTIVITY". -/
theorem takeStartBit_event (p : Part) (e : Moment) :
    NotedEvent p (p.takeStartBit i e) i ((p.line i).startTaken e p.now p.counter)
      (if (p.line i).quiet = true ∧ (p.line i).flags.getLsbD 0 = false then [35] else []) := by
  have n := noted_takeStartBit p i e
  obtain ⟨hf, hb, hs⟩ := activityNoticed_kept (p.line i) p.now p.counter
  refine ⟨⟨n.step, ?_, fun w hw => ?_⟩, n.reported⟩
  · rw [Part.takeStartBit, line_onLine, line_noticeActivity, startQuiet_eq]
    simp only [hf, hb, hs]
    rfl
  · split at hw
    · next h =>
      have m := mem_noticeActivity h.1 h.2
      rw [List.mem_singleton.1 hw]
      rw [line_noticeActivity] at m
      exact m
    · cases hw

/-- The sample of a candidate: a glitch at mark, a start bit at space. -/
theorem sampleStart_eq {p : Part} {e : Moment} (h : (p.line i).receiver = .hunt (some e)) : p.sampleStart i =
    if p.rxPin[i] = .space then (p.at (e + (p.line i).bitTime / 2)).takeStartBit i e
    else (p.at (e + (p.line i).bitTime / 2)).onLine i fun l => { l with receiver := .hunt none } := by
  simp only [Part.sampleStart, h]
  rfl

/-! ### The last stop bit of a frame (R82, R88) -/

theorem byteArrives_eq {p : Part} {f : FrameRun} (h : (p.line i).receiver = .frame f) : p.byteArrives i =
    (p.at (f.sampleMoment f.format.bitsAfterStart)).finishFrame i (f.complete p.rxPin[i]) p.rxPin[i] := by
  simp only [Part.byteArrives, h]
  rfl

/-- The line with its receiver in the state `r`. -/
def Part.receiving (p : Part) (i : LineNo) (r : Machine.Receiver) : Part := p.setLine i { p.line i with receiver := r }

/-- A frame that is complete, by its stop bits and the level of the input. -/
theorem finishFrame_eq (p : Part) (g : FrameRun) (v : Level) : p.finishFrame i g v =
    if v = .space ∧ g.framingError = true then
      if .mark ∈ g.samples then
        (p.receiving i (.spaceRun g.lastFall g.frameTime none)).placeByte i (deframe g.format g.samples)
      else p.receiving i (.spaceRun g.edge g.frameTime (some (deframe g.format g.samples)))
    else (p.receiving i (.hunt none)).placeByte i (deframe g.format g.samples) := by
  simp only [Part.finishFrame, Bool.and_eq_true, beq_iff_eq, List.contains_iff_mem, and_comm (a := v = .space)]
  rfl

theorem complete_frameTime (f : FrameRun) (v : Level) : (f.complete v).frameTime =
    (1 + f.format.dataBits + (if f.format.parity = .none then 0 else 1) + f.format.stopBits) * f.bitTime := by
  show (1 + (f.format.dataBits + f.format.parityBits + f.format.stopBits)) * f.bitTime = _
  rw [FrameFormat.parityBits, Nat.add_assoc, Nat.add_assoc, Nat.add_assoc]

/-- Settles O50. -/
theorem frameSamples : Obligations.FrameSamples := by
  refine ⟨fun f v now n hb hn => ?_, fun s i e p l l' hl hr hp hl' => ?_, fun s i f g b p l hl hr hp hg hb => ?_⟩
  · subst hn
    exact ⟨rfl, fill_levels f v now hb, rfl, complete_levels f v⟩
  · subst hl hp hl'
    have e' := congrArg (answers s) (sampleStart_eq hr)
    refine ⟨fun h => ?_, fun h => ?_⟩
    · rw [if_neg (by rw [h]; exact nofun)] at e'
      exact e'
    · rw [if_pos h] at e'
      exact ⟨_, e', takeStartBit_event _ e⟩
  · subst hl hp hg hb
    rw [show exec (.byteArrival i) s = answers s (s.part.byteArrives i) from rfl, byteArrives_eq hr, finishFrame_eq,
      complete_frameTime]
    refine ⟨fun h => ?_, fun h hm => ?_, fun h hm => ?_⟩
    · rw [if_neg h]; rfl
    · rw [if_pos h, if_pos hm]; rfl
    · rw [if_pos h, if_neg hm]; rfl

end Sys2Proof.Machine

/-! PROOFS. The pending words of a line across an operation that is noted (R17). -/

namespace Sys2Proof.Machine

variable {i : LineNo} {p q : Part} {ws : List Nat} {w : Nat}

/-- LCB word `w` of line `i` is pending with its present value. -/
def Part.Pends (p : Part) (i : LineNo) (w : Nat) : Prop := (ReportWord.lcb i w, (p.line i).report w) ∈ p.reports

/-- LCB word `w` of the line has a value to report: it is a report word, and for a ring word the ring state is present. -/
def Line.Reports (l : Line) (w : Nat) : Prop := l.reportValue? w = some (l.report w)

/-- A word outside the ring words always has a value. -/
theorem reports_plain (l : Line) (h : 32 ≤ w ∧ w ≤ 53) (hr : w < 37 ∨ 42 < w) : l.Reports w :=
  if_pos ⟨h.1, h.2, fun k => absurd k (by omega)⟩

/-- With the ring state present every report word has a value. -/
theorem reports_ring {l : Line} {r : Ring} (hr : l.ring = .present r) (h : 32 ≤ w ∧ w ≤ 53) : l.Reports w :=
  if_pos ⟨h.1, h.2, fun _ => by rw [Line.ring?, hr]; rfl⟩

/-- What is pending with its value stays so, but for the words still to be queued. -/
theorem NotedBut.keeps (n : NotedBut i ws p q) (hw : w ∉ ws) (hp : (p.line i).Reports w) (hq : (q.line i).Reports w)
    (h : p.Pends i w) : q.Pends i w := by
  rcases n.lcb w _ hw hq with a | ⟨a, b⟩
  · exact a
  · have e : (p.line i).report w = (q.line i).report w := Option.some.inj (hp.symm.trans a)
    rw [Part.Pends, e] at h
    exact (b _).2 h

theorem Noted.keeps (n : Noted i p q) (hp : (p.line i).Reports w) (hq : (q.line i).Reports w) (h : p.Pends i w) : q.Pends i w :=
  (NotedBut.ofNoted [] n).keeps List.not_mem_nil hp hq h

theorem Noted.keeps_plain (n : Noted i p q) (hr : 32 ≤ w ∧ w ≤ 53) (hw : w < 37 ∨ 42 < w) (h : p.Pends i w) : q.Pends i w :=
  n.keeps (reports_plain _ hr hw) (reports_plain _ hr hw) h

/-- A word whose value has changed is pending. -/
theorem Noted.pends (n : Noted i p q) (hr : 32 ≤ w ∧ w ≤ 53) (hw : w < 37 ∨ 42 < w)
    (h : (q.line i).report w ≠ (p.line i).report w) : q.Pends i w := by
  have hp : (p.line i).Reports w := reports_plain _ hr hw
  refine n.reported.mem (w := .lcb i w) (reports_plain _ hr hw) fun e => h ?_
  exact (Option.some.inj (hp.symm.trans e)).symm

/-! ### The words of a queue that is discarded, and of entry to "RELEASE" (R67, R150) -/

/-- A saturating count that is not at its end rises. -/
theorem satAdd_ne_self {a : Word} {n : Nat} (ha : a ≠ 65535) (hn : n ≠ 0) : satAdd a n ≠ a := by
  have hlt := a.isLt
  unfold satAdd
  split
  · exact ha.symm
  · intro e
    have := congrArg BitVec.toNat e
    simp only [BitVec.toNat_add, BitVec.toNat_ofNat] at this
    omega

theorem report_entriesLost (l : Line) : l.report 50 = l.counter .entriesLost := by
  simp [Line.report, Line.counter, Counter.index]

theorem dropQueue_entriesLost (l : Line) : (l.dropQueue 0).counter .entriesLost =
    satAdd (l.counter .entriesLost) l.waitingEntries := by
  simp [Line.dropQueue, Line.tallied, Line.setCounter, Line.counter, Counter.index, Line.waitingEntries]

/-- With no held write, a discard is a matter of the line alone. -/
theorem noted_discardQueue_free (h : p.heldFor i = none) : Noted i p (p.discardQueue i) := by
  have n := noted_discardQueue p i
  rwa [releaseHold_none h] at n

theorem noted_enterRelease_free (h : p.heldFor i = none) (t : Target) (c : ModeCause) : Noted i p (p.enterRelease i t c) := by
  have n := noted_enterRelease p i t c
  rwa [releaseHold_none h] at n

theorem heldCount_free (h : p.heldFor i = none) : p.heldCount i = 0 := by rw [Part.heldCount, h]; rfl

/-- The word that a discard without a held write may queue is the count of lost entries, when it rises. -/
theorem mem_dropReports {l : Line} (h : w ∈ l.dropReports 0) : w = 50 ∧ (l.dropQueue 0).report 50 ≠ l.report 50 := by
  have e : l.dropReports 0 = if l.waitingEntries = 0 ∨ l.counter .entriesLost = 65535 then [] else [50] := List.append_nil _
  rw [e] at h
  split at h
  · cases h
  · next hn =>
    rw [not_or] at hn
    rw [report_entriesLost, report_entriesLost, dropQueue_entriesLost]
    exact ⟨List.mem_singleton.1 h, satAdd_ne_self hn.2 hn.1⟩

/-- A change of the line that leaves its count of lost entries as a discard does queues the words of the discard. -/
theorem pends_dropReports (n : Noted i p q) (hl : (q.line i).report 50 = ((p.line i).dropQueue 0).report 50)
    (hw : w ∈ (p.line i).dropReports 0) : q.Pends i w := by
  obtain ⟨rfl, hne⟩ := mem_dropReports hw
  exact n.pends (by omega) (by omega) (by rwa [hl])

theorem report_released_lost (l : Line) (now : Moment) (t : Target) (c : ModeCause) :
    (l.released now t c 0).report 50 = (l.dropQueue 0).report 50 := by
  rw [report_entriesLost, report_entriesLost]
  rfl

end Sys2Proof.Machine

/-! PROOFS. The "DRIVE" request in "ARMED", by the state of the line (R47, R59, R64, R65, R79). -/

namespace Sys2Proof.Machine

variable {s : State} {i : LineNo} {lanes : Lanes} {d : Word} {p : Part}

/-! ### The decision in "ARMED" -/

/-- In "ARMED" a request of a known value is decided by its own rule, on the part whose shadow holds it already. -/
theorem decide_off (h : p.state = .armed) : (p.setShadow i 0 0).decideRequest i 0 = (p.setShadow i 0 0).requestOff i :=
  decideRequest_armed p h 0 0 0

theorem decide_listen (h : p.state = .armed) :
    (p.setShadow i 0 1).decideRequest i 1 = (p.setShadow i 0 1).requestListen i := decideRequest_armed p h 1 0 1

theorem decide_resume (h : p.state = .armed) :
    (p.setShadow i 0 2).decideRequest i 2 = (p.setShadow i 0 2).requestResume i := decideRequest_armed p h 2 0 2

theorem decide_drive (h : p.state = .armed) :
    (p.setShadow i 0 3).decideRequest i 3 = (p.setShadow i 0 3).requestDrive i := decideRequest_armed p h 3 0 3

/-- The line with shadow word `w` holding `v`. -/
def Line.withWord (l : Line) (w : Fin 22) (v : Word) : Line := { l with shadow := l.shadow.set w v }

theorem line_setShadow_eq (p : Part) (w : Fin 22) (v : Word) : (p.setShadow i w v).line i = (p.line i).withWord w v :=
  line_setShadow p w v

theorem setting_withWord (l : Line) {w k : Fin 22} (v : Word) (h : w ≠ k) : (l.withWord w v).setting k = l.setting k :=
  setting_setShadow_ne l w k v h

theorem offer_withWord (l : Line) (w : Fin 22) (v : Word) (e : Event) :
    (l.withWord w v).offer e = (l.offer e).withWord w v := by
  rw [Line.withWord, Line.withWord, offer_withShadow, offer_shadow]

/-- A request taken: the line `l` of its decision, which still has the old shadow, becomes the line requested. -/
theorem takes_requested {c : Instr} {p' q : Part} {v : Word} {o : RequestOutcome} {k : Nat} {l : Line} (ws : List Nat)
    (ok : Word → Bool) (hc : exec c s = s.lcbHost i 0 lanes d ok) (hr : Reaches s i) (hv : s.part.merged i 0 lanes d = v)
    (hok : ok v = true) (h : (s.part.setShadow i 0 v).decideRequest i v = (q, o, k)) (n : Noted i p' q)
    (hw : ∀ w ∈ ws, w = 33 ∨ q.Pends i w) (hl : q.line i = l.withWord 0 v) :
    Takes c s i 0 lanes d p' (l.requested v o k) ws :=
  takes_request ws ok hc hr hv hok h n hw (by rw [hl]; rfl)

/-- Words 32 and 33 are pending once word 32 is: the request queues word 33 itself. -/
theorem pends_state_and_mode {q : Part} (h : q.Pends i 32) : ∀ w ∈ [32, 33], w = 33 ∨ q.Pends i w := by
  simp only [List.mem_cons, List.not_mem_nil, or_false]
  rintro w (rfl | rfl)
  · exact .inr h
  · exact .inl rfl

theorem noted_setShadow_request (p : Part) (i : LineNo) (v : Word) : Noted i p (p.setShadow i 0 v) :=
  noted_setShadow p i 0 v (by decide) (by decide)

/-! ### Entry to "SETTLE" and return to "DRIVE" (R64, R65, R79) -/

/-- The part once the mark-hold of line `i` has ended. -/
def Part.unmarked (p : Part) (i : LineNo) : Part := { p with markHold := p.markHold.set i none }

/-- The line at its entry to "SETTLE" at the moment `now`. -/
def Line.settling (l : Line) (now : Moment) : Line :=
  { l with state := .settle, settleTimer := some (now + msPeriods (l.setting 19)) }

theorem enterSettle_eq (p : Part) :
    p.enterSettle i = ((p.unmarked i).onLine i fun l => l.settling p.now).queueLcb i 32 := rfl

theorem noted_enterSettle (p : Part) : Noted i (p.unmarked i) (p.enterSettle i) := by
  rw [enterSettle_eq]
  refine (but_onLine _ i _ rfl fun w hw => ?_).queueLcb
  apply reportValue_congr <;> intros <;> first | rfl | contradiction

theorem line_enterSettle (p : Part) : (p.enterSettle i).line i = (p.line i).settling p.now := by
  rw [enterSettle_eq, line_queueLcb, line_onLine]
  rfl

theorem settling_withWord (l : Line) (v : Word) (now : Moment) :
    (l.withWord 0 v).settling now = (l.settling now).withWord 0 v := by
  rw [Line.settling, setting_withWord l v (by decide)]
  rfl

/-- The line as it comes to "DRIVE", before its event. -/
def Line.drives (l : Line) : Line := { l with state := .drive, settleTimer := none }

theorem line_enterDrive (p : Part) (c : ModeCause) : (p.enterDrive i c).line i =
    (p.line i).drives.offer ⟨.mode, 3, c.code, 0, (p.line i).state.code, p.counter⟩ := by
  rw [Part.enterDrive, line_queueLcb, line_offerMode, line_onLine]
  rfl

/-! ### The request -/

/-- The decision of a "DRIVE" request depends on the state, the held reasons, the walk and the probe of the line. -/
theorem requestDrive_eq (p : Part) (i : LineNo) (v : Word) : (p.setShadow i 0 v).requestDrive i =
    match (p.line i).state with
    | .off => (p.setShadow i 0 v, .refusedState, 0)
    | .listen =>
      if (p.line i).heldHandsOff = true ∨ (p.line i).heldForced = true then (p.setShadow i 0 v, .refusedHeld, 0)
      else if (p.line i).walk ≠ none ∨ (p.line i).probe ≠ none then (p.setShadow i 0 v, .refusedBusy, 0)
      else ((p.setShadow i 0 v).enterSettle i, .accepted, 0)
    | .drain => ((p.setShadow i 0 v).enterDrive i .request, .accepted, 0)
    | .release => (p.setShadow i 0 v, .refusedBusy, 0)
    | _ => (p.setShadow i 0 v, .accepted, 0) := by
  rw [Part.requestDrive, line_setShadow_eq]
  simp only [Line.resuming, Line.probing, Bool.or_eq_true, Option.isSome_iff_ne_none] <;> rfl

/-- A "DRIVE" request that does nothing but take its outcome. -/
theorem takes_drive_outcome {o : RequestOutcome} (hr : Reaches s i) (ha : s.part.state = .armed)
    (hv : s.part.merged i 0 lanes d = 3) (h : (s.part.setShadow i 0 3).requestDrive i = (s.part.setShadow i 0 3, o, 0)) :
    Takes (.modeRequestDrive i lanes d) s i 0 lanes d s.part ((s.part.line i).requested 3 o 0) [33] :=
  takes_request_same (· == 3) rfl hr hv rfl ((decide_drive ha).trans h)

/-- Settles O27, by the state of the line. -/
theorem modeRequestDrive : Obligations.ModeRequestDrive := by
  intro s i lanes d l hr ha hv hl
  subst hl
  have e := requestDrive_eq s.part i 3
  have dec := decide_drive (i := i) ha
  refine ⟨fun h => ?off, fun h hh => ?held, fun h h1 h2 hb => ?busy, fun h h1 h2 h3 h4 => ?settle, fun h => ?driving,
    fun h => ?drain, fun h => ?release⟩
  case off => exact takes_drive_outcome hr ha hv (by rw [e, h])
  case held => exact takes_drive_outcome hr ha hv (by rw [e, h]; exact if_pos hh)
  case busy =>
    refine takes_drive_outcome hr ha hv ?_
    rw [e, h]
    exact (if_neg (by simp [h1, h2])).trans (if_pos hb)
  case settle =>
    have e : (s.part.setShadow i 0 3).requestDrive i = ((s.part.setShadow i 0 3).enterSettle i, .accepted, 0) := by
      rw [e, h]
      exact (if_neg (by simp [h1, h2])).trans (if_neg (by simp [h3, h4]))
    have n : Noted i (s.part.unmarked i) ((s.part.setShadow i 0 3).enterSettle i) :=
      (noted_setShadow_request (s.part.unmarked i) i 3).trans (noted_enterSettle (s.part.setShadow i 0 3))
    refine takes_requested (l := (s.part.line i).settling s.part.now) [32, 33] (· == 3) rfl hr hv rfl (dec.trans e) n ?_ ?_
    · exact pends_state_and_mode (mem_queueLcb_self _ _)
    · rw [line_enterSettle, line_setShadow_eq, settling_withWord]
      rfl
  case driving => rcases h with h | h <;> exact takes_drive_outcome hr ha hv (by rw [e, h])
  case drain =>
    refine takes_requested (l := (s.part.line i).drives.offer ⟨.mode, 3, 1, 0, 5, s.part.counter⟩) [32, 33] (· == 3) rfl hr hv
      rfl (dec.trans (by rw [e, h])) ((noted_setShadow_request s.part i 3).trans (noted_enterDrive _ i .request)) ?_ ?_
    · exact pends_state_and_mode (mem_queueLcb_self _ _)
    · rw [line_enterDrive, line_setShadow_eq, ← offer_withWord, show ((s.part.line i).withWord 0 3).state = .drain from h]
      rfl
  case release => exact takes_drive_outcome hr ha hv (by rw [e, h])

end Sys2Proof.Machine

/-! PROOFS. The "LISTEN_RESUME" and "LISTEN" requests in "ARMED", by the state of the line (R47, R48, R59 to R61, R66, R67). -/

namespace Sys2Proof.Machine

variable {s : State} {i : LineNo} {lanes : Lanes} {d : Word} {p : Part}

/-! ### Entry to "LISTEN" from "OFF" (R60, R61) -/

theorem listening_withWord (l : Line) (v : Word) (rx : Level) (sv : Bool) (now : Moment) :
    (l.withWord 0 v).listening rx sv now = (l.listening rx sv now).withWord 0 v :=
  listening_withShadow l _ rx sv now (by simp) (by simp) (by simp) (by simp) (by simp)

/-- The words that the start of listening queues: the state and the effective rate. -/
theorem pends_startListening (p : Part) {w : Nat} (h : w = 32 ∨ w = 43 ∨ w = 44) : (p.startListening i).Pends i w :=
  h.elim (fun h => h ▸ mem_startListening_state p) (mem_startListening_rate p w)

/-- The line whose ring state is unknown while a walk is to find it. -/
def Line.unknownRing (l : Line) : Line := { l with ring := .unknown, walk := some .pointers }

theorem line_enterResuming (p : Part) :
    (p.enterResuming i).line i = (p.line i).unknownRing.listening p.rxPin[i] p.svPin[i] p.now := by
  have st : LineStep i p ((p.onLine i Line.unknownRing).noteDue i p) := (lineStep_onLine p i _).trans (lineStep_noteDue _ i p)
  rw [show p.enterResuming i = ((p.onLine i Line.unknownRing).noteDue i p).startListening i from rfl, line_startListening,
    st.rxPin, st.svPin, st.now, line_noteDue, line_onLine]

theorem line_enterFresh (p : Part) : (p.enterFresh i).line i =
    ((p.line i).freshRing.listening p.rxPin[i] p.svPin[i] p.now).offer ⟨.mode, 1, 6, 0, 0, p.counter⟩ := by
  have st := lineStep_makeFresh p i
  have sc := ((lineStep_makeFresh p i).trans (lineStep_startListening _ i)).counter
  rw [Part.enterFresh, line_offerMode, line_startListening, st.rxPin, st.svPin, st.now, sc, line_makeFresh]
  rfl

/-- A fresh ring has values. -/
theorem freshRing_present (l : Line) : l.freshRing.ring = .present Ring.fresh :=
  (unparked_frame { l with ring := .present Ring.fresh }).2.1

theorem freshRing_withWord (l : Line) (v : Word) : (l.withWord 0 v).freshRing = l.freshRing.withWord 0 v := by
  rw [Line.withWord, Line.withWord, freshRing_withShadow, freshRing_shadow]

theorem listening_ring (l : Line) (rx : Level) (sv : Bool) (now : Moment) : (l.listening rx sv now).ring = l.ring := rfl

/-- The words that entry to "LISTEN" fresh queues: the state, the live conditions, the ring and the effective rate. -/
theorem pends_enterFresh (p : Part) {w : Nat} (h : w = 32 ∨ w = 43 ∨ w = 44 ∨ 36 ≤ w ∧ w ≤ 42) :
    (p.enterFresh i).Pends i w := by
  have keep : ((p.makeFresh i).startListening i).Pends i w → (p.enterFresh i).Pends i w := fun hp => by
    rw [Part.Pends, Part.enterFresh, line_offerMode, report_offer]
    exact hp
  refine keep ?_
  by_cases hr : 36 ≤ w ∧ w ≤ 42
  · have hring := freshRing_present (p.line i)
    refine (noted_startListening (p.makeFresh i) i).keeps (reports_ring (r := Ring.fresh) ?_ (by omega))
      (reports_ring (r := Ring.fresh) ?_ (by omega)) (mem_makeFresh_ring p w hr)
    · rw [line_makeFresh, hring]
    · rw [line_startListening, listening_ring, line_makeFresh, hring]
  · exact pends_startListening _ (by omega)

/-! ### The request from "OFF" -/

theorem requestFromOff_protected (b : Bool) (v : Word) (h : p.isProtected i = true) :
    (p.setShadow i 0 v).requestFromOff i b = (p.setShadow i 0 v, .refusedBusy, 0) :=
  if_pos (by rw [isProtected_setShadow]; exact h)

theorem requestFromOff_free (b : Bool) (v : Word) (h : p.isProtected i = false) : (p.setShadow i 0 v).requestFromOff i b =
    match p.validate i with
    | some offset => (p.setShadow i 0 v, .badSettings, offset)
    | none =>
      (if b then (p.setShadow i 0 v).enterResuming i else (p.setShadow i 0 v).enterFresh i, .accepted, 0) := by
  rw [← validate_setShadow p v]
  exact if_neg (by rw [isProtected_setShadow, h]; exact nofun)

/-! ### A "LISTEN_RESUME" request -/

theorem requestResume_eq (p : Part) (i : LineNo) (v : Word) : (p.setShadow i 0 v).requestResume i =
    if (p.line i).state = .off then (p.setShadow i 0 v).requestFromOff i true
    else (p.setShadow i 0 v, .refusedState, 0) := by
  rw [Part.requestResume, state_setShadow]
  split
  · next h => rw [if_pos h]
  · next h => rw [if_neg h]

/-- A "LISTEN_RESUME" request that does nothing but take its outcome. -/
theorem takes_resume_outcome {o : RequestOutcome} {k : Nat} (hr : Reaches s i) (ha : s.part.state = .armed)
    (hv : s.part.merged i 0 lanes d = 2)
    (h : (s.part.setShadow i 0 2).requestResume i = (s.part.setShadow i 0 2, o, k)) :
    Takes (.modeRequestListenResume i lanes d) s i 0 lanes d s.part ((s.part.line i).requested 2 o k) [33] :=
  takes_request_same (· == 2) rfl hr hv rfl ((decide_resume ha).trans h)

/-- Settles O26, by the state of the line and, in "OFF", by protection and validation. -/
theorem modeRequestListenResume : Obligations.ModeRequestListenResume := by
  intro s i lanes d l hr ha hv hl
  subst hl
  have e := requestResume_eq s.part i 2
  refine ⟨fun h hp => ?busy, fun k h hp hk => ?bad, fun h hp hk => ?accepted, fun h => ?state⟩
  case busy => exact takes_resume_outcome hr ha hv (by rw [e, if_pos h, requestFromOff_protected true 2 hp])
  case bad => exact takes_resume_outcome hr ha hv (by rw [e, if_pos h, requestFromOff_free true 2 hp, hk])
  case accepted =>
    rw [if_pos h, requestFromOff_free true 2 hp, hk] at e
    refine takes_requested [32, 33, 43, 44] (· == 2) rfl hr hv rfl ((decide_resume ha).trans e)
      ((noted_setShadow_request s.part i 2).trans (noted_enterResuming _ i)) (fun w hw => ?_) ?_
    · simp only [List.mem_cons, List.not_mem_nil, or_false] at hw
      rcases (by omega : w = 33 ∨ w = 32 ∨ w = 43 ∨ w = 44) with h | h
      · exact .inl h
      · exact .inr (pends_startListening _ h)
    · rw [if_pos rfl, line_enterResuming, line_setShadow_eq]
      exact listening_withWord (s.part.line i).unknownRing 2 _ _ _
  case state => exact takes_resume_outcome hr ha hv (by rw [e, if_neg h])

/-! ### A "LISTEN" request -/

theorem requestListen_eq (p : Part) (i : LineNo) (v : Word) : (p.setShadow i 0 v).requestListen i =
    match (p.line i).state with
    | .off => (p.setShadow i 0 v).requestFromOff i false
    | .listen => (p.setShadow i 0 v, .accepted, 0)
    | .settle => ((p.setShadow i 0 v).enterRelease i .listen .request, .accepted, 0)
    | .drive => ((p.setShadow i 0 v).enterDrain i, .accepted, 0)
    | .drain => (p.setShadow i 0 v, .accepted, 0)
    | .release => ((p.setShadow i 0 v).retarget i .listen .request, .accepted, 0) := by
  rw [Part.requestListen, state_setShadow] <;> rfl

/-- The line as it comes to "DRAIN". -/
def Line.drains (l : Line) : Line := { l with state := .drain }

/-- With no held write, entry to "DRAIN" goes on to "RELEASE" where nothing is left to send (R66). -/
theorem enterDrain_eq (h : p.heldFor i = none) : p.enterDrain i =
    if (p.line i).queue = [] ∧ (p.line i).acting = none then (p.onLine i Line.drains).enterRelease i .listen .request
    else (p.onLine i Line.drains).queueLcb i 32 := by
  have e : (p.onLine i Line.drains).refuseHeld i = p.onLine i Line.drains := refuseHeld_none _ h
  rw [Part.enterDrain, show (p.onLine i fun l => { l with state := .drain }) = p.onLine i Line.drains from rfl]
  simp only [e, line_onLine]
  rfl

theorem released_withWord (l : Line) {w : Fin 22} (v : Word) (h : w ≠ 20) (now : Moment) (t : Target) (c : ModeCause) (k : Nat) :
    (l.withWord w v).released now t c k = (l.released now t c k).withWord w v :=
  released_withShadow l _ now t c k (Vector.getElem_set_ne _ _ fun e => h (Fin.ext e))

/-- A request that brings a line with no held write to "RELEASE" from the part `q`, which the shadow and the line state alone tell
from the present one. -/
theorem takes_release {c : Instr} {q : Part} {t : Target} {cause : ModeCause} {v : Word} (ok : Word → Bool)
    (hc : exec c s = s.lcbHost i 0 lanes d ok) (hr : Reaches s i) (hv : s.part.merged i 0 lanes d = v) (hok : ok v = true)
    (nq : NotedBut i [32] s.part q)
    (hl : (q.line i).released s.part.now t cause 0 = ((s.part.line i).withWord 0 v).released s.part.now t cause 0)
    (h : (s.part.setShadow i 0 v).decideRequest i v = (q.enterRelease i t cause, .accepted, 0)) :
    Takes c s i 0 lanes d s.part (((s.part.line i).released s.part.now t cause 0).requested v .accepted 0)
      ([32, 33] ++ (s.part.line i).dropReports 0) := by
  have free : q.heldFor i = none := (heldFor_congr nq.step.held i).trans (heldFor_of_reaches hr)
  have n : Noted i s.part (q.enterRelease i t cause) :=
    (nq.trans (.ofNoted _ (noted_enterRelease_free free t cause))).pending (mem_enterRelease q i t cause)
  have line : (q.enterRelease i t cause).line i = ((s.part.line i).released s.part.now t cause 0).withWord 0 v := by
    rw [line_enterRelease, heldCount_free free, nq.step.now, hl, released_withWord _ _ (by decide)]
  refine takes_requested _ ok hc hr hv hok h n (fun w hw => ?_) line
  rcases List.mem_append.1 hw with hw | hw
  · exact pends_state_and_mode (mem_enterRelease q i t cause) w hw
  · refine .inr (pends_dropReports n ?_ hw)
    rw [line]
    exact (report_shadow0 _ v 50).trans (report_released_lost _ _ _ _)

theorem but_setShadow (p : Part) (v : Word) : NotedBut i [32] p (p.setShadow i 0 v) :=
  .ofNoted _ (noted_setShadow_request p i v)

theorem but_drains (p : Part) : NotedBut i [32] p (p.onLine i Line.drains) := by
  refine but_onLine p i _ rfl fun w hw => ?_
  apply reportValue_congr <;> intros <;> first | rfl | contradiction

/-- A "LISTEN" request that does nothing but take its outcome. -/
theorem takes_listen_outcome {o : RequestOutcome} {k : Nat} (hr : Reaches s i) (ha : s.part.state = .armed)
    (hv : s.part.merged i 0 lanes d = 1)
    (h : (s.part.setShadow i 0 1).requestListen i = (s.part.setShadow i 0 1, o, k)) :
    Takes (.modeRequestListen i lanes d) s i 0 lanes d s.part ((s.part.line i).requested 1 o k) [33] :=
  takes_request_same (· == 1) rfl hr hv rfl ((decide_listen ha).trans h)

/-- The line with another target and release cause. -/
def Line.retargeted (l : Line) (t : Target) (c : ModeCause) : Line := { l with target := t, releaseCause := c }

/-- A request in "RELEASE" that gives a new target. -/
theorem takes_retarget {c : Instr} {t : Target} {v : Word} (ok : Word → Bool)
    (hc : exec c s = s.lcbHost i 0 lanes d ok) (hr : Reaches s i) (hv : s.part.merged i 0 lanes d = v) (hok : ok v = true)
    (h : (s.part.setShadow i 0 v).decideRequest i v = ((s.part.setShadow i 0 v).retarget i t .request, .accepted, 0)) :
    Takes c s i 0 lanes d s.part (((s.part.line i).retargeted t .request).requested v .accepted 0) [33] :=
  takes_requested [33] ok hc hr hv hok h ((noted_setShadow_request s.part i v).trans (noted_retarget _ i t .request))
    (fun _ hw => .inl (List.mem_singleton.1 hw))
    (by rw [show (s.part.setShadow i 0 v).retarget i t .request = (s.part.setShadow i 0 v).onLine i (·.retargeted t .request)
          from rfl, line_onLine, line_setShadow_eq]; rfl)

/-- Settles O25, by the state of the line; in "OFF" by protection and validation, in "DRIVE" by what is left to send. -/
theorem modeRequestListen : Obligations.ModeRequestListen := by
  intro s i lanes d l hr ha hv hl
  subst hl
  have e := requestListen_eq s.part i 1
  have dec := decide_listen (i := i) ha
  have free : (s.part.setShadow i 0 1).heldFor i = none := heldFor_of_reaches hr
  have lineNow : (s.part.setShadow i 0 1).line i = (s.part.line i).withWord 0 1 := line_setShadow_eq _ _ _
  refine ⟨fun h hp => ?busy, fun k h hp hk => ?bad, fun h hp hk => ?fresh, fun h => ?stays, fun h => ?release, fun h hq => ?drain,
    fun h => ?retarget⟩
  case busy => exact takes_listen_outcome hr ha hv (by rw [e, h]; exact requestFromOff_protected false 1 hp)
  case bad =>
    refine takes_listen_outcome hr ha hv ?_
    rw [e, h]
    exact (requestFromOff_free false 1 hp).trans (by rw [hk])
  case fresh =>
    have e : (s.part.setShadow i 0 1).requestListen i = ((s.part.setShadow i 0 1).enterFresh i, .accepted, 0) := by
      rw [e, h]
      exact (requestFromOff_free false 1 hp).trans (by rw [hk]; rfl)
    refine takes_requested _ (· == 1) rfl hr hv rfl (dec.trans e)
      ((noted_setShadow_request s.part i 1).trans (noted_enterFresh _ i)) (fun w hw => ?_) ?_
    · simp only [List.mem_cons, List.not_mem_nil, or_false] at hw
      rcases (by omega : w = 33 ∨ w = 32 ∨ w = 43 ∨ w = 44 ∨ 36 ≤ w ∧ w ≤ 42) with h | h
      · exact .inl h
      · exact .inr (pends_enterFresh _ h)
    · rw [line_enterFresh, lineNow, freshRing_withWord, listening_withWord, offer_withWord]
      rfl
  case stays => rcases h with h | h <;> exact takes_listen_outcome hr ha hv (by rw [e, h])
  case release =>
    rcases h with h | ⟨h, hq, hact⟩
    · exact takes_release (· == 1) rfl hr hv rfl (but_setShadow _ 1) (by rw [lineNow]) (dec.trans (by rw [e, h]))
    · refine takes_release (· == 1) rfl hr hv rfl ((but_setShadow _ 1).trans (but_drains _)) ?_ (dec.trans ?_)
      · rw [line_onLine, lineNow]
        rfl
      · rw [e, h]
        dsimp only
        rw [enterDrain_eq free, lineNow, if_pos ⟨hq, hact⟩]
  case drain =>
    have e : (s.part.setShadow i 0 1).requestListen i =
        (((s.part.setShadow i 0 1).onLine i Line.drains).queueLcb i 32, .accepted, 0) := by
      rw [e, h]
      dsimp only
      rw [enterDrain_eq free, lineNow, if_neg (fun c => hq.elim (absurd c.1) (absurd c.2))]
    refine takes_requested (l := (s.part.line i).drains) [32, 33] (· == 1) rfl hr hv rfl (dec.trans e)
      ((but_setShadow _ 1).trans (but_drains _)).queueLcb (pends_state_and_mode (mem_queueLcb_self _ _)) ?_
    rw [line_queueLcb, line_onLine, lineNow]
    rfl
  case retarget => exact takes_retarget (· == 1) rfl hr hv rfl (dec.trans (by rw [e, h]))

end Sys2Proof.Machine

/-! PROOFS. The "OFF" request in "ARMED", by the state of the line (R47, R59, R62, R63, R67, R118, R150, R160). -/

namespace Sys2Proof.Machine

variable {s : State} {i : LineNo} {lanes : Lanes} {d : Word} {p : Part} {w : Nat}

/-! ### The way from "LISTEN" to "OFF" (R62, R63) -/

theorem unprobed_withWord (l : Line) (v : Word) (now : Moment) (t : Stamp) :
    (l.withWord 0 v).unprobed now t = (l.unprobed now t).withWord 0 v := by
  rw [Line.withWord, Line.withWord, unprobed_withShadow, unprobed_shadow]

theorem unwalked_shadow (l : Line) : l.unwalked.shadow = l.shadow := by
  unfold Line.unwalked
  split
  · exact freshRing_shadow l
  · rfl

theorem unwalked_withWord (l : Line) (v : Word) : (l.withWord 0 v).unwalked = l.unwalked.withWord 0 v := by
  rw [Line.withWord, Line.withWord, unwalked_withShadow, unwalked_shadow]

theorem wentOff_shadow (l : Line) (c : ModeCause) (t : Stamp) : (l.wentOff c t).shadow = l.shadow := by
  rw [Line.wentOff, offer_shadow, closeOpen_shadow]

theorem wentOff_withWord (l : Line) (v : Word) (c : ModeCause) (t : Stamp) :
    (l.withWord 0 v).wentOff c t = (l.wentOff c t).withWord 0 v := by
  rw [Line.withWord, Line.withWord, wentOff_withShadow, wentOff_shadow]

theorem wentOff_ring (l : Line) (c : ModeCause) (t : Stamp) : (l.wentOff c t).ring = l.ring := by
  rw [Line.wentOff, offer_ring, closeOpen_ring]

/-- The abandonment of a probe latches "PROBE_READY", no other flag. -/
theorem unprobed_flag (l : Line) (now : Moment) (t : Stamp) {k : Nat} (h : k ≠ 2) :
    (l.unprobed now t).flags.getLsbD k = l.flags.getLsbD k := by
  unfold Line.unprobed
  split
  · next x _ =>
    have e : (l.delivered x .abandoned 0 now t).flags = l.flags ||| 4 := by
      simp [Line.delivered]
    have bit : (4 : Word).getLsbD k = false := by
      rw [show (4 : Word) = BitVec.twoPow 16 2 from rfl, BitVec.getLsbD_twoPow]
      simp [Ne.symm h]
    rw [e, BitVec.getLsbD_or, bit, Bool.or_false]
  · rfl

theorem unprobed_conditions (l : Line) (now : Moment) (t : Stamp) :
    (l.unprobed now t).openCondition = l.openCondition ∧ (l.unprobed now t).stuckCondition = l.stuckCondition := by
  unfold Line.unprobed
  split
  · simp [Line.delivered]
  · exact ⟨rfl, rfl⟩

theorem unwalked_conditions (l : Line) :
    l.unwalked.openCondition = l.openCondition ∧ l.unwalked.stuckCondition = l.stuckCondition := by
  have u := unparked_frame { l with ring := .present Ring.fresh }
  unfold Line.unwalked
  split
  · exact ⟨u.2.2.1, u.2.2.2.1⟩
  · exact ⟨rfl, rfl⟩

theorem unwalked_ring {l : Line} (h : l.walk.isSome = true) : l.unwalked.ring = .present Ring.fresh := by
  rw [Line.unwalked, if_pos h]
  exact freshRing_present l

/-- The words that the abandonment of a probe queues (R159, R160). -/
theorem pends_abandonProbe (p : Part) (hk : (p.line i).probe.isSome = true) (hw : w ∈ (p.line i).probeReports) :
    (p.abandonProbe i).Pends i w := by
  obtain ⟨k, hk⟩ := Option.isSome_iff_exists.1 hk
  have ⟨_, hl, hm⟩ := deliverProbe_event p k .abandoned 0 (i := i)
  have e : p.abandonProbe i = p.deliverProbe i k .abandoned 0 := by rw [Part.abandonProbe, hk]
  rw [e, Part.Pends, hl]
  exact hm w (List.mem_append_left _ hw)

/-- The words that a ring made fresh with "RING_RESET" queues: the live conditions and the ring, and word 35 where the flag was
clear (R102, R118). -/
theorem freshReports_cases {l : Line} (h : w ∈ l.freshReports) :
    36 ≤ w ∧ w ≤ 42 ∨ w = 35 ∧ l.flags.getLsbD 7 = false := by
  rcases List.mem_append.1 h with h | h
  · simp only [List.mem_cons, List.not_mem_nil, or_false] at h
    omega
  · split at h
    · cases h
    · next hf => exact .inr ⟨List.mem_singleton.1 h, Bool.eq_false_iff.2 hf⟩

theorem probeReports_cases {l : Line} (h : w ∈ l.probeReports) : w = 32 ∨ w = 45 ∨ w = 35 := by
  rcases List.mem_append.1 h with h | h
  · simp only [List.mem_cons, List.not_mem_nil, or_false] at h
    omega
  · split at h
    · cases h
    · exact .inr (.inr (List.mem_singleton.1 h))

theorem pends_abandonWalk (p : Part) (hk : (p.line i).walk.isSome = true) (hw : w ∈ (p.line i).freshReports) :
    (p.abandonWalk i).Pends i w := by
  generalize hq : (p.abandonStep i).onLine i (fun l => { l with walk := none }) = q
  have e : p.abandonWalk i = (q.makeFresh i).latch i .ringReset := hq ▸ if_pos hk
  have flags : ((q.makeFresh i).line i).flags = (p.line i).flags := by
    rw [line_makeFresh, freshRing_flags, ← hq, line_onLine, line_abandonStep]
  have ring : ((q.makeFresh i).line i).ring = .present Ring.fresh := by rw [line_makeFresh, freshRing_present]
  rw [e]
  rcases freshReports_cases hw with h | ⟨rfl, hf⟩
  · refine (noted_latch _ i _).keeps (reports_ring ring (by omega)) (reports_ring (r := Ring.fresh) ?_ (by omega))
      (mem_makeFresh_ring q w h)
    rw [line_latch]
    exact ring
  · exact mem_latch_self _ .ringReset (by rw [flags]; exact hf)

/-- Word 36 is pending after entry to "OFF" where a condition stood (R63, R75). -/
theorem pends_enterOff_conditions (p : Part) (c : ModeCause)
    (h : (p.line i).openCondition = true ∨ (p.line i).stuckCondition = true) : (p.enterOff i c).Pends i 36 := by
  generalize hq : ((p.closeOpen i).offerMode i .off c 0 (p.line i).state).onLine i Line.stop = q
  have e : p.enterOff i c = (q.setConditions i false false).queueLcb i 32 := hq ▸ rfl
  have ho : (q.line i).openCondition = (p.line i).openCondition ∧ (q.line i).stuckCondition = (p.line i).stuckCondition := by
    rw [← hq, line_onLine, line_offerMode, line_closeOpen]
    simp [Line.stop]
  rw [e]
  refine (noted_queueLcb _ i 32).keeps_plain (by omega) (by omega) (mem_setConditions q false false ?_)
  rw [ho.1, ho.2]
  exact h.imp (fun h => by rw [h]; exact nofun) fun h => by rw [h]; exact nofun

/-- The words that the way from "LISTEN" to "OFF" queues (R62, R63, R118, R160). -/
theorem pends_listenToOff (p : Part) (c : ModeCause) (hw : w ∈ (p.line i).offReports) : (p.listenToOff i c).Pends i w := by
  have lineP : (p.abandonProbe i).line i = (p.line i).unprobed p.now p.counter := line_abandonProbe_unprobed p
  have lineW : ((p.abandonProbe i).abandonWalk i).line i = ((p.line i).unprobed p.now p.counter).unwalked := by
    rw [line_abandonWalk, lineP]
  have toOff := noted_enterOff ((p.abandonProbe i).abandonWalk i) i c
  by_cases h32 : w = 32
  · rw [h32]
    exact mem_enterOff _ c
  rw [Line.offReports, List.mem_append, List.mem_append, List.mem_cons] at hw
  rcases hw with ((hw | hw) | hw) | hw
  · exact absurd hw h32
  · split at hw
    · next hk =>
      have hc := probeReports_cases hw
      have pending : ((p.abandonProbe i).stepDropped i).Pends i w := by
        obtain ⟨x, hx⟩ := stepDropped_eq (i := i) (p.abandonProbe i)
        rw [hx]
        exact pends_abandonProbe p hk hw
      refine toOff.keeps_plain (by omega) (by omega) ((but_abandonWalk (p.abandonProbe i)).keeps ?_
        (reports_plain _ (by omega) (by omega)) (reports_plain _ (by omega) (by omega)) pending)
      exact mt List.mem_singleton.1 h32
    · cases hw
  · split at hw
    · next hk =>
      have hk' : ((p.abandonProbe i).line i).walk.isSome = true := by rw [lineP, unprobed_walk]; exact hk
      have same : ((p.abandonProbe i).line i).freshReports = (p.line i).freshReports := by
        rw [Line.freshReports, lineP, unprobed_flag _ _ _ (by decide)]
        rfl
      have ring : (((p.abandonProbe i).abandonWalk i).line i).ring = .present Ring.fresh := by
        rw [line_abandonWalk, unwalked_ring hk']
      have hc := freshReports_cases hw
      refine toOff.keeps (reports_ring ring (by omega)) (reports_ring (r := Ring.fresh) ?_ (by omega))
        (pends_abandonWalk _ hk' (same ▸ hw))
      rw [line_enterOff, wentOff_ring, ring]
    · cases hw
  · split at hw
    · next hcond =>
      rw [List.mem_singleton.1 hw]
      refine pends_enterOff_conditions _ c ?_
      rw [lineW, (unwalked_conditions _).1, (unwalked_conditions _).2, (unprobed_conditions _ _ _).1, (unprobed_conditions _ _ _).2]
      exact hcond
    · cases hw

/-! ### The request -/

theorem requestOff_eq (p : Part) (i : LineNo) (v : Word) : (p.setShadow i 0 v).requestOff i =
    match (p.line i).state with
    | .off => (p.setShadow i 0 v, .accepted, 0)
    | .listen => ((p.setShadow i 0 v).listenToOff i .request, .accepted, 0)
    | .release => ((p.setShadow i 0 v).retarget i .off .request, .accepted, 0)
    | _ => ((p.setShadow i 0 v).enterRelease i .off .request, .accepted, 0) := by
  rw [Part.requestOff, state_setShadow] <;> rfl

theorem noted_requested_listenToOff (p : Part) (v : Word) (c : ModeCause) :
    Noted i (p.stepDropped i) ((p.setShadow i 0 v).listenToOff i c) := by
  refine Noted.trans (NotedBut.whole ?_) (noted_listenToOff (p.setShadow i 0 v) c)
  refine (NotedBut.ofNoted [] (noted_setShadow_request p i v)).stepDropped ?_ ?_
  · rw [line_setShadow]
  · rw [line_setShadow_eq, Line.ringBase, setting_withWord _ _ (by decide), setting_withWord _ _ (by decide)]
    rfl

/-- Settles O24, by the state of the line. -/
theorem modeRequestOff : Obligations.ModeRequestOff := by
  intro s i lanes d l hr ha hv hl
  subst hl
  have e := requestOff_eq s.part i 0
  have dec := decide_off (i := i) ha
  have lineNow : (s.part.setShadow i 0 0).line i = (s.part.line i).withWord 0 0 := line_setShadow_eq _ _ _
  refine ⟨fun h => ?off, fun h => ?listen, fun h => ?driving, fun h => ?retarget⟩
  case off => exact takes_request_same (· == 0) rfl hr hv rfl (dec.trans (by rw [e, h]))
  case listen =>
    refine takes_requested _ (· == 0) rfl hr hv rfl (dec.trans (by rw [e, h])) (noted_requested_listenToOff s.part 0 .request)
      (fun w hw => ?_) ?_
    · refine (List.mem_cons.1 hw).imp id fun hw => pends_listenToOff _ _ ?_
      rw [lineNow]
      exact hw
    · rw [line_listenToOff, lineNow, unprobed_withWord, unwalked_withWord, wentOff_withWord]
      rfl
  case driving =>
    refine takes_release (· == 0) rfl hr hv rfl (but_setShadow _ 0) (by rw [lineNow]) (dec.trans ?_)
    rcases h with h | h | h <;> rw [e, h]
  case retarget => exact takes_retarget (· == 0) rfl hr hv rfl (dec.trans (by rw [e, h]))

end Sys2Proof.Machine

/-! PROOFS. The validation of a "LISTEN" request (R48, R49). -/

namespace Sys2Proof.Machine

variable {i : LineNo}

/-! ### The first check that fails -/

/-- The offset of the first check of a list that fails. -/
def firstFailing (cs : List (Nat × Bool)) : Option Nat := (cs.find? fun c => !c.2).map Prod.fst

theorem validate_eq (p : Part) (i : LineNo) : p.validate i = firstFailing (p.validationChecks i) := rfl

/-- The first check fails, or it passes and the rest decide. -/
theorem firstFailing_cons {k offset : Nat} {c : Bool} {cs : List (Nat × Bool)} {bad good : Prop} {rest : Prop}
    (hb : c = false ↔ bad) (hg : c = true ↔ good) (h : good → (firstFailing cs = some offset ↔ rest)) :
    firstFailing ((k, c) :: cs) = some offset ↔ bad ∧ offset = k ∨ good ∧ rest := by
  rw [← hb, ← hg]
  cases c with
  | false => simp [firstFailing, eq_comm]
  | true => simpa [firstFailing] using h (hg.1 rfl)

/-- A check that must fail, seen from its failure. -/
theorem firstFailing_eq_find (cs : List (Nat × Bool)) :
    firstFailing cs = ((cs.map fun c => (c.1, !c.2)).find? (·.2)).map Prod.fst := by
  induction cs with
  | nil => rfl
  | cons c cs ih =>
    obtain ⟨k, b⟩ := c
    cases b with
    | false => rfl
    | true => exact ih

/-! ### The checks of one setting, failing and passing (R48) -/

theorem upTo_fails (a n : Nat) : decide (a ≤ n) = false ↔ n < a := by rw [decide_eq_false_iff_not, not_le]

theorem upTo_holds (a n : Nat) : decide (a ≤ n) = true ↔ a ≤ n := decide_eq_true_iff

theorem within_holds (a n : Nat) : (a != 0 && decide (a ≤ n)) = true ↔ 1 ≤ a ∧ a ≤ n := by
  rw [Bool.and_eq_true, bne_iff_ne, decide_eq_true_iff, Nat.one_le_iff_ne_zero]

theorem within_fails (a n : Nat) : (a != 0 && decide (a ≤ n)) = false ↔ a = 0 ∨ n < a := by
  rw [← Bool.not_eq_true, within_holds]
  omega

theorem payload_holds (a : Nat) :
    (decide (16 ≤ a) && decide (a ≤ 256) && a % 2 == 0) = true ↔ 16 ≤ a ∧ a ≤ 256 ∧ a % 2 = 0 := by
  rw [Bool.and_eq_true, Bool.and_eq_true, decide_eq_true_iff, decide_eq_true_iff, beq_iff_eq, and_assoc]

theorem payload_fails (a : Nat) :
    (decide (16 ≤ a) && decide (a ≤ 256) && a % 2 == 0) = false ↔ a < 16 ∨ 256 < a ∨ a % 2 = 1 := by
  rw [← Bool.not_eq_true, payload_holds]
  omega

theorem not_upTo (a n : Nat) : (!decide (a ≤ n)) = decide (n < a) := by rw [← decide_not, decide_eq_decide, not_le]

theorem not_within (a n : Nat) : (!(a != 0 && decide (a ≤ n))) = decide (a = 0 ∨ n < a) := by
  rw [Bool.eq_iff_iff, Bool.not_eq_true', within_fails, decide_eq_true_iff]

/-! ### Where a ring lies in place (R49) -/

theorem disjoint_iff (b n c k : Nat) : disjoint b n c k = true ↔ b + n ≤ c ∨ c + k ≤ b := by
  rw [disjoint, Bool.or_eq_true, decide_eq_true_iff, decide_eq_true_iff]

/-- The three conditions of R49, for the ring of line `i` under the map `m`. -/
def Part.InPlace (p : Part) (i : LineNo) (m : AddressMap) : Prop :=
  (p.line i).ringBase + (p.line i).ringSize - 1 ≤ 0x1FFEFF ∧
    ((p.line i).ringBase + (p.line i).ringSize - 1 < m.regionBase.toNat ∨ m.regionBase.toNat + 2559 < (p.line i).ringBase) ∧
    ∀ j, j ≠ i → p.isProtected j = true → (p.line i).ringBase + (p.line i).ringSize ≤ (p.line j).ringBase ∨
      (p.line j).ringBase + (p.line j).ringSize ≤ (p.line i).ringBase

/-- A ring of at least one word passes the check where the three conditions hold. -/
theorem ringInPlace_iff {p : Part} {m : AddressMap} (hm : p.map = some m) (h : 1 ≤ (p.line i).setting 9) :
    p.ringInPlace i = true ↔ p.InPlace i m := by
  have size : 1 ≤ (p.line i).ringSize := by rw [Line.ringSize]; omega
  simp only [Part.ringInPlace, Part.InPlace, hm, Bool.and_eq_true, decide_eq_true_iff, disjoint_iff, List.all_eq_true,
    List.mem_finRange, true_implies, Bool.or_eq_true, Bool.not_eq_true', and_assoc]
  refine and_congr (by omega) (and_congr (by omega) (forall_congr' fun j => ?_))
  by_cases hj : j = i <;> by_cases hp : p.isProtected j = true <;> simp [hj, hp]

/-- Settles O29: the checks are taken one after another, the place of the ring after its size. -/
theorem listenValidation : Obligations.ListenValidation := by
  intro p i m l hm hl inPlace s offset
  subst hl
  have place : 1 ≤ s 9 → (p.ringInPlace i = true ↔ inPlace) := ringInPlace_iff hm
  rw [validate_eq, Part.validationChecks]
  simp only [List.cons_append, List.nil_append]
  refine firstFailing_cons Iff.rfl Iff.rfl fun _ => ?_
  refine firstFailing_cons (within_fails _ 4095) (within_holds _ 4095) fun _ => ?_
  refine firstFailing_cons (upTo_fails _ 15) (upTo_holds _ 15) fun _ => ?_
  refine firstFailing_cons (upTo_fails _ 2) (upTo_holds _ 2) fun _ => ?_
  refine firstFailing_cons (upTo_fails _ 31) (upTo_holds _ 31) fun _ => ?_
  refine firstFailing_cons beq_eq_false_iff_ne beq_iff_eq fun _ => ?_
  refine firstFailing_cons (within_fails _ 128) (within_holds _ 128) fun h9 => ?_
  refine firstFailing_cons (by rw [← place h9.1, Bool.not_eq_true]) (place h9.1) fun _ => ?_
  refine firstFailing_cons (upTo_fails _ 1) (upTo_holds _ 1) fun _ => ?_
  refine firstFailing_cons (payload_fails _) (payload_holds _) fun _ => ?_
  rw [firstFailing_eq_find]
  simp only [List.map_cons, List.map_nil, not_upTo, not_within]
  rfl

end Sys2Proof.Machine

/-! PROOFS. Commands: CLOSE, RESET_COUNTS, an unknown command, every command in "DISARMING", and FLUSH (R50 to R52, R113). -/

namespace Sys2Proof.Machine

variable {s : State} {i : LineNo} {lanes : Lanes} {d v : Word} {p q : Part} {w : Nat}

/-! ### A command that is taken -/

theorem noted_setShadow_command (p : Part) (i : LineNo) (v : Word) : Noted i p (p.setShadow i 1 v) :=
  noted_setShadow p i 1 v (by decide) (by decide)

/-- A command taken: the line `l` of its decision, which still has the old shadow, becomes the line commanded. -/
theorem takes_commanded {c : Instr} {p' : Part} {o : RequestOutcome} {l : Line} (ws : List Nat) (ok : Word → Bool)
    (hc : exec c s = s.lcbHost i 1 lanes d ok) (hr : Reaches s i) (hv : s.part.merged i 1 lanes d = v) (hok : ok v = true)
    (h : (s.part.setShadow i 1 v).decideCommand i v = (q, o)) (n : Noted i p' q) (hw : ∀ w ∈ ws, w = 34 ∨ q.Pends i w)
    (hl : q.line i = l.withWord 1 v) : Takes c s i 1 lanes d p' (l.commanded v o) ws :=
  takes_command ws ok hc hr hv hok h n hw (by rw [hl]; rfl)

/-- In "DISARMING" every command is refused busy, whatever its value. -/
theorem decideCommand_disarming (h : p.state = .disarming) (v : Word) : p.decideCommand i v = (p, .refusedBusy) := if_pos h

/-- In "ARMED" a value other than 1 to 6 is unknown. -/
theorem decideCommand_unknown (h : p.state = .armed) (hv : v = 0 ∨ 6 < v.toNat) :
    (p.setShadow i 1 v).decideCommand i v = (p.setShadow i 1 v, .unknown) := by
  have code : ∀ k : Nat, 0 < k → k ≤ 6 → v ≠ BitVec.ofNat 16 k := by
    rintro k h0 hk rfl
    rw [BitVec.toNat_ofNat] at hv
    rcases hv with hv | hv
    · have zero : k % 2 ^ 16 = 0 := (BitVec.toNat_ofNat k 16).symm.trans (congrArg BitVec.toNat hv)
      omega
    · omega
  have h1 : v ≠ 1 := code 1 (by omega) (by omega)
  have h2 : v ≠ 2 := code 2 (by omega) (by omega)
  have h3 : v ≠ 3 := code 3 (by omega) (by omega)
  have h4 : v ≠ 4 := code 4 (by omega) (by omega)
  have h5 : v ≠ 5 := code 5 (by omega) (by omega)
  have h6 : v ≠ 6 := code 6 (by omega) (by omega)
  rw [decideCommand_armed p h, if_neg h1, if_neg h2, if_neg h3, if_neg h4, if_neg h5, if_neg h6]

/-! ### CLOSE and RESET_COUNTS (R51) -/

theorem closeOpen_withWord (l : Line) (w : Fin 22) (v : Word) : (l.withWord w v).closeOpen = l.closeOpen.withWord w v := by
  rw [Line.withWord, Line.withWord, closeOpen_withShadow, closeOpen_shadow]

/-- The line with its seven counters at 0. -/
def Line.uncounted (l : Line) : Line := { l with counters := Vector.replicate 7 0 }

theorem noted_resetCounts (p : Part) :
    Noted i p ((p.onLine i Line.uncounted).queueLcbs i [46, 47, 48, 49, 50, 51, 52]) := by
  refine Noting.still (Noting.queueLcbs ((Noting.start i [] p).onLine _ [46, 47, 48, 49, 50, 51, 52] fun w hw _ => ?_)) ?_
  · apply reportValue_congr <;> intros <;> first | rfl | (simp at hw; omega)
  · rw [line_queueLcbs, line_onLine]
    rfl

/-- Settles O30. The commands of every line state by their value; in "DISARMING" the rows differ in the values that they let pass
only. -/
theorem commandsOfEveryState : Obligations.CommandsOfEveryState := by
  refine ⟨fun s i lanes d v hr ha hv => ⟨fun h => ?close, fun h => ?reset, fun h => ?unknown⟩,
    fun s i lanes d v hr hs hv c hc h => ?disarming⟩
  case close =>
    subst h
    refine takes_commanded [34] (· == 1) rfl hr hv rfl (decideCommand_armed s.part ha 1)
      ((noted_setShadow_command s.part i 1).trans (noted_closeOpen _ i)) (fun _ hw => .inl (List.mem_singleton.1 hw)) ?_
    rw [line_closeOpen, line_setShadow_eq, closeOpen_withWord]
  case reset =>
    subst h
    refine takes_commanded (l := (s.part.line i).uncounted) _ (· == 6) rfl hr hv rfl (decideCommand_armed s.part ha 6)
      ((noted_setShadow_command s.part i 6).trans (noted_resetCounts _)) (fun w hw => ?_) ?_
    · refine (List.mem_cons.1 hw).imp id fun hw => ?_
      rw [Part.Pends, line_queueLcbs]
      exact mem_queueLcbs _ i _ w hw
    · rw [line_queueLcbs, line_onLine, line_setShadow_eq]
      rfl
  case unknown =>
    exact takes_command_same (fun v => v == 0 || decide (6 < v.toNat)) rfl hr hv (by simpa using h)
      (decideCommand_unknown ha h)
  case disarming =>
    have busy {c : Instr} (ok : Word → Bool) (hc : exec c s = s.lcbHost i 1 lanes d ok) (hok : ok v = true) :
        Takes c s i 1 lanes d s.part ((s.part.line i).commanded v .refusedBusy) [34] :=
      takes_command_same ok hc hr hv hok (decideCommand_disarming (p := s.part.setShadow i 1 v) hs v)
    simp only [List.mem_cons, List.not_mem_nil, or_false] at hc
    rcases hc with rfl | rfl | rfl | rfl | rfl | rfl | rfl
    · exact busy (· == 1) rfl h
    · exact busy (· == 2) rfl h
    · exact busy (· == 3) rfl h
    · exact busy (· == 4) rfl h
    · exact busy (· == 5) rfl h
    · exact busy (· == 6) rfl h
    · exact busy (fun v => v == 0 || decide (6 < v.toNat)) rfl (by simpa using h)

/-! ### FLUSH (R52, R113) -/

theorem commandFlush_eq (p : Part) (i : LineNo) (v : Word) : (p.setShadow i 1 v).commandFlush i =
    if (p.line i).state = .off then (p.setShadow i 1 v, .refusedState)
    else if (p.line i).walk ≠ none then (p.setShadow i 1 v, .refusedBusy)
    else ((p.setShadow i 1 v).flushRing i, .done) := by
  rw [Part.commandFlush, state_setShadow, line_setShadow_eq]
  simp only [Line.resuming, Option.isSome_iff_ne_none]
  rfl

theorem decide_flush (h : p.state = .armed) :
    (p.setShadow i 1 2).decideCommand i 2 = (p.setShadow i 1 2).commandFlush i := decideCommand_armed p h 2

/-- The line with its ring flushed, and a job parked on its lease unparked (R113, R129). -/
def Line.flushed (l : Line) (r : Ring) : Line := { l with ring := .present r.flush }.unparked

theorem flushed_withWord (l : Line) (w : Fin 22) (v : Word) (r : Ring) :
    (l.withWord w v).flushed r = (l.flushed r).withWord w v := by
  have e := unparked_withShadow { l with ring := .present r.flush } (l.shadow.set w v)
  have sh := unparked_shadow { l with ring := .present r.flush }
  exact e.trans (by rw [Line.withWord, Line.flushed, sh])

theorem flushRing_eq {r : Ring} (h : (p.line i).ring = .present r) : p.flushRing i =
    ((((p.setRing i r.flush).unpark i).overtake i).queueLcbs i [36, 38, 39, 41, 42]).noteLine i p := by
  rw [Part.flushRing, Line.ring?, h]

theorem line_flushRing {r : Ring} (h : (p.line i).ring = .present r) : (p.flushRing i).line i = (p.line i).flushed r := by
  rw [flushRing_eq h, line_noteLine, line_queueLcbs, overtake_readOvertaken, line_readOvertaken, line_unpark, line_setRing]
  rfl

theorem pends_flushRing {r : Ring} (h : (p.line i).ring = .present r) (hw : w ∈ [36, 38, 39, 41, 42]) :
    (p.flushRing i).Pends i w := by
  rw [flushRing_eq h, Part.Pends, line_noteLine, line_queueLcbs, mem_noteLine_lcb]
  exact mem_queueLcbs _ i _ w hw

/-- A shadow word that no report shows changes nothing beside the overtaken read either. -/
theorem noted_setShadow_readOvertaken (p : Part) (v : Word) :
    Noted i (p.readOvertaken i) ((p.setShadow i 1 v).readOvertaken i) := by
  have n : Noting i [] p (p.setShadow i 1 v) :=
    (Noting.start i [] p).onLine _ [] fun k _ _ => setShadow_report _ 1 v (by decide) k
  refine Noting.still n.readOvertaken ?_
  rw [line_readOvertaken, line_readOvertaken, line_setShadow]
  exact setShadow_summary _ 1 v (by decide) (by decide)

/-- Settles O31, by the state of the line and its walk. -/
theorem flush : Obligations.Flush := by
  intro s i lanes d l hr ha hv hl
  subst hl
  have e := commandFlush_eq s.part i 2
  have dec := decide_flush (i := i) ha
  refine ⟨fun h => ?off, fun h hk => ?busy, fun r h hk hring => ?done⟩
  case off => exact takes_command_same (· == 2) rfl hr hv rfl (dec.trans (by rw [e, if_pos h]))
  case busy => exact takes_command_same (· == 2) rfl hr hv rfl (dec.trans (by rw [e, if_neg h, if_pos hk]))
  case done =>
    rw [if_neg h, if_neg (not_not_intro hk)] at e
    have hring' : ((s.part.setShadow i 1 2).line i).ring = .present r := by rw [line_setShadow]; exact hring
    refine takes_commanded (l := (s.part.line i).flushed r) _ (· == 2) rfl hr hv rfl (dec.trans e)
      ((noted_setShadow_readOvertaken s.part 2).trans (noted_flushRing _ r hring')) (fun w hw => ?_) ?_
    · exact (List.mem_cons.1 hw).imp id fun hw => pends_flushRing hring' hw
    · rw [line_flushRing hring', line_setShadow_eq, flushed_withWord]

end Sys2Proof.Machine

/-! PROOFS. PROBE and PROBE_APPLY, and DISCARD_TX (R50, R53, R66, R150, R157). -/

namespace Sys2Proof.Machine

variable {s : State} {i : LineNo} {lanes : Lanes} {d v : Word} {p q : Part} {w : Nat}

/-! ### PROBE and PROBE_APPLY (R53, R157) -/

theorem commandProbe_eq (p : Part) (i : LineNo) (v : Word) (apply : Bool) : (p.setShadow i 1 v).commandProbe i apply =
    if (p.line i).state = .listen then
      if (p.line i).probe ≠ none ∨ (p.line i).walk ≠ none then (p.setShadow i 1 v, .refusedBusy)
      else ((p.setShadow i 1 v).startProbe i apply, .accepted)
    else (p.setShadow i 1 v, .refusedState) := by
  rw [Part.commandProbe, state_setShadow, line_setShadow_eq]
  simp only [Line.resuming, Line.probing, Bool.or_eq_true, Option.isSome_iff_ne_none]
  rfl

/-- The line with a probe begun at the moment `now`, "PROBE_READY" clear (R53, R157). -/
def Line.probed (l : Line) (apply : Bool) (now : Moment) : Line :=
  { l with probe := some ⟨apply, now, 0, none, none⟩, flags := l.flags &&& ~~~4 }

theorem line_startProbe (p : Part) (apply : Bool) : (p.startProbe i apply).line i = (p.line i).probed apply p.now := by
  rw [Part.startProbe, line_queueLcb, line_unlatch, line_queueLcb, line_onLine]
  rfl

theorem pends_startProbe (p : Part) (apply : Bool) (hw : w = 32 ∨ w = 35) : (p.startProbe i apply).Pends i w := by
  rw [Part.startProbe]
  rcases hw with rfl | rfl
  · refine (noted_queueLcb _ i 35).keeps_plain (by omega) (by omega) ?_
    exact (noted_unlatch _ i .probeReady).keeps_plain (by omega) (by omega) (mem_queueLcb_self _ _)
  · exact mem_queueLcb_self _ _

/-- A row of PROBE or PROBE_APPLY whose value reaches the probe command, by the state of the line, its probe and its walk. -/
theorem takes_probe {c : Instr} {apply : Bool} (ok : Word → Bool) (hc : exec c s = s.lcbHost i 1 lanes d ok)
    (hr : Reaches s i) (hv : s.part.merged i 1 lanes d = v) (hok : ok v = true)
    (dec : (s.part.setShadow i 1 v).decideCommand i v = (s.part.setShadow i 1 v).commandProbe i apply) :
    ((s.part.line i).state ≠ .listen → Takes c s i 1 lanes d s.part ((s.part.line i).commanded v .refusedState) [34]) ∧
      ((s.part.line i).state = .listen → (s.part.line i).probe ≠ none ∨ (s.part.line i).walk ≠ none →
        Takes c s i 1 lanes d s.part ((s.part.line i).commanded v .refusedBusy) [34]) ∧
      ((s.part.line i).state = .listen → (s.part.line i).probe = none → (s.part.line i).walk = none →
        Takes c s i 1 lanes d s.part (((s.part.line i).probed apply s.part.now).commanded v .accepted) [32, 34, 35]) := by
  have e := commandProbe_eq s.part i v apply
  refine ⟨fun h => ?state, fun h hb => ?busy, fun h hp hk => ?accepted⟩
  case state => exact takes_command_same ok hc hr hv hok (dec.trans (by rw [e, if_neg h]))
  case busy => exact takes_command_same ok hc hr hv hok (dec.trans (by rw [e, if_pos h, if_pos hb]))
  case accepted =>
    rw [if_pos h, if_neg (by simp [hp, hk])] at e
    refine takes_commanded _ ok hc hr hv hok (dec.trans e)
      ((noted_setShadow_command s.part i v).trans (noted_startProbe _ i apply)) (fun w hw => ?_) ?_
    · simp only [List.mem_cons, List.not_mem_nil, or_false] at hw
      rcases (by omega : w = 34 ∨ w = 32 ∨ w = 35) with h | h
      · exact .inl h
      · exact .inr (pends_startProbe _ apply h)
    · rw [line_startProbe, line_setShadow_eq]
      rfl

/-- Settles O32: the two rows differ in the value and the mode of the probe. -/
theorem probeCommands : Obligations.ProbeCommands := by
  intro s i lanes d v l hr ha hv hl c hc hcv
  subst hl
  simp only [List.mem_cons, List.not_mem_nil, or_false] at hc
  rcases hc with rfl | rfl
  · subst hcv
    exact takes_probe (· == 3) rfl hr hv rfl (decideCommand_armed s.part ha 3)
  · subst hcv
    exact takes_probe (· == 4) rfl hr hv rfl (decideCommand_armed s.part ha 4)

/-! ### DISCARD_TX (R53, R66, R150) -/

theorem dropQueue_withWord (l : Line) (w : Fin 22) (v : Word) (k : Nat) :
    (l.withWord w v).dropQueue k = (l.dropQueue k).withWord w v := rfl

theorem state_withWord (l : Line) (w : Fin 22) (v : Word) : (l.withWord w v).state = l.state := rfl

theorem queue_withWord (l : Line) (w : Fin 22) (v : Word) : (l.withWord w v).queue = l.queue := rfl

theorem commandDiscard_eq (p : Part) (i : LineNo) : p.commandDiscard i =
    if (p.line i).state.quiesced = true then
      (if ((p.discardQueue i).line i).state = .drain ∧ ((p.discardQueue i).line i).queue = [] then
        (p.discardQueue i).enterRelease i .listen .request else p.discardQueue i, .done)
    else (p, .refusedState) := rfl

/-- Settles O33, by the state of the line and, in "DRAIN", by what the discard leaves to send. -/
theorem discardTx : Obligations.DiscardTx := by
  intro s i lanes d l hr ha hv hl
  subst hl
  generalize hp : s.part.setShadow i 1 5 = p
  have dec : p.decideCommand i 5 = p.commandDiscard i := hp ▸ decideCommand_armed s.part ha 5
  have free : p.heldFor i = none := hp ▸ heldFor_of_reaches hr
  have lineNow : p.line i = (s.part.line i).withWord 1 5 := hp ▸ line_setShadow_eq _ _ _
  have line : (p.discardQueue i).line i = ((s.part.line i).dropQueue 0).withWord 1 5 := by
    rw [line_discardQueue, heldCount_free free, lineNow, dropQueue_withWord]
  have e : p.commandDiscard i =
      if (s.part.line i).state.quiesced = true then
        (if (s.part.line i).state = .drain ∧ ((s.part.line i).dropQueue 0).queue = [] then
          (p.discardQueue i).enterRelease i .listen .request else p.discardQueue i, .done)
      else (p, .refusedState) := by
    rw [commandDiscard_eq, line, lineNow, state_withWord, state_withWord, queue_withWord, dropQueue_state]
  have n : Noted i s.part (p.discardQueue i) :=
    (hp ▸ noted_setShadow_command s.part i 5 : Noted i s.part p).trans (noted_discardQueue_free free)
  have dropped : ∀ w ∈ (s.part.line i).dropReports 0, (p.discardQueue i).Pends i w := fun w hw =>
    pends_dropReports n (by rw [line]; exact report_shadow1 _ 5 50) hw
  refine ⟨fun h => ?refused, fun h => ?done, fun h hq => ?release⟩
  case refused =>
    rw [if_neg (by rw [quiesced_iff]; rcases h with h | h | h <;> simp [h])] at e
    exact takes_command_same (· == 5) rfl hr hv rfl (by rw [hp]; exact dec.trans e)
  case done =>
    rw [if_pos ((quiesced_iff _).2 (h.imp_right (.imp_right And.left))), if_neg ?_] at e
    · refine takes_commanded _ (· == 5) rfl hr hv rfl (hp ▸ dec.trans e) n (fun w hw => ?_) line
      exact (List.mem_cons.1 hw).imp id (dropped w)
    · rintro ⟨hs, hq⟩
      rcases h with h | h | ⟨-, h⟩
      · exact absurd (h.symm.trans hs) nofun
      · exact absurd (h.symm.trans hs) nofun
      · exact h hq
  case release =>
    rw [if_pos ((quiesced_iff _).2 (.inr (.inr h))), if_pos ⟨h, hq⟩] at e
    have free' : (p.discardQueue i).heldFor i = none := (heldFor_congr n.step.held i).trans (heldFor_of_reaches hr)
    have n' := noted_enterRelease_free free' .listen .request
    refine takes_commanded _ (· == 5) rfl hr hv rfl (hp ▸ dec.trans e) (n.trans n') (fun w hw => ?_) ?_
    · rcases List.mem_append.1 hw with hw | hw
      · simp only [List.mem_cons, List.not_mem_nil, or_false] at hw
        rcases hw with rfl | rfl
        · exact .inr (mem_enterRelease _ i _ _)
        · exact .inl rfl
      · obtain ⟨h50, -⟩ := mem_dropReports hw
        exact .inr (n'.keeps_plain (by omega) (by omega) (dropped w hw))
    · rw [line_enterRelease, heldCount_free free', n.step.now, line, released_withWord _ _ (by decide)]

end Sys2Proof.Machine

/-! PROOFS. The frame as a word gives it, as it is sent and as it is received (R41, R81, R82, R140, R153). -/

namespace Sys2Proof.Machine

/-! ### The format of a frame word (R41) -/

/-- The code of a parity in a frame word. -/
def Parity.code : Parity → Nat
  | .none => 0
  | .even => 1
  | .odd => 2

/-- A frame word of known fields gives the format of those fields. -/
theorem ofWord_of_fields {v : Word} {b n : Nat} (p : Parity) (hb : b = 7 ∨ b = 8) (hn : n = 1 ∨ n = 2)
    (hv : v.toNat = 256 * n + 16 * p.code + b) : FrameFormat.ofWord v = ⟨b, p, n⟩ := by
  have word : v = BitVec.ofNat 16 (256 * n + 16 * p.code + b) := by rw [← hv, BitVec.ofNat_toNat, BitVec.setWidth_eq]
  subst word
  rcases hb with rfl | rfl <;> rcases hn with rfl | rfl <;> cases p <;> rfl

theorem bits_eq (f : FrameFormat) : f.bits = 1 + f.dataBits + (if f.parity = .none then 0 else 1) + f.stopBits := by
  show 1 + (f.dataBits + f.parityBits + f.stopBits) = _
  rw [FrameFormat.parityBits]
  omega

/-! ### The value of a frame (R82) -/

/-- The number that bits spell, least significant first. -/
def numberOf (bits : List Bool) : Nat := bits.foldr (fun b n => b.toNat + 2 * n) 0

theorem testBit_numberOf (bits : List Bool) (j : Nat) : (numberOf bits).testBit j = (bits[j]? == some true) := by
  induction bits generalizing j with
  | nil => exact Nat.zero_testBit j
  | cons b bits ih =>
    have e : numberOf (b :: bits) = b.toNat + 2 * numberOf bits := rfl
    have hb := Bool.toNat_lt b
    cases j with
    | zero =>
      rw [Nat.testBit_zero, e, Nat.add_mul_mod_self_left]
      cases b <;> rfl
    | succ j =>
      have half : numberOf (b :: bits) / 2 = numberOf bits := by omega
      rw [Nat.testBit_succ, half, ih, List.getElem?_cons_succ]

theorem byteOfBits_bit (bits : List Bool) {j : Nat} (h : j < 8) :
    (byteOfBits bits).getLsbD j = (bits[j]? == some true) := by
  rw [show byteOfBits bits = BitVec.ofNat 8 (numberOf bits) from rfl, BitVec.getLsbD_ofNat, testBit_numberOf,
    decide_eq_true h, Bool.true_and]

/-- The value of a received frame has bit `j` set where data bit `j` was sampled at mark. -/
theorem deframe_value_bit (f : FrameFormat) (samples : List Level) {j : Nat} (h : j < 8) :
    (deframe f samples).value.getLsbD j = decide (j < f.dataBits ∧ samples[j]? = some .mark) := by
  show (byteOfBits ((samples.take f.dataBits).map Level.bit)).getLsbD j = _
  rw [byteOfBits_bit _ h, List.getElem?_map, List.getElem?_take]
  by_cases hj : j < f.dataBits
  · rcases samples[j]? with _ | _ | _ <;> simp [hj, Level.bit]
  · simp [hj]

/-! ### The error mark (R82) -/

theorem odd_succ (n : Nat) : decide ((n + 1) % 2 = 1) = !decide (n % 2 = 1) := by
  rw [← decide_not, decide_eq_decide]
  omega

/-- The parity of bits is that of the number of them that are set. -/
theorem foldl_xor (bits : List Bool) (b : Bool) : bits.foldl xor b = (b ^^ decide (bits.count true % 2 = 1)) := by
  induction bits generalizing b with
  | nil => simp
  | cons c bits ih =>
    rw [List.foldl_cons, ih, List.count_cons]
    cases c <;> simp [odd_succ]

theorem count_bits (ls : List Level) : (ls.map Level.bit).count true = ls.count .mark := by
  induction ls with
  | nil => rfl
  | cons l ls ih => cases l <;> simp [ih, Level.bit]

/-- The parity bit of levels, by the number of them at mark. -/
theorem parityBitOf_levels (p : Parity) (ls : List Level) : parityBitOf p (ls.map Level.bit) =
    if p = .odd then decide (ls.count .mark % 2 = 0) else decide (ls.count .mark % 2 = 1) := by
  have xors : (ls.map Level.bit).foldl xor false = decide (ls.count .mark % 2 = 1) := by
    rw [foldl_xor, count_bits, Bool.false_xor]
  cases p with
  | odd =>
    rw [if_pos rfl, parityBitOf, xors, ← decide_not, decide_eq_decide]
    omega
  | none => exact xors
  | even => exact xors

/-- A bit disagrees with the parity bit of the levels before it where the number of levels at mark, itself included, has the wrong
parity. -/
theorem parity_fails (p : Parity) (ls : List Level) (x : Level) : (x.bit != parityBitOf p (ls.map Level.bit)) = true ↔
    (ls ++ [x]).count .mark % 2 = if p = .odd then 0 else 1 := by
  rw [parityBitOf_levels, List.count_append, bne_iff_ne]
  cases x <;> by_cases hp : p = .odd <;> simp [Level.bit, hp] <;> omega

/-- A stop bit was sampled at space. -/
theorem stops_fail (samples : List Level) (n : Nat) :
    (samples.drop n).contains .space = true ↔ ∃ j, n ≤ j ∧ samples[j]? = some .space := by
  simp only [List.contains_iff_mem, List.mem_iff_getElem?, List.getElem?_drop]
  constructor
  · rintro ⟨k, hk⟩
    exact ⟨n + k, Nat.le_add_right n k, hk⟩
  · rintro ⟨j, hj, h⟩
    exact ⟨j - n, by rwa [Nat.add_sub_cancel' hj]⟩

/-- The parity levels of a complete frame: none, or the one after the data bits. -/
theorem deframe_error {f : FrameFormat} {samples : List Level}
    (h : samples.length = f.dataBits + (if f.parity = .none then 0 else 1) + f.stopBits) :
    (deframe f samples).error = true ↔
      f.parity = .even ∧ (samples.take (f.dataBits + 1)).count .mark % 2 = 1 ∨
        f.parity = .odd ∧ (samples.take (f.dataBits + 1)).count .mark % 2 = 0 ∨
        ∃ j, f.dataBits + (if f.parity = .none then 0 else 1) ≤ j ∧ samples[j]? = some .space := by
  have stops := stops_fail samples (f.dataBits + if f.parity = .none then 0 else 1)
  have e : (deframe f samples).error =
      (((samples.drop f.dataBits).take f.parityBits).any
          (fun l => l.bit != parityBitOf f.parity ((samples.take f.dataBits).map Level.bit)) ||
        (samples.drop (f.dataBits + if f.parity = .none then 0 else 1)).contains .space) := rfl
  rw [e, Bool.or_eq_true, stops, FrameFormat.parityBits]
  by_cases hp : f.parity = .none
  · simp [hp]
  · rw [if_neg hp] at h ⊢
    have hd : f.dataBits < samples.length := by omega
    have one : (samples.drop f.dataBits).take 1 = [samples[f.dataBits]] := by
      rw [List.drop_eq_getElem_cons hd, List.take_succ_cons, List.take_zero]
    have fails := parity_fails f.parity (samples.take f.dataBits) samples[f.dataBits]
    rw [← List.take_succ_eq_append_getElem hd] at fails
    rw [one, List.any_cons, List.any_nil, Bool.or_false, fails]
    cases hq : f.parity with
    | none => exact absurd hq hp
    | even => simp
    | odd => simp

/-! ### A frame as it is sent is received as its value (R140) -/

theorem level_bit (b : Bool) : (levelOf b).bit = b := by cases b <;> rfl

theorem map_level_bit (bits : List Bool) : (bits.map levelOf).map Level.bit = bits := by
  rw [List.map_map, show Level.bit ∘ levelOf = id from funext level_bit, List.map_id]

theorem dataBitsOf_length (n : Nat) (v : Byte) : (dataBitsOf n v).length = n := by
  rw [dataBitsOf, List.length_map, List.length_range]

/-- The levels of a frame after its start bit, as data, parity and stop bits. -/
theorem frameLevels_eq (f : FrameFormat) (v : Byte) : frameLevels f v =
    .space :: ((dataBitsOf f.dataBits v).map levelOf ++
      ((if f.parity = .none then [] else [levelOf (parityBitOf f.parity (dataBitsOf f.dataBits v))]) ++
        List.replicate f.stopBits .mark)) := by
  rw [← List.append_assoc]
  rfl

theorem parityLevels_length (f : FrameFormat) (x : Level) :
    (if f.parity = .none then [] else [x]).length = if f.parity = .none then 0 else 1 := by
  split <;> rfl

theorem frameLevels_length (f : FrameFormat) (v : Byte) :
    (frameLevels f v).length = 1 + f.dataBits + (if f.parity = .none then 0 else 1) + f.stopBits := by
  rw [frameLevels_eq, List.length_cons, List.length_append, List.length_append, List.length_map, dataBitsOf_length,
    parityLevels_length, List.length_replicate]
  omega

theorem byteOfBits_dataBitsOf (n : Nat) (v : Byte) {j : Nat} (h : j < 8) :
    (byteOfBits (dataBitsOf n v)).getLsbD j = (decide (j < n) && v.getLsbD j) := by
  rw [byteOfBits_bit _ h, dataBitsOf, List.getElem?_map]
  by_cases hj : j < n
  · rw [List.getElem?_range hj]
    simp [hj]
  · rw [List.getElem?_eq_none (by rw [List.length_range]; omega)]
    simp [hj]

/-- The low 7 or 8 bits of a byte. -/
theorem byteOfBits_low {n : Nat} (hn : n = 7 ∨ n = 8) (v : Byte) :
    byteOfBits (dataBitsOf n v) = if n = 7 then v &&& 0x7F else v := by
  apply BitVec.eq_of_getLsbD_eq
  intro j hj
  rw [byteOfBits_dataBitsOf n v hj]
  rcases hn with rfl | rfl
  · rw [if_pos rfl, BitVec.getLsbD_and, Bool.and_comm]
    congr 1
    interval_cases j <;> rfl
  · simp [hj]

/-- What a frame holds of levels that come as data, parity and stop bits. -/
theorem deframe_append {f : FrameFormat} {data parity stops : List Level} (hd : data.length = f.dataBits)
    (hp : parity.length = f.parityBits) : deframe f (data ++ (parity ++ stops)) =
      ⟨byteOfBits (data.map Level.bit),
        parity.any (fun l => l.bit != parityBitOf f.parity (data.map Level.bit)) || stops.contains .space⟩ := by
  have ends : (data ++ (parity ++ stops)).drop (f.dataBits + f.parityBits) = stops := by
    rw [← List.append_assoc, List.drop_left' (by rw [List.length_append, hd, hp])]
  simp only [deframe, ends, List.take_left' hd, List.drop_left' hd, List.take_left' hp]

/-- A frame as it is sent is received as the bits of its value, without error. -/
theorem deframe_frameLevels (f : FrameFormat) (v : Byte) :
    deframe f (frameLevels f v).tail = ⟨byteOfBits (dataBitsOf f.dataBits v), false⟩ := by
  have stops : (List.replicate f.stopBits Level.mark).contains .space = false := by simp
  rw [frameLevels_eq, List.tail_cons, deframe_append (by rw [List.length_map, dataBitsOf_length]) (parityLevels_length f _),
    map_level_bit, stops, Bool.or_false]
  split
  · rfl
  · rw [List.any_cons, List.any_nil, level_bit, bne_self_eq_false, Bool.or_false]

/-- Settles O51: the fields of a frame word, the samples of a frame, and the levels of a frame as it is sent. -/
theorem framesSentAndReceived : Obligations.FramesSentAndReceived := by
  constructor
  · refine fun l => ⟨rfl, fun b n p hb hn hv => ?_⟩
    have format : l.frame = ⟨b, p, n⟩ := ofWord_of_fields p hb hn (hv.trans (by cases p <;> rfl))
    refine ⟨format, ?_⟩
    rw [Line.frameTime, bits_eq, format]
  · intro f hd hs parityBits
    refine ⟨fun samples h => ⟨fun j hj => deframe_value_bit f samples hj, deframe_error h⟩, fun v =>
      ⟨rfl, frameLevels_length f v, ?_⟩⟩
    rw [deframe_frameLevels, byteOfBits_low hd]

end Sys2Proof.Machine

/-! PROOFS. Settings writes of words 3 to 21, and the tests of the range check (R41 to R46, R98, R156, R160, R164). -/

namespace Sys2Proof.Machine

variable {s : State} {i : LineNo} {lanes : Lanes} {d v : Word} {p : Part} {w : Fin 22}

/-! ### The tests of the range check (R44) -/

/-- Two bits of a word, as a number. -/
theorem and_three_toNat (v : Word) (k : Nat) : ((v >>> k) &&& 3).toNat = v.toNat / 2 ^ k % 4 := by
  rw [BitVec.toNat_and, BitVec.toNat_ushiftRight, Nat.shiftRight_eq_div_pow]
  exact Nat.and_two_pow_sub_one_eq_mod _ 2

theorem and_fifteen_toNat (v : Word) : (v &&& 0xF).toNat = v.toNat % 16 := by
  rw [BitVec.toNat_and]
  exact Nat.and_two_pow_sub_one_eq_mod _ 4

/-- A word with 0 outside the fields of a frame word has 0 in bits 6 and 7, and above bit 9. -/
theorem outside_fields {v : Word} (h : v &&& 0xFCC0 = 0) : v.toNat / 64 % 4 = 0 ∧ v.toNat < 1024 := by
  have low : (v >>> 6) &&& 3 = 0 := by
    have e := congrArg (fun x : Word => (x >>> 6) &&& 3) h
    simp only [BitVec.ushiftRight_and_distrib, BitVec.and_assoc] at e
    exact e
  have high : (v >>> 10) &&& 0x3F = 0 := by
    have e := congrArg (fun x : Word => (x >>> 10) &&& 0x3F) h
    simp only [BitVec.ushiftRight_and_distrib, BitVec.and_assoc] at e
    exact e
  have hlow := congrArg BitVec.toNat low
  have hhigh := congrArg BitVec.toNat high
  rw [and_three_toNat] at hlow
  rw [BitVec.toNat_and, BitVec.toNat_ushiftRight, Nat.shiftRight_eq_div_pow,
    show (0x3F : Word).toNat = 2 ^ 6 - 1 from rfl, Nat.and_two_pow_sub_one_eq_mod] at hhigh
  have hv := v.isLt
  have z : (0 : Word).toNat = 0 := rfl
  omega

/-- The frame words that hold only listed codes are the twelve of R41. -/
theorem frameValid_iff (v : Word) :
    frameValid v = true ↔ ∃ b ∈ [7, 8], ∃ p ∈ [0, 1, 2], ∃ n ∈ [1, 2], v.toNat = 256 * n + 16 * p + b := by
  constructor
  · intro h
    simp only [frameValid, Bool.and_eq_true, Bool.or_eq_true, beq_iff_eq, bne_iff_ne] at h
    obtain ⟨⟨⟨h0, hb⟩, hp⟩, hn⟩ := h
    have out := outside_fields h0
    have eb := and_fifteen_toNat v
    have ep := and_three_toNat v 4
    have en := and_three_toNat v 8
    refine ⟨(v &&& 0xF).toNat, ?_, ((v >>> 4) &&& 3).toNat, ?_, ((v >>> 8) &&& 3).toNat, ?_, by omega⟩
    · rcases hb with hb | hb <;> rw [hb] <;> decide
    · have ne : ((v >>> 4) &&& 3).toNat ≠ 3 := fun e => hp (BitVec.eq_of_toNat_eq e)
      simp only [List.mem_cons, List.not_mem_nil, or_false]
      omega
    · rcases hn with hn | hn <;> rw [hn] <;> decide
  · rintro ⟨b, hb, p, hp, n, hn, e⟩
    have word : v = BitVec.ofNat 16 (256 * n + 16 * p + b) := by rw [← e, BitVec.ofNat_toNat, BitVec.setWidth_eq]
    subst word
    simp only [List.mem_cons, List.not_mem_nil, or_false] at hb hp hn
    rcases hb with rfl | rfl <;> rcases hp with rfl | rfl | rfl <;> rcases hn with rfl | rfl <;> decide

/-- The tests of the other fields: an upper bound, and above 0 where the field counts from 1. -/
theorem rangeTests (v : Word) :
    settingInRange 3 v = frameValid v ∧
      (settingInRange 4 v = true ↔ v ≠ 0 ∧ v.toNat ≤ 4095) ∧ (settingInRange 5 v = true ↔ v.toNat ≤ 15) ∧
      (settingInRange 6 v = true ↔ v.toNat ≤ 2) ∧
      (∀ w ∈ [(12 : Fin 22), 15, 16, 17, 18], settingInRange w v = true ↔ v.toNat ≤ 255) ∧
      (settingInRange 13 v = true ↔ v.toNat ≤ 2) ∧ (settingInRange 14 v = true ↔ v.toNat ≤ 7) ∧
      (∀ w ∈ [(19 : Fin 22), 20], settingInRange w v = true ↔ v ≠ 0 ∧ v.toNat ≤ 255) ∧
      (settingInRange 21 v = true ↔ v.toNat ≤ 31) := by
  have counted (n : Nat) : (v != 0 && decide (v.toNat ≤ n)) = true ↔ v ≠ 0 ∧ v.toNat ≤ n := by
    rw [Bool.and_eq_true, bne_iff_ne, decide_eq_true_iff]
  refine ⟨rfl, counted 4095, decide_eq_true_iff, decide_eq_true_iff, fun w hw => ?_, decide_eq_true_iff, decide_eq_true_iff,
    fun w hw => ?_, decide_eq_true_iff⟩
  · simp only [List.mem_cons, List.not_mem_nil, or_false] at hw
    rcases hw with rfl | rfl | rfl | rfl | rfl <;> exact decide_eq_true_iff
  · simp only [List.mem_cons, List.not_mem_nil, or_false] at hw
    rcases hw with rfl | rfl <;> exact counted 255

/-! ### The lock and the test (R42, R43) -/

/-- The fields that the state of the line locks (R41 to R43). -/
def Part.Locked (p : Part) (i : LineNo) (w : Fin 22) : Prop :=
  3 ≤ w.val ∧ w.val ≤ 5 ∧ (p.line i).state ≠ .off ∧ (p.line i).state ≠ .listen ∨
    7 ≤ w.val ∧ w.val ≤ 10 ∧ ((p.line i).state ≠ .off ∨ p.isProtected i = true) ∨ w.val = 11 ∧ (p.line i).state ≠ .off

/-- The fields that are tested in the state of the line (R42, R43). -/
def Part.Tested (p : Part) (i : LineNo) (w : Fin 22) : Prop := (p.line i).state ≠ .off ∨ w.val = 6 ∨ 12 ≤ w.val

theorem rateWord_iff (w : Fin 22) : (w = 3 ∨ w = 4 ∨ w = 5) ↔ 3 ≤ w.val ∧ w.val ≤ 5 := by
  simp only [Fin.ext_iff]
  show w.val = 3 ∨ w.val = 4 ∨ w.val = 5 ↔ _
  omega

theorem ringWord_iff (w : Fin 22) : (w = 7 ∨ w = 8 ∨ w = 9 ∨ w = 10) ↔ 7 ≤ w.val ∧ w.val ≤ 10 := by
  simp only [Fin.ext_iff]
  show w.val = 7 ∨ w.val = 8 ∨ w.val = 9 ∨ w.val = 10 ↔ _
  omega

theorem payloadWord_iff (w : Fin 22) : w = 11 ↔ w.val = 11 := Fin.ext_iff

theorem writable_iff (p : Part) (i : LineNo) (w : Fin 22) : p.writable i w = true ↔ ¬ p.Locked i w := by
  unfold Part.writable Part.Locked
  simp only [rateWord_iff, ringWord_iff, payloadWord_iff]
  split
  · next h => simp [h, show ¬ 7 ≤ w.val by omega, show w.val ≠ 11 by omega, or_iff_not_imp_left]
  · next h =>
    have notRate : ¬(3 ≤ w.val ∧ w.val ≤ 5 ∧ (p.line i).state ≠ .off ∧ (p.line i).state ≠ .listen) := fun c => h ⟨c.1, c.2.1⟩
    split
    · next h => simp [h, notRate, show w.val ≠ 11 by omega]
    · next h' =>
      have notRing : ¬(7 ≤ w.val ∧ w.val ≤ 10 ∧ ((p.line i).state ≠ .off ∨ p.isProtected i = true)) :=
        fun c => h' ⟨c.1, c.2.1⟩
      split
      · next h => simp [h]
      · next h => simp [h, notRate, notRing]

theorem rangeChecked_iff (p : Part) (i : LineNo) {w : Fin 22} (h : 3 ≤ w.val) : p.rangeChecked i w = true ↔ p.Tested i w := by
  have untested : (w == 3 || w == 4 || w == 5 || w == 7 || w == 8 || w == 9 || w == 10 || w == 11) = true ↔
      ¬(w.val = 6 ∨ 12 ≤ w.val) := by
    simp only [Bool.or_eq_true, beq_iff_eq, Fin.ext_iff]
    show (((((((w.val = 3 ∨ w.val = 4) ∨ w.val = 5) ∨ w.val = 7) ∨ w.val = 8) ∨ w.val = 9) ∨ w.val = 10) ∨ w.val = 11) ↔ _
    omega
  rw [Part.rangeChecked, Part.Tested, Bool.not_eq_true', ← Bool.not_eq_true, Bool.and_eq_true, untested, beq_iff_eq]
  tauto

/-- A settings write is locked, out of range, or taken. -/
theorem settingBlocked_eq (p : Part) (i : LineNo) (w : Fin 22) (v : Word) :
    (p.Locked i w → p.settingBlocked i w v = some .locked) ∧
      (¬ p.Locked i w → p.rangeChecked i w = true → settingInRange w v = false → p.settingBlocked i w v = some .range) ∧
      (¬ p.Locked i w → p.rangeChecked i w = false ∨ settingInRange w v = true → p.settingBlocked i w v = none) := by
  refine ⟨fun h => ?_, fun h ht hv => ?_, fun h ht => ?_⟩
  · rw [Part.settingBlocked, if_pos (by rw [Bool.not_eq_true', ← Bool.not_eq_true, writable_iff, not_not]; exact h)]
  · rw [Part.settingBlocked, if_neg (by rw [(writable_iff p i w).2 h]; exact nofun), if_pos (by rw [ht, hv]; rfl)]
  · rw [Part.settingBlocked, if_neg (by rw [(writable_iff p i w).2 h]; exact nofun), if_neg (by rcases ht with h | h <;> simp [h])]

/-! ### A setting taken (R45, R46, R98, R156, R160, R164) -/

theorem unprobed_setting (l : Line) (k : Fin 22) (now : Moment) (t : Stamp) :
    (l.unprobed now t).setting k = l.setting k := by
  rw [Line.setting, unprobed_shadow]
  rfl

theorem setting_withWord_self (l : Line) (w : Fin 22) (v : Word) : (l.withWord w v).setting w = v.toNat := by
  simp [Line.setting, Line.withWord]

/-- The line whose effective rate is set from the shadow at the moment `now`. -/
def Line.rated (l : Line) (now : Moment) : Line :=
  { l with effDivisor := l.setting 4, effFraction := l.setting 5, generatorStart := now }

/-- The line with a coalesce timer that runs ended (R164). -/
def Line.coalesceEnded (l : Line) : Line :=
  match l.ring with
  | .present r =>
    match r.coalesce with
    | .running _ => { l with ring := .present { r with coalesce := .expired } }
    | _ => l
  | _ => l

theorem coalesceTaken_eq (l : Line) : l.coalesceTaken = if l.setting 16 = 0 then l.coalesceEnded else l := by
  unfold Line.coalesceTaken Line.coalesceEnded
  cases hr : l.ring with
  | absent => rw [ite_self]
  | unknown => rw [ite_self]
  | present r => cases hc : r.coalesce <;> simp only [hc, ite_self]

theorem settled_eq (l : Line) (w : Fin 22) (v : Word) (now : Moment) (t : Stamp) : l.settled w v now t =
    if w = 3 ∧ l.state = .listen then (l.withWord w v).unprobed now t
    else if (w = 4 ∨ w = 5) ∧ l.state = .listen then
      { (l.withWord w v).unprobed now t with
        effDivisor := (l.withWord w v).setting 4, effFraction := (l.withWord w v).setting 5, generatorStart := now }
    else if w = 6 ∧ v = 2 then { l.withWord w v with breakCredit := true }
    else if w = 16 ∧ v = 0 then (l.withWord w v).coalesceEnded
    else if w = 18 ∧ v = 0 then { l.withWord w v with quietTimer := none, quiet := false }
    else l.withWord w v := rfl

/-- In "LISTEN" a frame word or a rate abandons a probe, and a rate sets the effective rate. -/
theorem settled_frame (l : Line) (v : Word) (now : Moment) (t : Stamp) : l.settled 3 v now t =
    if l.state = .listen then (l.withWord 3 v).unprobed now t else l.withWord 3 v := by
  rw [settled_eq]
  simp

theorem settled_rate (l : Line) {w : Fin 22} (hw : w = 4 ∨ w = 5) (v : Word) (now : Moment) (t : Stamp) : l.settled w v now t =
    if l.state = .listen then ((l.withWord w v).unprobed now t).rated now else l.withWord w v := by
  rw [settled_eq, Line.rated, unprobed_setting, unprobed_setting]
  rcases hw with rfl | rfl <;> simp

theorem settled_policy (l : Line) (v : Word) (now : Moment) (t : Stamp) : l.settled 6 v now t =
    if v = 2 then { l.withWord 6 v with breakCredit := true } else l.withWord 6 v := by
  rw [settled_eq]
  simp

theorem toNat_eq_zero_iff (v : Word) : v.toNat = 0 ↔ v = 0 := BitVec.toNat_inj (y := 0)

/-- A time of 0 ends a coalesce timer that runs, or the quiet count. -/
theorem settled_coalesce (l : Line) (v : Word) (now : Moment) (t : Stamp) :
    l.settled 16 v now t = (l.withWord 16 v).coalesceTaken := by
  rw [settled_eq, coalesceTaken_eq, setting_withWord_self]
  simp [toNat_eq_zero_iff]

theorem settled_quiet (l : Line) (v : Word) (now : Moment) (t : Stamp) :
    l.settled 18 v now t = (l.withWord 18 v).quietTaken := by
  rw [settled_eq, Line.quietTaken, setting_withWord_self]
  simp [toNat_eq_zero_iff]

/-- A setting that has no effect of its own beside the shadow. -/
theorem settled_plain (l : Line) {w : Fin 22} (v : Word) (now : Moment) (t : Stamp) (h : w ≠ 3 ∧ w ≠ 4 ∧ w ≠ 5)
    (h' : w ≠ 6 ∧ w ≠ 16 ∧ w ≠ 18) : l.settled w v now t = l.withWord w v := by
  rw [settled_eq]
  simp [h, h']

theorem line_frameTaken (p : Part) : (p.frameTaken i).line i =
    if (p.line i).state = .listen then (p.line i).unprobed p.now p.counter else p.line i := by
  unfold Part.frameTaken
  split
  · exact line_abandonProbe_unprobed p
  · rfl

theorem line_rateTaken (p : Part) : (p.rateTaken i).line i =
    if (p.line i).state = .listen then ((p.line i).unprobed p.now p.counter).rated p.now else p.line i := by
  unfold Part.rateTaken
  split
  · dsimp only
    rw [line_setRate, line_abandonProbe_unprobed, (lineStep_abandonProbe p i).now]
    rfl
  · rfl

/-- A setting taken leaves the line settled. -/
theorem line_takeSetting (p : Part) (w : Fin 22) (v : Word) :
    (p.takeSetting i w v).line i = (p.line i).settled w v p.now p.counter := by
  have line (w : Fin 22) : (p.setShadow i w v).line i = (p.line i).withWord w v := line_setShadow_eq _ _ _
  by_cases h3 : w = 3
  · subst h3
    rw [show p.takeSetting i 3 v = (p.setShadow i 3 v).frameTaken i from rfl, line_frameTaken, line, settled_frame]
    rfl
  by_cases h45 : w = 4 ∨ w = 5
  · rw [settled_rate _ h45, Part.takeSetting, if_neg h3, if_pos h45, line_rateTaken, line]
    rfl
  rw [not_or] at h45
  obtain ⟨h4, h5⟩ := h45
  by_cases h6 : w = 6
  · subst h6
    rw [show p.takeSetting i 6 v = if v = 2 then (p.setShadow i 6 v).setCredit i true else p.setShadow i 6 v from rfl,
      settled_policy]
    split
    · rw [line_setCredit, line]
    · exact line 6
  by_cases h16 : w = 16
  · subst h16
    rw [show p.takeSetting i 16 v = ((p.setShadow i 16 v).onLine i Line.coalesceTaken).noteDue i p from rfl, line_noteDue,
      line_onLine, line, settled_coalesce]
  by_cases h18 : w = 18
  · subst h18
    rw [show p.takeSetting i 18 v = (p.setShadow i 18 v).onLine i Line.quietTaken from rfl, line_onLine, line, settled_quiet]
  rw [settled_plain _ v _ _ ⟨h3, h4, h5⟩ ⟨h6, h16, h18⟩, Part.takeSetting, if_neg h3, if_neg (not_or.2 ⟨h4, h5⟩), if_neg h6]
  by_cases h15 : w = 15
  · rw [if_pos h15, line_noteDue, line]
  rw [if_neg h15, if_neg h16, if_neg h18]
  split
  · rw [line_noteLine, line]
  · exact line w

/-! ### The words that a setting queues -/

/-- A probe that a setting abandons queues the words of its result. -/
theorem pends_takeSetting_probe (p : Part) (w : Fin 22) (v : Word) (h : 3 ≤ w.val ∧ w.val ≤ 5)
    (hs : (p.line i).state = .listen) (hk : (p.line i).probe ≠ none) {k : Nat} (hw : k ∈ (p.line i).probeReports) :
    (p.takeSetting i w v).Pends i k := by
  have line : (p.setShadow i w v).line i = (p.line i).withWord w v := line_setShadow_eq _ _ _
  have abandoned : ((p.setShadow i w v).abandonProbe i).Pends i k :=
    pends_abandonProbe _ (by rw [line]; exact Option.isSome_iff_ne_none.2 hk) (by rw [line]; exact hw)
  have state : ((p.setShadow i w v).line i).state = .listen := by rw [line]; exact hs
  by_cases h3 : w = 3
  · rw [Part.takeSetting, if_pos h3, Part.frameTaken, if_pos state]
    exact abandoned
  · have h45 : w = 4 ∨ w = 5 := ((rateWord_iff w).2 h).resolve_left h3
    have hk := probeReports_cases hw
    rw [Part.takeSetting, if_neg h3, if_pos h45, Part.rateTaken, if_pos state]
    exact (noted_setRate _ i _ _).keeps_plain (by omega) (by omega) abandoned

/-- A divisor or fraction taken in "LISTEN" queues the effective rate. -/
theorem pends_takeSetting_rate (p : Part) {w : Fin 22} (v : Word) (h : w = 4 ∨ w = 5) (hs : (p.line i).state = .listen)
    {k : Nat} (hw : k = 43 ∨ k = 44) : (p.takeSetting i w v).Pends i k := by
  have state : ((p.setShadow i w v).line i).state = .listen := (state_setShadow p w v).trans hs
  have h3 : w ≠ 3 := by rcases h with rfl | rfl <;> decide
  rw [Part.takeSetting, if_neg h3, if_pos h, Part.rateTaken, if_pos state]
  exact mem_setRate _ _ _ k hw

/-- The words that a setting taken queues. -/
theorem pends_takeSetting (p : Part) (w : Fin 22) (v : Word) : ∀ k ∈
    (if 3 ≤ w.val ∧ w.val ≤ 5 ∧ (p.line i).state = .listen ∧ (p.line i).probe ≠ none then (p.line i).probeReports else []) ++
      (if (w = 4 ∨ w = 5) ∧ (p.line i).state = .listen then [43, 44]
        else if (p.line i).liveConditions ≠ ((p.line i).settled w v p.now p.counter).liveConditions then [36] else []),
    (p.takeSetting i w v).Pends i k := by
  intro k hk
  rcases List.mem_append.1 hk with hk | hk
  · split at hk
    · next h => exact pends_takeSetting_probe p w v ⟨h.1, h.2.1⟩ h.2.2.1 h.2.2.2 hk
    · cases hk
  · split at hk
    · next h => exact pends_takeSetting_rate p v h.1 h.2 (by simpa using hk)
    · split at hk
      · next h =>
        rw [List.mem_singleton.1 hk]
        refine (noted_takeSetting p i w v).pends (by omega) (by omega) ?_
        rw [line_takeSetting]
        exact h.symm
      · cases hk

/-! ### The rows of the settings words -/

/-- Each row of a settings word is a host write to that word. -/
theorem exec_setting {c : Fin 22 × Instr}
    (hc : c ∈ [((3 : Fin 22), Instr.frameWrite i lanes d), (4, .rateDivisorWrite i lanes d), (5, .rateFractionWrite i lanes d),
        (6, .breakPolicyWrite i lanes d), (15, .attentionThresholdWrite i lanes d), (16, .coalesceTimeWrite i lanes d),
        (18, .quietTimeWrite i lanes d), (21, .attentionMaskWrite i lanes d)] ++
      [(7 : Fin 22), 8, 9, 10, 11, 12, 13, 14, 17, 19, 20].map (fun w => (w, .settingsWrite i w lanes d))) :
    3 ≤ c.1.val ∧ exec c.2 s = s.lcbHost i c.1 lanes d anyValue := by
  rcases List.mem_append.1 hc with hc | hc
  · simp only [List.mem_cons, List.not_mem_nil, or_false] at hc
    rcases hc with rfl | rfl | rfl | rfl | rfl | rfl | rfl | rfl <;> exact ⟨of_decide_eq_true rfl, rfl⟩
  · obtain ⟨w, hw, rfl⟩ := List.mem_map.1 hc
    have plain : plainSettingsWord w = true := List.contains_iff_mem.2 hw
    have word : ∀ w ∈ [(7 : Fin 22), 8, 9, 10, 11, 12, 13, 14, 17, 19, 20], 3 ≤ w.val := by decide
    exact ⟨word w hw, if_pos plain⟩

/-- A row that takes a setting leaves the line settled, and queues the words of the change. -/
theorem takes_setting {ins : Instr} (h : exec ins s =
    answers s ((s.part.takeSetting i w v).forward (s.part.lcbWriteTo i w.val lanes d))) :
    Takes ins s i w lanes d s.part ((s.part.line i).settled w v s.part.now s.part.counter)
      ((if 3 ≤ w.val ∧ w.val ≤ 5 ∧ (s.part.line i).state = .listen ∧ (s.part.line i).probe ≠ none then (s.part.line i).probeReports
          else []) ++
        if (w = 4 ∨ w = 5) ∧ (s.part.line i).state = .listen then [43, 44]
        else if (s.part.line i).liveConditions ≠ ((s.part.line i).settled w v s.part.now s.part.counter).liveConditions then [36]
        else []) :=
  ⟨s.part.takeSetting i w v, h, ⟨(noted_takeSetting s.part i w v).step, line_takeSetting s.part w v,
    fun k hk => line_takeSetting s.part w v ▸ pends_takeSetting s.part w v k hk⟩, (noted_takeSetting s.part i w v).reported⟩

/-- Settles O35: the lock, then the test, then the effect, and the tests themselves. -/
theorem settingsWrite : Obligations.SettingsWrite := by
  refine ⟨?_, fun v => ?_⟩
  · intro s i lanes d v l hr hl c hc hv addr locked tested
    subst hl hv
    obtain ⟨h3, hexec⟩ := exec_setting (s := s) hc
    rw [lcbHost_eq hr c.1 lanes d anyValue rfl, arrives_setting s.part i c.1 h3 hr.2.1 hr.2.2 lanes d] at hexec
    obtain ⟨isLocked, isOut, isTaken⟩ := settingBlocked_eq s.part i c.1 (s.part.merged i c.1 lanes d)
    have checked := rangeChecked_iff s.part i h3
    refine ⟨fun h => ?_, fun h ht hv => ?_, fun h ht => ?_⟩
    · rw [hexec, isLocked h]
    · rw [hexec, isOut h (checked.2 ht) hv]
    · rw [isTaken h (ht.imp_left fun ht => Bool.eq_false_iff.2 fun e => ht (checked.1 e))] at hexec
      exact takes_setting hexec
  · obtain ⟨h3, h4, h5, h6, bytes, h13, h14, counts, h21⟩ := rangeTests v
    exact ⟨h3, h4, h5, h6, bytes, h13, h14, counts, h21, frameValid_iff v⟩

end Sys2Proof.Machine

/-! PROOFS. An event of one line that is noted, and the expiry of the settle and the release timer (R63, R64, R68, R69). -/

namespace Sys2Proof.Machine

variable {i : LineNo} {p q r : Part} {l l' : Line} {ws : List Nat} {w : Nat} {t : Moment}

/-! ### Events of one line that are noted -/

/-- A noted change of line `i` that leaves the words `ws` pending. -/
theorem notedEvent_of (n : Noted i p q) (hl : q.line i = l) (hw : ∀ w ∈ ws, q.Pends i w) : NotedEvent p q i l ws :=
  ⟨⟨n.step, hl, fun w h => hl ▸ hw w h⟩, n.reported⟩

theorem NotedEvent.step (e : NotedEvent p q i l ws) : LineStep i p q := by
  obtain ⟨⟨step, _, _⟩, _⟩ := e
  exact step

theorem NotedEvent.line_eq (e : NotedEvent p q i l ws) : q.line i = l := by
  obtain ⟨⟨_, hl, _⟩, _⟩ := e
  exact hl

/-- The words of an event of a line are pending. -/
theorem NotedEvent.pends (e : NotedEvent p q i l ws) (hw : w ∈ ws) : q.Pends i w := by
  obtain ⟨⟨_, hl, h⟩, _⟩ := e
  rw [Part.Pends, hl]
  exact h w hw

/-- A further noted change of the line keeps the event and its words outside the ring. -/
theorem NotedEvent.andThen (e : NotedEvent p q i l ws) (n : Noted i q r) (hl : r.line i = l')
    (hw : ∀ w ∈ ws, (32 ≤ w ∧ w ≤ 53) ∧ (w < 37 ∨ 42 < w)) : NotedEvent p r i l' ws := by
  have keep : ∀ w ∈ ws, r.Pends i w := fun w h => n.keeps_plain (hw w h).1 (hw w h).2 (e.pends h)
  exact ⟨⟨e.step.trans n.step, hl, fun w h => hl ▸ keep w h⟩, e.2.trans n.reported⟩

/-- An event after a noted change of the same line. -/
theorem NotedEvent.after (n : Noted i p q) (e : NotedEvent q r i l ws) : NotedEvent p r i l ws := by
  obtain ⟨⟨step, hl, hw⟩, reported⟩ := e
  exact ⟨⟨n.step.trans step, hl, hw⟩, n.reported.trans reported⟩

/-! ### The settle timer (R64) -/

theorem expireSettle_eq (h : (p.line i).settleTimer = some t) (hs : (p.line i).state = .settle) :
    p.expireSettle i = ((p.at t).enterDrive i .settleDone).advanceQueue i := by
  simp only [Part.expireSettle, h, if_pos hs]

theorem expireSettle_idle (h : (p.line i).settleTimer = none ∨ (p.line i).state ≠ .settle) : p.expireSettle i = p := by
  unfold Part.expireSettle
  split
  · next ht => exact if_neg (h.resolve_left (by rw [ht]; exact nofun))
  · rfl

/-- The end of settling: the line drives, with its "MODE" event. -/
theorem enterDrive_settleDone (hs : (p.line i).state = .settle) :
    NotedEvent p (p.enterDrive i .settleDone) i ((p.line i).drives.offer ⟨.mode, 3, 5, 0, 4, p.counter⟩) [32] := by
  refine notedEvent_of (noted_enterDrive p i _) ?_ fun w hw => ?_
  · rw [line_enterDrive, hs]
    rfl
  · rw [List.mem_singleton.1 hw]
    exact mem_queueLcb_self _ _

/-! ### The release timer (R63, R68, R69) -/

/-- The line whose release guard has passed, before its event. -/
def Line.guardPassed (l : Line) : Line := { l with state := .listen, releaseTimer := none }

/-- A line returns from "RELEASE" to "LISTEN" with its "MODE" event. -/
def Part.returnToListen (p : Part) (i : LineNo) : Part :=
  ((p.onLine i Line.guardPassed).offerMode i .listen (p.line i).releaseCause 0 .release).queueLcb i 32

theorem expireRelease_listen (h : (p.line i).releaseTimer = some t) (hs : (p.line i).state = .release)
    (ht : (p.line i).target = .listen) : p.expireRelease i = (p.at t).returnToListen i := by
  have cause : (((p.at t).onLine i Line.guardPassed).line i).releaseCause = (p.line i).releaseCause := by
    rw [line_onLine]
    rfl
  rw [Part.returnToListen, line_at, ← cause]
  simp only [Part.expireRelease, h, if_pos hs, line_at, ht]
  rfl

theorem expireRelease_off (h : (p.line i).releaseTimer = some t) (hs : (p.line i).state = .release)
    (ht : (p.line i).target = .off) : p.expireRelease i = (p.at t).enterOff i (p.line i).releaseCause := by
  simp only [Part.expireRelease, h, if_pos hs, line_at, ht]

theorem expireRelease_idle (h : (p.line i).releaseTimer = none ∨ (p.line i).state ≠ .release) : p.expireRelease i = p := by
  unfold Part.expireRelease
  split
  · next ht => exact if_neg (h.resolve_left (by rw [ht]; exact nofun))
  · rfl

theorem but_guardPassed (p : Part) : NotedBut i [32] p (p.onLine i Line.guardPassed) := by
  refine but_onLine p i _ rfl fun w hw => ?_
  apply reportValue_congr <;> intros <;> first | rfl | contradiction

theorem returnToListen_event (p : Part) : NotedEvent p (p.returnToListen i) i
    ((p.line i).guardPassed.offer ⟨.mode, 1, (p.line i).releaseCause.code, 0, 6, p.counter⟩) [32] := by
  refine notedEvent_of ((but_guardPassed p).trans (.ofNoted _ (noted_offerMode _ i _ _ _ _))).queueLcb ?_ fun w hw => ?_
  · rw [Part.returnToListen, line_queueLcb, line_offerMode, line_onLine]
    rfl
  · rw [List.mem_singleton.1 hw]
    exact mem_queueLcb_self _ _

/-- Entry to "OFF": word 32, and word 36 where a condition stood. -/
theorem enterOff_event (p : Part) (c : ModeCause) : NotedEvent p (p.enterOff i c) i ((p.line i).wentOff c p.counter)
    (32 :: if (p.line i).openCondition = true ∨ (p.line i).stuckCondition = true then [36] else []) := by
  refine notedEvent_of (noted_enterOff p i c) (line_enterOff p i c) fun w hw => ?_
  rcases List.mem_cons.1 hw with rfl | hw
  · exact mem_enterOff p c
  · split at hw
    · next h =>
      rw [List.mem_singleton.1 hw]
      exact pends_enterOff_conditions p c h
    · cases hw

/-- Settles O47. Each expiry is rewritten to the entry that it makes, whose event is known. -/
theorem settleAndRelease : Obligations.SettleAndRelease := by
  refine ⟨fun n => ?_, rfl, fun s i l hl => ?_⟩
  · have ms : msPeriods n = (n * 294912 + 9) / 10 := rfl
    omega
  · subst hl
    refine ⟨fun t h hs => ⟨(s.part.at t).enterDrive i .settleDone, ?_, enterDrive_settleDone hs⟩,
      fun h => congrArg (answers s) (expireSettle_idle h),
      fun t h hs ht => ⟨_, congrArg (answers s) (expireRelease_listen h hs ht), returnToListen_event (s.part.at t)⟩,
      fun t h hs ht => ⟨_, congrArg (answers s) (expireRelease_off h hs ht), enterOff_event (s.part.at t) _⟩,
      fun h => congrArg (answers s) (expireRelease_idle h)⟩
    exact congrArg (answers s) (expireSettle_eq h hs)

end Sys2Proof.Machine

/-! PROOFS. The ends of a byte, a break and a pause, and the level that TXD presents (R67, R76, R139, R140, R142, R143). -/

namespace Sys2Proof.Machine

variable {i : LineNo} {p : Part} {t : Moment}

/-! ### The level of TXD (R76, R140, R142) -/

theorem transmitLevel_disabled (h : p.driverEnabled i = false) : p.transmitLevel i = .mark :=
  if_neg (by rw [h]; exact nofun)

/-- Within the time of bit `n` of a byte that is sent, TXD has the level of that bit. -/
theorem transmitLevel_byte {f : FrameFormat} {bt n : Nat} {start : Moment} {v : Byte} {level : Level}
    (hd : p.driverEnabled i = true) (ha : (p.line i).acting = some (.byte f bt start v)) (h1 : start + n * bt ≤ p.now)
    (h2 : p.now < start + (n + 1) * bt) (hv : (frameLevels f v)[n]? = some level) : p.transmitLevel i = level := by
  have begun : start ≤ p.now := (Nat.le_add_right _ _).trans h1
  have bit : (p.now - start) / bt = n :=
    Nat.div_eq_of_lt_le (Nat.le_sub_of_add_le' h1) (Nat.sub_lt_left_of_lt_add begun h2)
  simp only [Part.transmitLevel, if_pos hd, ha, bit, List.getD_eq_getElem?_getD, hv, Option.getD_some]

theorem transmitLevel_breakSpace {m : Nat} (hd : p.driverEnabled i = true)
    (ha : (p.line i).acting = some (.breakSpace t m)) : p.transmitLevel i = .space := by
  simp only [Part.transmitLevel, if_pos hd, ha]

theorem transmitLevel_mark (hd : p.driverEnabled i = true)
    (ha : (p.line i).acting = none ∨ (∃ t, (p.line i).acting = some (.breakMark t)) ∨
      ∃ t, (p.line i).acting = some (.pause t)) : p.transmitLevel i = .mark := by
  rcases ha with ha | ⟨t, ha⟩ | ⟨t, ha⟩ <;> simp only [Part.transmitLevel, if_pos hd, ha]

/-! ### The end of a byte (R67, R140) -/

/-- The line with one byte more sent (R56, R147). -/
def Line.byteCounted (l : Line) : Line :=
  { l.setCounter .bytesSent (satAdd (l.counter .bytesSent) 1) with
    tallies := { l.tallies with sent := satAdd l.tallies.sent 1 } }

/-- The part once a byte of line `i` has been counted and has left the head. -/
def Part.byteLeft (p : Part) (i : LineNo) : Part := (p.byteSent i).leaveHead i

theorem byteLeft_event (p : Part) : NotedEvent (p.releaseHold i) (p.byteLeft i) i
    ((p.line i).byteCounted.headLeft (p.heldEntries i)) (if (p.line i).counter .bytesSent = 65535 then [] else [49]) :=
  ⟨(byteSent_event p).leaveHead, ((noted_byteSent p i).releaseHold.trans (noted_leaveHead _)).reported⟩

theorem line_byteLeft (p : Part) : (p.byteLeft i).line i = (p.line i).byteCounted.headLeft (p.heldEntries i) :=
  (byteLeft_event p).line_eq

theorem now_byteLeft (p : Part) : (p.byteLeft i).now = p.now :=
  (byteLeft_event p).step.now.trans (now_releaseHold p i)

/-- The last stop bit ends: the byte leaves, then the release timer starts in "RELEASE" and the next head begins elsewhere. -/
theorem completeByte_eq {f : FrameFormat} {bt : Nat} {start : Moment} {v : Byte}
    (ha : (p.line i).acting = some (.byte f bt start v)) : p.completeByte i =
      if (p.line i).state = .release then
        ((p.at (start + f.bits * bt)).byteLeft i).onLine i fun l =>
          { l with releaseTimer := some (((p.at (start + f.bits * bt)).byteLeft i).now + l.releaseGuard) }
      else ((p.at (start + f.bits * bt)).byteLeft i).advanceQueue i := by
  have hs : (((p.at (start + f.bits * bt)).byteLeft i).line i).state = (p.line i).state := by
    rw [line_byteLeft]
    rfl
  rw [← hs]
  simp only [Part.completeByte, ha]
  rfl

theorem noted_releaseTimer (p : Part) (x : Line → Timer) : Noted i p (p.onLine i fun l => { l with releaseTimer := x l }) :=
  noted_onLine p i _ rfl fun _ => rfl

/-- In "RELEASE" the release timer starts with the guard taken at entry. -/
theorem byteLeft_released (p : Part) :
    NotedEvent (p.releaseHold i)
      ((p.byteLeft i).onLine i fun l => { l with releaseTimer := some ((p.byteLeft i).now + l.releaseGuard) }) i
      { (p.line i).byteCounted.headLeft (p.heldEntries i) with releaseTimer := some (p.now + (p.line i).releaseGuard) }
      (if (p.line i).counter .bytesSent = 65535 then [] else [49]) := by
  refine (byteLeft_event p).andThen (noted_releaseTimer _ _) ?_ fun w hw => ?_
  · rw [line_onLine, line_byteLeft, now_byteLeft]
    rfl
  · split at hw
    · cases hw
    · rw [List.mem_singleton.1 hw]
      omega

/-! ### The end of a break and of a pause (R142, R143) -/

theorem endBreakSpace_eq {m : Nat} (ha : (p.line i).acting = some (.breakSpace t m)) :
    p.endBreakSpace i = (p.at t).setActing i (.breakMark ((p.at t).now + m)) := by
  simp only [Part.endBreakSpace, ha]

theorem endBreakMark_eq (ha : (p.line i).acting = some (.breakMark t)) :
    p.endBreakMark i = ((p.at t).leaveHead i).advanceQueue i := by
  simp only [Part.endBreakMark, ha]
  rfl

theorem endPause_eq (ha : (p.line i).acting = some (.pause t)) :
    p.endPause i = ((p.at t).leaveHead i).advanceQueue i := by
  simp only [Part.endPause, ha]
  rfl

/-- Settles O48. Each end is rewritten to the head leaving, which releases a held write and takes its entry. -/
theorem entriesEnd : Obligations.EntriesEnd := by
  constructor
  · rintro p i l rfl
    exact ⟨transmitLevel_disabled, fun hd => ⟨fun f bt start v n level ha => transmitLevel_byte hd ha,
      fun t m ha => transmitLevel_breakSpace hd ha, transmitLevel_mark hd⟩⟩
  · rintro s i l rfl
    refine ⟨fun f bt start v p l' ha hp hl' => ?byte, fun t m p ha hp => ?space, fun t p q hp hq => ?ends⟩
    case byte =>
      have hp : p = s.part.at (start + f.bits * bt) := by rw [bits_eq]; exact hp
      subst hp hl'
      have e := congrArg (answers s) (completeByte_eq ha)
      refine ⟨fun hs => ⟨_, ?_, byteLeft_event (s.part.at (start + f.bits * bt))⟩,
        fun hs => ⟨_, ?_, byteLeft_released (s.part.at (start + f.bits * bt))⟩⟩
      · rwa [if_neg hs] at e
      · rwa [if_pos hs] at e
    case space =>
      subst hp
      exact congrArg (answers s) (endBreakSpace_eq ha)
    case ends =>
      have leave : (s.part.at t).leaveHead i = q := by
        subst hp hq
        exact leaveHead_eq (s.part.at t)
      rw [← leave]
      exact ⟨fun ha => congrArg (answers s) (endBreakMark_eq ha), fun ha => congrArg (answers s) (endPause_eq ha)⟩

end Sys2Proof.Machine

/-! PROOFS. The changes of the receive input: start bits, space runs, breaks, the probe (R74, R81, R82, R85, R157, R158, R172). -/

namespace Sys2Proof.Machine

variable {i : LineNo} {p q : Part} {l : Line} {ws : List Nat} {wait : Nat}

/-! ### Which changes are taken, and which lines regard them (R73, R172) -/

/-- A change of the receive input `wait` periods from now comes two periods after the last at the earliest (R172). -/
def Part.RxHeld (p : Part) (i : LineNo) (wait : Nat) : Prop := ∀ u, p.taken.rx[i] = some u → u + 2 ≤ p.now + wait

theorem rxHeld_iff : p.RxHeld i wait ↔ canTake p.taken.rx[i] (p.now + wait) = true := (canTake_iff _ _).symm

theorem not_rxHeld_iff : ¬ p.RxHeld i wait ↔ canTake p.taken.rx[i] (p.now + wait) = false := by
  rw [rxHeld_iff, Bool.not_eq_true]

/-- A line that is absent, in "OFF" or open does not regard its input. -/
theorem not_listening_of (h : p.hasLine i = false ∨ (p.line i).state = .off ∨ (p.line i).openCondition = true) :
    ¬ p.listening i = true := by
  rcases h with h | h | h <;> simp [Part.listening, Part.active, h]

/-! ### From mark to space (R74, R81, R157) -/

/-- The line at a change to space at `now`: the space-run timer starts, the receiver sees the change. -/
def Line.fallen (l : Line) (now : Moment) : Line :=
  { l with spaceTimer := some (now + 200 * 294912), receiver := l.receiver.fall now l.bitTime }

/-- The line after the fall, by what its receiver becomes. -/
theorem fallen_eq {l : Line} {now : Moment} {x : Machine.Receiver} (h : l.receiver.fall now l.bitTime = x) :
    l.fallen now = { l with spaceTimer := some (now + 200 * 294912), receiver := x } := by
  rw [Line.fallen, h]

theorem rxFalls_dropped (h : p.rxPin[i] = .space ∨ ¬ p.RxHeld i wait) : p.rxFalls i wait = p :=
  if_pos (h.imp_right not_rxHeld_iff.1)

/-- A change to space that is taken. -/
theorem rxFalls_taken (hm : p.rxPin[i] = .mark) (hh : p.RxHeld i wait) : p.rxFalls i wait =
    if p.listening i = true then
      ((p.takeRx i .space (p.now + wait)).onLine i fun l => l.fallen (p.now + wait)).probeFall i
    else p.takeRx i .space (p.now + wait) :=
  if_neg (not_or.2 ⟨by rw [hm]; exact nofun, by rw [rxHeld_iff.1 hh]; exact nofun⟩)

theorem noted_fallen (p : Part) (now : Moment) : Noted i p (p.onLine i fun l => l.fallen now) :=
  noted_onLine p i _ rfl fun _ => rfl

theorem probeFall_idle (h : (p.line i).probe = none) : p.probeFall i = p := by
  simp only [Part.probeFall, h]

/-- An edge before the 64th is counted, and begins a run. -/
theorem probeFall_counts {k : Probe} (h : (p.line i).probe = some k) (he : k.edges + 1 ≠ 64) :
    p.probeFall i = p.setLine i { p.line i with probe := some { k with edges := k.edges + 1, run := some p.now } } := by
  simp only [Part.probeFall, h, if_neg he]
  rfl

/-- The 64th edge delivers the result of the window. -/
theorem probeFall_ends {k : Probe} (h : (p.line i).probe = some k) (he : k.edges + 1 = 64) :
    p.probeFall i = p.deliverProbe i { k with edges := 64, run := none } (classifyProbe 64 k.shortest).1
      (classifyProbe 64 k.shortest).2 := by
  simp only [Part.probeFall, h, if_pos he]
  rfl

/-- The delivery of a probe's result is reported. -/
theorem deliverProbe_noted (p : Part) (k : Probe) (r : ProbeResult) (n : Nat) : NotedEvent p (p.deliverProbe i k r n) i
    ((p.line i).delivered k r n p.now p.counter)
    ([32, 45] ++ (if (p.line i).flags.getLsbD 2 then [] else [35]) ++
      (if k.apply = true ∧ r = .found then [43, 44] else [])) :=
  ⟨deliverProbe_event p k r n, (noted_deliverProbe p i k r n).reported⟩

/-- The fall of the input with no probe under way, and with one whose window goes on. -/
theorem fall_counted (p : Part) (now : Moment) (hn : p.now = now) :
    ((p.line i).probe = none →
      (p.onLine i fun l => l.fallen now).probeFall i = p.setLine i ((p.line i).fallen now)) ∧
    (∀ k, (p.line i).probe = some k → k.edges + 1 ≠ 64 →
      (p.onLine i fun l => l.fallen now).probeFall i =
        p.setLine i
          { (p.line i).fallen now with probe := some { k with edges := k.edges + 1, run := some now } }) := by
  subst hn
  have hl : (p.onLine i fun l => l.fallen p.now).line i = (p.line i).fallen p.now := line_onLine p i _
  refine ⟨fun h => probeFall_idle (hl ▸ h), fun k h he => ?_⟩
  rw [probeFall_counts (hl ▸ h) he, hl, onLine_eq, setLine_setLine]
  rfl

/-- The 64th edge at the fall of the input: the result is delivered on the line that has seen the fall. -/
theorem fall_ends_probe {now : Moment} {k : Probe} (hn : p.now = now) (h : (p.line i).probe = some k) (he : k.edges + 1 = 64) :
    NotedEvent p ((p.onLine i fun l => l.fallen now).probeFall i) i
      (((p.line i).fallen now).delivered { k with edges := 64, run := none } (classifyProbe 64 k.shortest).1
        (classifyProbe 64 k.shortest).2 now p.counter)
      ([32, 45] ++ (if (p.line i).flags.getLsbD 2 then [] else [35]) ++
        (if k.apply = true ∧ (classifyProbe 64 k.shortest).1 = .found then [43, 44] else [])) := by
  subst hn
  have hl : (p.onLine i fun l => l.fallen p.now).line i = (p.line i).fallen p.now := line_onLine p i _
  rw [probeFall_ends (hl ▸ h) he]
  have e := deliverProbe_noted (i := i) (p.onLine i fun l => l.fallen p.now) { k with edges := 64, run := none }
    (classifyProbe 64 k.shortest).1 (classifyProbe 64 k.shortest).2
  rw [hl] at e
  exact e.after (noted_fallen p p.now)

/-! ### From space to mark (R74, R75, R82, R85, R157) -/

/-- The line at a change to mark at `now`, before its receiver sees it: the space-run timer stops, the stuck condition clears, a
run of the probe is measured. -/
def Line.risen (l : Line) (now : Moment) : Line := { l.probeRise now with spaceTimer := none, stuckCondition := false }

/-- The line after the rise, by what its probe becomes. -/
theorem risen_eq {l : Line} {now : Moment} {x : Option Probe} (h : l.probeRise now = { l with probe := x }) :
    l.risen now = { l with spaceTimer := none, stuckCondition := false, probe := x } := by
  rw [Line.risen, h]

/-- The LCB words that a change to mark queues: word 36 where the stuck condition stood (R75). -/
def Line.riseReports (l : Line) : List Nat := if l.stuckCondition then [36] else []

/-- The part whose line `i` has seen a change to mark, before its receiver does. -/
def Part.risen (p : Part) (i : LineNo) : Part :=
  (p.onLine i fun l => { (l.probeRise p.now) with spaceTimer := none }).setConditions i (p.line i).openCondition false

theorem rxRises_dropped (h : p.rxPin[i] = .mark ∨ ¬ p.RxHeld i wait) : p.rxRises i wait = p :=
  if_pos (h.imp_right not_rxHeld_iff.1)

theorem probeRise_conditions (l : Line) (now : Moment) :
    (l.probeRise now).openCondition = l.openCondition ∧ (l.probeRise now).stuckCondition = l.stuckCondition := by
  rw [probeRise_eq]
  exact ⟨rfl, rfl⟩

/-- A change to mark that is taken. -/
theorem rxRises_taken (hs : p.rxPin[i] = .space) (hh : p.RxHeld i wait) : p.rxRises i wait =
    if p.listening i = true then ((p.takeRx i .mark (p.now + wait)).risen i).receiverRises i
    else p.takeRx i .mark (p.now + wait) := by
  have hopen (q : Part) : ((q.onLine i fun l => { (l.probeRise q.now) with spaceTimer := none }).line i).openCondition =
      (q.line i).openCondition := by
    rw [line_onLine]
    exact (probeRise_conditions _ _).1
  rw [Part.risen, ← hopen]
  exact if_neg (not_or.2 ⟨by rw [hs]; exact nofun, by rw [rxHeld_iff.1 hh]; exact nofun⟩)

theorem noted_rise (p : Part) (now : Moment) : Noted i p (p.onLine i fun l => { (l.probeRise now) with spaceTimer := none }) :=
  noted_onLine p i _ (probeRise_hidden _ _).1 fun w => (probeRise_hidden _ _).2 w

theorem line_risen (p : Part) : (p.risen i).line i = (p.line i).risen p.now := by
  rw [Part.risen, line_setConditions, line_onLine, ← (probeRise_conditions (p.line i) p.now).1]
  rfl

theorem lineStep_risen (p : Part) : LineStep i p (p.risen i) := (lineStep_onLine p i _).trans (lineStep_setConditions _ i _ _)

/-- The rise of the input: word 36 is pending where the stuck condition stood. -/
theorem risen_event (p : Part) : NotedEvent p (p.risen i) i ((p.line i).risen p.now) (p.line i).riseReports := by
  refine notedEvent_of ((noted_rise p p.now).trans (noted_setConditions _ i _ _)) (line_risen p) fun w hw => ?_
  rw [Line.riseReports] at hw
  split at hw
  · next h =>
    rw [List.mem_singleton.1 hw]
    refine mem_setConditions _ _ _ (.inr ?_)
    rw [line_onLine]
    show false ≠ ((p.line i).probeRise p.now).stuckCondition
    rw [(probeRise_conditions _ _).2, h]
    exact nofun
  · cases hw

/-- What the receiver makes of the rise is noted after it. -/
theorem risen_andThen {q : Part} (n : Noted i (p.risen i) q) (hl : q.line i = l) :
    NotedEvent p q i l (p.line i).riseReports := by
  refine (risen_event p).andThen n hl fun w hw => ?_
  rw [Line.riseReports] at hw
  split at hw
  · rw [List.mem_singleton.1 hw]
    omega
  · cases hw

theorem risen_receiver (l : Line) (now : Moment) : (l.risen now).receiver = l.receiver := by
  rw [Line.risen, probeRise_eq]

/-- The line with its receiver in the state `r`. -/
theorem line_receiving (p : Part) (r : Machine.Receiver) : (p.receiving i r).line i = { p.line i with receiver := r } :=
  line_setLine p i _

theorem noted_receiving (p : Part) (r : Machine.Receiver) : Noted i p (p.receiving i r) := noted_receiver p i fun _ => r

theorem receiverRises_idle (h : (p.line i).receiver = .stopped ∨ ∃ c, (p.line i).receiver = .hunt c) :
    p.receiverRises i = p := by
  rcases h with h | ⟨c, h⟩ <;> simp only [Part.receiverRises, h]

theorem receiverRises_frame {f : FrameRun} (h : (p.line i).receiver = .frame f) :
    p.receiverRises i = p.receiving i (.frame (f.fill .space p.now)) := by
  simp only [Part.receiverRises, h]
  rfl

theorem receiverRises_spaceRun {start : Moment} {time : Nat} (h : (p.line i).receiver = .spaceRun start time none) :
    p.receiverRises i = p.receiving i (.hunt none) := by
  simp only [Part.receiverRises, h]
  rfl

/-- The byte that a space run withholds arrives at its end (R82). -/
theorem receiverRises_withheld {start : Moment} {time : Nat} {b : RxByte}
    (h : (p.line i).receiver = .spaceRun start time (some b)) :
    p.receiverRises i = (p.receiving i (.hunt none)).placeByte i b := by
  simp only [Part.receiverRises, h]
  rfl

theorem receiverRises_break {start : Moment} {reached : Bool} (h : (p.line i).receiver = .brk start reached) :
    p.receiverRises i = (p.endReceivedBreak i).receiving i (.hunt none) := by
  simp only [Part.receiverRises, h]
  rfl

/-- A rise of the input after which the receiver is in the state `r`. -/
theorem risen_receiving (p : Part) (r : Machine.Receiver) : NotedEvent p ((p.risen i).receiving i r) i
    { (p.line i).risen p.now with receiver := r } (p.line i).riseReports :=
  risen_andThen (noted_receiving _ r) (by rw [line_receiving, line_risen])

/-- A received break ends at the rise of the input, with its event (R85). -/
theorem risen_break {start : Moment} {reached : Bool} (h : (p.line i).receiver = .brk start reached) :
    NotedEvent p (((p.risen i).endReceivedBreak i).receiving i (.hunt none)) i
      (Line.offer { (p.line i).risen p.now with receiver := .hunt none }
        ⟨.breakSeen, satWord ((p.now - start) / 294912), if reached then 1 else 0, 0, 0, p.counter⟩)
      (p.line i).riseReports := by
  refine risen_andThen ((noted_endReceivedBreak _ i).trans (noted_receiving _ _)) ?_
  have step := lineStep_risen (i := i) p
  have hr : ((p.line i).risen p.now).receiver = .brk start reached := (risen_receiver _ _).trans h
  rw [line_receiving, line_endReceivedBreak, line_risen, step.now, step.counter, offer_withReceiver]
  simp only [Line.breakEnded, hr]

/-- What a rise of the input makes of the line, by the state of its receiver. -/
theorem rise_event (p : Part) :
    ((p.line i).receiver = .stopped ∨ (∃ c, (p.line i).receiver = .hunt c) →
      NotedEvent p ((p.risen i).receiverRises i) i ((p.line i).risen p.now) (p.line i).riseReports) ∧
    (∀ f, (p.line i).receiver = .frame f →
      NotedEvent p ((p.risen i).receiverRises i) i { (p.line i).risen p.now with receiver := .frame (f.fill .space p.now) }
        (p.line i).riseReports) ∧
    (∀ start time, (p.line i).receiver = .spaceRun start time none →
      NotedEvent p ((p.risen i).receiverRises i) i { (p.line i).risen p.now with receiver := .hunt none }
        (p.line i).riseReports) ∧
    (∀ start time b, (p.line i).receiver = .spaceRun start time (some b) → ∃ q : Part,
      (p.risen i).receiverRises i = q.placeByte i b ∧
        NotedEvent p q i { (p.line i).risen p.now with receiver := .hunt none } (p.line i).riseReports) ∧
    (∀ start reached, (p.line i).receiver = .brk start reached →
      NotedEvent p ((p.risen i).receiverRises i) i
        (Line.offer { (p.line i).risen p.now with receiver := .hunt none }
          ⟨.breakSeen, satWord ((p.now - start) / 294912), if reached then 1 else 0, 0, 0, p.counter⟩)
        (p.line i).riseReports) := by
  have hr : ((p.risen i).line i).receiver = (p.line i).receiver := by rw [line_risen, risen_receiver]
  have hn : (p.risen i).now = p.now := (lineStep_risen p).now
  rw [← hr]
  refine ⟨fun h => ?idle, fun f h => ?frame, fun start time h => ?spaceRun, fun start time b h => ⟨_, ?_, risen_receiving p _⟩,
    fun start reached h => ?brk⟩
  case idle =>
    rw [receiverRises_idle h]
    exact risen_event p
  case frame =>
    rw [receiverRises_frame h, hn]
    exact risen_receiving p _
  case spaceRun =>
    rw [receiverRises_spaceRun h]
    exact risen_receiving p _
  case brk =>
    rw [receiverRises_break h]
    exact risen_break (hr ▸ h)
  · exact receiverRises_withheld h

/-- Settles O49. A change is dropped, taken beside the line, or taken by it; then the probe or the receiver decides. -/
theorem rxEdges : Obligations.RxEdges := by
  refine ⟨fun s i wait p l l' hl hp hl' => ?fall, fun s i wait p l l' hl hp hl' => ?rise⟩
  case fall =>
    subst hl hp
    have hl' : l' = (s.part.line i).fallen (s.part.now + wait) := hl'.trans (fallen_eq (receiver_fall_eq _ _ _)).symm
    subst hl'
    obtain ⟨idle, counts⟩ := fall_counted (i := i) (s.part.takeRx i .space (s.part.now + wait)) (s.part.now + wait) rfl
    refine ⟨fun h => congrArg (answers s) (rxFalls_dropped h), fun hm hh => ⟨fun h => ?beside, fun hi hs ho => ?_⟩⟩
    case beside => exact congrArg (answers s) ((rxFalls_taken hm hh).trans (if_neg (not_listening_of h)))
    have e := (rxFalls_taken hm hh).trans (if_pos (listening_of hi hs ho))
    exact ⟨fun h => congrArg (answers s) (e.trans (idle h)), fun k h he => congrArg (answers s) (e.trans (counts k h he)),
      fun k h he => ⟨_, congrArg (answers s) e, fall_ends_probe (p := s.part.takeRx i .space _) rfl h he⟩⟩
  case rise =>
    subst hl hp
    have hl' : l' = (s.part.line i).risen (s.part.now + wait) := hl'.trans (risen_eq (probeRise_eq _ _)).symm
    subst hl'
    obtain ⟨idle, frame, spaceRun, withheld, brk⟩ := rise_event (i := i) (s.part.takeRx i .mark (s.part.now + wait))
    refine ⟨fun h => congrArg (answers s) (rxRises_dropped h), fun hm hh => ⟨fun h => ?beside, fun hi hs ho => ?_⟩⟩
    case beside => exact congrArg (answers s) ((rxRises_taken hm hh).trans (if_neg (not_listening_of h)))
    have e := (rxRises_taken hm hh).trans (if_pos (listening_of hi hs ho))
    have becomes {l : Line} {ws : List Nat} {p : Part} (n : NotedEvent p _ i l ws) :
        ∃ q : Part, exec (.rxRisingEdge i wait) s = answers s q ∧ NotedEvent p q i l ws := ⟨_, congrArg (answers s) e, n⟩
    refine ⟨fun h => becomes (idle h), fun f h => becomes (frame f h), fun start time h => becomes (spaceRun start time h),
      fun start time b h => ?_, fun start reached h => becomes (brk start reached h)⟩
    obtain ⟨q, eq, n⟩ := withheld start time b h
    exact ⟨q, congrArg (answers s) (e.trans eq), n⟩

end Sys2Proof.Machine

/-! PROOFS. The start of a received break, and the expiries of the gap timer and the quiet timer (R84, R89, R90, R98). -/

namespace Sys2Proof.Machine

variable {i : LineNo} {p : Part} {t : Moment}

/-- The close of the "OPEN" buffer and then a change of the line make one change of the line. -/
theorem onLine_closeOpen (p : Part) (f : Line → Line) :
    (p.closeOpen i).onLine i f = p.setLine i (f (p.line i).closeOpen) := by
  rw [onLine_eq, line_closeOpen]
  exact setLine_setLine p i _ _

/-! ### The start of a break (R84) -/

theorem breakStarts_eq {start : Moment} {time : Nat} {b : Option RxByte} (h : (p.line i).receiver = .spaceRun start time b) :
    p.breakStarts i = (p.at (start + time)).setLine i
      { (p.line i).closeOpen with receiver := .brk start false, gapTimer := none } := by
  simp only [Part.breakStarts, h]
  exact onLine_closeOpen _ _

/-! ### The gap timer (R90) -/

theorem gapExpires_running (h : (p.line i).gapTimer = some t) :
    p.gapExpires i = (p.at t).setLine i { (p.line i).closeOpen with gapTimer := none } := by
  simp only [Part.gapExpires, h]
  exact onLine_closeOpen _ _

theorem gapExpires_stopped (h : (p.line i).gapTimer = none) : p.gapExpires i = p := by
  simp only [Part.gapExpires, h]

/-! ### The quiet timer (R98) -/

theorem quietExpires_running (h : (p.line i).quietTimer = some t) :
    p.quietExpires i = (p.at t).setLine i { p.line i with quietTimer := none, quiet := true } := by
  simp only [Part.quietExpires, h]
  exact onLine_eq _ i _

theorem quietExpires_stopped (h : (p.line i).quietTimer = none) : p.quietExpires i = p := by
  simp only [Part.quietExpires, h]

/-- Settles O52. Each event is the answer of the part that its own equation gives; an expiry of a stopped timer changes nothing. -/
theorem breakGapQuiet : Obligations.BreakGapQuiet := by
  intro s i l hl becomes
  subst hl
  refine ⟨fun start time b h => ?breakStart, fun t h => ?gap, fun h => ?noGap, fun t h => ?quiet, fun h => ?noQuiet⟩
  case breakStart => exact congrArg (answers s) (breakStarts_eq h)
  case gap => exact congrArg (answers s) (gapExpires_running h)
  case noGap => exact congrArg (answers s) (gapExpires_stopped h)
  case quiet => exact congrArg (answers s) (quietExpires_running h)
  case noQuiet => exact congrArg (answers s) (quietExpires_stopped h)

end Sys2Proof.Machine

/-! PROOFS. The timers of a ring: the lapse of a lease and the expiry of the coalesce timer (R109, R129, R163, R164). -/

namespace Sys2Proof.Machine

variable {i : LineNo} {p : Part} {r : Ring} {n : Nat} {t : Moment}

theorem ring?_of_present {l : Line} (h : l.ring = .present r) : l.ring? = some r := by rw [Line.ring?, h]

/-- A job unparked is a change of the line alone. -/
theorem unpark_eq (p : Part) (i : LineNo) : p.unpark i = p.setLine i (p.line i).unparked := rfl

/-- New ring values and a job unparked make one change of the line. -/
theorem unpark_setRing (p : Part) (i : LineNo) (r : Ring) :
    (p.setRing i r).unpark i = p.setLine i { p.line i with ring := .present r }.unparked := by
  rw [unpark_eq, line_setRing]
  exact setLine_setLine p i _ _

/-! ### The lease (R109, R129) -/

/-- A live lease lapses: the ring keeps it open, and a job parked on it is unparked. -/
theorem lapseLease_live (hr : (p.line i).ring = .present r) (hl : r.lease = .opened n (some t)) :
    p.lapseLease i =
      (p.at t).setLine i { p.line i with ring := .present { r with lease := .opened n none } }.unparked := by
  simp only [Part.lapseLease, ring?_of_present hr, hl]
  exact unpark_setRing (p.at t) i _

/-- A lease that is not live does not lapse. -/
theorem lapseLease_idle (hr : (p.line i).ring = .present r) (hl : ∀ n t, r.lease ≠ .opened n (some t)) :
    p.lapseLease i = p := by
  rw [Part.lapseLease, ring?_of_present hr]
  dsimp only
  split
  · next n t h => exact absurd h (hl n t)
  · rfl

/-! ### The coalesce timer (R163, R164) -/

theorem expireCoalesce_running (hr : (p.line i).ring = .present r) (hc : r.coalesce = .running t) :
    p.expireCoalesce i = ((p.at t).setRing i { r with coalesce := .expired }).noteDue i p := by
  simp only [Part.expireCoalesce, ring?_of_present hr, hc]

theorem expireCoalesce_idle (hr : (p.line i).ring = .present r) (hc : ∀ t, r.coalesce ≠ .running t) :
    p.expireCoalesce i = p := by
  rw [Part.expireCoalesce, ring?_of_present hr]
  dsimp only
  split
  · next t h => exact absurd h (hc t)
  · rfl

/-- An expired coalesce state makes ring-due hold. -/
theorem due_expired (r : Ring) (threshold : Nat) : Ring.due { r with coalesce := .expired } threshold = true :=
  Bool.or_true _

/-- A running coalesce timer expires: ring-due holds then, and word 36 is pending where it did not before. -/
theorem expireCoalesce_event (hr : (p.line i).ring = .present r) (hc : r.coalesce = .running t) :
    NotedEvent (p.at t) (p.expireCoalesce i) i { p.line i with ring := .present { r with coalesce := .expired } }
      (if r.due ((p.line i).setting 15) then [] else [36]) := by
  have hq := expireCoalesce_running hr hc
  refine notedEvent_of (noted_expireCoalesce p i r t hr hc) ?_ fun w hw => ?_
  · rw [hq, line_noteDue, line_setRing]
    rfl
  · split at hw
    · cases hw
    · next hd =>
      rw [List.mem_singleton.1 hw, hq]
      refine mem_noteDue _ p fun e => hd ?_
      rw [line_setRing, ringDue_present _ _ rfl, ringDue_present _ _ hr] at e
      exact e.symm.trans (due_expired r _)

/-- Settles O55. Each expiry is its equation; a timer that does not run changes nothing. -/
theorem ringTimers : Obligations.RingTimers := by
  intro s i l r hl hr
  subst hl
  refine ⟨fun n t h => ?lapse, fun h => ?noLease, fun t h => ?expiry, fun h => ?noTimer⟩
  case lapse => exact congrArg (answers s) (lapseLease_live hr h)
  case noLease => exact congrArg (answers s) (lapseLease_idle hr h)
  case expiry => exact ⟨_, rfl, expireCoalesce_event hr h⟩
  case noTimer => exact congrArg (answers s) (expireCoalesce_idle hr h)

end Sys2Proof.Machine

/-! PROOFS. The snooped reads of a ring: the size word opens the lease, the last word of the record at R retires it (R109 to
R111, R128, R129). -/

namespace Sys2Proof.Machine

variable {s : State} {i : LineNo} {p : Part} {r : Ring} {a : Addr} {k n : Nat} {d : Word}

/-! ### The read of a ring word that the port serves completes -/

/-- The read completes as a snooped read of the ring. -/
theorem completeHost_ringRead (hs : s.part.port.serving = some (.host ⟨a, .read⟩)) (ha : s.part.decode a = .ring i k) :
    exec (.hostAccessComplete (.completes none)) s =
      answers s ((s.part.hostRead (s.mem.readWord a)).snoopRing i k (s.mem.readWord a)) := by
  refine (congrArg Host.Outcome.next (completeHost_read s a hs)).trans ?_
  rw [Part.snoop, hostRead_decode, ha]
  rfl

/-- Whether the served read is of a live ring, at an offset that `ok` admits. -/
theorem readsRing_eq (hs : s.part.port.serving = some (.host ⟨a, .read⟩)) (ha : s.part.decode a = .ring i k)
    (hr : s.part.liveRing i = some r) (ok : Ring → Nat → Bool) : s.part.readsRing ok = ok r k := by
  simp only [Part.readsRing, Part.servedRead, Part.servedHost, hs, ha, hr]

/-- SIZE_WORD_READ is the completion of a read of offset R + 1. -/
theorem exec_sizeWordRead (hs : s.part.port.serving = some (.host ⟨a, .read⟩)) (ha : s.part.decode a = .ring i (r.r + 1))
    (hr : s.part.liveRing i = some r) : exec .sizeWordRead s = exec (.hostAccessComplete (.completes none)) s := by
  have reads : s.part.readsRing Ring.atSize = true := by rw [readsRing_eq hs ha hr, Ring.atSize, beq_self_eq_true]
  exact congrArg Host.Outcome.next (if_pos reads)

/-- RETIRE_BY_READ is the completion of a read of offset R + S - 1 under an open lease. -/
theorem exec_retireByRead {t : Timer} (hs : s.part.port.serving = some (.host ⟨a, .read⟩)) (ha : s.part.decode a = .ring i k)
    (hr : s.part.liveRing i = some r) (hl : r.lease = .opened n t) (hk : k = r.r + n - 1) :
    exec .retireByRead s = exec (.hostAccessComplete (.completes none)) s := by
  have reads : s.part.readsRing Ring.atLast = true := by rw [readsRing_eq hs ha hr, Ring.atLast, hl]; exact beq_iff_eq.2 hk
  exact congrArg Host.Outcome.next (if_pos reads)

/-! ### What a snooped read does, by its offset -/

theorem snoopRing_dead (h : p.liveRing i = none) : p.snoopRing i k d = p := by rw [Part.snoopRing, h]

theorem snoopRing_size (h : p.liveRing i = some r) : p.snoopRing i (r.r + 1) d = p.readSize i r d.toNat := by
  simp only [Part.snoopRing, h, if_true]

theorem snoopRing_last {t : Timer} (h : p.liveRing i = some r) (hl : r.lease = .opened n t) (h1 : k ≠ r.r + 1)
    (hk : k = r.r + n - 1) : p.snoopRing i k d = p.retire i r n := by
  simp only [Part.snoopRing, h, if_neg h1, hl, if_pos hk]

theorem snoopRing_elsewhere (h : p.liveRing i = some r) (h1 : k ≠ r.r + 1)
    (hk : ∀ n t, r.lease = .opened n t → k ≠ r.r + n - 1) : p.snoopRing i k d = p := by
  simp only [Part.snoopRing, h, if_neg h1]
  split
  · next n t hl => exact if_neg (hk n t hl)
  · rfl

/-! ### The size word (R110) -/

theorem readSize_empty (h : r.count = 0) : p.readSize i r n = p := if_pos h

/-- A valid size with a lease time of 0 opens a lease that has lapsed. -/
theorem readSize_lapsed (hc : r.count ≠ 0) (hv : r.admitsSize (p.line i).ringSize n) (ht : (p.line i).setting 17 = 0) :
    p.readSize i r n = p.setLine i { p.line i with ring := .present { r with lease := .opened n none } }.unparked := by
  simp only [Part.readSize, if_neg hc, (sizeValid_iff _ _ _).2 hv, if_true, ht]
  exact unpark_setRing p i _

/-- A valid size with a lease time opens a live lease, which overtakes a reclaim read in flight. -/
theorem readSize_live (hc : r.count ≠ 0) (hv : r.admitsSize (p.line i).ringSize n) (ht : (p.line i).setting 17 ≠ 0) :
    p.readSize i r n =
      { p.readOvertaken i with
        lines := p.lines.set i
          { p.line i with
            ring := .present { r with lease := .opened n (some (p.now + msPeriods ((p.line i).setting 17))) } } } := by
  simp only [Part.readSize, if_neg hc, (sizeValid_iff _ _ _).2 hv, if_true, if_neg ht]
  exact (overtake_readOvertaken _).trans (readOvertaken_setLine p _)

theorem readSize_mismatch (hc : r.count ≠ 0) (hv : ¬ r.admitsSize (p.line i).ringSize n) :
    p.readSize i r n = p.latch i .headerMismatch := by
  have invalid : ¬ r.sizeValid (p.line i).ringSize n = true := fun h => hv ((sizeValid_iff _ _ _).1 h)
  simp only [Part.readSize, if_neg hc, if_neg invalid]

/-- A flag latched: word 35 is pending where the flag was clear. -/
theorem latch_event (p : Part) (i : LineNo) (f : Flag) :
    NotedEvent p (p.latch i f) i { p.line i with flags := (p.line i).flags ||| f.mask }
      (if (p.line i).flags.getLsbD f.position then [] else [35]) := by
  refine notedEvent_of (noted_latch p i f) (line_latch p i f) fun w hw => ?_
  split at hw
  · cases hw
  · next h =>
    rw [List.mem_singleton.1 hw]
    exact mem_latch_self p f (by simpa using h)

/-- Settles O40. A read of a ring word is snooped: its offset decides, and at R + 1 the size that it returns. -/
theorem ringReads : Obligations.RingReads := by
  refine ⟨fun s i a r d p l hs ha hr hd hp hl => ?size, fun s i a k d p l hs ha hd hp hl => ?other⟩
  case size =>
    subst hd hp hl
    have live : (s.part.hostRead (s.mem.readWord a)).liveRing i = some r := hr
    have size : exec .sizeWordRead s =
        answers s ((s.part.hostRead (s.mem.readWord a)).readSize i r (s.mem.readWord a).toNat) := by
      rw [exec_sizeWordRead hs ha hr, completeHost_ringRead hs ha, snoopRing_size live]
    refine ⟨fun hc => ?_, fun hc hv ht => ?_, fun hc hv ht => ?_, fun hc hv => ?_, (exec_sizeWordRead hs ha hr).symm⟩
    · rw [size, readSize_empty hc]
    · exact size.trans (congrArg (answers s) (readSize_lapsed hc hv ht))
    · exact size.trans (congrArg (answers s) (readSize_live hc hv ht))
    · exact ⟨_, size.trans (congrArg (answers s) (readSize_mismatch hc hv)), latch_event _ i .headerMismatch⟩
  case other =>
    subst hd hp hl
    have read := completeHost_ringRead hs ha
    refine ⟨fun r n t r' hr ht h1 hk h' => ⟨(exec_retireByRead hs ha hr ht hk).symm, ?_⟩, fun r hr h1 hk => ?_,
      fun hr => ?_⟩
    · have live : (s.part.hostRead (s.mem.readWord a)).liveRing i = some r := hr
      have ring : ((s.part.hostRead (s.mem.readWord a)).line i).ring = .present r := ring_of_liveRing hr
      refine ⟨_, (exec_retireByRead hs ha hr ht hk).trans (read.trans ?_), retire_event _ r r' n ring h',
        (noted_retire _ r n ring).reported⟩
      rw [snoopRing_last live ht h1 hk]
    · exact read.trans (congrArg (answers s) (snoopRing_elsewhere hr h1 hk))
    · exact read.trans (congrArg (answers s) (snoopRing_dead hr))

end Sys2Proof.Machine

/-! PROOFS. The words of a record, their writing, and the commit (R103 to R105, R107, R127, R131, R132). -/

namespace Sys2Proof.Machine

variable {s : State} {i : LineNo} {p q : Part} {l : Line} {r r' : Ring} {w : Writing} {a : Addr} {d : Word} {ws : List Nat}

/-! ### The words of an event record (R103, R105) -/

/-- The kind codes fit in the high byte. -/
theorem EventKind.code_lt (k : EventKind) : k.code.toNat < 256 := by cases k <;> decide

theorem kindWord_code (k : EventKind) (i : LineNo) : kindWord k.code i = word (256 * k.code.toNat + i.val) := by
  rw [← kindWord_eq k.code.toNat i k.code_lt, word, BitVec.ofNat_toNat, BitVec.setWidth_eq]

theorem eventWords_eq (i : LineNo) (seq n : Word) (e : Event) : eventWords i seq e n =
    [word (256 * e.kind.code.toNat + i.val), 10, seq, e.stamp.extractLsb' 16 16, e.stamp.extractLsb' 0 16, e.a, e.b, e.c, e.d,
      n] := by
  rw [← kindWord_code, ← stampHigh_eq, ← stampLow_eq]
  rfl

/-- Words at successive ring offsets. -/
theorem wordsFrom_getElem? (k : Nat) (ws : List Word) (j : Nat) :
    (wordsFrom k ws)[j]? = ws[j]?.map (fun d => (k + j, d)) := by
  induction ws generalizing k j with
  | nil => rfl
  | cons d ws ih =>
    cases j with
    | zero => rfl
    | succ j =>
      rw [wordsFrom, List.getElem?_cons_succ, List.getElem?_cons_succ, ih, Nat.add_right_comm, Nat.add_assoc]

/-! ### The words of a "DATA" record (R103, R104) -/

/-- The eight words in front of the payload area. -/
def dataHead (i : LineNo) (size : Nat) (seq : Word) (c : Contents) : List Word :=
  [word (256 + i.val), word size, seq, c.stamp.extractLsb' 16 16, c.stamp.extractLsb' 0 16, word c.bytes.length,
    word c.errors, padWord c.firstError]

/-- The words of the payload area, and the 0 that makes the size even where it would be odd. -/
def dataTail (limit : Nat) (c : Contents) : List Word := payloadWords limit c.bytes ++ List.replicate ((9 + limit / 2) % 2) 0

theorem dataWords_eq (i : LineNo) (limit size : Nat) (seq : Word) (c : Contents) :
    dataWords i limit size seq c =
      (dataHead i size seq c ++ dataTail limit c) ++ [crc (dataHead i size seq c ++ dataTail limit c)] := by
  have head : headerWords dataKind i size seq c.stamp ++ [word c.bytes.length, word c.errors, padWord c.firstError] =
      dataHead i size seq c := by
    rw [headerWords, stampHigh_eq, stampLow_eq, show kindWord dataKind i = word (256 + i.val) from kindWord_eq 1 i (by decide)]
    rfl
  simp only [dataWords, head, dataTail, List.append_assoc]

theorem length_payloadWords (limit : Nat) (bytes : List Byte) : (payloadWords limit bytes).length = limit / 2 := by
  rw [payloadWords, List.length_map, List.length_range]

theorem length_dataTail (limit : Nat) (c : Contents) : (dataTail limit c).length = limit / 2 + (9 + limit / 2) % 2 := by
  rw [dataTail, List.length_append, length_payloadWords, List.length_replicate]

/-- A word from its bytes is their concatenation. -/
theorem wordOfBytes_eq (hi lo : Byte) : wordOfBytes hi lo = hi ++ lo := by
  apply BitVec.eq_of_getLsbD_eq
  intro k hk
  rw [show (hi ++ lo : Word).getLsbD k = if k < 8 then lo.getLsbD k else hi.getLsbD (k - 8) from BitVec.getLsbD_append]
  by_cases h : k < 8
  · simp [wordOfBytes, h, hk]
  · simp [wordOfBytes, h, hk, BitVec.getLsbD_of_ge lo k (by omega)]

/-- Word `j` of the payload area holds bytes `2 j` and `2 j + 1`. -/
theorem dataTail_payload {limit j : Nat} (hj : j < limit / 2) (c : Contents) :
    (dataTail limit c)[j]? = some (c.bytes.getD (2 * j) 0 ++ c.bytes.getD (2 * j + 1) 0) := by
  rw [dataTail, List.getElem?_append_left (by rwa [length_payloadWords]), payloadWords, List.getElem?_map,
    List.getElem?_range hj, Option.map_some, wordOfBytes_eq]

/-- Where the words up to the check word would be even in number, a 0 follows the payload area. -/
theorem dataTail_filler {limit : Nat} (h : (9 + limit / 2) % 2 = 1) (c : Contents) : (dataTail limit c)[limit / 2]? = some 0 := by
  rw [dataTail, List.getElem?_append_right (by rw [length_payloadWords]), length_payloadWords, Nat.sub_self, h]
  rfl

theorem dataWords_take (i : LineNo) (limit size : Nat) (seq : Word) (c : Contents) :
    (dataWords i limit size seq c).take 8 = dataHead i size seq c := by
  rw [dataWords_eq, List.append_assoc]
  exact List.take_left' rfl

/-- A word behind the head is one of the tail. -/
theorem dataWords_behind {limit j : Nat} {x : Word} {c : Contents} (hx : (dataTail limit c)[j]? = some x) (i : LineNo)
    (size : Nat) (seq : Word) : (dataWords i limit size seq c)[8 + j]? = some x := by
  obtain ⟨hj, -⟩ := List.getElem?_eq_some_iff.1 hx
  have head : (dataHead i size seq c).length = 8 := rfl
  rw [dataWords_eq, List.append_assoc, List.getElem?_append_right (by omega), head, Nat.add_sub_cancel_left,
    List.getElem?_append_left hj, hx]

/-- The words of a "DATA" record, by their places: their number, the head, the payload, the filler, the check word. -/
theorem dataWords_places (i : LineNo) (limit : Nat) (seq : Word) (c : Contents) (ws : List Word) (size : Nat)
    (hsize : size = 9 + limit / 2 + (9 + limit / 2) % 2) (hws : ws = dataWords i limit size seq c) :
    ws.length = size ∧ (16 ≤ limit → limit ≤ 256 → 18 ≤ size ∧ size ≤ 138) ∧ ws.take 8 = dataHead i size seq c ∧
      (∀ j, j < limit / 2 → ws[8 + j]? = some (c.bytes.getD (2 * j) 0 ++ c.bytes.getD (2 * j + 1) 0)) ∧
      ((9 + limit / 2) % 2 = 1 → ws[8 + limit / 2]? = some 0) ∧ ws.getLast? = some (crc ws.dropLast) := by
  subst hws
  refine ⟨?length, fun h16 h256 => by omega, dataWords_take i limit size seq c,
    fun j hj => dataWords_behind (dataTail_payload hj c) i size seq,
    fun h => dataWords_behind (dataTail_filler h c) i size seq, ?check⟩
  case length =>
    have head : (dataHead i size seq c).length = 8 := rfl
    rw [dataWords_eq, List.length_append, List.length_append, head, length_dataTail, List.length_singleton]
    omega
  case check => rw [dataWords_eq, List.getLast?_concat, List.dropLast_concat]

/-! ### A record word completes (R131) -/

/-- A word that is not the last of its record completes with no pin reset waiting: the writer presents the next. -/
theorem exec_recordWordComplete (hr : s.part.resetPending = false) (hs : s.part.port.serving = some (.recordWord a d))
    (hf : s.part.writer.flight = some ⟨i, .writing w⟩) (h : 1 < w.todo.length) :
    exec .recordWordComplete s =
      .next { s with part := (s.part.freePort.nextWord i w).arbitrate, mem := Memory.writeLanes s.mem a .both d } := by
  show execRecordWordComplete s = _
  simp only [execRecordWordComplete, hs, hf, if_pos h, State.complete, Memory.access, Part.completed, hr]
  rfl

/-- The last word of a record completes with no pin reset waiting: the record commits. -/
theorem exec_commit (hr : s.part.resetPending = false) (hs : s.part.port.serving = some (.recordWord a d))
    (hf : s.part.writer.flight = some ⟨i, .writing w⟩) (h : w.todo.length = 1) :
    exec .commit s =
      .next { s with part := (s.part.freePort.commitRecord i w).arbitrate, mem := Memory.writeLanes s.mem a .both d } := by
  show execCommit s = _
  simp only [execCommit, hs, hf, if_pos h, State.complete, Memory.access, Part.completed, hr]
  rfl

/-! ### The commit (R107, R127, R132) -/

/-- What follows the commit of a record other than a "GAP": its buffer is free, and the turn ends. -/
def Part.endTurn (p : Part) (i : LineNo) (job : TakenJob) : Part := (p.onLine i fun l => l.freeJob job).setFlight none

theorem commitRecord_record (hr : (p.line i).ring = .present r) (hg : w.isGap = false) :
    p.commitRecord i w = (p.commitRing i r w.size w.pad w.seq).endTurn i w.job := by
  simp only [Part.commitRecord, Line.ring?, hr, hg]
  rfl

/-- The line once a record of its ring has committed. -/
theorem line_commitRing (n : Nat) (pad : Option Nat) (seq : Word) (hr : (p.line i).ring = .present r)
    (h' : r' = r.withRecord (p.line i).ringSize n pad seq p.now ((p.line i).setting 16)) :
    (p.commitRing i r n pad seq).line i = { p.line i with ring := .present r' } := by
  obtain ⟨⟨_, line, _⟩, _⟩ := commitRing_event p r r' n pad seq hr h'
  exact line

/-- A committed "GAP" is followed by its job's record. -/
theorem commitRecord_gap (hr : (p.line i).ring = .present r) (hg : w.isGap = true)
    (h' : r' = r.withRecord (p.line i).ringSize w.size w.pad w.seq p.now ((p.line i).setting 16)) :
    p.commitRecord i w = (p.commitRing i r w.size w.pad w.seq).startRecord i r' w.job w.place := by
  simp only [Part.commitRecord, Line.ring?, hr, hg, if_true, line_commitRing w.size w.pad w.seq hr h']

theorem freeJob_eq (l : Line) (job : TakenJob) : l.freeJob job =
    { l with buffers := match job with | .data b => l.buffers.set b .free | .event _ _ => l.buffers } := by
  cases job <;> rfl

theorem noted_freeJob (p : Part) (i : LineNo) (job : TakenJob) : Noted i p (p.onLine i fun l => l.freeJob job) := by
  refine noted_onLine p i _ ?_ fun w => ?_
  · rw [freeJob_eq]
    rfl
  · rw [freeJob_eq]
    rfl

/-- An event of a line with a change of the job in flight. -/
theorem NotedEvent.setFlight (e : NotedEvent p q i l ws) (n : Noted i p q) (f : Option Flight) :
    NotedEvent { p with writer := ⟨f, p.writer.pointer⟩ } (q.setFlight f) i l ws := by
  obtain ⟨event, _⟩ := e
  exact ⟨event.setFlight f, (n.setFlight f).reported⟩

/-- The LCB words that a commit queues, in order: `r` becomes `r'`, `pad` is laid before the record (R107). -/
def commitReports (l : Line) (r r' : Ring) (pad : Option Nat) : List Nat :=
  [42, 39, 40] ++ (if pad = none then [] else [41]) ++ (if r'.r = r.r then [] else [38]) ++
    (if r'.due (l.setting 15) = r.due (l.setting 15) then [] else [36]) ++ [37]

theorem mem_unless {c : Prop} [Decidable c] {k x : Nat} (h : k ∈ if c then [] else [x]) : k = x := by
  split at h
  · cases h
  · exact List.mem_singleton.1 h

theorem mem_commitReports {pad : Option Nat} {k : Nat} (h : k ∈ commitReports l r r' pad) : 36 ≤ k ∧ k ≤ 42 := by
  simp only [commitReports, List.mem_append] at h
  rcases h with (((first | pad) | moved) | due) | last
  · simp only [List.mem_cons, List.not_mem_nil, or_false] at first
    omega
  · rw [mem_unless pad]; decide
  · rw [mem_unless moved]; decide
  · rw [mem_unless due]; decide
  · rw [List.mem_singleton.1 last]; decide

/-- A record committed in its ring is an event of the line. -/
theorem commitRing_noted (n : Nat) (pad : Option Nat) (seq : Word) (hr : (p.line i).ring = .present r)
    (h' : r' = r.withRecord (p.line i).ringSize n pad seq p.now ((p.line i).setting 16)) :
    NotedEvent p (p.commitRing i r n pad seq) i { p.line i with ring := .present r' } (commitReports (p.line i) r r' pad) := by
  obtain ⟨event, _⟩ := commitRing_event p r r' n pad seq hr h'
  exact ⟨event, (noted_commitRing p i r n pad seq hr).reported⟩

/-- With none of the ring words pending, the commit leaves exactly its own, in their order. -/
theorem ringReports_commitRing (n : Nat) (pad : Option Nat) (seq : Word) (hr : (p.line i).ring = .present r)
    (h' : r' = r.withRecord (p.line i).ringSize n pad seq p.now ((p.line i).setting 16))
    (hn : ∀ k v, 36 ≤ k → k ≤ 42 → (ReportWord.lcb i k, v) ∉ p.reports) :
    ringReports i (p.commitRing i r n pad seq).reports = (commitReports (p.line i) r r' pad).map (.lcb i) := by
  obtain ⟨_, order⟩ := commitRing_event p r r' n pad seq hr h'
  exact order hn

/-- The end of the turn keeps the words of the ring pending. -/
theorem endTurn_event (n : Noted i p q) (e : NotedEvent p q i l ws) (hl : l.ring = .present r)
    (hw : ∀ k ∈ ws, 36 ≤ k ∧ k ≤ 42) (job : TakenJob) :
    NotedEvent { p with writer := ⟨none, p.writer.pointer⟩ } (q.endTurn i job) i (l.freeJob job) ws := by
  have free := noted_freeJob q i job
  have freed : (q.onLine i fun l => l.freeJob job).line i = l.freeJob job := by rw [line_onLine, e.line_eq]
  refine NotedEvent.setFlight (notedEvent_of (n.trans free) freed fun k hk => ?_) (n.trans free) none
  have ring : (q.line i).ring = .present r := by rw [e.line_eq, hl]
  have ring' : ((q.onLine i fun l => l.freeJob job).line i).ring = .present r := by rw [freed, freeJob_eq, hl]
  have range : 32 ≤ k ∧ k ≤ 53 := by have := hw k hk; omega
  exact free.keeps (reports_ring ring range) (reports_ring ring' range) (e.pends hk)

/-- The writing of a job's record, as it starts in a ring `r` of the line. -/
theorem startRecord_eq (hl : q.line i = { l with ring := .present r }) (job : TakenJob) (pl : Placement) :
    q.startRecord i r job pl = q.setFlight (some ⟨i, .writing
      ⟨job, false, pl, r.nextSeq, l.jobSize job, pl.pad,
        padWords i l.ringSize pl.pad ++ wordsFrom pl.offset (l.jobWords i r.nextSeq job)⟩⟩) := by
  rw [Part.startRecord, hl]
  cases job <;> rfl

/-- Settles O43. The words of a record are its lists, place by place. A record word that completes is the writer's next word; the
last one is the commit of the ring, after which the turn ends, or the record behind a "GAP" starts. -/
theorem recordWriting : Obligations.RecordWriting := by
  refine ⟨⟨rfl, eventWords_eq, fun i limit seq c ws size hsize hws => ?words, wordsFrom_getElem?⟩,
    fun s i w a d r r' p l hr hs hf hp hl => ⟨fun h => ?next, fun h hring h' => ?commit⟩⟩
  case words =>
    obtain ⟨length, bounds, head, payload, filler, check⟩ := dataWords_places i limit seq c ws size hsize hws
    refine ⟨length, bounds, head.trans ?_, payload, filler, check⟩
    rw [dataHead]
    cases c.firstError <;> rfl
  case next =>
    subst hp
    exact exec_recordWordComplete hr hs hf h
  case commit =>
    subst hp hl
    have ring : (s.part.freePort.line i).ring = .present r := hring
    have event := commitRing_noted w.size w.pad w.seq ring h'
    have noted := noted_commitRing s.part.freePort i r w.size w.pad w.seq ring
    refine ⟨s.part.freePort.commitRecord i w, exec_commit hr hs hf h, fun hn => ?order, fun hg => ?turn, fun hg => ?record⟩
    case order =>
      have order := ringReports_commitRing w.size w.pad w.seq ring h' hn
      cases hg : w.isGap with
      | false => rw [commitRecord_record ring hg]; exact order
      | true => rw [commitRecord_gap ring hg h']; exact order
    case turn =>
      rw [commitRecord_record ring hg]
      have turn := endTurn_event noted event rfl (fun _ => mem_commitReports) w.job
      rw [freeJob_eq] at turn
      exact turn
    case record =>
      rw [commitRecord_gap ring hg h', startRecord_eq event.line_eq]
      exact event.setFlight noted _

end Sys2Proof.Machine

/-! PROOFS. The reads of a resume walk: a read that is kept, the checks that follow the last read of a step, and what ends the
walk (R115 to R118, R133). -/

namespace Sys2Proof.Machine

variable {s : State} {i : LineNo} {p : Part} {a : Addr} {got : List Word} {abandoned : Option Addr} {d : Word}
variable {run : WalkRun} {size : Nat}

/-! ### A walk read returns (R133) -/

/-- The last read of a step, or a read of an abandoned one, goes to the Capture Writer when no pin reset waits. -/
theorem exec_walkReadReturn (hr : s.part.resetPending = false) (hs : s.part.port.serving = some (.walkRead a))
    (hf : s.part.writer.flight = some ⟨i, .walkStep got abandoned⟩)
    (h : abandoned.isSome = true ∨ got.length + 1 = (s.part.line i).stepReads) :
    exec .walkReadReturn s = answers s (s.part.freePort.walkReturns i got abandoned (s.mem.readWord a)) := by
  show execWalkReadReturn s = _
  simp only [execWalkReadReturn, hs, hf, if_pos h, State.complete, Memory.access, Part.completed, hr]
  rfl

/-- So does a read that is not the last of its step. -/
theorem exec_walkReadComplete (hr : s.part.resetPending = false) (hs : s.part.port.serving = some (.walkRead a))
    (hf : s.part.writer.flight = some ⟨i, .walkStep got abandoned⟩)
    (h : abandoned.isSome = true ∨ got.length + 1 < (s.part.line i).stepReads) :
    exec .walkReadComplete s = answers s (s.part.freePort.walkReturns i got abandoned (s.mem.readWord a)) := by
  show execWalkReadComplete s = _
  simp only [execWalkReadComplete, hs, hf, if_pos h, State.complete, Memory.access, Part.completed, hr]
  rfl

theorem walkReturns_abandoned (h : abandoned.isSome = true) : p.walkReturns i got abandoned d = p.setFlight none := if_pos h

theorem walkReturns_kept (h : got.length + 1 ≠ (p.line i).stepReads) :
    p.walkReturns i got none d = p.setFlight (some ⟨i, .walkStep (got ++ [d]) none⟩) := if_neg h

theorem walkReturns_last (h : got.length + 1 = (p.line i).stepReads) :
    p.walkReturns i got none d = (p.setFlight none).walkStep i (got ++ [d]) := if_pos h

theorem stepReads_pointers {l : Line} (h : l.walk = some .pointers) : l.stepReads = 5 := by rw [Line.stepReads, h]

theorem stepReads_records {l : Line} (h : l.walk = some (.records run)) : l.stepReads = 3 := by rw [Line.stepReads, h]

/-! ### How a step ends the walk, or carries it on (R116 to R118) -/

theorem walkFails_noted (p : Part) (i : LineNo) (reason : WalkReason) :
    NotedEvent p (p.walkFails i reason) i ((p.line i).walkFailed reason.code p.counter)
      (walkReports ((p.line i).walkFailed reason.code p.counter)) :=
  ⟨walkFails_reports p reason, (noted_walkFails p i reason).reported⟩

theorem walkContinues_noted {w : Walk} (hw : (p.line i).walk = some w) (run : WalkRun) :
    NotedEvent p (p.walkContinues i run) i ((p.line i).walkedTo run p.now p.counter)
      (walkReports ((p.line i).walkedTo run p.now p.counter)) :=
  ⟨walkContinues_event p run, (noted_walkContinues p i run (by rw [hw]; rfl)).reported⟩

/-! ### The first step: the pointers (R115) -/

theorem walkStep_pointers {w r next pad : Word} (h : (p.line i).walk = some .pointers) :
    p.walkStep i [w, r, next, pad, d] = p.walkPointers i w r next pad d := by simp only [Part.walkStep, h]

/-- The five words read fail the checks of R115 for a ring of `size` words: W, R, the pad start, the words occupied. -/
def BadPointers (size : Nat) (w r pad occupied : Word) : Prop :=
  w.toNat % 2 = 1 ∨ size ≤ w.toNat ∨ r.toNat % 2 = 1 ∨ size ≤ r.toNat ∨
    pad ≠ 0xFFFF ∧ (pad.toNat % 2 = 1 ∨ size ≤ pad.toNat) ∨ w = r ∧ occupied ≠ 0 ∧ occupied.toNat ≠ size

theorem pointersSound_iff (size : Nat) (w r pad occupied : Word) :
    pointersSound size w.toNat r.toNat pad.toNat occupied.toNat = true ↔ ¬ BadPointers size w r pad occupied := by
  have noPad : pad = 0xFFFF ↔ pad.toNat = 65535 := BitVec.toNat_inj.symm
  have same : w = r ↔ w.toNat = r.toNat := BitVec.toNat_inj.symm
  simp only [pointersSound, BadPointers, ne_eq, noPad, same, ← toNat_eq_zero_iff, Bool.and_eq_true, Bool.or_eq_true,
    beq_iff_eq, bne_iff_ne, decide_eq_true_iff]
  omega

theorem walkPointers_fails {w r next pad : Word} (hz : (p.line i).ringSize = size) (h : BadPointers size w r pad d) :
    p.walkPointers i w r next pad d = p.walkFails i .pointers := by
  subst hz
  exact if_neg fun sound => (pointersSound_iff _ _ _ _ _).1 sound h

theorem walkPointers_holds {w r next pad : Word} (hz : (p.line i).ringSize = size) (h : ¬ BadPointers size w r pad d) :
    p.walkPointers i w r next pad d = p.walkContinues i
      ⟨w.toNat, r.toNat, next, walkWords size w.toNat r.toNat d.toNat, r.toNat, walkWords size w.toNat r.toNat d.toNat, 0,
        none, none⟩ := by
  subst hz
  exact if_pos ((pointersSound_iff _ _ _ _ _).2 h)

/-! ### A further step: a record header (R116) -/

theorem walkStep_records {h0 h1 : Word} (h : (p.line i).walk = some (.records run)) :
    p.walkStep i [h0, h1, d] = p.walkHeader i run h0 h1 d := by simp only [Part.walkStep, h]

/-- The checks of R116 in their order, each with the code of its reason and whether it fails: `k` and `m` are the kind and the
line of header word 0, `n` the size, `seq` the sequence. -/
def WalkRun.checks (run : WalkRun) (i : LineNo) (size k m n : Nat) (seq : Word) : List (Word × Bool) :=
  [(2, decide (k ≠ 0x01 ∧ k ≠ 0x0F ∧ (k < 0x10 ∨ 0x1A < k))), (3, decide (m ≠ i.val)),
    (4, decide (k = 0x0F ∧ (run.pos = run.r ∨ run.pad ≠ none ∨ run.pos + n ≠ size))),
    (5, decide (0x10 ≤ k ∧ n ≠ 10 ∨ k = 0x01 ∧ (n % 2 = 1 ∨ n < 18 ∨ 138 < n))),
    (7, decide (run.remaining < n ∨ size < run.pos + n)),
    (6, decide (k ≠ 0x0F ∧ run.lastSeq ≠ none ∧ run.lastSeq ≠ some (seq - 1)))]

/-- The code of the first check of a list that fails. -/
def firstFailed (cs : List (Word × Bool)) : Option Word := (cs.find? (·.2)).map Prod.fst

/-- The first check fails with its reason, or it passes and the rest decide. -/
theorem firstFailed_cons {c bad : Prop} [Decidable c] [Decidable bad] {reason : WalkReason} {rest : Option WalkReason}
    {cs : List (Word × Bool)} (hc : c ↔ bad) (h : ¬ bad → rest.map WalkReason.code = firstFailed cs) :
    (if c then some reason else rest).map WalkReason.code = firstFailed ((reason.code, decide bad) :: cs) := by
  by_cases hb : bad
  · rw [if_pos (hc.2 hb), decide_eq_true hb]; rfl
  · rw [if_neg (mt hc.1 hb), decide_eq_false hb, h hb]; rfl

/-- The reason that the model gives is the first of the checks of R116 that fails. -/
theorem check_eq_firstFailed (run : WalkRun) (i : LineNo) (size k m n : Nat) (seq : Word) :
    (run.check i size k m n seq).map WalkReason.code = firstFailed (run.checks i size k m n seq) := by
  have data : dataKind.toNat = 1 := rfl
  have pad : padKind.toNat = 15 := rfl
  unfold WalkRun.check
  refine firstFailed_cons ?kind fun known => firstFailed_cons Iff.rfl fun _ => firstFailed_cons ?pad fun _ =>
    firstFailed_cons ?size fun _ => firstFailed_cons Iff.rfl fun _ => firstFailed_cons ?sequence fun _ => rfl
  case kind =>
    simp only [isEventKind, data, pad, Bool.not_eq_true', Bool.or_eq_false_iff, beq_eq_false_iff_ne, Bool.and_eq_false_iff,
      decide_eq_false_iff_not]
    omega
  case pad =>
    simp only [pad, Option.isSome_iff_ne_none, Bool.and_eq_true, Bool.or_eq_true, beq_iff_eq, bne_iff_ne, or_assoc]
  case size =>
    have event : 0x10 ≤ k → k ≤ 0x1A := by omega
    simp only [isEventKind, data, Bool.and_eq_true, Bool.or_eq_true, beq_iff_eq, bne_iff_ne, decide_eq_true_iff, or_assoc]
    omega
  case sequence =>
    simp only [pad, Option.isSome_iff_ne_none, Bool.and_eq_true, Bool.not_eq_true', beq_eq_false_iff_ne, bne_iff_ne, and_assoc]

theorem walkHeader_fails {h0 h1 : Word} {reason : WalkReason} (hz : (p.line i).ringSize = size)
    (h : run.check i size (hiByte h0).toNat (loByte h0).toNat h1.toNat d = some reason) :
    p.walkHeader i run h0 h1 d = p.walkFails i reason := by simp only [Part.walkHeader, hz, h]

theorem walkHeader_holds {h0 h1 : Word} (hz : (p.line i).ringSize = size)
    (h : run.check i size (hiByte h0).toNat (loByte h0).toNat h1.toNat d = none) :
    p.walkHeader i run h0 h1 d = p.walkContinues i (run.counted size (hiByte h0).toNat h1.toNat d) := by
  simp only [Part.walkHeader, hz, h]

/-- Settles O45. A read that returns is what the writer does with it; the last of a step is the step's checks, and each end of
them is an event of the line. -/
theorem walkReads : Obligations.WalkReads := by
  intro s i a got abandoned d p l size hr hs hf hd hl hsize hp ends
  subst hd hl
  have hp : s.part.freePort.setFlight none = p := hp.symm
  have line : p.line i = s.part.line i := by rw [← hp]; rfl
  have hz : (p.line i).ringSize = size := by rw [line, hsize]
  have last (hn : abandoned = none) (h : got.length + 1 = (s.part.line i).stepReads) :
      exec .walkReadReturn s = answers s (p.walkStep i (got ++ [s.mem.readWord a])) := by
    subst hn
    rw [exec_walkReadReturn hr hs hf (.inr h), walkReturns_last (p := s.part.freePort) h, hp]
  have fails {reason : WalkReason} (h : exec .walkReadReturn s = answers s (p.walkFails i reason)) :
      ends ((s.part.line i).walkFailed reason.code p.counter) := ⟨_, h, line ▸ walkFails_noted p i reason⟩
  have goesOn {w : Walk} {run : WalkRun} (hw : (p.line i).walk = some w)
      (h : exec .walkReadReturn s = answers s (p.walkContinues i run)) :
      ends ((s.part.line i).walkedTo run p.now p.counter) := ⟨_, h, line ▸ walkContinues_noted hw run⟩
  refine ⟨fun ha => ?abandoned, fun hn h => ?kept, fun w r next pad hn hw hg => ?pointers, fun run h0 h1 hn hw hg => ?header⟩
  case abandoned =>
    have ha := Option.isSome_iff_ne_none.2 ha
    rw [exec_walkReadComplete hr hs hf (.inl ha), exec_walkReadReturn hr hs hf (.inl ha), walkReturns_abandoned ha, hp]
    exact ⟨rfl, rfl⟩
  case kept =>
    subst hn
    have more : got.length + 1 < (s.part.line i).stepReads := h
    rw [exec_walkReadComplete hr hs hf (.inr more), walkReturns_kept (p := s.part.freePort) (Nat.ne_of_lt more), ← hp]
    rfl
  case pointers =>
    have step := last hn (by rw [hg, stepReads_pointers hw]; rfl)
    rw [← line] at hw
    simp only [hg, List.cons_append, List.nil_append, walkStep_pointers hw] at step
    refine ⟨fun bad => fails (reason := .pointers) ?_, fun sound => goesOn hw ?_⟩
    · rw [step, walkPointers_fails hz bad]
    · exact step.trans (congrArg (answers s) (walkPointers_holds hz sound))
  case header =>
    have step := last hn (by rw [hg, stepReads_records hw]; rfl)
    rw [← line] at hw
    simp only [hg, List.cons_append, List.nil_append, walkStep_records hw] at step
    intro k n checks
    have first := check_eq_firstFailed run i size k (loByte h0).toNat n (s.mem.readWord a)
    refine ⟨fun c hc => ?_, fun hc => goesOn hw ?_⟩
    · have failed : firstFailed checks = some c.1 := by rw [firstFailed, hc]; rfl
      obtain ⟨reason, hreason, hcode⟩ := Option.map_eq_some_iff.1 (first.trans failed)
      rw [← hcode]
      exact fails (step.trans (congrArg (answers s) (walkHeader_fails hz hreason)))
    · have passed : firstFailed checks = none := by rw [firstFailed, hc]; rfl
      have holds := Option.map_eq_none_iff.1 (first.trans passed)
      exact step.trans (congrArg (answers s) (walkHeader_holds hz holds))

end Sys2Proof.Machine

/-! PROOFS. The selection of the Capture Writer: the work that a line offers, the round robin, the start of a turn (R121 to R123). -/

namespace Sys2Proof.Machine

variable {i j : LineNo} {p : Part} {n : Nat}

/-! ### The work that a line offers (R121) -/

/-- Line `i` exists and has a walk under way, or no parked job and a job, retained or listed. -/
def Part.Offers (p : Part) (i : LineNo) : Prop :=
  p.hasLine i = true ∧
    ((p.line i).walk ≠ none ∨ (p.line i).parked = none ∧ ((p.line i).retained ≠ none ∨ (p.line i).jobs ≠ []))

theorem work_walk {l : Line} (h : l.walk ≠ none) : l.work = some .walk := if_pos (Option.isSome_iff_ne_none.2 h)

theorem work_parked {l : Line} {job : TakenJob} (hw : l.walk = none) (hp : l.parked = some job) : l.work = none := by
  simp only [Line.work, Line.resuming, hw, hp, Option.isSome_none, Option.isSome_some, Bool.false_eq_true, if_false, if_true]

/-- With no walk under way and no job parked, a retained job goes before the list. -/
theorem work_retained {l : Line} {job : TakenJob} (hw : l.walk = none) (hp : l.parked = none) (hr : l.retained = some job) :
    l.work = some (.retained job) := by
  simp only [Line.work, Line.resuming, hw, hp, hr, Option.isSome_none, Bool.false_eq_true, if_false]

theorem work_front {l : Line} (hw : l.walk = none) (hp : l.parked = none) (hr : l.retained = none) :
    l.work = l.jobs.head?.map .listed := by
  simp only [Line.work, Line.resuming, hw, hp, hr, Option.isSome_none, Bool.false_eq_true, if_false]

theorem work_listed {l : Line} {job : Job} {rest : List Job} (hw : l.walk = none) (hp : l.parked = none)
    (hr : l.retained = none) (hj : l.jobs = job :: rest) : l.work = some (.listed job) := by
  rw [work_front hw hp hr, hj]
  rfl

theorem work_isSome_iff (l : Line) :
    l.work.isSome = true ↔ l.walk ≠ none ∨ l.parked = none ∧ (l.retained ≠ none ∨ l.jobs ≠ []) := by
  cases hw : l.walk with
  | some w => simp [work_walk (hw ▸ Option.some_ne_none w)]
  | none =>
    cases hp : l.parked with
    | some job => simp [work_parked hw hp]
    | none =>
      cases hr : l.retained with
      | some job => simp [work_retained hw hp hr]
      | none => cases hj : l.jobs <;> simp [work_front hw hp hr, hj]

theorem offersWork_iff (p : Part) (i : LineNo) : p.offersWork i = true ↔ p.Offers i := by
  rw [Part.offersWork, Bool.and_eq_true, work_isSome_iff, Part.Offers]

/-! ### The highest service level on offer (R122) -/

/-- A bound of a running maximum over some elements of a list is a bound of where it starts and of each of them. -/
theorem foldl_max_le_iff {α : Type} (c : α → Bool) (f : α → Nat) (xs : List α) (m n : Nat) :
    xs.foldl (fun top x => if c x then max top (f x) else top) m ≤ n ↔ m ≤ n ∧ ∀ x ∈ xs, c x = true → f x ≤ n := by
  induction xs generalizing m with
  | nil => simp
  | cons x xs ih =>
    rw [List.foldl_cons, ih, List.forall_mem_cons]
    cases c x <;> simp [and_assoc]

theorem topLevel_le_iff : p.topLevel ≤ n ↔ ∀ j, p.Offers j → (p.line j).level + 1 ≤ n := by
  simp only [Part.topLevel, foldl_max_le_iff, List.mem_finRange, forall_const, offersWork_iff, Nat.zero_le, true_and]

/-- The top level is that of a line on offer that no other exceeds. -/
theorem topLevel_eq (hi : p.Offers i) (h : ∀ j, p.Offers j → (p.line j).level ≤ (p.line i).level) :
    p.topLevel = (p.line i).level + 1 :=
  Nat.le_antisymm (topLevel_le_iff.2 fun j hj => Nat.succ_le_succ (h j hj)) (topLevel_le_iff.1 (Nat.le_refl _) i hi)

/-! ### The round robin (R122) -/

/-- The place of line `i` in the order after the pointer. -/
def Part.turn (p : Part) (i : LineNo) : Nat :=
  match p.writer.pointer with | none => i.val | some k => (i.val + 31 - k.val) % 32

theorem turnOrder_start (h : p.writer.pointer = none) : p.turnOrder = List.finRange 32 := by rw [Part.turnOrder, h]

theorem turnOrder_after {k : LineNo} (h : p.writer.pointer = some k) :
    p.turnOrder = (List.finRange 32).map fun j => k + 1 + j := by rw [Part.turnOrder, h]

theorem length_turnOrder (p : Part) : p.turnOrder.length = 32 := by
  cases h : p.writer.pointer with
  | none => rw [turnOrder_start h, List.length_finRange]
  | some k => rw [turnOrder_after h, List.length_map, List.length_finRange]

/-- The line at place `n` of the order has turn `n`. -/
theorem turn_turnOrder (p : Part) (n : Nat) (hn : n < p.turnOrder.length) : p.turn p.turnOrder[n] = n := by
  have bound := length_turnOrder p
  cases h : p.writer.pointer with
  | none => simp [Part.turn, h, turnOrder_start h]
  | some k =>
    simp only [Part.turn, h, turnOrder_after h, List.getElem_map, List.getElem_finRange, Fin.val_add, Fin.val_one,
      Fin.val_cast]
    omega

theorem turn_lt (p : Part) (i : LineNo) : p.turn i < p.turnOrder.length := by
  rw [length_turnOrder, Part.turn]
  split
  · exact i.isLt
  · exact Nat.mod_lt _ (by decide)

theorem turnOrder_turn (p : Part) (i : LineNo) : p.turnOrder[p.turn i]'(turn_lt p i) = i := by
  cases h : p.writer.pointer with
  | none => simp [Part.turn, h, turnOrder_start h]
  | some k =>
    apply Fin.ext
    simp only [Part.turn, h, turnOrder_after h, List.getElem_map, List.getElem_finRange, Fin.val_add, Fin.val_one,
      Fin.val_cast]
    omega

/-! ### The line selected (R122) -/

/-- The lines on offer are of a lower level than line `i`, or of its level and not before it in turn. -/
def Part.First (p : Part) (i : LineNo) : Prop :=
  ∀ j, p.Offers j →
    (p.line j).level < (p.line i).level ∨ (p.line j).level = (p.line i).level ∧ p.turn i ≤ p.turn j

theorem selected_first (hi : p.Offers i) (h : p.First i) : p.selected = some i := by
  have top : p.topLevel = (p.line i).level + 1 :=
    topLevel_eq hi fun j hj => (h j hj).elim Nat.le_of_lt fun ⟨same, _⟩ => Nat.le_of_eq same
  refine List.find?_eq_some_iff_getElem.2 ⟨?_, p.turn i, turn_lt p i, turnOrder_turn p i, fun n hn => ?_⟩
  · rw [(offersWork_iff p i).2 hi, top, beq_self_eq_true, Bool.and_self]
  · have hlt := Nat.lt_trans hn (turn_lt p i)
    have later := turn_turnOrder p n hlt
    rw [Bool.not_eq_true', Bool.and_eq_false_imp, top, beq_eq_false_iff_ne]
    intro offers level
    rcases h _ ((offersWork_iff p _).1 offers) with lower | ⟨_, turn⟩ <;> omega

theorem selected_none (h : ∀ i, ¬ p.Offers i) : p.selected = none := by
  refine List.find?_eq_none.2 fun i _ offers => h i ((offersWork_iff p i).1 ?_)
  exact Bool.and_elim_left offers

theorem writerSelects_idle (h : p.writer.flight ≠ none ∨ ∀ i, ¬ p.Offers i) : p.writerSelects = p := by
  unfold Part.writerSelects
  split
  · next i hf hs =>
    rcases h with busy | none
    · exact absurd hf busy
    · rw [selected_none none] at hs
      cases hs
  · rfl

theorem writerSelects_first {work : Work} (hf : p.writer.flight = none) (hi : p.Offers i) (h : p.First i)
    (hw : (p.line i).work = some work) :
    p.writerSelects = Part.startTurn { p with writer := ⟨none, some i⟩ } i work := by
  simp only [Part.writerSelects, hf, selected_first hi h, hw]

/-- Settles O41. An idle writer selects the first line after the pointer of the top level; its turn starts on the work it offers. -/
theorem writerSelects : Obligations.WriterSelects := by
  intro s p hp offers turn
  subst hp
  refine ⟨fun h => congrArg (answers s) (writerSelects_idle h), fun i l hf hi hl hfirst => ?_⟩
  subst hl
  have starts {work : Work} (hw : (s.part.line i).work = some work) :
      exec .writerSelect s = answers s (Part.startTurn { s.part with writer := ⟨none, some i⟩ } i work) :=
    congrArg (answers s) (writerSelects_first hf hi hfirst hw)
  have unparked (hw : (s.part.line i).walk = none) : (s.part.line i).parked = none := by
    obtain ⟨_, walk | ⟨parked, _⟩⟩ := hi
    · exact absurd hw walk
    · exact parked
  refine ⟨fun hw => ?walk, fun job hw hr => ?retained, fun b rest hw hr hj => ?data, fun e rest hw hr hj => ?event⟩
  case walk => exact starts (work_walk hw)
  case retained => exact starts (work_retained hw (unparked hw) hr)
  case data =>
    obtain rfl : (s.part.line i).jobs.tail = rest := by rw [hj]; rfl
    exact starts (work_listed hw (unparked hw) hr hj)
  case event =>
    obtain rfl : (s.part.line i).jobs.tail = rest := by rw [hj]; rfl
    exact starts (work_listed hw (unparked hw) hr hj)

end Sys2Proof.Machine

/-! PROOFS. The space check of a taken job: its layout, and what follows where it fits and where it does not (R124 to R129). -/

namespace Sys2Proof.Machine

variable {i : LineNo} {p : Part} {r : Ring} {job : TakenJob} {pl g : Placement} {size n need : Nat}

/-! ### The layout (R124) -/

theorem placeFrom_eq (size k n : Nat) :
    placeFrom size k n = ⟨if size - k < n then some k else none, if size - k < n then 0 else k⟩ := by
  rw [placeFrom]
  split <;> rfl

theorem padSize_placeFrom (size k n : Nat) :
    (placeFrom size k n).padSize size = if size - k < n then size - k else 0 := by
  rw [placeFrom]
  split <;> rfl

/-- The pad of a record with no "GAP" counts only where the ring holds words. -/
theorem layoutRecord_eq (r : Ring) (size n : Nat) :
    r.layoutRecord size n =
      ⟨none, placeFrom size r.w n, (if size - r.w < n ∧ r.occupied ≠ 0 then size - r.w else 0) + n⟩ := by
  have counted : (if r.occupied = 0 then 0 else (placeFrom size r.w n).padSize size) =
      if size - r.w < n ∧ r.occupied ≠ 0 then size - r.w else 0 := by
    rw [padSize_placeFrom]
    by_cases h : r.occupied = 0
    · rw [if_pos h, if_neg fun c => c.2 h]
    · rw [if_neg h]
      exact if_congr (and_iff_left h).symm rfl rfl
  rw [Ring.layoutRecord, counted]

/-- On an empty ring a "GAP" and its record that do not both fit behind W go to the ring's start together. -/
theorem layoutGap_whole (h : r.occupied = 0 ∧ size - r.w < 10 + n) :
    r.layoutGap size n = ⟨some ⟨some r.w, 0⟩, ⟨none, 10⟩, 10 + n⟩ := if_pos h

/-- Else each of the two is placed by itself, the record behind the "GAP". -/
theorem layoutGap_apart (h : ¬(r.occupied = 0 ∧ size - r.w < 10 + n)) (hg : g = placeFrom size r.w 10)
    (hp : pl = placeFrom size (wrapOffset size g.offset 10) n) :
    r.layoutGap size n = ⟨some g, pl, g.padSize size + 10 + pl.padSize size + n⟩ := by
  subst hp hg
  exact if_neg h

/-! ### Where the job fits (R127, R131) -/

theorem spaceCheck_record (hr : (p.line i).ring = .present r)
    (hlay : r.layout (p.line i).ringSize ((p.line i).jobSize job) = ⟨none, pl, need⟩)
    (h : need ≤ (p.line i).ringSize - r.occupied) : p.spaceCheck i job = p.startRecord i r job pl := by
  simp only [Part.spaceCheck, ring?_of_present hr, hlay, if_pos h]

theorem spaceCheck_gap (hr : (p.line i).ring = .present r)
    (hlay : r.layout (p.line i).ringSize ((p.line i).jobSize job) = ⟨some g, pl, need⟩)
    (h : need ≤ (p.line i).ringSize - r.occupied) : p.spaceCheck i job = p.startGap i r job g pl := by
  simp only [Part.spaceCheck, ring?_of_present hr, hlay, if_pos h]

/-! ### Where it does not fit (R126, R128, R129) -/

/-- The layout of the job needs more words than the ring has free. -/
def Part.LacksRoom (p : Part) (i : LineNo) (r : Ring) (job : TakenJob) : Prop :=
  (p.line i).ringSize - r.occupied < (r.layout (p.line i).ringSize ((p.line i).jobSize job)).need

theorem lacksRoom_of {gap : Option Placement}
    (hlay : r.layout (p.line i).ringSize ((p.line i).jobSize job) = ⟨gap, pl, need⟩)
    (h : (p.line i).ringSize - r.occupied < need) : p.LacksRoom i r job := by
  rw [Part.LacksRoom, hlay]
  exact h

theorem spaceCheck_makeRoom (hr : (p.line i).ring = .present r) (h : p.LacksRoom i r job) (hk : (p.line i).shadow[10] = 1) :
    p.spaceCheck i job = p.makeRoom i r job := by
  simp only [Part.spaceCheck, ring?_of_present hr, if_neg (Nat.not_le.2 h), if_pos hk]

theorem spaceCheck_discard (hr : (p.line i).ring = .present r) (h : p.LacksRoom i r job) (hk : (p.line i).shadow[10] ≠ 1) :
    p.spaceCheck i job = p.discardJob i r job := by
  simp only [Part.spaceCheck, ring?_of_present hr, if_neg (Nat.not_le.2 h), if_neg hk]

theorem makeRoom_live {m : Nat} {t : Moment} (h : r.lease = .opened m (some t)) :
    p.makeRoom i r job = (p.setLine i { p.line i with parked := some job }).setFlight none := by
  rw [Part.makeRoom, h]
  rfl

theorem makeRoom_reclaim (h : ∀ m t, r.lease ≠ .opened m (some t)) :
    p.makeRoom i r job = p.setFlight (some ⟨i, .reclaimRead job r.r false⟩) := by
  have dead : ¬ r.lease.isLive = true := by
    match hl : r.lease with
    | .opened m (some t) => exact absurd hl (h m t)
    | .opened m none => exact Bool.false_ne_true
    | .closed => exact Bool.false_ne_true
  exact if_neg dead

theorem takeBack_eq (l : Line) (job : TakenJob) : l.takeBack job =
    (match job with
      | .data b => { l with buffers := l.buffers.set b .free }
      | .event _ k => { l with droppedEvents := satAdd l.droppedEvents k.toNat }) := by
  cases job <;> rfl

theorem lostBytes_eq (l : Line) (job : TakenJob) : l.lostBytes job =
    (match job with | .data b => l.buffers[b].contents.bytes.length | .event _ _ => 0) := by
  cases job <;> rfl

/-- Settles O42. The layout is computed case by case; with it the space check is the start of a record or of a "GAP", or one of the
three ways of a job that does not fit. -/
theorem spaceCheck : Obligations.SpaceCheck := by
  intro p i job r l size n hl hr hsize hn padded short noRoom
  subst hl hsize
  have hn : (p.line i).jobSize job = n := (jobSize_words _ _).trans hn.symm
  have full (h : p.LacksRoom i r job) : noRoom := by
    refine ⟨fun hk m t hlive => ?parked, fun hk hdead => ?reclaim, fun hk l' bytes hl' hbytes => ?discarded⟩
    case parked => exact (spaceCheck_makeRoom hr h hk).trans (makeRoom_live hlive)
    case reclaim => exact (spaceCheck_makeRoom hr h hk).trans (makeRoom_reclaim hdead)
    case discarded =>
      rw [spaceCheck_discard hr h hk]
      exact ⟨discardJob_event p r job _ l' bytes rfl
        ⟨(takeBack_eq _ _).trans hl'.symm, (lostBytes_eq _ _).trans hbytes.symm⟩, (noted_discardJob p r job hr).reported⟩
  refine ⟨fun h1 h2 => ?record, fun hg => ?gap⟩
  case record =>
    intro pad start need
    have lay : r.layout (p.line i).ringSize ((p.line i).jobSize job) = ⟨none, ⟨pad, start⟩, need⟩ := by
      rw [hn, Ring.layout, if_pos ⟨h1, h2⟩, layoutRecord_eq, placeFrom_eq]
    refine ⟨fun h => ?_, fun h => full (lacksRoom_of lay h)⟩
    rw [spaceCheck_record hr lay h, Part.startRecord, hn, padWords_eq]
    rfl
  case gap =>
    intro whole first gap next second start need
    have lay : r.layout (p.line i).ringSize ((p.line i).jobSize job) = ⟨some ⟨first, gap⟩, ⟨second, start⟩, need⟩ := by
      rw [hn, Ring.layout, if_neg hg]
      by_cases hw : whole
      · rw [layoutGap_whole hw]
        simp only [first, gap, next, second, start, need, hw, true_or, not_true, and_false, false_and, if_true, if_false]
      · rw [layoutGap_apart hw rfl rfl, padSize_placeFrom, padSize_placeFrom]
        simp only [first, gap, next, second, start, need, hw, false_or, not_false_eq_true, and_true, true_and, if_false,
          placeFrom_eq, wrapOffset, short]
    refine ⟨fun h => ?_, fun h => full (lacksRoom_of lay h)⟩
    rw [spaceCheck_gap hr lay h, Part.startGap, padWords_eq]
    rfl

end Sys2Proof.Machine

/-! PROOFS. The return of a reclaim read: overtaken, corrupt, or a record reclaimed; the space check of the job follows (R128,
R130). -/

namespace Sys2Proof.Machine

variable {s : State} {i : LineNo} {p : Part} {r r' : Ring} {a : Addr} {d : Word} {job : TakenJob} {noted : Nat}
variable {overtaken : Bool}

/-- With no pin reset waiting, the data of the served reclaim read goes to the Capture Writer. -/
theorem exec_reclaimReadReturn (hr : s.part.resetPending = false) (hs : s.part.port.serving = some (.reclaimRead a))
    (hf : s.part.writer.flight = some ⟨i, .reclaimRead job noted overtaken⟩) :
    exec .reclaimReadReturn s =
      answers s (s.part.freePort.reclaimReturns i job noted overtaken (s.mem.readWord a)) := by
  show execReclaimReadReturn s = _
  simp only [execReclaimReadReturn, hs, hf, State.complete, Memory.access, Part.completed, hr]
  rfl

/-! ### What follows the data, by the ring that it finds -/

theorem reclaimReturns_overtaken (hring : (p.line i).ring = .present r) (h : overtaken = true ∨ r.r ≠ noted) :
    p.reclaimReturns i job noted overtaken d = p.spaceCheck i job := by
  rw [Part.reclaimReturns, ring?_of_present hring]
  exact if_pos h

theorem reclaimReturns_corrupt (hring : (p.line i).ring = .present r) (hn : r.r = noted)
    (hv : ¬ r.admitsSize (p.line i).ringSize d.toNat) :
    p.reclaimReturns i job noted false d = (p.corruptRing i d.toNat).spaceCheck i job := by
  have current : ¬(false = true ∨ r.r ≠ noted) := by simp [hn]
  have invalid : ¬ r.sizeValid (p.line i).ringSize d.toNat = true := fun h => hv ((sizeValid_iff _ _ _).1 h)
  simp only [Part.reclaimReturns, ring?_of_present hring, if_neg current, if_neg invalid]

theorem reclaimReturns_record (hring : (p.line i).ring = .present r) (hn : r.r = noted)
    (hv : r.admitsSize (p.line i).ringSize d.toNat) :
    p.reclaimReturns i job noted false d = (p.reclaim i r d.toNat).spaceCheck i job := by
  have current : ¬(false = true ∨ r.r ≠ noted) := by simp [hn]
  simp only [Part.reclaimReturns, ring?_of_present hring, if_neg current, (sizeValid_iff _ _ _).2 hv, if_true]

/-- Settles O44. The data of the read meets one of three rings; the corrupt ring and the record reclaimed are each an event of the
line. -/
theorem reclaimRead : Obligations.ReclaimRead := by
  intro s i job noted overtaken a d r r' p l hr hs hf hd hp hl hring h'
  subst hd hp hl
  have ring : (s.part.freePort.line i).ring = .present r := hring
  have returns := exec_reclaimReadReturn hr hs hf
  refine ⟨fun h => ?overtaken, fun ho hn hv => ?corrupt, fun ho hn hv => ?record⟩
  case overtaken => rw [returns, reclaimReturns_overtaken ring h]
  case corrupt =>
    subst ho
    exact ⟨s.part.freePort.corruptRing i (s.mem.readWord a).toNat,
      returns.trans (congrArg (answers s) (reclaimReturns_corrupt ring hn hv)),
      corruptRing_event s.part.freePort _, (noted_corruptRing s.part.freePort i _).reported⟩
  case record =>
    subst ho
    have reported := (noted_reclaim s.part.freePort i r (s.mem.readWord a).toNat ring).reported
    obtain ⟨closed, broken⟩ := reclaim_event s.part.freePort r r' (s.mem.readWord a).toNat ring h'
    exact ⟨s.part.freePort.reclaim i r (s.mem.readWord a).toNat,
      returns.trans (congrArg (answers s) (reclaimReturns_record ring hn hv)),
      fun hc => ⟨closed hc, reported⟩, fun hc => ⟨broken hc, reported⟩⟩

end Sys2Proof.Machine

/-! PROOFS. The transmit window: a write that is refused, taken, lost or held, the expiry of a hold, and a read (R136 to R139,
R147 to R149). -/

namespace Sys2Proof.Machine

variable {s : State} {i : LineNo} {p q : Part} {lanes : Lanes} {d : Word} {a : HostAccess} {e : Entry} {n : Nat}

/-! ### The entry that a word carries (R136) -/

theorem toNat_hiByte (d : Word) : (hiByte d).toNat = d.toNat / 256 := by
  have := d.isLt
  simp only [hiByte, BitVec.truncate_eq_setWidth, BitVec.toNat_setWidth, BitVec.toNat_ushiftRight, Nat.shiftRight_eq_div_pow]
  omega

theorem toNat_loByte (d : Word) : (loByte d).toNat = d.toNat % 256 := by
  simp [loByte]

/-- The kind code of an entry kind (11.5). -/
def EntryKind.code : EntryKind → Nat
  | .data => 0
  | .brk => 1
  | .pause => 2
  | .rate => 3
  | .fence => 4
  | .drop => 5

/-- The codes of the six kinds are read back, and no other. -/
theorem EntryKind.ofCode_eq_some (b : Byte) (kind : EntryKind) : EntryKind.ofCode b = some kind ↔ b.toNat = kind.code := by
  unfold EntryKind.ofCode
  split
  case h_7 h0 h1 h2 h3 h4 h5 =>
    refine ⟨nofun, fun h => ?_⟩
    cases kind
    · exact absurd h h0
    · exact absurd h h1
    · exact absurd h h2
    · exact absurd h h3
    · exact absurd h h4
    · exact absurd h h5
  all_goals
    next h =>
      rw [h]
      cases kind <;> simp [EntryKind.code]

/-- An entry word carries its kind in the high byte and its value in the low byte, where the kind admits the value. -/
theorem Entry.ofWord_eq_some (d : Word) (kind : EntryKind) (v : Byte) : Entry.ofWord d = some ⟨kind, v⟩ ↔
    v = loByte d ∧ (hiByte d).toNat = kind.code ∧ (kind = .brk ∨ kind = .pause → v ≠ 0) ∧ (kind = .rate → v.toNat < 12) := by
  rw [← EntryKind.ofCode_eq_some, Entry.ofWord]
  cases EntryKind.ofCode (hiByte d) with
  | none => simp
  | some k =>
    simp only [Bool.and_eq_true, Bool.or_eq_true, beq_iff_eq, decide_eq_true_iff, Option.some.injEq]
    split
    · next hzero =>
      refine ⟨nofun, ?_⟩
      rintro ⟨rfl, rfl, hv, -⟩
      exact absurd hzero.2 (hv hzero.1)
    · next hzero =>
      split
      · next hrate =>
        refine ⟨nofun, ?_⟩
        rintro ⟨rfl, rfl, -, hv⟩
        exact absurd (hv hrate.1) (Nat.not_lt.2 hrate.2)
      · next hrate =>
        rw [Option.some.injEq, Entry.mk.injEq]
        constructor
        · rintro ⟨rfl, rfl⟩
          exact ⟨rfl, rfl, fun hk hv => hzero ⟨hk, hv⟩, fun hk => Nat.lt_of_not_le fun hv => hrate ⟨hk, hv⟩⟩
        · rintro ⟨rfl, rfl, -, -⟩
          exact ⟨rfl, rfl⟩

/-! ### A write that is refused (R136) -/

/-- The tests of a window write that come before its word is read (R136). -/
def Part.turnsAway (p : Part) (i : LineNo) (lanes : Lanes) : Prop :=
  p.state = .disarming ∨ ¬((p.line i).state = .settle ∨ (p.line i).state = .drive) ∨ lanes ≠ .both

theorem windowArrives_turnedAway (h : p.turnsAway i lanes) (d : Word) (a : HostAccess) :
    p.windowArrives i lanes d a = (p.refuseEntry i).forward a := if_pos h

theorem windowArrives_noEntry (h : Entry.ofWord d = none) (lanes : Lanes) (a : HostAccess) :
    p.windowArrives i lanes d a = (p.refuseEntry i).forward a := by
  by_cases ht : p.turnsAway i lanes
  · exact windowArrives_turnedAway ht d a
  · exact (if_neg ht).trans (by rw [h])

/-- An entry that is refused, with its change reported. -/
theorem refuseEntry_noted (p : Part) : NotedEvent p (p.refuseEntry i) i ((p.line i).tallied 0 1)
    (if (p.line i).counter .entriesRefused = 65535 then [] else [51]) :=
  ⟨refuseEntry_event p, (noted_refuseEntry p i).reported⟩

/-- An entry that is lost, with its change reported. -/
theorem loseEntries_noted (p : Part) : NotedEvent p (p.loseEntries i 1) i ((p.line i).tallied 1 0)
    (if (p.line i).counter .entriesLost = 65535 then [] else [50]) :=
  ⟨loseEntries_event p, (noted_loseEntries p i 1).reported⟩

/-- Settles O36: the write is turned away before its word is read, or its word carries no entry. -/
theorem windowWriteRefused : Obligations.WindowWriteRefused := by
  intro s i w lanes d hr h
  have refused : ∀ a, s.part.windowArrives i lanes d a = (s.part.refuseEntry i).forward a := by
    rcases h with h | h | h | h
    · exact windowArrives_turnedAway (.inl h) d
    · exact windowArrives_turnedAway (.inr (.inl h)) d
    · exact windowArrives_turnedAway (.inr (.inr h)) d
    · exact windowArrives_noEntry (entry_ofWord_none d h) lanes
  exact ⟨s.part.refuseEntry i, (exec_windowWrite hr w).trans (congrArg (answers s) (refused _)), refuseEntry_noted s.part⟩

/-! ### A write that carries an entry (R136, R138, R139, R148) -/

/-- The line with an entry at the end of its queue. -/
def Line.queued (l : Line) (e : Entry) : Line := { l with queue := l.queue ++ [e] }

theorem onLine_queued_event (p : Part) (e : Entry) :
    NotedEvent p (p.onLine i (·.queued e)) i ((p.line i).queued e) [] :=
  notedEvent_of (noted_onLine p i _ rfl fun _ => rfl) (line_onLine _ _ _) fun _ h => absurd h List.not_mem_nil

/-- A write of an entry that the line does not turn away, by the room in the queue and the hold limit. -/
theorem windowArrives_entry (ha : p.state = .armed) (hl : (p.line i).state = .settle ∨ (p.line i).state = .drive)
    (he : Entry.ofWord d = some e) (a : HostAccess) : p.windowArrives i .both d a =
      if (p.line i).queue.length < 64 then
        if (p.line i).state = .drive ∧ (p.line i).queue = [] then
          ((p.onLine i (·.queued e)).forward a).advanceQueue i
        else (p.onLine i (·.queued e)).forward a
      else if p.holdLimit = 0 then (p.loseEntries i 1).forward a
      else { p with held := some ⟨i, e, a, p.now + usPeriods p.holdLimit⟩ } := by
  have ht : ¬ p.turnsAway i .both := by
    rintro (h | h | h)
    · exact absurd (ha.symm.trans h) nofun
    · exact h hl
    · exact h rfl
  exact (if_neg ht).trans (by rw [he]; rfl)

/-! ### The expiry of a hold (R148) -/

/-- A lost entry leaves the hold to itself. -/
theorem loseEntries_withHeld (p : Part) (h : Option HeldWrite) :
    { p.loseEntries i n with held := h } = Part.loseEntries { p with held := h } i n := by
  simp only [Part.loseEntries, Part.count]
  split
  · next e => exact (if_pos e).symm ▸ rfl
  · next e => exact (if_neg e).symm ▸ rfl

theorem expireHold_held {h : HeldWrite} (hh : p.held = some h) : p.expireHold =
    (Part.loseEntries { p with held := none, now := max p.now h.expiry } h.line 1).forward h.access := by
  simp only [Part.expireHold, hh, loseEntries_withHeld]
  rfl

theorem expireHold_free (h : p.held = none) : p.expireHold = p := by
  simp only [Part.expireHold, h]

/-- Settles O37: a write by the room in the queue and the hold limit, a hold by whether one stands, an entry word by its bytes. -/
theorem windowWriteTaken : Obligations.WindowWriteTaken := by
  refine ⟨?write, fun s => ⟨fun h hh => ?held, fun hh => congrArg (answers s) (expireHold_free hh)⟩, fun d kind v => ?word,
    fun n => ?us⟩
  case write =>
    rintro s i w d e l a hr ha rfl hl he rfl
    have taken := (exec_windowWrite (d := d) (lanes := .both) hr w).trans (congrArg (answers s) (windowArrives_entry ha hl he _))
    refine ⟨fun hroom hwait => ?joins, fun hfull h0 => ?lost, fun hfull h0 => ?holds, fun hq hd hact => ?begins⟩
    case joins =>
      have waits : ¬((s.part.line i).state = .drive ∧ (s.part.line i).queue = []) := fun ⟨hd, hq⟩ =>
        hwait.elim (fun hs => absurd (hs.symm.trans hd) nofun) (absurd hq)
      rw [if_pos hroom, if_neg waits] at taken
      exact ⟨_, taken, onLine_queued_event s.part e⟩
    case lost =>
      rw [if_neg (Nat.not_lt.2 hfull), if_pos h0] at taken
      exact ⟨_, taken, loseEntries_noted s.part⟩
    case holds => rwa [if_neg (Nat.not_lt.2 hfull), if_neg h0] at taken
    case begins =>
      have event := onLine_queued_event (i := i) s.part e
      rw [Line.queued, hq] at event
      rw [if_pos (by rw [hq]; exact Nat.succ_pos _), if_pos ⟨hd, hq⟩] at taken
      exact ⟨_, taken, event⟩
  case held =>
    exact ⟨_, congrArg (answers s) (expireHold_held hh),
      loseEntries_noted (i := h.line) { s.part with held := none, now := max s.part.now h.expiry }⟩
  case word =>
    rw [Entry.ofWord_eq_some, toNat_hiByte, ← toNat_loByte, BitVec.toNat_inj]
    rfl
  case us =>
    have us : usPeriods n = (n * 294912 + 9999) / 10000 := rfl
    omega

/-! ### A read of the window (R137) -/

theorem exec_windowRead (hr : Reaches s i) (w : Fin 16) :
    exec (.windowRead i w) s = answers s { s.part with readData := s.part.windowWord i } := by
  obtain ⟨ready, hi, hs⟩ := hr
  have issued : exec (.windowRead i w) s = s.host ⟨windowAddr s.part.regionBase i w.val, .read⟩ := if_pos hi
  rw [issued, host_ready ready]
  simp only [Part.hostArrives, Part.readArrives, decode_window s.part i w.val w.isLt hi hs]

/-- A count below bit 15 beside a flag in bit 15: the low bits are the count. -/
theorem low_word_or_bit15 (h : n < 32768) (c : Bool) : ((word n ||| bitIf c 15).extractLsb' 0 15).toNat = n := by
  have clear : (bitIf c 15).extractLsb' 0 15 = 0#15 := by cases c <;> rfl
  rw [BitVec.extractLsb'_or, clear, BitVec.or_zero]
  simp only [word, BitVec.extractLsb'_toNat, BitVec.toNat_ofNat, Nat.shiftRight_zero]
  omega

/-- A count below bit 15 beside a flag in bit 15: bit 15 is the flag. -/
theorem bit15_word_or_bit15 (h : n < 32768) (c : Bool) : (word n ||| bitIf c 15).getLsbD 15 = c := by
  have clear : (word n).getLsbD 15 = false := by
    rw [word, BitVec.getLsbD_ofNat, Nat.testBit_lt_two_pow h, Bool.and_false]
  rw [BitVec.getLsbD_or, clear, Bool.false_or]
  cases c <;> rfl

/-- Settles O38: the word of a window read is the free count beside the flag in bit 15. -/
theorem windowRead : Obligations.WindowRead := by
  intro s i w hr hq
  have small : 64 - (s.part.line i).queue.length < 32768 := by omega
  refine ⟨s.part.windowWord i, exec_windowRead hr w, low_word_or_bit15 small _, ?_⟩
  rw [Part.windowWord, bit15_word_or_bit15 small]
  simp only [Bool.and_eq_true, Bool.or_eq_true, beq_iff_eq]

end Sys2Proof.Machine

/-! PROOFS. The head of the transmit queue begins to act: it takes time, or leaves, or ends driving (R66, R67, R139 to R146, R150,
R155). -/

namespace Sys2Proof.Machine

variable {i : LineNo} {p q : Part} {l : Line} {ws : List Nat} {e : Entry} {v : Byte} {rest : List Entry}

/-! ### Entry to "RELEASE", a held write refused with it (R67, R150) -/

theorem report_entriesRefused (l : Line) : l.report 51 = l.counter .entriesRefused := by
  simp [Line.report, Line.counter, Counter.index]

theorem dropQueue_lost (l : Line) (k : Nat) :
    (l.dropQueue k).counter .entriesLost = satAdd (l.counter .entriesLost) l.waitingEntries := by
  simp [Line.dropQueue, Line.tallied, Line.setCounter, Line.counter, Counter.index, Line.waitingEntries]

theorem dropQueue_refused (l : Line) (k : Nat) :
    (l.dropQueue k).counter .entriesRefused = satAdd (l.counter .entriesRefused) k := by
  simp [Line.dropQueue, Line.tallied, Line.setCounter, Line.counter, Counter.index]

theorem counter_released (l : Line) (now : Moment) (t : Target) (c : ModeCause) (k : Nat) (x : Counter) :
    (l.released now t c k).counter x = (l.dropQueue k).counter x := rfl

/-- The words that a discard may queue are the counts of lost and of refused entries, each when it rises. -/
theorem dropReports_changed {w k : Nat} (h : w ∈ l.dropReports k) (now : Moment) (t : Target) (c : ModeCause) :
    (w = 50 ∨ w = 51) ∧ (l.released now t c k).report w ≠ l.report w := by
  have parts : l.dropReports k = (if l.waitingEntries = 0 ∨ l.counter .entriesLost = 65535 then [] else [50]) ++
      (if k = 0 ∨ l.counter .entriesRefused = 65535 then [] else [51]) := rfl
  rw [parts] at h
  rcases List.mem_append.1 h with h | h
  · split at h
    · cases h
    · next hn =>
      obtain ⟨hwaiting, hcount⟩ := not_or.1 hn
      rw [List.mem_singleton.1 h, report_entriesLost, report_entriesLost, counter_released, dropQueue_lost]
      exact ⟨.inl rfl, satAdd_ne_self hcount hwaiting⟩
  · split at h
    · cases h
    · next hn =>
      obtain ⟨hheld, hcount⟩ := not_or.1 hn
      rw [List.mem_singleton.1 h, report_entriesRefused, report_entriesRefused, counter_released, dropQueue_refused]
      exact ⟨.inr rfl, satAdd_ne_self hcount hheld⟩

/-- Entry to "RELEASE" reports the line state and the counts that the discard of the queue raises. -/
theorem enterRelease_event (p : Part) (t : Target) (c : ModeCause) :
    NotedEvent (p.releaseHold i) (p.enterRelease i t c) i ((p.line i).released p.now t c (p.heldCount i))
      (32 :: (p.line i).dropReports (p.heldCount i)) := by
  have n := noted_enterRelease p i t c
  refine notedEvent_of n (line_enterRelease p i t c) fun w hw => ?_
  rcases List.mem_cons.1 hw with rfl | hw
  · exact mem_enterRelease p i t c
  · obtain ⟨hcounts, hne⟩ := dropReports_changed hw p.now t c
    exact n.pends (by omega) (by omega) (by rwa [line_enterRelease, line_releaseHold])

/-! ### What follows once the head has begun (R138, R139) -/

/-- The queue of a line that does not send, or whose head is acting, or that drives with nothing to send, stays as it is. -/
theorem advanceQueue_idle (h : ((p.line i).state ≠ .drive ∧ (p.line i).state ≠ .drain) ∨ (p.line i).acting ≠ none ∨
    (p.line i).queue = [] ∧ (p.line i).state = .drive) : p.advanceQueue i = p := by
  rcases h with ⟨h1, h2⟩ | h | ⟨hq, hd⟩
  · refine advanceQueue_stop p (Bool.eq_false_iff.2 fun hs => ?_)
    exact ((sends_iff _).1 hs).elim h1 h2
  · exact advanceQueue_acting p h
  · exact runHead_empty _ p (by rw [hd]; exact nofun) hq

/-- "DRAIN" ends with the queue (R66). -/
theorem advanceQueue_drained (hs : (p.line i).state = .drain) (ha : (p.line i).acting = none) (hq : (p.line i).queue = []) :
    p.advanceQueue i = p.enterRelease i .listen .request := by
  simp [Part.advanceQueue, Part.runHead, hs, ha, hq, LineState.sends]

/-- A head that takes time is all that begins. -/
theorem advanceQueue_takesTime {a : Acting} (begun : p.advanceQueue i = (p.beginEntry i e).advanceQueue i)
    (h : p.beginEntry i e = q.setActing i a) : p.advanceQueue i = q.setActing i a := by
  rw [begun, h]
  exact advanceQueue_acting _ (by rw [Part.setActing, line_onLine]; exact nofun)

/-- A head that leaves at once takes a held entry into the queue, and the next head begins. -/
theorem advanceQueue_leaves (begun : p.advanceQueue i = (p.beginEntry i e).advanceQueue i)
    (h : p.beginEntry i e = q.leaveHead i) (event : LineEvent p q i l ws) :
    ∃ q : Part, NotedEvent (p.releaseHold i) q i (l.headLeft (p.heldEntries i)) ws ∧ p.advanceQueue i = q.advanceQueue i := by
  have reported : Reported (p.releaseHold i) (p.beginEntry i e) := by
    refine (affects_beginEntry p e).reported.of_same (fun w => ?_) (reports_releaseHold p i).symm
    unfold Part.releaseHold
    split
    · exact (reportValue_part rfl rfl rfl rfl rfl rfl rfl w).symm
    · rfl
  exact ⟨p.beginEntry i e, ⟨h ▸ event.leaveHead, reported⟩, begun⟩

/-! ### A BREAK entry (R141, R142) -/

/-- The space of a BREAK entry of value `v` that begins at the present moment. -/
def Part.breakOf (p : Part) (i : LineNo) (v : Byte) : Acting :=
  .breakSpace (p.now + 294912 * v.toNat) (p.line i).frameTime

theorem csPeriods_eq (n : Nat) : csPeriods n = 294912 * n := Nat.mul_comm _ _

theorem headBreak_always (h : (p.line i).shadow[6] = 1) : p.headBreak i v = p.setActing i (p.breakOf i v) := by
  have admits : (p.line i).admitsBreak = true := by simp [Line.admitsBreak, h]
  simp only [Part.headBreak, admits, if_true, h, csPeriods_eq]
  rfl

theorem headBreak_credit (h : (p.line i).shadow[6] = 2) (hc : (p.line i).breakCredit = true) :
    p.headBreak i v = (p.setCredit i false).setActing i (p.breakOf i v) := by
  have admits : (p.line i).admitsBreak = true := by simp [Line.admitsBreak, h, hc]
  simp only [Part.headBreak, admits, if_true, h, csPeriods_eq, (lineStep_setCredit p i false).now]
  rfl

theorem headBreak_refused (h1 : (p.line i).shadow[6] ≠ 1) (h2 : ¬((p.line i).shadow[6] = 2 ∧ (p.line i).breakCredit = true)) :
    p.headBreak i v = ((p.count i .breaksRefused 1).refuseEntry i).leaveHead i :=
  if_neg (by rw [admitsBreak_false _ h1 h2]; exact nofun)

/-- A break admitted on credit uses the credit up, which word 36 reports. -/
theorem creditUsed_event (hc : (p.line i).breakCredit = true) (a : Acting) :
    NotedEvent p ((p.setCredit i false).setActing i a) i { p.line i with acting := some a, breakCredit := false } [36] := by
  refine notedEvent_of ((noted_setCredit p i false).trans (noted_setActing _ a)) ?_ fun w hw => ?_
  · rw [Part.setActing, line_onLine, line_setCredit]
  · obtain rfl := List.mem_singleton.1 hw
    refine (noted_setActing _ a).keeps_plain (by omega) (by omega) ?_
    rw [Part.setCredit, hc]
    exact mem_queueLcb_self _ _

/-! ### RATE and DROP entries (R144, R146) -/

theorem setRate_event (p : Part) (divisor fraction : Nat) : LineEvent p (p.setRate i divisor fraction) i
    { p.line i with effDivisor := divisor, effFraction := fraction, generatorStart := p.now } [43, 44] := by
  refine ⟨lineStep_setRate p i _ _, line_setRate p i _ _, fun w hw => ?_⟩
  rw [← line_setRate]
  exact mem_setRate p _ _ w (by simpa using hw)

/-- The line with its head gone. -/
def Line.headGone (l : Line) : Line := { l with queue := l.queue.tail, acting := none }

/-- A DROP entry leaves the queue, then the line enters "RELEASE". -/
theorem headDrop_event (p : Part) : NotedEvent (p.releaseHold i) (p.headDrop i) i
    ((p.line i).headGone.released p.now .listen .dropEntry (p.heldCount i))
    (32 :: (p.line i).headGone.dropReports (p.heldCount i)) := by
  have gone : Noted i p (p.onLine i Line.headGone) := noted_onLine p i _ rfl fun _ => rfl
  have event := enterRelease_event (i := i) (p.onLine i Line.headGone) .listen .dropEntry
  rw [line_onLine, heldCount_congr gone.step.held, gone.step.now] at event
  exact event.after gone.releaseHold

theorem advanceQueue_drop (begun : p.advanceQueue i = (p.beginEntry i ⟨.drop, v⟩).advanceQueue i) :
    p.advanceQueue i = p.headDrop i := by
  have stops : ((p.headDrop i).line i).state.sends = false := by
    rw [(headDrop_event p).line_eq]
    rfl
  exact begun.trans (advanceQueue_stop _ stops)

/-- Settles O46, by the kind of the head. -/
theorem headActs : Obligations.HeadActs := by
  refine ⟨rfl, fun p i l hl => ?_⟩
  subst hl
  refine ⟨advanceQueue_idle, fun hs ha hq => ?drained, fun kind v rest hs ha hq => ?_⟩
  case drained =>
    rw [advanceQueue_drained hs ha hq]
    exact enterRelease_event p .listen .request
  have begun := advanceQueue_begin p ⟨kind, v⟩ rest ((sends_iff _).2 hs) ha hq
  intro acts leaves
  refine ⟨?data, ?brk_always, ?brk_credit, ?brk_refused, ?pause, ?rate, ?fence, ?drop⟩
  case data =>
    rintro rfl
    exact advanceQueue_takesTime begun rfl
  case brk_always =>
    rintro rfl h6
    exact advanceQueue_takesTime begun (headBreak_always h6)
  case brk_credit =>
    rintro rfl h6 hc
    rw [advanceQueue_takesTime begun (headBreak_credit h6 hc)]
    exact creditUsed_event hc _
  case brk_refused =>
    rintro rfl h1 h2
    exact advanceQueue_leaves begun (headBreak_refused h1 h2) (refuseBreak_event p)
  case pause =>
    rintro rfl
    rw [← csPeriods_eq]
    exact advanceQueue_takesTime begun rfl
  case rate =>
    rintro rfl
    exact advanceQueue_leaves begun rfl (setRate_event p (rateDivisor v.toNat) 0)
  case fence =>
    rintro rfl
    obtain ⟨q, fenced, event⟩ := headFence_event p v (p.line i) rfl
    exact advanceQueue_leaves begun fenced event
  case drop =>
    rintro rfl
    have event := headDrop_event (i := i) p
    have gone : (p.line i).headGone = { p.line i with queue := rest } := by
      rw [Line.headGone, hq, ← ha]
      rfl
    rw [gone] at event
    rwa [advanceQueue_drop begun]

end Sys2Proof.Machine

/-! PROOFS. The end of the probe's window: its classification, the expiry, the 64th edge that comes together with it (R157, R158,
R159). -/

namespace Sys2Proof.Machine

variable {i : LineNo} {p : Part} {k : Probe} {counted : Bool} {run wait : Nat}

/-! ### The rate table and the classification (R155, R158) -/

/-- The bit time of rate-table index `k`: 16 times its divisor, with fraction 0. -/
theorem rateTable_getD (k : Nat) :
    [98304, 49152, 24576, 12288, 6144, 3072, 1536, 768, 512, 256, 128, 64].getD k 0 = bitTimeOf (rateDivisor k) 0 :=
  List.getD_map [6144, 3072, 1536, 768, 384, 192, 96, 48, 32, 16, 8, 4] 0 (n := k) fun divisor => bitTimeOf divisor 0

/-- Each bit time of the table is at least one and a half times any that follows it. -/
theorem rateTable_spaced :
    ∀ k < 12, ∀ j < k, 3 * bitTimeOf (rateDivisor k) 0 ≤ 2 * bitTimeOf (rateDivisor j) 0 := by decide

/-- A run is within 5 % of one bit time of the table at most. -/
theorem rate_within_unique (pos : 0 < run) {j k : Nat} (hj : j < 12) (hk : k < 12) (nearJ : 20 * rateDistance j run ≤ run)
    (nearK : 20 * rateDistance k run ≤ run) : j = k := by
  dsimp only [rateDistance] at nearJ nearK
  rcases Nat.lt_trichotomy j k with h | h | h
  · have spaced := rateTable_spaced k hk j h
    omega
  · exact h
  · have spaced := rateTable_spaced j hj k h
    omega

/-- The scan that keeps the better of two indices ends at the lowest index of the least value. -/
theorem foldl_range_least (f : Nat → Nat) (n : Nat) :
    ∃ b, (List.range n).foldl (fun best k => if f k < f best then k else best) 0 = b ∧ (b < n ∨ b = 0) ∧
      ∀ j < n, f b ≤ f j ∧ (f j = f b → b ≤ j) := by
  induction n with
  | zero => exact ⟨0, rfl, .inr rfl, fun j hj => absurd hj (Nat.not_lt_zero j)⟩
  | succ n ih =>
    obtain ⟨b, scan, bound, least⟩ := ih
    rw [List.range_succ, List.foldl_append, scan]
    by_cases better : f n < f b
    · refine ⟨n, if_pos better, .inl n.lt_succ_self, fun j hj => ?_⟩
      rcases Nat.lt_succ_iff_lt_or_eq.1 hj with h | rfl
      · have leastJ := (least j h).1
        exact ⟨by omega, by omega⟩
      · exact ⟨le_rfl, fun _ => le_rfl⟩
    · refine ⟨b, if_neg better, by omega, fun j hj => ?_⟩
      rcases Nat.lt_succ_iff_lt_or_eq.1 hj with h | rfl
      · exact least j h
      · exact ⟨Nat.le_of_not_lt better, fun _ => by omega⟩

theorem nearestRate_spec (run : Nat) : nearestRate run < 12 ∧ ∀ j < 12,
    rateDistance (nearestRate run) run ≤ rateDistance j run ∧
      (rateDistance j run = rateDistance (nearestRate run) run → nearestRate run ≤ j) := by
  obtain ⟨b, scan, bound, least⟩ := foldl_range_least (rateDistance · run) 12
  have nearest : nearestRate run = b := scan
  rw [nearest]
  exact ⟨by omega, least⟩

theorem classifyProbe_tooFew {e : Nat} {shortest : Option Nat} (h : e < 8 ∨ shortest = none) :
    classifyProbe e shortest = (.tooFew, 0) := by
  cases shortest with
  | none => rfl
  | some run => rw [classifyProbe, if_pos (h.resolve_right nofun)]

/-- The search of the table for a bit time within 5 % of the run. -/
theorem classifyProbe_enough {e : Nat} (enough : 8 ≤ e) (run : Nat) : classifyProbe e (some run) =
    ((List.range 12).find? fun k => decide (20 * rateDistance k run ≤ run)).elim (.noMatch, nearestRate run)
      fun k => (.found, k) := by
  rw [classifyProbe, if_neg (Nat.not_lt.2 enough)]
  cases (List.range 12).find? fun k => decide (20 * rateDistance k run ≤ run) <;> rfl

theorem classifyProbe_found {e k : Nat} (enough : 8 ≤ e) (pos : 0 < run) (hk : k < 12) (near : 20 * rateDistance k run ≤ run) :
    classifyProbe e (some run) = (.found, k) := by
  rw [classifyProbe_enough enough]
  cases search : (List.range 12).find? fun j => decide (20 * rateDistance j run ≤ run) with
  | none =>
    have far := List.find?_eq_none.1 search k (List.mem_range.2 hk)
    rw [decide_eq_true_iff] at far
    exact absurd near far
  | some j =>
    have nearJ := List.find?_some search
    rw [decide_eq_true_iff] at nearJ
    have hj := List.mem_range.1 (List.mem_of_find?_eq_some search)
    rw [rate_within_unique pos hj hk nearJ near]
    rfl

theorem classifyProbe_noMatch {e : Nat} (enough : 8 ≤ e) (far : ∀ k < 12, run < 20 * rateDistance k run) :
    classifyProbe e (some run) = (.noMatch, nearestRate run) := by
  have search : ((List.range 12).find? fun j => decide (20 * rateDistance j run ≤ run)) = none := by
    refine List.find?_eq_none.2 fun j hj => ?_
    rw [decide_eq_true_iff]
    exact Nat.not_le.2 (far j (List.mem_range.1 hj))
  rw [classifyProbe_enough enough, search]
  rfl

/-! ### The job list that an offered event leaves (R89, R94) -/

theorem jobs_closeOpen (l : Line) : l.closeOpen.jobs = l.jobs ++ (l.openBuffer.map fun b => Job.data b.1).toList := by
  unfold Line.closeOpen
  cases l.openBuffer with
  | none => exact (List.append_nil _).symm
  | some b => rfl

theorem jobs_offer (l : Line) (e : Event) : (l.offer e).jobs =
    if l.state = .off then l.jobs
    else if l.pendingEvents < 4 then l.closeOpen.jobs ++ [.event e] else l.closeOpen.jobs := by
  by_cases hs : l.state = .off
  · rw [offer_off hs, if_pos hs]
  · rw [offer_on hs, if_neg hs]
    split <;> rfl

/-- The job list after an event depends on the line's state, buffers and job list alone. -/
theorem jobs_offer_congr {l m : Line} (hs : l.state = m.state) (hb : l.buffers = m.buffers) (hj : l.jobs = m.jobs) (e : Event) :
    (l.offer e).jobs = (m.offer e).jobs := by
  have opened : l.openBuffer = m.openBuffer := by simp only [Line.openBuffer, hb]
  have events : l.pendingEvents = m.pendingEvents := by simp only [Line.pendingEvents, hj]
  rw [jobs_offer, jobs_offer, jobs_closeOpen, jobs_closeOpen, hs, hj, opened, events]

/-! ### What a delivered result leaves of the line (R159) -/

theorem probeTaken_keeps (l : Line) (k : Probe) (r : ProbeResult) (n : Nat) (now : Moment) :
    (l.probeTaken k r n now).probe = none ∧ (l.probeTaken k r n now).probeResult = r.toWord n ∧
      (l.probeTaken k r n now).state = l.state ∧ (l.probeTaken k r n now).openCondition = l.openCondition ∧
      (l.probeTaken k r n now).buffers = l.buffers ∧ (l.probeTaken k r n now).jobs = l.jobs := by
  unfold Line.probeTaken
  dsimp only
  split <;> exact ⟨rfl, rfl, rfl, rfl, rfl, rfl⟩

/-- The line after the window of the probe `k` has been classified and its result delivered (R158, R159). -/
def Line.measured (l : Line) (k : Probe) (now : Moment) (stamp : Stamp) : Line :=
  l.delivered k (classifyProbe k.edges k.shortest).1 (classifyProbe k.edges k.shortest).2 now stamp

theorem measured_keeps (l : Line) (k : Probe) (now : Moment) (stamp : Stamp) :
    (l.measured k now stamp).probe = none ∧
      (l.measured k now stamp).probeResult =
        (classifyProbe k.edges k.shortest).1.toWord (classifyProbe k.edges k.shortest).2 ∧
      (l.measured k now stamp).state = l.state ∧ (l.measured k now stamp).openCondition = l.openCondition := by
  obtain ⟨idle, result, state, opened, _, _⟩ :=
    probeTaken_keeps l k (classifyProbe k.edges k.shortest).1 (classifyProbe k.edges k.shortest).2 now
  exact ⟨(offer_probe _ _).trans idle, (offer_probeResult _ _).trans result, (offer_state _ _).trans state,
    (offer_openCondition _ _).trans opened⟩

/-- The "PROBE_DONE" event of a window that measured `k` (R159). -/
def Probe.doneEvent (k : Probe) (stamp : Stamp) : Event :=
  ⟨.probeDone, (classifyProbe k.edges k.shortest).1.code, word (classifyProbe k.edges k.shortest).2,
    reportedRun k.shortest, word k.edges, stamp⟩

/-- A delivery queues the "PROBE_DONE" event; a rate that it applies does not change the job list. -/
theorem jobs_measured (l : Line) (k : Probe) (now : Moment) (stamp : Stamp) :
    (l.measured k now stamp).jobs = (l.offer (k.doneEvent stamp)).jobs := by
  obtain ⟨_, _, state, _, buffers, jobs⟩ :=
    probeTaken_keeps l k (classifyProbe k.edges k.shortest).1 (classifyProbe k.edges k.shortest).2 now
  exact jobs_offer_congr state buffers jobs _

/-! ### The expiry of the window (R158) -/

theorem atExpiry_last (h : counted = true ∧ k.edges = 63) : k.atExpiry counted = { k with edges := 64 } :=
  if_pos (by simp [h])

theorem atExpiry_other (h : ¬ (counted = true ∧ k.edges = 63)) : k.atExpiry counted = k :=
  if_neg (by simpa using h)

/-- The part at the moment at which the 5 s window of the probe `k` ends. -/
def Part.atWindowEnd (p : Part) (k : Probe) : Part := p.at (k.start + secondPeriods 5)

theorem probeTimesOut_running (hk : (p.line i).probe = some k) (edge : Bool) :
    p.probeTimesOut i edge =
      (p.atWindowEnd k).endProbe i (k.atExpiry (edge && (p.atWindowEnd k).countsFall i)) := by
  simp only [Part.probeTimesOut, hk]
  rfl

theorem probeTimesOut_idle (hk : (p.line i).probe = none) (edge : Bool) : p.probeTimesOut i edge = p := by
  simp only [Part.probeTimesOut, hk]

theorem line_endProbe (p : Part) (k : Probe) : (p.endProbe i k).line i = (p.line i).measured k p.now p.counter :=
  line_deliverProbe p i k _ _

theorem lineStep_endProbe (p : Part) (k : Probe) : LineStep i p (p.endProbe i k) := lineStep_deliverProbe p i k _ _

/-- The end of the window does not change which falling edges the part takes and the line regards. -/
theorem countsFall_endProbe (p : Part) (k : Probe) : (p.endProbe i k).countsFall i = p.countsFall i := by
  have step := lineStep_endProbe (i := i) p k
  obtain ⟨_, _, state, opened⟩ := measured_keeps (p.line i) k p.now p.counter
  simp only [Part.countsFall, Part.listening, Part.active, step.rxPin, step.taken, step.now, step.hasLine, line_endProbe, state,
    opened]

/-! ### The 64th edge together with the expiry (R158, log 36) -/

theorem LineStep.takeRx {q : Part} (h : LineStep i p q) (v : Level) (t : Moment) :
    LineStep i (p.takeRx i v t) (q.takeRx i v t) := by
  obtain ⟨outside, lines, reports⟩ := h
  exact ⟨congrArg (fun r : Part => r.takeRx i v t) outside, lines, reports⟩

/-- A falling edge that a probe would count, on a line without a probe under way. -/
theorem rxFalls_idle (counts : p.countsFall i = true) (idle : (p.line i).probe = none) :
    p.rxFalls i 0 = (p.takeRx i .space p.now).onLine i fun l => l.fallen p.now := by
  obtain ⟨mark, holds, present, notOff, notOpen⟩ := (countsFall_iff p).1 counts
  rw [rxFalls_taken (wait := 0) mark holds, if_pos (listening_of present notOff notOpen), Nat.add_zero]
  exact probeFall_idle ((congrArg Line.probe (line_onLine _ i _)).trans idle)

/-- The edge taken first: it ends the window on the line that has seen the fall. -/
theorem rxFalls_last {now : Moment} (hn : p.now + wait = now) (hk : (p.line i).probe = some k) (last : k.edges = 63)
    (mark : p.rxPin[i] = .mark) (holds : p.RxHeld i wait) (listens : p.listening i = true) :
    LineStep i (p.takeRx i .space now) (p.rxFalls i wait) ∧
      (p.rxFalls i wait).line i =
        ((p.line i).fallen now).measured { k with edges := 64, run := none } now p.counter := by
  subst hn
  rw [rxFalls_taken mark holds, if_pos listens]
  have event := fall_ends_probe (p := p.takeRx i .space (p.now + wait)) rfl hk (congrArg (· + 1) last)
  exact ⟨event.step, event.line_eq⟩

/-- The expiry taken first: the edge counts in the window, and then falls on the line whose probe is done. -/
theorem probeExpires_last {now : Moment} (hn : (p.atWindowEnd k).now = now) (hk : (p.line i).probe = some k)
    (last : k.edges = 63) (counts : (p.atWindowEnd k).countsFall i = true) :
    LineStep i (p.takeRx i .space now) (p.probeExpires i true) ∧
      (p.probeExpires i true).line i = ((p.line i).measured { k with edges := 64 } now p.counter).fallen now := by
  have falls : p.probeExpires i true = (p.probeTimesOut i true).rxFalls i 0 := rfl
  rw [falls, probeTimesOut_running hk, Bool.true_and, atExpiry_last ⟨counts, last⟩]
  have step := lineStep_endProbe (i := i) (p.atWindowEnd k) { k with edges := 64 }
  have line := line_endProbe (i := i) (p.atWindowEnd k) { k with edges := 64 }
  have still := (countsFall_endProbe (p.atWindowEnd k) { k with edges := 64 }).trans counts
  rw [hn] at line
  generalize (p.atWindowEnd k).endProbe i { k with edges := 64 } = q at step line still
  have idle : (q.line i).probe = none := by
    rw [line]
    exact (measured_keeps ..).1
  rw [rxFalls_idle still idle, step.now, hn]
  exact ⟨(step.takeRx .space now).trans (lineStep_onLine _ i _), by rw [line_onLine, line_takeRx, line]; rfl⟩

/-- Where the 64th edge comes together with the expiry, either order leaves the same jobs, result, input and moment. -/
theorem lastEdge_either_order (hk : (p.line i).probe = some k) (last : k.edges = 63)
    (together : p.now + wait = k.start + secondPeriods 5) (mark : p.rxPin[i] = .mark) (holds : p.RxHeld i wait)
    (present : p.hasLine i = true) (notOff : (p.line i).state ≠ .off) (notOpen : (p.line i).openCondition = false) :
    ((p.probeExpires i true).line i).jobs = ((p.rxFalls i wait).line i).jobs ∧
      ((p.probeExpires i true).line i).probeResult = ((p.rxFalls i wait).line i).probeResult ∧
      ((p.probeExpires i true).line i).probe = none ∧ ((p.rxFalls i wait).line i).probe = none ∧
      (p.probeExpires i true).rxPin = (p.rxFalls i wait).rxPin ∧ (p.probeExpires i true).now = (p.rxFalls i wait).now := by
  have moment : (p.atWindowEnd k).now = p.now + wait := by
    rw [Part.atWindowEnd, ← together]
    exact Nat.max_eq_right (Nat.le_add_right _ _)
  have counts : (p.atWindowEnd k).countsFall i = true :=
    (countsFall_iff _).2 ⟨mark, by rw [moment]; exact holds, present, notOff, notOpen⟩
  obtain ⟨stepE, lineE⟩ := probeExpires_last moment hk last counts
  obtain ⟨stepF, lineF⟩ := rxFalls_last rfl hk last mark holds (listening_of present notOff notOpen)
  obtain ⟨idleE, resultE, _⟩ := measured_keeps (p.line i) { k with edges := 64 } (p.now + wait) p.counter
  obtain ⟨idleF, resultF, _⟩ :=
    measured_keeps ((p.line i).fallen (p.now + wait)) { k with edges := 64, run := none } (p.now + wait) p.counter
  have sameEvent : ((p.line i).offer ({ k with edges := 64 }.doneEvent p.counter)).jobs =
      (((p.line i).fallen (p.now + wait)).offer ({ k with edges := 64, run := none }.doneEvent p.counter)).jobs :=
    jobs_offer_congr (l := p.line i) (m := (p.line i).fallen (p.now + wait)) rfl rfl rfl _
  rw [lineE, lineF]
  exact ⟨(jobs_measured ..).trans (sameEvent.trans (jobs_measured ..).symm), resultE.trans resultF.symm, idleE, idleF,
    stepE.rxPin.trans stepF.rxPin.symm, stepE.now.trans stepF.now.symm⟩

/-! ### What follows every event leaves the inputs and the moment alone (R15, R35) -/

theorem checkDisarmEnd_inputs (p : Part) : p.checkDisarmEnd.rxPin = p.rxPin ∧ p.checkDisarmEnd.now = p.now := by
  unfold Part.checkDisarmEnd
  split <;> exact ⟨rfl, rfl⟩

theorem grant_inputs (p : Part) : p.grant.rxPin = p.rxPin ∧ p.grant.now = p.now := by
  unfold Part.grant
  repeat' split
  all_goals exact ⟨rfl, rfl⟩

theorem arbitrate_inputs (p : Part) : p.arbitrate.rxPin = p.rxPin ∧ p.arbitrate.now = p.now := by
  obtain ⟨pinBefore, nowBefore⟩ := checkDisarmEnd_inputs p
  obtain ⟨pinGrant, nowGrant⟩ := grant_inputs p.checkDisarmEnd
  obtain ⟨pinAfter, nowAfter⟩ := checkDisarmEnd_inputs p.checkDisarmEnd.grant
  exact ⟨pinAfter.trans (pinGrant.trans pinBefore), nowAfter.trans (nowGrant.trans nowBefore)⟩

theorem line_arbitrate (p : Part) (j : LineNo) : p.arbitrate.line j = p.line j := by
  obtain ⟨_, _, lines⟩ := (forwards_arbitrate p).outside
  exact lines j

/-- Settles O56: the expiry by what it counts, the two orders of the 64th edge, and the classification by its search of the rate
table. -/
theorem probeWindowEnds : Obligations.ProbeWindowEnds := by
  refine ⟨fun s i edge k k' p hk hp => ?expiry, fun s i hk => ?idle,
    fun s i wait k hk last together mark holds present notOff notOpen => ?together, fun e shortest => ?classified⟩
  case expiry =>
    intro counted last other
    have hp : p = s.part.atWindowEnd k := hp
    subst hp
    have counts : (edge && (s.part.atWindowEnd k).countsFall i) = true ∧ k.edges = 63 ↔
        edge = true ∧ k.edges = 63 ∧ counted := by
      rw [Bool.and_eq_true, countsFall_iff, and_assoc, and_comm (b := k.edges = 63)]
      rfl
    have hk' : k' = k.atExpiry (edge && (s.part.atWindowEnd k).countsFall i) := by
      by_cases h : edge = true ∧ k.edges = 63 ∧ counted
      · rw [last h, atExpiry_last (counts.2 h)]
      · rw [other h, atExpiry_other (mt counts.1 h)]
    have ends : s.part.probeTimesOut i edge = (s.part.atWindowEnd k).endProbe i k' :=
      hk' ▸ probeTimesOut_running hk edge
    refine ⟨_, fun h => ?alone, fun h => ?withEdge, deliverProbe_noted _ k' _ _⟩
    case alone =>
      subst h
      exact congrArg (answers s) ends
    case withEdge =>
      subst h
      exact congrArg (fun q : Part => answers s (q.rxFalls i 0)) ends
  case idle =>
    exact ⟨congrArg (answers s) (probeTimesOut_idle hk false),
      congrArg (fun q : Part => answers s (q.rxFalls i 0)) (probeTimesOut_idle hk true)⟩
  case together =>
    refine ⟨_, _, rfl, rfl, ?_⟩
    obtain ⟨pinF, nowF⟩ := arbitrate_inputs (s.part.rxFalls i wait)
    obtain ⟨pinE, nowE⟩ := arbitrate_inputs (s.part.probeExpires i true)
    simp only [line_arbitrate, pinF, nowF, pinE, nowE]
    exact lastEdge_either_order hk last together mark holds present notOff notOpen
  case classified =>
    dsimp only
    simp only [rateTable_getD]
    refine ⟨classifyProbe_tooFew, ?_⟩
    rintro run enough rfl pos
    obtain ⟨bound, least⟩ := nearestRate_spec run
    exact ⟨fun k hk near => classifyProbe_found enough pos hk near,
      fun far => ⟨nearestRate run, bound, classifyProbe_noMatch enough far, least⟩⟩

end Sys2Proof.Machine

/-! PROOFS. Ring-due, the line attention flag, the summaries, the summary flags, the attention output and the ATTN# pin (R33, R162,
R163, R166 to R168, R172). -/

namespace Sys2Proof.Machine

/-! ### Ring-due and the line attention flag (R162, R163, R165) -/

/-- A ring is due by its threshold or by an expired coalesce state. -/
theorem ringDue_present_iff {l : Line} {r : Ring} (h : l.ring = .present r) :
    l.ringDue = true ↔ 0 < l.setting 15 ∧ l.setting 15 ≤ r.count ∨ r.coalesce = .expired := by
  rw [ringDue_present l r h]
  simp only [Ring.due, Bool.or_eq_true, Bool.and_eq_true, decide_eq_true_eq, beq_iff_eq]

theorem ringDue_of_not_present {l : Line} (h : ∀ r, l.ring ≠ .present r) : l.ringDue = false := by
  rw [Line.ringDue]
  split
  · next r present => exact absurd present (h r)
  · rfl

/-- The fault flags are the positions 3 to 8 of word 35. -/
theorem faultMask_bit {n : Nat} (h : n < 16) : faultMask.getLsbD n = true ↔ 3 ≤ n ∧ n ≤ 8 := by
  revert n
  decide

/-- A line holds a fault when one of the flags 3 to 8 is latched. -/
theorem hasFault_iff (l : Line) : l.hasFault = true ↔ ∃ n, 3 ≤ n ∧ n ≤ 8 ∧ l.flags.getLsbD n = true := by
  have clear : l.hasFault = false ↔ ∀ n < 16, (l.flags.getLsbD n && faultMask.getLsbD n) = false := by
    rw [Line.hasFault, bne_eq_false_iff_eq, BitVec.eq_of_getLsbD_eq_iff]
    simp only [BitVec.getLsbD_and, BitVec.ofNat_eq_ofNat, BitVec.getLsbD_zero]
  rw [← not_iff_not, Bool.not_eq_true, clear]
  constructor
  · rintro none ⟨n, low, high, latched⟩
    have bit := none n (by omega)
    rw [latched, (faultMask_bit (by omega)).2 ⟨low, high⟩] at bit
    cases bit
  · intro none n bound
    refine Bool.eq_false_iff.2 fun both => ?_
    obtain ⟨latched, masked⟩ := Bool.and_eq_true_iff.1 both
    obtain ⟨low, high⟩ := (faultMask_bit bound).1 masked
    exact none ⟨n, low, high, latched⟩

/-- The five kinds of the attention mask, each with what it attends to. -/
theorem attention_iff (l : Line) :
    l.attention = true ↔
      (l.shadow[21].getLsbD 0 = true ∧ l.ringDue = true) ∨
      (l.shadow[21].getLsbD 1 = true ∧ l.flags.getLsbD 0 = true) ∨
      (l.shadow[21].getLsbD 2 = true ∧ ∃ n, 3 ≤ n ∧ n ≤ 8 ∧ l.flags.getLsbD n = true) ∨
      (l.shadow[21].getLsbD 3 = true ∧ l.flags.getLsbD 1 = true) ∨
      (l.shadow[21].getLsbD 4 = true ∧ l.flags.getLsbD 2 = true) := by
  simp only [Line.attention, Bool.or_eq_true, Bool.and_eq_true, hasFault_iff, or_assoc]
  rfl

/-! ### Bits of the report words (R33, R166, R167) -/

theorem getLsbD_bitIf (c : Bool) {n : Nat} (h : n < 16) (k : Nat) : (bitIf c n).getLsbD k = (c && decide (k = n)) := by
  cases c
  · exact BitVec.getLsbD_zero
  · rw [bitIf, if_pos rfl, BitVec.getLsbD_ofNat, Nat.testBit_two_pow, Bool.true_and, ← Bool.decide_and, decide_eq_decide]
    omega

/-- Gathering the flags of the lines of one half: a bit is set when it was, or when a line of the half that stands there sets it. -/
theorem getLsbD_gathered (b : LineNo → Bool) (half n : Nat) (is : List LineNo) (w : Word) :
    (is.foldl (fun w i => if i.val / 16 = half then w ||| bitIf (b i) (i.val % 16) else w) w).getLsbD n =
      (w.getLsbD n || is.any fun i => decide (i.val / 16 = half ∧ n = i.val % 16) && b i) := by
  induction is generalizing w with
  | nil => exact (Bool.or_false _).symm
  | cons i is ih =>
    rw [List.foldl_cons, ih, List.any_cons, ← Bool.or_assoc]
    congr 1
    by_cases own : i.val / 16 = half
    · rw [if_pos own, BitVec.getLsbD_or, getLsbD_bitIf _ (Nat.mod_lt _ (by decide)), Bool.and_comm]
      simp only [own, true_and]
    · simp only [own, if_false, false_and, decide_false, Bool.false_and, Bool.or_false]

/-- A line is told by its half and its place in the half. -/
theorem line_of_half_place {i j : LineNo} : j.val / 16 = i.val / 16 ∧ i.val % 16 = j.val % 16 ↔ j = i := by
  rw [Fin.ext_iff]
  omega

/-- The bit of a line in its half of a summary is the flag of the line, and clear for an absent line. -/
theorem summaryHalf_bit (p : Part) (f : Line → Bool) (i : LineNo) :
    (p.summaryHalf f (i.val / 16)).getLsbD (i.val % 16) = (p.hasLine i && f (p.line i)) := by
  have gathered := getLsbD_gathered (fun j => p.hasLine j && f (p.line j)) (i.val / 16) (i.val % 16) (List.finRange 32) 0
  rw [Part.summaryHalf, gathered, Bool.eq_iff_iff]
  simp only [line_of_half_place, BitVec.ofNat_eq_ofNat, BitVec.getLsbD_zero, Bool.false_or, List.any_eq_true, List.mem_finRange,
    true_and, Bool.and_eq_true, decide_eq_true_eq, exists_eq_left]

theorem lineFault_iff (p : Part) :
    p.lineFault = true ↔ ∃ i k, p.hasLine i = true ∧ 3 ≤ k ∧ k ≤ 8 ∧ (p.line i).flags.getLsbD k = true := by
  simp only [Part.lineFault, List.any_eq_true, List.mem_finRange, true_and, Bool.and_eq_true, hasFault_iff, exists_and_left]

/-- The four bits of word 37. -/
theorem summaryFlags_bit (p : Part) (n : Nat) :
    p.summaryFlags.getLsbD n = true ↔
      n = 0 ∧ p.handsOff = true ∨ n = 1 ∧ p.forced = true ∨ n = 2 ∧ p.lineFault = true ∨ n = 3 ∧ p.blocked.latched = true := by
  have bit (c : Bool) {k : Nat} (h : k < 16) : (bitIf c k).getLsbD n = true ↔ n = k ∧ c = true := by
    rw [getLsbD_bitIf c h, Bool.and_eq_true, decide_eq_true_eq, and_comm]
  rw [Part.summaryFlags]
  simp only [BitVec.getLsbD_or, Bool.or_eq_true, bit, Nat.reduceLT, or_assoc]

/-! ### The attention output and the pin (R168, R172) -/

theorem anyAttention_iff (p : Part) : p.anyAttention = true ↔ ∃ i, p.hasLine i = true ∧ (p.line i).attention = true := by
  simp only [Part.anyAttention, List.any_eq_true, List.mem_finRange, true_and, Bool.and_eq_true]

theorem attentionOutput_iff (p : Part) :
    p.attentionOutput = true ↔
      (p.state = .armed ∨ p.state = .disarming) ∧ p.attentionEnable = true ∧
        ((∃ i, p.hasLine i = true ∧ (p.line i).attention = true) ∨ p.blocked.latched = true) := by
  simp only [Part.attentionOutput, Bool.and_eq_true, Bool.or_eq_true, beq_iff_eq, anyAttention_iff, and_assoc]

theorem attnLow_iff (p : Part) : p.attnLow = true ↔ p.attentionOutput = true ∧ p.resetLow = false := by
  rw [Part.attnLow, Bool.and_eq_true, Bool.not_eq_true']

/-- Settles O57. -/
theorem attention : Obligations.Attention := by
  intro p
  refine ⟨fun i r present => ringDue_present_iff present, fun i absent => ringDue_of_not_present absent,
    fun i => attention_iff (p.line i), fun i => ⟨?attention, ?activity⟩, attentionOutput_iff p, fun n => ?flags, attnLow_iff p⟩
  case attention =>
    rw [baseReport_attention p (by omega), summaryHalf_bit]
  case activity =>
    rw [baseReport_activity p (by omega), summaryHalf_bit]
    rfl
  case flags =>
    rw [baseReport_37, summaryFlags_bit, lineFault_iff]

end Sys2Proof.Machine

/-! PROOFS. The step: the command at the front of the queue, or one period of the reference clock (R1; logs 1, 2). -/

namespace Sys2Proof.Machine

/-- The front command runs on the state that holds only the rest of the queue, so it cannot be taken twice. -/
theorem step_of_pending_cons {s : State} {c : Instr} {rest : List Instr} (front : s.pending = c :: rest) :
    step s = exec c { s with pending := rest } := by
  rw [step, front]

/-- The model's choice of log 2: with nothing waiting, only the count of reference periods moves on. -/
theorem step_of_pending_nil {s : State} (empty : s.pending = []) :
    step s = .next { s with part := { s.part with now := s.part.now + 1 } } := by
  rw [step, empty]

/-- Settles O1, by the two forms of the queue. -/
theorem stepRunsFrontCommand : Obligations.StepRunsFrontCommand :=
  ⟨fun _ _ _ front => step_of_pending_cons front, fun _ empty => step_of_pending_nil empty⟩

end Sys2Proof.Machine

/-! PROOFS. What a step can do: one inversion of `exec` for every command, from which the invariants of every step are derived. -/

namespace Sys2Proof.Machine

variable {s t : State} {i : LineNo} {p : Part}

/-- `q` is `p` after an event of line `i` that is no host access: a timer, an input of the line, the end of what it sends. -/
inductive LineMove (i : LineNo) (p : Part) : Part → Prop
  | expireSettle : LineMove i p (p.expireSettle i)
  | expireRelease : LineMove i p (p.expireRelease i)
  | completeByte : LineMove i p (p.completeByte i)
  | endBreakSpace : LineMove i p (p.endBreakSpace i)
  | endBreakMark : LineMove i p (p.endBreakMark i)
  | endPause : LineMove i p (p.endPause i)
  | rxFalls (wait : Nat) : LineMove i p (p.rxFalls i wait)
  | rxRises (wait : Nat) : LineMove i p (p.rxRises i wait)
  | sampleStart : LineMove i p (p.sampleStart i)
  | byteArrives : LineMove i p (p.byteArrives i)
  | breakStarts : LineMove i p (p.breakStarts i)
  | gapExpires : LineMove i p (p.gapExpires i)
  | quietExpires : LineMove i p (p.quietExpires i)
  | probeExpires (edge : Bool) : LineMove i p (p.probeExpires i edge)
  | signalFalls : LineMove i p (p.signalFalls i)
  | signalRises : LineMove i p (p.signalRises i)
  | lineOpens : LineMove i p (p.lineOpens i)
  | lineRestores : LineMove i p (p.lineRestores i)
  | becomesStuck : LineMove i p (p.becomesStuck i)
  | lapseLease : LineMove i p (p.lapseLease i)
  | expireCoalesce : LineMove i p (p.expireCoalesce i)

/-- `q` is `p` after an event that is neither a host access nor a completion at the port, before the port grants. -/
inductive PartMove (p : Part) : Part → Prop
  | line {i : LineNo} {q : Part} (move : LineMove i p q) : PartMove p q
  | powerOn : PartMove p p.powerOn
  | assertReset : PartMove p p.assertReset
  | resetEffect (idle : p.port.serving = none) : PartMove p p.pinResetEffect
  | releaseReset : PartMove p p.releaseReset
  | assertHandsOff : PartMove p p.assertHandsOff
  | releaseHandsOff : PartMove p p.releaseHandsOff
  | tick : PartMove p p.tick
  | endMarkHold (i : LineNo) : PartMove p (p.endMarkHold i)
  | writerSelects : PartMove p p.writerSelects
  | expireHold : PartMove p p.expireHold

/-- `q` is `p`, which served `a`, after the step of the requester whose access has returned `d`, before the port grants. -/
inductive RequesterMove (p : Part) (d : Word) : Serving → Part → Prop
  | setup (w : Nat) : RequesterMove p d (.setupRead w) (p.freePort.setupData d)
  | report (w : ReportWord) (a : Addr) (v : Word) (plain : p.servesClosing = false) : RequesterMove p d (.report w a v) p.freePort
  | reclaim (a : Addr) (i : LineNo) (job : TakenJob) (noted : Nat) (overtaken : Bool)
      (flight : p.writer.flight = some ⟨i, .reclaimRead job noted overtaken⟩) :
      RequesterMove p d (.reclaimRead a) (p.freePort.reclaimReturns i job noted overtaken d)
  | word (a : Addr) (v : Word) (i : LineNo) (w : Writing) (flight : p.writer.flight = some ⟨i, .writing w⟩) :
      RequesterMove p d (.recordWord a v) (p.freePort.nextWord i w)
  | commit (a : Addr) (v : Word) (i : LineNo) (w : Writing) (flight : p.writer.flight = some ⟨i, .writing w⟩) :
      RequesterMove p d (.recordWord a v) (p.freePort.commitRecord i w)
  | walk (a : Addr) (i : LineNo) (got : List Word) (abandoned : Option Addr)
      (flight : p.writer.flight = some ⟨i, .walkStep got abandoned⟩) :
      RequesterMove p d (.walkRead a) (p.freePort.walkReturns i got abandoned d)

/-- `t` is `s` after one command: nothing, an event of the part, a host access that arrives, or a completion at the port. -/
inductive Happens (s : State) : State → Prop
  | nothing : Happens s s
  | event {q : Part} (move : PartMove s.part q) : Happens s { s with part := q.arbitrate }
  | arrives (a : HostAccess) : Happens s { s with part := s.part.hostIssues a }
  | together (a : HostAccess) : Happens s { s with part := s.part.hostFollows (some a) }
  | hostDone (following : Option HostAccess) : Happens s (s.completeHost following)
  | requester {a : Serving} {q : Part} (serving : s.part.port.serving = some a) (noReset : s.part.resetPending = false)
      (move : RequesterMove s.part (Memory.access s.mem a).2 a q) :
      Happens s { s with part := q.arbitrate, mem := (Memory.access s.mem a).1 }
  | closing (a : Serving) (serving : s.part.port.serving = some a) (noReset : s.part.resetPending = false)
      (serves : s.part.servesClosing = true) : Happens s (s.completeClosing a)
  | reset (a : Serving) (serving : s.part.port.serving = some a) (waits : s.part.resetPending = true) :
      Happens s { s with part := s.part.freePort.pinResetEffect.arbitrate, mem := (Memory.access s.mem a).1 }

/-! ### The forms of a meaning -/

theorem host_happens {a : HostAccess} (h : s.host a = .next t) : Happens s t := by
  cases h
  exact .arrives a

theorem event_happens {q : Part} (move : PartMove s.part q) (h : answers s q = .next t) : Happens s t := by
  cases h
  exact .event move

theorem line_happens {q : Part} (i : LineNo) (move : LineMove i s.part q) (h : answers s q = .next t) : Happens s t :=
  event_happens (.line move) h

theorem lcbHost_happens {w : Fin 22} {lanes : Lanes} {d : Word} {ok : Word → Bool} (h : s.lcbHost i w lanes d ok = .next t) :
    Happens s t := by
  rw [State.lcbHost] at h
  split at h
  · exact host_happens h
  · cases h
    exact .nothing

theorem hostIf_happens {c : Prop} [Decidable c] {a : HostAccess} (h : (if c then s.host a else .next s) = .next t) :
    Happens s t := by
  split at h
  · exact host_happens h
  · cases h
    exact .nothing

/-- A read that a row of its own names completes as every host access does. -/
theorem readIf_happens {c : Prop} [Decidable c]
    (h : (Host.Outcome.next (if c then s.completeHost none else s) : Answer) = .next t) : Happens s t := by
  cases h
  split
  · exact .hostDone none
  · exact .nothing

/-- An internal access completes: the waiting pin reset takes effect (R20), or the requester's own step is done. -/
theorem complete_happens {a : Serving} {f : Word → Part → Part} (serving : s.part.port.serving = some a)
    (move : RequesterMove s.part (Memory.access s.mem a).2 a (f (Memory.access s.mem a).2 s.part.freePort)) :
    Happens s (s.complete a f) := by
  rw [State.complete, Part.completed]
  cases waits : s.part.resetPending with
  | true => exact .reset a serving waits
  | false => exact .requester serving waits move

/-! ### The completions at the port -/

theorem resetEffect_happens (h : execPinResetEffect s = .next t) : Happens s t := by
  rw [execPinResetEffect] at h
  split at h
  · next waits =>
    split at h
    · next a serving =>
      cases h
      rw [State.complete, Part.completed, if_pos waits]
      exact .reset a serving waits
    · next idle => exact event_happens (.resetEffect idle) h
  · cases h
    exact .nothing

theorem setupRead_happens (h : execSetupReadComplete s = .next t) : Happens s t := by
  rw [execSetupReadComplete] at h
  split at h <;> cases h
  · next w serving => exact complete_happens serving (.setup w)
  · exact .nothing

theorem reportWrite_happens (h : execReportWriteComplete s = .next t) : Happens s t := by
  rw [execReportWriteComplete] at h
  split at h
  · next w a v serving =>
    split at h <;> cases h
    · exact .nothing
    · next plain => exact complete_happens serving (.report w a v (Bool.eq_false_iff.2 plain))
  · cases h
    exact .nothing

theorem closingWrite_happens (h : execClosingWriteComplete s = .next t) : Happens s t := by
  rw [execClosingWriteComplete] at h
  split at h
  · next w a v serving =>
    split at h <;> cases h
    · next serves =>
      cases waits : s.part.resetPending with
      | true =>
        rw [State.completeClosing, if_pos waits]
        exact .reset _ serving waits
      | false => exact .closing _ serving waits serves
    · exact .nothing
  · cases h
    exact .nothing

theorem reclaimRead_happens (h : execReclaimReadReturn s = .next t) : Happens s t := by
  rw [execReclaimReadReturn] at h
  split at h <;> cases h
  · next a i job noted overtaken serving flight => exact complete_happens serving (.reclaim a i job noted overtaken flight)
  · exact .nothing

theorem recordWord_happens (h : execRecordWordComplete s = .next t) : Happens s t := by
  rw [execRecordWordComplete] at h
  split at h
  · next a v i w serving flight =>
    split at h <;> cases h
    · exact complete_happens serving (.word a v i w flight)
    · exact .nothing
  · cases h
    exact .nothing

theorem commit_happens (h : execCommit s = .next t) : Happens s t := by
  rw [execCommit] at h
  split at h
  · next a v i w serving flight =>
    split at h <;> cases h
    · exact complete_happens serving (.commit a v i w flight)
    · exact .nothing
  · cases h
    exact .nothing

theorem walkRead_happens (h : execWalkReadComplete s = .next t ∨ execWalkReadReturn s = .next t) : Happens s t := by
  rw [execWalkReadComplete, execWalkReadReturn] at h
  rcases h with h | h <;> split at h
  case h_1 a i got abandoned serving flight | h_1 a i got abandoned serving flight =>
    split at h <;> cases h
    · exact complete_happens serving (.walk a i got abandoned flight)
    · exact .nothing
  all_goals
    cases h
    exact .nothing

/-- Every command is one of the happenings: the case split over the instruction set, done once. -/
theorem exec_happens {c : Instr} (h : exec c s = .next t) : Happens s t := by
  cases c with
  | powerOn => exact event_happens .powerOn h
  | pinReset => exact event_happens .assertReset h
  | pinResetEffect => exact resetEffect_happens h
  | handsOffAsserted => exact event_happens .assertHandsOff h
  | handsOffDeasserted => exact event_happens .releaseHandsOff h
  | resetRelease => exact event_happens .releaseReset h
  | counterTick => exact event_happens .tick h
  | markHoldEnd i => exact event_happens (.endMarkHold i) h
  | writerSelect => exact event_happens .writerSelects h
  | holdExpiry => exact event_happens .expireHold h
  | setupReadComplete => exact setupRead_happens h
  | closingWriteComplete => exact closingWrite_happens h
  | reportWriteComplete => exact reportWrite_happens h
  | reclaimReadReturn => exact reclaimRead_happens h
  | recordWordComplete => exact recordWord_happens h
  | commit => exact commit_happens h
  | walkReadComplete => exact walkRead_happens (.inl h)
  | walkReadReturn => exact walkRead_happens (.inr h)
  | probeResultRead => exact readIf_happens h
  | sizeWordRead => exact readIf_happens h
  | retireByRead => exact readIf_happens h
  | hostAccessComplete e =>
    cases e with
    | arrives a => exact host_happens h
    | arrivesTogether a =>
      cases h
      exact .together a
    | completes following =>
      cases h
      exact .hostDone following
  | blockedWrite | windowWrite | windowRead => exact hostIf_happens h
  | settingsWrite i w lanes d =>
    change (if plainSettingsWord w then s.lcbHost i w lanes d anyValue else .next s) = .next t at h
    split at h
    · exact lcbHost_happens h
    · cases h
      exact .nothing
  | gateWrite | attentionEnable | forceSet | forceClear | disarm | baseAcknowledge | timestampHighRead | timestampLowRead =>
    exact host_happens h
  | modeRequestOff | modeRequestListen | modeRequestListenResume | modeRequestDrive | modeRequestUnknown =>
    dsimp only [exec, execModeRequestOff, execModeRequestListen, execModeRequestListenResume, execModeRequestDrive,
      execModeRequestUnknown] at h
    exact lcbHost_happens h
  | close | flush | probe | probeApply | discardTx | resetCounts | commandUnknown | lineAcknowledge =>
    dsimp only [exec, execClose, execFlush, execProbe, execProbeApply, execDiscardTx, execResetCounts, execCommandUnknown,
      execLineAcknowledge] at h
    exact lcbHost_happens h
  | frameWrite | rateDivisorWrite | rateFractionWrite | breakPolicyWrite | attentionThresholdWrite | coalesceTimeWrite
  | quietTimeWrite | attentionMaskWrite =>
    dsimp only [exec, execFrameWrite, execRateDivisorWrite, execRateFractionWrite, execBreakPolicyWrite,
      execAttentionThresholdWrite, execCoalesceTimeWrite, execQuietTimeWrite, execAttentionMaskWrite] at h
    exact lcbHost_happens h
  | settleExpiry i => exact line_happens i .expireSettle h
  | releaseExpiry i => exact line_happens i .expireRelease h
  | dataByteComplete i => exact line_happens i .completeByte h
  | breakSpaceEnd i => exact line_happens i .endBreakSpace h
  | breakMarkEnd i => exact line_happens i .endBreakMark h
  | pauseEnd i => exact line_happens i .endPause h
  | rxFallingEdge i wait => exact line_happens i (.rxFalls wait) h
  | rxRisingEdge i wait => exact line_happens i (.rxRises wait) h
  | startBit i => exact line_happens i .sampleStart h
  | byteArrival i => exact line_happens i .byteArrives h
  | breakStart i => exact line_happens i .breakStarts h
  | gapTimerExpiry i => exact line_happens i .gapExpires h
  | quietExpiry i => exact line_happens i .quietExpires h
  | probeWindowEnd e => exact line_happens e.line (.probeExpires e.edge) h
  | signalInvalid i => exact line_happens i .signalFalls h
  | signalValid i => exact line_happens i .signalRises h
  | lineOpen i => exact line_happens i .lineOpens h
  | lineRestored i => exact line_happens i .lineRestores h
  | stuck i => exact line_happens i .becomesStuck h
  | leaseLapse i => exact line_happens i .lapseLease h
  | coalesceExpiry i => exact line_happens i .expireCoalesce h

/-- A step lets a period pass, when no command waits, or takes the first command. -/
theorem step_happens (h : step s = .next t) :
    t = { s with part := { s.part with now := s.part.now + 1 } } ∨ ∃ rest, Happens { s with pending := rest } t := by
  by_cases front : s.pending = []
  · rw [step_of_pending_nil front] at h
    exact .inl (Host.Outcome.next.inj h).symm
  · obtain ⟨c, waiting, front⟩ := List.exists_cons_of_ne_nil front
    rw [step_of_pending_cons front] at h
    exact .inr ⟨waiting, exec_happens h⟩

/-- An invariant that the passing of a period and the removal of a waiting command leave, and every happening keeps, is kept by
every step. -/
theorem step_induction {P : State → Prop} (idle : ∀ s, P s → P { s with part := { s.part with now := s.part.now + 1 } })
    (rest : ∀ s rest, P s → P { s with pending := rest }) (happens : ∀ s t, P s → Happens s t → P t)
    (holds : P s) (h : step s = .next t) : P t := by
  rcases step_happens h with rfl | ⟨waiting, move⟩
  · exact idle s holds
  · exact happens _ t (rest s waiting holds) move

/-! ### The bank (R1, R11) -/

theorem completeHost_canonical (following : Option HostAccess) (h : MemoryCanonical s) :
    MemoryCanonical (s.completeHost following) := by
  rw [State.completeHost]
  split
  · exact access_wf _ h
  · exact h

theorem serveWaiting_canonical (h : MemoryCanonical s) : MemoryCanonical s.serveWaiting := by
  rw [State.serveWaiting]
  split
  · exact access_wf _ h
  · exact h

theorem completeClosing_canonical (a : Serving) (h : MemoryCanonical s) : MemoryCanonical (s.completeClosing a) := by
  have written : MemoryCanonical { s with part := s.part.freePort, mem := (Memory.access s.mem a).1 } := access_wf a h
  rw [State.completeClosing]
  split
  · exact written
  · split
    · exact serveWaiting_canonical written
    · exact written

theorem happens_keeps_canonical (h : MemoryCanonical s) (move : Happens s t) : MemoryCanonical t := by
  cases move with
  | nothing | event | arrives | together => exact h
  | hostDone following => exact completeHost_canonical following h
  | requester | reset => exact access_wf _ h
  | closing a => exact completeClosing_canonical a h

/-- Settles O58: of the happenings, only completions at the port touch the bank, and each by accesses that keep its form. -/
theorem stepKeepsMemoryCanonical : Obligations.StepKeepsMemoryCanonical := fun _ _ canonical =>
  step_induction (fun _ h => h) (fun _ _ h => h) (fun _ _ => happens_keeps_canonical) canonical

end Sys2Proof.Machine

/-! PROOFS. What the events of a line leave alone: the bearing of the part and its port, the bound of the queues, and what a held
write stands on (R13, R15, R138, R148). -/

namespace Sys2Proof.Machine

variable {i : LineNo} {p q r : Part}

/-! ### The relation -/

/-- What of the part and of its port no event of a line touches. -/
structure Bearing where
  state : PartState
  map : Option AddressMap
  closing : Bool
  setupCopy : List Word
  passOver : Nat
  allowance : Nat
  serving : Option Serving

def Part.bearing (p : Part) : Bearing :=
  ⟨p.state, p.map, p.closing, p.setupCopy, p.port.passOver, p.port.allowance, p.port.serving⟩

/-- No transmit queue holds more than 64 entries (R138). -/
def Part.Roomy (p : Part) : Prop := ∀ i, (p.line i).queue.length ≤ 64

/-- The line is in a state in which it may hold a write (R148). -/
def Line.Holds (l : Line) : Prop := l.state = .settle ∨ l.state = .drive

/-- A map is in force in "ARMED" and "DISARMING" alone (R2). -/
def Bearing.Mapped (b : Bearing) : Prop := b.map.isSome = true → b.state.inForce = true

/-- From `p` to `q` the bearing stays, and so do the bound of the queues and the soundness of the held write. -/
structure Keeps (p q : Part) : Prop where
  bearing : q.bearing = p.bearing
  room : p.Roomy → q.Roomy
  hold : p.bearing.Mapped → HeldSound p → HeldSound q

theorem Keeps.refl (p : Part) : Keeps p p := ⟨rfl, id, fun _ => id⟩

theorem Keeps.trans (h : Keeps p q) (k : Keeps q r) : Keeps p r :=
  ⟨k.bearing.trans h.bearing, k.room ∘ h.room, fun m held => k.hold (h.bearing ▸ m) (h.hold m held)⟩

theorem Keeps.ite {c : Prop} [Decidable c] (h : Keeps p q) (k : Keeps p r) : Keeps p (if c then q else r) := by
  split <;> assumption

/-- The soundness of the held write depends on the held write, the part state, the map and the line's state alone. -/
theorem heldSound_of (hs : q.state = p.state) (hm : q.map = p.map)
    (hh : ∀ h, q.held = some h → p.held = some h ∧ ((p.line h.line).Holds → (q.line h.line).Holds)) (h : HeldSound p) :
    HeldSound q := fun w held => by
  obtain ⟨was, holds⟩ := hh w held
  obtain ⟨armed, has, state⟩ := h w was
  exact ⟨hs.trans armed, (hasLine_of_map _ _ hm w.line).trans has, holds state⟩

/-- A change beside the lines and the held write. -/
theorem Keeps.same (hb : q.bearing = p.bearing) (hl : q.lines = p.lines) (hh : q.held = p.held) : Keeps p q where
  bearing := hb
  room room j := by rw [line_of_lines _ _ hl]; exact room j
  hold _ := heldSound_of (congrArg Bearing.state hb) (congrArg Bearing.map hb) fun h held =>
    ⟨hh ▸ held, by rw [line_of_lines _ _ hl]; exact id⟩

theorem LineStep.bearing (h : LineStep i p q) : q.bearing = p.bearing := by
  change q.outside.bearing = p.outside.bearing
  rw [h.1]

/-- A change of line `i` keeps the bound when its queue stays within it, and the held write when it holds none or goes on to be in
a state that may. -/
theorem LineStep.keepsOf (s : LineStep i p q) (room : (p.line i).queue.length ≤ 64 → (q.line i).queue.length ≤ 64)
    (hold : p.heldFor i = none ∨ ((p.line i).Holds → (q.line i).Holds)) : Keeps p q where
  bearing := s.bearing
  room h j := by
    by_cases e : j = i
    · exact e ▸ room (h i)
    · rw [s.2.1 j e]
      exact h j
  hold _ := heldSound_of s.state s.map fun h held => by
    rw [s.held] at held
    refine ⟨held, ?_⟩
    by_cases e : h.line = i
    · rcases hold with none | holds
      · simp only [Part.heldFor, held, e, if_true, reduceCtorEq] at none
      · rwa [e]
    · rw [s.2.1 _ e]
      exact id

/-! ### Changes of a line that leave its state and its queue alone -/

/-- From `p` to `q` line `i` alone changes, and keeps its state and its queue. -/
structure Calm (i : LineNo) (p q : Part) : Prop where
  step : LineStep i p q
  state : (q.line i).state = (p.line i).state
  queue : (q.line i).queue = (p.line i).queue

theorem Calm.refl (i : LineNo) (p : Part) : Calm i p p := ⟨.refl i p, rfl, rfl⟩

theorem Calm.trans (h : Calm i p q) (k : Calm i q r) : Calm i p r :=
  ⟨h.step.trans k.step, k.state.trans h.state, k.queue.trans h.queue⟩

theorem Calm.ite {c : Prop} [Decidable c] (h : Calm i p q) (k : Calm i p r) : Calm i p (if c then q else r) := by
  split <;> assumption

theorem Calm.keeps (h : Calm i p q) : Keeps p q :=
  h.step.keepsOf (by rw [h.queue]; exact id) (.inr (by rw [Line.Holds, Line.Holds, h.state]; exact id))

/-- The line is as it was: only reports are queued. -/
theorem LineStep.calm (s : LineStep i p q) (h : q.line i = p.line i) : Calm i p q := ⟨s, by rw [h], by rw [h]⟩

theorem calm_onLine (p : Part) (f : Line → Line) (hs : (f (p.line i)).state = (p.line i).state)
    (hq : (f (p.line i)).queue = (p.line i).queue) : Calm i p (p.onLine i f) :=
  ⟨lineStep_onLine p i f, by rw [line_onLine, hs], by rw [line_onLine, hq]⟩

theorem calm_queueLcb (p : Part) (w : Nat) : Calm i p (p.queueLcb i w) := (lineStep_queueLcb p i w).calm rfl

theorem calm_queueLcbs (p : Part) (ws : List Nat) : Calm i p (p.queueLcbs i ws) :=
  (lineStep_queueLcbs p i ws).calm (line_queueLcbs p i i ws)

theorem calm_queueLcbIf (p : Part) (c : Bool) (w : Nat) : Calm i p (p.queueLcbIf c i w) :=
  (lineStep_queueLcbIf p c i w).calm (line_queueLcbIf p c i i w)

theorem calm_noteLine (p before : Part) : Calm i p (p.noteLine i before) :=
  (lineStep_noteLine p i before).calm (line_noteLine p i i before)

theorem calm_noteDue (p before : Part) : Calm i p (p.noteDue i before) :=
  (lineStep_noteDue p i before).calm (line_noteDue p i i before)

theorem calm_changeFlags (p : Part) (f : Word) : Calm i p (p.changeFlags i f) :=
  ⟨lineStep_changeFlags p i f, by rw [line_changeFlags], by rw [line_changeFlags]⟩

theorem calm_latch (p : Part) (f : Flag) : Calm i p (p.latch i f) := calm_changeFlags p _

theorem calm_setConditions (p : Part) (a b : Bool) : Calm i p (p.setConditions i a b) :=
  ⟨lineStep_setConditions p i a b, by rw [line_setConditions], by rw [line_setConditions]⟩

theorem calm_count (p : Part) (c : Counter) (n : Nat) : Calm i p (p.count i c n) :=
  ⟨lineStep_count p i c n, by rw [line_count]; rfl, by rw [line_count]; rfl⟩

theorem calm_loseEntries (p : Part) (n : Nat) : Calm i p (p.loseEntries i n) := (calm_count p _ n).trans (calm_onLine _ _ rfl rfl)

theorem calm_refuseEntry (p : Part) : Calm i p (p.refuseEntry i) := (calm_count p _ 1).trans (calm_onLine _ _ rfl rfl)

theorem calm_byteSent (p : Part) : Calm i p (p.byteSent i) := (calm_count p _ 1).trans (calm_onLine _ _ rfl rfl)

theorem calm_setCredit (p : Part) (c : Bool) : Calm i p (p.setCredit i c) :=
  (calm_onLine p (fun l => { l with breakCredit := c }) rfl rfl).trans (calm_queueLcbIf _ _ _)

theorem calm_setRate (p : Part) (d f : Nat) : Calm i p (p.setRate i d f) :=
  (calm_onLine p _ rfl rfl).trans (calm_queueLcbs _ _)

theorem calm_offer (p : Part) (k : EventKind) (a b c d : Word) : Calm i p (p.offer i k a b c d) :=
  calm_onLine p _ (offer_state _ _) (offer_queue _ _)

theorem calm_closeOpen (p : Part) : Calm i p (p.closeOpen i) := calm_onLine p _ (closeOpen_state _) (closeOpen_queue _)

theorem calm_overrun (p : Part) : Calm i p (p.overrun i) :=
  ((calm_count p _ 1).trans (calm_latch _ _)).trans (.ite (calm_onLine _ _ rfl rfl) (calm_offer _ _ _ _ _ _))

theorem fill_calm (l : Line) (k : Fin 2) (c : Contents) (b : RxByte) (now : Moment) :
    (l.fill k c b now).state = l.state ∧ (l.fill k c b now).queue = l.queue := by
  unfold Line.fill
  extract_lets gap filled
  split
  · exact ⟨closeOpen_state filled, closeOpen_queue filled⟩
  · exact ⟨rfl, rfl⟩

theorem calm_placeByte (p : Part) (b : RxByte) : Calm i p (p.placeByte i b) := by
  rw [Part.placeByte]
  split
  · exact calm_onLine p _ (fill_calm _ _ _ _ _).1 (fill_calm _ _ _ _ _).2
  · split
    · exact calm_onLine p _ (fill_calm _ _ _ _ _).1 (fill_calm _ _ _ _ _).2
    · exact calm_overrun p

theorem unparked_calm (l : Line) : l.unparked.state = l.state ∧ l.unparked.queue = l.queue := by
  rw [Line.unparked]
  split <;> exact ⟨rfl, rfl⟩

theorem calm_setRing (p : Part) (x : Ring) : Calm i p (p.setRing i x) := calm_onLine p _ rfl rfl

theorem calm_unpark (p : Part) : Calm i p (p.unpark i) :=
  ⟨lineStep_unpark p i, by rw [line_unpark, (unparked_calm _).1], by rw [line_unpark, (unparked_calm _).2]⟩

theorem calm_makeFresh (p : Part) : Calm i p (p.makeFresh i) :=
  (((calm_setRing p _).trans (calm_unpark _)).trans (calm_queueLcbs _ _)).trans (calm_noteLine _ _)

theorem calm_commitRing (p : Part) (x : Ring) (n : Nat) (pad : Option Nat) (seq : Word) :
    Calm i p (p.commitRing i x n pad seq) :=
  ((((((calm_setRing p _).trans (calm_queueLcbs _ _)).trans (calm_queueLcbIf _ _ _)).trans (calm_queueLcbIf _ _ _)).trans
    (calm_queueLcbIf _ _ _)).trans (calm_queueLcb _ _)).trans (calm_noteLine _ _)

theorem calm_startProbe (p : Part) (a : Bool) : Calm i p (p.startProbe i a) :=
  (((calm_onLine p _ rfl rfl).trans (calm_queueLcb _ _)).trans (calm_changeFlags _ _)).trans (calm_queueLcb _ _)

theorem calm_deliverProbe (p : Part) (k : Probe) (x : ProbeResult) (n : Nat) : Calm i p (p.deliverProbe i k x n) :=
  ((((((calm_onLine p _ rfl rfl).trans (calm_queueLcb _ _)).trans (calm_onLine _ _ rfl rfl)).trans (calm_queueLcb _ _)).trans
    (.ite (calm_setRate _ _ _) (.refl i _))).trans (calm_offer _ _ _ _ _ _)).trans (calm_latch _ _)

theorem calm_abandonProbe (p : Part) : Calm i p (p.abandonProbe i) := by
  rw [Part.abandonProbe]
  split
  · exact calm_deliverProbe p _ _ _
  · exact .refl i p

theorem calm_setActing (p : Part) (a : Acting) : Calm i p (p.setActing i a) := calm_onLine p _ rfl rfl

theorem calm_setHeld (p : Part) (a b : Bool) : Calm i p (p.setHeld i a b) :=
  (calm_onLine p (fun l => { l with heldHandsOff := a, heldForced := b }) rfl rfl).trans (calm_queueLcbIf _ _ _)

theorem calm_retarget (p : Part) (t : Target) (c : ModeCause) : Calm i p (p.retarget i t c) := calm_onLine p _ rfl rfl

theorem calm_endReceivedBreak (p : Part) : Calm i p (p.endReceivedBreak i) := by
  rw [Part.endReceivedBreak]
  split
  · exact calm_offer p _ _ _ _ _
  · exact .refl i p

/-! ### Changes beside the lines -/

theorem keeps_at (p : Part) (t : Moment) : Keeps p (p.at t) := .same rfl rfl rfl

theorem keeps_forward (p : Part) (a : HostAccess) : Keeps p (p.forward a) := .same rfl rfl rfl

theorem keeps_setFlight (p : Part) (f : Option Flight) : Keeps p (p.setFlight f) := .same rfl rfl rfl

theorem keeps_overtake (p : Part) : Keeps p (p.overtake i) := by
  rw [Part.overtake]
  split
  · exact .ite (.same rfl rfl rfl) (.refl p)
  · exact .refl p

theorem keeps_abandonStep (p : Part) : Keeps p (p.abandonStep i) := by
  rw [Part.abandonStep]
  split
  · exact .ite (.same rfl rfl rfl) (.refl p)
  · exact .refl p

/-- A held write that is released holds no longer. -/
theorem keeps_releaseHold (p : Part) : Keeps p (p.releaseHold i) := by
  rw [Part.releaseHold]
  split
  · exact ⟨rfl, id, fun _ _ _ held => nomatch held⟩
  · exact .refl p

theorem heldFor_releaseHold (p : Part) : (p.releaseHold i).heldFor i = none := by
  rw [Part.releaseHold]
  split
  · rfl
  · next none => exact none

/-! ### The transmit queue -/

theorem calm_refuseHeld (p : Part) : Calm i (p.releaseHold i) (p.refuseHeld i) := by
  rw [refuseHeld_eq]
  have refused : Calm i p (if (p.heldFor i).isSome then p.refuseEntry i else p) := .ite (calm_refuseEntry p) (.refl i p)
  exact ⟨refused.step.releaseHold, by rw [line_releaseHold, line_releaseHold, refused.state],
    by rw [line_releaseHold, line_releaseHold, refused.queue]⟩

theorem keeps_refuseHeld (p : Part) : Keeps p (p.refuseHeld i) := (keeps_releaseHold p).trans (calm_refuseHeld p).keeps

theorem dropQueue_room (l : Line) (k : Nat) : (l.dropQueue k).queue.length ≤ 64 := by
  change (if l.sending then l.queue.take 1 else []).length ≤ 64
  split
  · exact (List.length_take_le 1 _).trans (by decide)
  · exact Nat.zero_le _

theorem keeps_discardQueue (p : Part) : Keeps p (p.discardQueue i) :=
  (keeps_releaseHold p).trans ((lineStep_discardQueue p i).keepsOf
    (fun _ => by rw [line_discardQueue]; exact dropQueue_room _ _) (.inl (heldFor_releaseHold p)))

theorem keeps_enterRelease (p : Part) (t : Target) (c : ModeCause) : Keeps p (p.enterRelease i t c) :=
  (keeps_releaseHold p).trans ((lineStep_enterRelease p i t c).keepsOf
    (fun _ => by rw [line_enterRelease]; exact dropQueue_room (p.line i) (p.heldCount i)) (.inl (heldFor_releaseHold p)))

theorem heldEntries_length (p : Part) : (p.heldEntries i).length ≤ 1 := by
  rw [Part.heldEntries]
  cases p.heldFor i <;> exact Nat.le_of_ble_eq_true rfl

/-- The head leaves the room that a held entry takes. -/
theorem headLeft_room (l : Line) {held : List Entry} (one : held.length ≤ 1) (room : l.queue.length ≤ 64) :
    (l.headLeft held).queue.length ≤ 64 := by
  change (l.queue.tail ++ held).length ≤ 64
  rw [List.length_append, List.length_tail]
  omega

theorem keeps_leaveHead (p : Part) : Keeps p (p.leaveHead i) := by
  obtain ⟨step, line, -, -⟩ := leaveHead_event (i := i) p
  refine (keeps_releaseHold p).trans (step.keepsOf (fun room => ?_) (.inl (heldFor_releaseHold p)))
  rw [line_releaseHold] at room
  rw [line]
  exact headLeft_room _ (heldEntries_length p) room

theorem keeps_headBreak (p : Part) (v : Byte) : Keeps p (p.headBreak i v) := by
  rw [Part.headBreak]
  split
  · exact (Calm.ite (calm_setCredit p _) (.refl i p)).keeps.trans (calm_setActing _ _).keeps
  · exact ((calm_count p _ 1).trans (calm_refuseEntry _)).keeps.trans (keeps_leaveHead _)

theorem keeps_headFence (p : Part) (v : Byte) : Keeps p (p.headFence i v) :=
  (((((calm_offer p _ _ _ _ _).trans (calm_onLine _ _ rfl rfl)).trans (calm_latch _ _)).trans
    (calm_onLine _ (fun l => { l with fenceTag := v }) rfl rfl)).trans (calm_queueLcb _ _)).keeps.trans (keeps_leaveHead _)

theorem keeps_tail (p : Part) : Keeps p (p.onLine i fun l => { l with queue := l.queue.tail, acting := none }) := by
  refine (lineStep_onLine p i _).keepsOf (fun room => ?_) (.inr fun h => by rwa [line_onLine])
  rw [line_onLine]
  exact (List.length_tail ▸ Nat.sub_le _ 1).trans room

theorem keeps_beginEntry (p : Part) (e : Entry) : Keeps p (p.beginEntry i e) := by
  rw [Part.beginEntry]
  cases e.kind with
  | data | pause => exact (calm_setActing p _).keeps
  | brk => exact keeps_headBreak p _
  | rate => exact (calm_setRate p _ _).keeps.trans (keeps_leaveHead _)
  | fence => exact keeps_headFence p _
  | drop => exact (keeps_tail p).trans (keeps_enterRelease _ _ _)

theorem keeps_runHead (n : Nat) (p : Part) : Keeps p (Part.runHead n p i) := by
  induction n generalizing p with
  | zero => exact .refl p
  | succ n ih =>
    rw [Part.runHead]
    split
    · split
      · exact .ite (keeps_enterRelease p _ _) (.refl p)
      · exact (keeps_beginEntry p _).trans (ih _)
    · exact .refl p

theorem keeps_advanceQueue (p : Part) : Keeps p (p.advanceQueue i) := keeps_runHead _ p

theorem keeps_endEntry (p : Part) : Keeps p (p.endEntry i) := (keeps_leaveHead p).trans (keeps_advanceQueue _)

/-! ### Line states -/

/-- A change of a line in a state in which it holds no write. -/
theorem keeps_onLine_idle (p : Part) (f : Line → Line) (idle : ¬(p.line i).Holds) (hq : (f (p.line i)).queue = (p.line i).queue) :
    Keeps p (p.onLine i f) :=
  (lineStep_onLine p i f).keepsOf (by rw [line_onLine, hq]; exact id) (.inr fun h => absurd h idle)

theorem keeps_startListening (p : Part) (idle : ¬(p.line i).Holds) : Keeps p (p.startListening i) := by
  have rated : Calm i p (p.setRate i ((p.line i).setting 4) ((p.line i).setting 5)) := calm_setRate p _ _
  refine rated.keeps.trans (Keeps.trans (keeps_onLine_idle _ _ ?_ rfl)
    ((calm_setConditions _ _ _).trans (calm_queueLcb _ _)).keeps)
  rwa [Line.Holds, rated.state]

theorem keeps_enterFresh (p : Part) (idle : ¬(p.line i).Holds) : Keeps p (p.enterFresh i) := by
  have fresh : Calm i p (p.makeFresh i) := calm_makeFresh p
  refine fresh.keeps.trans ((keeps_startListening _ ?_).trans (calm_offer _ _ _ _ _ _).keeps)
  rwa [Line.Holds, fresh.state]

theorem keeps_enterResuming (p : Part) (idle : ¬(p.line i).Holds) : Keeps p (p.enterResuming i) := by
  have unknown : Calm i p ((p.onLine i fun l => { l with ring := .unknown, walk := some .pointers }).noteDue i p) :=
    (calm_onLine p _ rfl rfl).trans (calm_noteDue _ _)
  refine unknown.keeps.trans (keeps_startListening _ ?_)
  rwa [Line.Holds, unknown.state]

theorem keeps_enterOff (p : Part) (c : ModeCause) (idle : ¬(p.line i).Holds) : Keeps p (p.enterOff i c) := by
  refine (lineStep_enterOff p i c).keepsOf (fun room => ?_) (.inr fun h => absurd h idle)
  rw [line_enterOff]
  change ((p.line i).closeOpen.offer _).queue.length ≤ 64
  rwa [offer_queue, closeOpen_queue]

theorem keeps_abandonWalk (p : Part) : Keeps p (p.abandonWalk i) := by
  rw [Part.abandonWalk]
  exact .ite ((keeps_abandonStep p).trans
    (((calm_onLine _ _ rfl rfl).trans (calm_makeFresh _)).trans (calm_latch _ _)).keeps) (.refl p)

theorem unwalked_state (l : Line) : l.unwalked.state = l.state := by
  rw [Line.unwalked]
  split
  · exact (unparked_calm _).1
  · rfl

theorem keeps_listenToOff (p : Part) (c : ModeCause) (listen : (p.line i).state = .listen) : Keeps p (p.listenToOff i c) := by
  have probe : Calm i p (p.abandonProbe i) := calm_abandonProbe p
  refine probe.keeps.trans ((keeps_abandonWalk _).trans (keeps_enterOff _ _ ?_))
  rw [Line.Holds, line_abandonWalk, unwalked_state, probe.state, listen]
  decide

theorem keeps_enterSettle (p : Part) (listen : (p.line i).state = .listen) : Keeps p (p.enterSettle i) := by
  have idle : ¬(p.line i).Holds := by
    rw [Line.Holds, listen]
    decide
  unfold Part.enterSettle
  extract_lets q
  have settled : Keeps p q := keeps_onLine_idle p _ idle rfl
  have unmarked : Keeps q { q with markHold := q.markHold.set i none } := .same rfl rfl rfl
  exact (settled.trans unmarked).trans (calm_queueLcb _ 32).keeps

theorem keeps_enterDrive (p : Part) (c : ModeCause) : Keeps p (p.enterDrive i c) :=
  Keeps.trans
    ((lineStep_onLine p i fun l => { l with state := .drive, settleTimer := none }).keepsOf
      (by rw [line_onLine]; exact id) (.inr fun _ => by rw [line_onLine]; exact .inr rfl))
    ((calm_offer _ _ _ _ _ _).trans (calm_queueLcb _ _)).keeps

/-- A line that drains holds no write: the one it held is refused. -/
theorem keeps_drained (p : Part) : Keeps p ((p.onLine i fun l => { l with state := .drain }).refuseHeld i) := by
  have drain : LineStep i p (p.onLine i fun l => { l with state := .drain }) := lineStep_onLine p i _
  refine (keeps_releaseHold p).trans (Keeps.trans (drain.releaseHold.keepsOf ?_ (.inl (heldFor_releaseHold p)))
    (calm_refuseHeld _).keeps)
  rw [line_releaseHold, line_releaseHold, line_onLine]
  exact id

theorem keeps_enterDrain (p : Part) : Keeps p (p.enterDrain i) :=
  (keeps_drained p).trans (.ite (keeps_enterRelease _ _ _) (calm_queueLcb _ _).keeps)

theorem keeps_quiesceLine (p : Part) : Keeps p (p.quiesceLine i) := .ite (keeps_enterRelease p _ _) (.refl p)

theorem keeps_disarmLine (p : Part) : Keeps p (p.disarmLine i) := by
  rw [Part.disarmLine]
  split
  · exact .refl p
  · next listen => exact keeps_listenToOff p _ listen
  · exact (calm_retarget p _ _).keeps
  · exact keeps_enterRelease p _ _

/-! ### Requests, commands, settings -/

theorem keeps_requestFromOff (p : Part) (b : Bool) (off : (p.line i).state = .off) : Keeps p (p.requestFromOff i b).1 := by
  have idle : ¬(p.line i).Holds := by
    rw [Line.Holds, off]
    decide
  rw [Part.requestFromOff]
  split
  · exact .refl p
  · split
    · exact .refl p
    · exact .ite (keeps_enterResuming p idle) (keeps_enterFresh p idle)

theorem keeps_requestOff (p : Part) : Keeps p (p.requestOff i).1 := by
  rw [Part.requestOff]
  split
  · exact .refl p
  · next listen => exact keeps_listenToOff p _ listen
  · exact (calm_retarget p _ _).keeps
  · exact keeps_enterRelease p _ _

theorem keeps_requestListen (p : Part) : Keeps p (p.requestListen i).1 := by
  rw [Part.requestListen]
  split
  · next off => exact keeps_requestFromOff p _ off
  · exact .refl p
  · exact keeps_enterRelease p _ _
  · exact keeps_enterDrain p
  · exact .refl p
  · exact (calm_retarget p _ _).keeps

theorem keeps_requestResume (p : Part) : Keeps p (p.requestResume i).1 := by
  rw [Part.requestResume]
  split
  · next off => exact keeps_requestFromOff p _ off
  · exact .refl p

theorem keeps_requestDrive (p : Part) : Keeps p (p.requestDrive i).1 := by
  rw [Part.requestDrive]
  split
  · exact .refl p
  · next listen =>
    split
    · exact .refl p
    · split
      · exact .refl p
      · exact keeps_enterSettle p listen
  · exact keeps_enterDrive p _
  · exact .refl p
  · exact .refl p

theorem keeps_decideRequest (p : Part) (v : Word) : Keeps p (p.decideRequest i v).1 := by
  rw [Part.decideRequest]
  split
  · exact .refl p
  split
  · exact keeps_requestOff p
  split
  · exact keeps_requestListen p
  split
  · exact keeps_requestResume p
  split
  · exact keeps_requestDrive p
  · exact .refl p

theorem calm_setShadow (p : Part) (w : Fin 22) (v : Word) : Calm i p (p.setShadow i w v) := calm_onLine p _ rfl rfl

theorem keeps_takeRequest (p : Part) (v : Word) : Keeps p (p.takeRequest i v) :=
  ((calm_setShadow p 0 v).keeps.trans (keeps_decideRequest _ v)).trans
    ((calm_onLine _ _ rfl rfl).trans (calm_queueLcb _ _)).keeps

theorem keeps_flushRing (p : Part) : Keeps p (p.flushRing i) := by
  rw [Part.flushRing]
  split
  · exact .refl p
  · exact (((calm_setRing p _).trans (calm_unpark _)).keeps.trans (keeps_overtake _)).trans
      ((calm_queueLcbs _ _).trans (calm_noteLine _ _)).keeps

theorem keeps_commandDiscard (p : Part) : Keeps p (p.commandDiscard i).1 := by
  rw [Part.commandDiscard]
  split
  · exact (keeps_discardQueue p).trans (.ite (keeps_enterRelease _ _ _) (.refl _))
  · exact .refl p

theorem keeps_commandProbe (p : Part) (b : Bool) : Keeps p (p.commandProbe i b).1 := by
  rw [Part.commandProbe]
  split
  · split
    · exact .refl p
    · exact (calm_startProbe p b).keeps
  · exact .refl p

theorem keeps_commandFlush (p : Part) : Keeps p (p.commandFlush i).1 := by
  rw [Part.commandFlush]
  split
  · exact .refl p
  · split
    · exact .refl p
    · exact keeps_flushRing p

theorem keeps_decideCommand (p : Part) (v : Word) : Keeps p (p.decideCommand i v).1 := by
  rw [Part.decideCommand]
  split
  · exact .refl p
  split
  · exact (calm_closeOpen p).keeps
  split
  · exact keeps_commandFlush p
  split
  · exact keeps_commandProbe p _
  split
  · exact keeps_commandProbe p _
  split
  · exact keeps_commandDiscard p
  split
  · exact ((calm_onLine p _ rfl rfl).trans (calm_queueLcbs _ _)).keeps
  · exact .refl p

theorem keeps_takeCommand (p : Part) (v : Word) : Keeps p (p.takeCommand i v) :=
  ((calm_setShadow p 1 v).keeps.trans (keeps_decideCommand _ v)).trans
    ((calm_onLine _ _ rfl rfl).trans (calm_queueLcb _ _)).keeps

theorem calm_takeAcknowledge (p : Part) (m : Word) : Calm i p (p.takeAcknowledge i m) :=
  ((calm_onLine p (fun l => { l with flags := l.acknowledged m }) rfl rfl).trans (calm_queueLcb _ _)).trans (calm_noteLine _ _)

theorem calm_rateTaken (p : Part) : Calm i p (p.rateTaken i) := .ite ((calm_abandonProbe p).trans (calm_setRate _ _ _)) (.refl i p)

theorem coalesceTaken_calm (l : Line) : l.coalesceTaken.state = l.state ∧ l.coalesceTaken.queue = l.queue := by
  rw [Line.coalesceTaken]
  split
  · split
    · split <;> exact ⟨rfl, rfl⟩
    · exact ⟨rfl, rfl⟩
  · exact ⟨rfl, rfl⟩

theorem quietTaken_calm (l : Line) : l.quietTaken.state = l.state ∧ l.quietTaken.queue = l.queue := by
  rw [Line.quietTaken]
  split <;> exact ⟨rfl, rfl⟩

theorem calm_takeSetting (p : Part) (w : Fin 22) (v : Word) : Calm i p (p.takeSetting i w v) := by
  refine (calm_setShadow p w v).trans ?_
  rw [Part.takeSetting]
  generalize p.setShadow i w v = q
  exact .ite (.ite (calm_abandonProbe q) (.refl i q)) <| .ite (calm_rateTaken q) <|
    .ite (.ite (calm_setCredit q true) (.refl i q)) <|
    .ite (calm_noteDue q p) <|
    .ite ((calm_onLine q _ (coalesceTaken_calm _).1 (coalesceTaken_calm _).2).trans (calm_noteDue _ p)) <|
    .ite (calm_onLine q _ (quietTaken_calm _).1 (quietTaken_calm _).2) <| .ite (calm_noteLine q p) (.refl i q)

end Sys2Proof.Machine

/-! PROOFS. The bounds of the queues and of the port, kept by every step (R15, R22, R138). -/

namespace Sys2Proof.Machine

variable {i : LineNo} {p q : Part} {s t : State}

/-! ### The events of a line -/

theorem keeps_expireRelease (p : Part) : Keeps p (p.expireRelease i) := by
  unfold Part.expireRelease
  split
  · split
    · next release =>
      have idle : ¬(p.line i).Holds := by
        rw [Line.Holds, release]
        decide
      extract_lets q r
      have later : Keeps p q := keeps_at p _
      have listens : Keeps q r := keeps_onLine_idle q _ idle rfl
      refine later.trans ?_
      split
      · exact keeps_enterOff q _ idle
      · exact listens.trans ((calm_offer r _ _ _ _ _).trans (calm_queueLcb _ _)).keeps
    · exact .refl p
  · exact .refl p

theorem keeps_completeByte (p : Part) : Keeps p (p.completeByte i) := by
  unfold Part.completeByte
  split
  · extract_lets q
    have left : Keeps p q := ((keeps_at p _).trans (calm_byteSent _).keeps).trans (keeps_leaveHead _)
    exact left.trans (.ite (calm_onLine q _ rfl rfl).keeps (keeps_advanceQueue q))
  · exact .refl p

theorem calm_probeFall (p : Part) : Calm i p (p.probeFall i) := by
  unfold Part.probeFall
  split
  · exact .refl i p
  · exact .ite (calm_deliverProbe p _ _ _) (calm_onLine p _ rfl rfl)

theorem keeps_rxFalls (p : Part) (wait : Nat) : Keeps p (p.rxFalls i wait) := by
  unfold Part.rxFalls
  split
  · exact .refl p
  · extract_lets q
    have taken : Keeps p q := .same rfl rfl rfl
    exact taken.trans (.ite ((calm_onLine q _ rfl rfl).trans (calm_probeFall _)).keeps (.refl q))

theorem probeRise_calm (l : Line) (now : Moment) :
    (l.probeRise now).state = l.state ∧ (l.probeRise now).queue = l.queue := by
  rw [probeRise_eq]
  exact ⟨rfl, rfl⟩

theorem calm_receiverRises (p : Part) : Calm i p (p.receiverRises i) := by
  have hunting (p : Part) : Calm i p (p.onLine i fun l => { l with receiver := .hunt none }) := calm_onLine p _ rfl rfl
  unfold Part.receiverRises
  split
  · exact calm_onLine p _ rfl rfl
  · extract_lets q
    split
    · exact (hunting p).trans (calm_placeByte _ _)
    · exact hunting p
  · exact (calm_endReceivedBreak p).trans (hunting _)
  · exact .refl i p

theorem keeps_rxRises (p : Part) (wait : Nat) : Keeps p (p.rxRises i wait) := by
  unfold Part.rxRises
  split
  · exact .refl p
  · extract_lets q r
    have taken : Keeps p q := .same rfl rfl rfl
    have risen : Calm i q r := calm_onLine q _ (probeRise_calm _ _).1 (probeRise_calm _ _).2
    exact taken.trans (.ite ((risen.trans (calm_setConditions _ _ _)).trans (calm_receiverRises _)).keeps (.refl q))

theorem calm_noticeActivity (p : Part) : Calm i p (p.noticeActivity i) :=
  .ite ((calm_offer p _ _ _ _ _).trans (calm_latch _ _)) (.refl i p)

theorem keeps_sampleStart (p : Part) : Keeps p (p.sampleStart i) := by
  unfold Part.sampleStart
  split
  · extract_lets q
    have later : Keeps p q := keeps_at p _
    exact later.trans (.ite ((calm_noticeActivity q).trans (calm_onLine _ _ rfl rfl)).keeps (calm_onLine q _ rfl rfl).keeps)
  · exact .refl p

theorem calm_finishFrame (p : Part) (f : FrameRun) (v : Level) : Calm i p (p.finishFrame i f v) := by
  unfold Part.finishFrame
  extract_lets b go
  have goes (r : Receiver) : Calm i p (go r) := calm_onLine p _ rfl rfl
  exact .ite (.ite ((goes _).trans (calm_placeByte _ _)) (goes _)) ((goes _).trans (calm_placeByte _ _))

theorem keeps_byteArrives (p : Part) : Keeps p (p.byteArrives i) := by
  unfold Part.byteArrives
  split
  · exact (keeps_at p _).trans (calm_finishFrame _ _ _).keeps
  · exact .refl p

theorem keeps_breakStarts (p : Part) : Keeps p (p.breakStarts i) := by
  unfold Part.breakStarts
  split
  · exact (keeps_at p _).trans ((calm_closeOpen _).trans (calm_onLine _ _ rfl rfl)).keeps
  · exact .refl p

theorem keeps_gapExpires (p : Part) : Keeps p (p.gapExpires i) := by
  unfold Part.gapExpires
  split
  · exact (keeps_at p _).trans ((calm_closeOpen _).trans (calm_onLine _ _ rfl rfl)).keeps
  · exact .refl p

theorem keeps_quietExpires (p : Part) : Keeps p (p.quietExpires i) := by
  unfold Part.quietExpires
  split
  · exact (keeps_at p _).trans (calm_onLine _ _ rfl rfl).keeps
  · exact .refl p

theorem keeps_probeTimesOut (p : Part) (edge : Bool) : Keeps p (p.probeTimesOut i edge) := by
  unfold Part.probeTimesOut
  split
  · exact (keeps_at p _).trans (calm_deliverProbe _ _ _ _).keeps
  · exact .refl p

theorem keeps_probeExpires (p : Part) (edge : Bool) : Keeps p (p.probeExpires i edge) :=
  (keeps_probeTimesOut p edge).trans (.ite (keeps_rxFalls _ 0) (.refl _))

theorem keeps_signalFalls (p : Part) : Keeps p (p.signalFalls i) := by
  unfold Part.signalFalls
  split
  · extract_lets q
    have taken : Keeps p q := .same rfl rfl rfl
    exact taken.trans (.ite (calm_onLine q _ (by split <;> rfl) (by split <;> rfl)).keeps (.refl q))
  · exact .refl p

theorem keeps_signalRises (p : Part) : Keeps p (p.signalRises i) := by
  unfold Part.signalRises
  split
  · exact .refl p
  · extract_lets q
    have taken : Keeps p q := .same rfl rfl rfl
    exact taken.trans (.ite (calm_onLine q _ (by split <;> rfl) (by split <;> rfl)).keeps (.refl q))

theorem probeDropRun_calm (l : Line) : l.probeDropRun.state = l.state ∧ l.probeDropRun.queue = l.queue := by
  rw [probeDropRun_eq]
  exact ⟨rfl, rfl⟩

theorem keeps_lineOpens (p : Part) : Keeps p (p.lineOpens i) := by
  unfold Part.lineOpens
  split
  · refine .ite ((keeps_at p _).trans (((calm_endReceivedBreak _).trans (calm_onLine _ _ ?_ ?_)).trans
      (((calm_latch _ _).trans (calm_setConditions _ _ _)).trans (calm_offer _ _ _ _ _ _))).keeps) (.refl p)
    · exact (probeDropRun_calm _).1
    · exact (probeDropRun_calm _).2
  · exact .refl p

theorem keeps_lineRestores (p : Part) : Keeps p (p.lineRestores i) := by
  unfold Part.lineRestores
  split
  · exact .ite ((keeps_at p _).trans
      (((calm_onLine _ _ rfl rfl).trans (calm_setConditions _ _ _)).trans
        ((calm_offer _ _ _ _ _ _).trans (calm_onLine _ _ rfl rfl))).keeps) (.refl p)
  · exact .refl p

theorem keeps_becomesStuck (p : Part) : Keeps p (p.becomesStuck i) := by
  unfold Part.becomesStuck
  split
  · exact .ite ((keeps_at p _).trans
      (((calm_onLine _ _ rfl rfl).trans (calm_latch _ _)).trans
        ((calm_setConditions _ _ _).trans (calm_offer _ _ _ _ _ _))).keeps) (.refl p)
  · exact .refl p

theorem keeps_lapseLease (p : Part) : Keeps p (p.lapseLease i) := by
  unfold Part.lapseLease
  split
  · split
    · exact (keeps_at p _).trans ((calm_setRing _ _).trans (calm_unpark _)).keeps
    · exact .refl p
  · exact .refl p

theorem keeps_expireCoalesce (p : Part) : Keeps p (p.expireCoalesce i) := by
  unfold Part.expireCoalesce
  split
  · split
    · exact (keeps_at p _).trans ((calm_setRing _ _).trans (calm_noteDue _ _)).keeps
    · exact .refl p
  · exact .refl p

theorem keeps_expireSettle (p : Part) : Keeps p (p.expireSettle i) := by
  unfold Part.expireSettle
  split
  · exact .ite (((keeps_at p _).trans (keeps_enterDrive _ _)).trans (keeps_advanceQueue _)) (.refl p)
  · exact .refl p

theorem keeps_endBreakSpace (p : Part) : Keeps p (p.endBreakSpace i) := by
  unfold Part.endBreakSpace
  split
  · exact (keeps_at p _).trans (calm_setActing _ _).keeps
  · exact .refl p

theorem keeps_endBreakMark (p : Part) : Keeps p (p.endBreakMark i) := by
  unfold Part.endBreakMark
  split
  · exact (keeps_at p _).trans (keeps_endEntry _)
  · exact .refl p

theorem keeps_endPause (p : Part) : Keeps p (p.endPause i) := by
  unfold Part.endPause
  split
  · exact (keeps_at p _).trans (keeps_endEntry _)
  · exact .refl p

theorem LineMove.keeps (move : LineMove i p q) : Keeps p q := by
  cases move with
  | expireSettle => exact keeps_expireSettle p
  | expireRelease => exact keeps_expireRelease p
  | completeByte => exact keeps_completeByte p
  | endBreakSpace => exact keeps_endBreakSpace p
  | endBreakMark => exact keeps_endBreakMark p
  | endPause => exact keeps_endPause p
  | rxFalls wait => exact keeps_rxFalls p wait
  | rxRises wait => exact keeps_rxRises p wait
  | sampleStart => exact keeps_sampleStart p
  | byteArrives => exact keeps_byteArrives p
  | breakStarts => exact keeps_breakStarts p
  | gapExpires => exact keeps_gapExpires p
  | quietExpires => exact keeps_quietExpires p
  | probeExpires edge => exact keeps_probeExpires p edge
  | signalFalls => exact keeps_signalFalls p
  | signalRises => exact keeps_signalRises p
  | lineOpens => exact keeps_lineOpens p
  | lineRestores => exact keeps_lineRestores p
  | becomesStuck => exact keeps_becomesStuck p
  | lapseLease => exact keeps_lapseLease p
  | expireCoalesce => exact keeps_expireCoalesce p

/-! ### The Capture Writer -/

theorem takeBack_calm (l : Line) (job : TakenJob) : (l.takeBack job).state = l.state ∧ (l.takeBack job).queue = l.queue := by
  cases job <;> exact ⟨rfl, rfl⟩

theorem keeps_spaceCheck (p : Part) (job : TakenJob) : Keeps p (p.spaceCheck i job) := by
  unfold Part.spaceCheck
  extract_lets l
  split
  · exact keeps_setFlight p _
  · extract_lets lay
    split
    · split
      · exact keeps_setFlight p _
      · exact (calm_onLine p _ rfl rfl).keeps.trans (keeps_setFlight _ _)
    · refine .ite (.ite ((calm_onLine p _ rfl rfl).keeps.trans (keeps_setFlight _ _)) (keeps_setFlight p _)) ?_
      exact ((calm_onLine p _ (takeBack_calm _ _).1 (takeBack_calm _ _).2).trans (calm_count _ _ 1)).keeps.trans
        (keeps_setFlight _ _)

theorem calm_reclaim (p : Part) (r : Ring) (n : Nat) : Calm i p (p.reclaim i r n) := by
  unfold Part.reclaim
  extract_lets l seq r' q q'
  have removed : Calm i p q' :=
    (((calm_setRing p _).trans (calm_queueLcbs _ _)).trans (calm_count _ _ 1)).trans
      ((calm_queueLcbIf _ _ _).trans (calm_noteDue _ _))
  exact removed.trans (.ite ((calm_latch _ _).trans (calm_offer _ _ _ _ _ _)) (.refl i q'))

theorem calm_corruptRing (p : Part) (n : Nat) : Calm i p (p.corruptRing i n) :=
  ((calm_makeFresh p).trans (calm_latch _ _)).trans (calm_offer _ _ _ _ _ _)

theorem keeps_reclaimReturns (p : Part) (job : TakenJob) (noted : Nat) (o : Bool) (d : Word) :
    Keeps p (p.reclaimReturns i job noted o d) := by
  unfold Part.reclaimReturns
  split
  · exact keeps_setFlight p _
  · exact .ite (keeps_spaceCheck p _) (.ite ((calm_reclaim p _ _).keeps.trans (keeps_spaceCheck _ _))
      ((calm_corruptRing p _).keeps.trans (keeps_spaceCheck _ _)))

theorem freeJob_calm (l : Line) (job : TakenJob) : (l.freeJob job).state = l.state ∧ (l.freeJob job).queue = l.queue := by
  cases job <;> exact ⟨rfl, rfl⟩

theorem keeps_commitRecord (p : Part) (w : Writing) : Keeps p (p.commitRecord i w) := by
  unfold Part.commitRecord
  split
  · exact keeps_setFlight p _
  · extract_lets q
    have committed : Calm i p q := calm_commitRing p _ _ _ _
    refine committed.keeps.trans ?_
    split
    · split <;> exact keeps_setFlight q _
    · exact (calm_onLine q _ (freeJob_calm _ _).1 (freeJob_calm _ _).2).keeps.trans (keeps_setFlight _ _)

theorem calm_walkFails (p : Part) (reason : WalkReason) : Calm i p (p.walkFails i reason) :=
  (((calm_makeFresh p).trans (calm_latch _ _)).trans (calm_onLine _ _ rfl rfl)).trans
    ((calm_queueLcb _ _).trans (calm_offer _ _ _ _ _ _))

theorem calm_walkSucceeds (p : Part) (run : WalkRun) : Calm i p (p.walkSucceeds i run) :=
  (((calm_onLine p _ rfl rfl).trans (calm_queueLcbs _ _)).trans (calm_noteLine _ _)).trans
    ((calm_queueLcb _ _).trans (calm_offer _ _ _ _ _ _))

theorem calm_walkContinues (p : Part) (run : WalkRun) : Calm i p (p.walkContinues i run) :=
  .ite (calm_walkSucceeds p run) (calm_onLine p _ rfl rfl)

theorem calm_walkStep (p : Part) (got : List Word) : Calm i p (p.walkStep i got) := by
  unfold Part.walkStep
  split
  · exact .ite (calm_walkContinues p _) (calm_walkFails p _)
  · unfold Part.walkHeader
    extract_lets size k
    split
    · exact calm_walkFails p _
    · exact calm_walkContinues p _
  · exact .refl i p

theorem keeps_walkReturns (p : Part) (got : List Word) (a : Option Addr) (d : Word) : Keeps p (p.walkReturns i got a d) :=
  .ite (keeps_setFlight p _) (.ite ((keeps_setFlight p none).trans (calm_walkStep _ _).keeps) (keeps_setFlight p _))

theorem keeps_startTurn (p : Part) (work : Work) : Keeps p (p.startTurn i work) := by
  cases work with
  | walk => exact keeps_setFlight p _
  | retained job => exact (calm_onLine p _ rfl rfl).keeps.trans (keeps_spaceCheck _ _)
  | listed job => cases job <;> exact (calm_onLine p _ rfl rfl).keeps.trans (keeps_spaceCheck _ _)

theorem keeps_writerSelects (p : Part) : Keeps p p.writerSelects := by
  unfold Part.writerSelects
  split
  · next i _ _ =>
    have pointed : Keeps p { p with writer := { p.writer with pointer := some i } } := .same rfl rfl rfl
    split
    · exact pointed.trans (keeps_startTurn _ _)
    · exact .refl p
  · exact .refl p

/-! ### Every line, and what the host asks -/

theorem keeps_forLines (p : Part) (f : LineNo → Part → Part) (each : ∀ i q, Keeps q (f i q)) : Keeps p (p.forLines f) :=
  forLines_induction p f (fun _ q => Keeps p q) (.refl p) fun _ i q _ kept => kept.trans (.ite (each i q) (.refl q))

theorem bearing_queueBase (p : Part) (w : Nat) : (p.queueBase w).bearing = p.bearing := rfl

theorem keeps_queueBase (p : Part) (w : Nat) : Keeps p (p.queueBase w) := .same rfl rfl rfl

theorem keeps_queueBases (p : Part) (ws : List Nat) : Keeps p (p.queueBases ws) := by
  rw [queueBases_eq]
  exact .same rfl rfl rfl

theorem keeps_noteSummary (p before : Part) : Keeps p (p.noteSummary before) := .ite (.refl p) (keeps_queueBase p 37)

theorem keeps_recordBlocked (p : Part) (a : Addr) (reason : BlockedReason) : Keeps p (p.recordBlocked a reason) := by
  unfold Part.recordBlocked
  rw [queueBases_eq]
  exact .same rfl rfl rfl

theorem keeps_forceLine (i : LineNo) (p : Part) : Keeps p (Part.forceLine i p) :=
  (calm_setHeld p _ _).keeps.trans (keeps_quiesceLine _)

theorem keeps_handsOffLine (i : LineNo) (p : Part) : Keeps p (Part.handsOffLine i p) :=
  (calm_setHeld p _ _).keeps.trans (keeps_quiesceLine _)

theorem keeps_setForced (p : Part) : Keeps p p.setForced := by
  have forced : Keeps p { p with forced := true } := .same rfl rfl rfl
  exact (forced.trans (keeps_forLines _ _ keeps_forceLine)).trans (keeps_noteSummary _ p)

theorem keeps_clearForced (p : Part) : Keeps p p.clearForced := by
  have cleared : Keeps p { p with forced := false } := .same rfl rfl rfl
  exact (cleared.trans (keeps_forLines _ Part.unforceLine fun _ q => (calm_setHeld q _ _).keeps)).trans (keeps_noteSummary _ p)

theorem keeps_forceWord (p : Part) (v : Word) : Keeps p (p.forceWord v) := by
  unfold Part.forceWord
  exact .ite (keeps_setForced p) (.ite (keeps_clearForced p) (.refl p))

theorem keeps_noteHandsOff (p before : Part) : Keeps p (p.noteHandsOff before) := by
  unfold Part.noteHandsOff
  exact .ite (.refl p) (keeps_noteSummary p before)

theorem keeps_takeHandsOff (p : Part) (v : Bool) : Keeps p (p.takeHandsOff v) := .same rfl rfl rfl

theorem keeps_assertHandsOff (p : Part) : Keeps p p.assertHandsOff := by
  unfold Part.assertHandsOff
  exact .ite (.refl p)
    (((keeps_takeHandsOff p true).trans (keeps_forLines _ _ keeps_handsOffLine)).trans (keeps_noteHandsOff _ p))

theorem keeps_releaseHandsOff (p : Part) : Keeps p p.releaseHandsOff := by
  unfold Part.releaseHandsOff
  exact .ite
    (((keeps_takeHandsOff p false).trans
      (keeps_forLines _ Part.handsOnLine fun _ q => (calm_setHeld q _ _).keeps)).trans (keeps_noteHandsOff _ p)) (.refl p)

/-- A held write that goes to the port is held no longer. -/
theorem keeps_forwardHeld (p : Part) (a : HostAccess) : Keeps p ({ p with held := none }.forward a) :=
  ⟨rfl, id, fun _ _ _ held => nomatch held⟩

theorem keeps_expireHold (p : Part) : Keeps p p.expireHold := by
  unfold Part.expireHold
  split
  · exact ((keeps_at p _).trans (calm_loseEntries _ 1).keeps).trans (keeps_forwardHeld _ _)
  · exact .refl p

theorem keeps_tick (p : Part) : Keeps p p.tick := by
  unfold Part.tick
  split
  · exact .same rfl rfl rfl
  · exact .refl p

theorem keeps_endMarkHold (p : Part) : Keeps p (p.endMarkHold i) := by
  unfold Part.endMarkHold
  split
  · exact .same rfl rfl rfl
  · exact .refl p

theorem keeps_releaseReset (p : Part) : Keeps p p.releaseReset := .ite (.same rfl rfl rfl) (.refl p)

/-! ### A window write (R136, R138, R148) -/

theorem keeps_refused (p : Part) (a : HostAccess) : Keeps p ((p.refuseEntry i).forward a) :=
  (calm_refuseEntry p).keeps.trans (keeps_forward _ a)

/-- An entry joins a queue that is not full. -/
theorem keeps_joins (p : Part) (e : Entry) (room : (p.line i).queue.length < 64) :
    Keeps p (p.onLine i fun l => { l with queue := l.queue ++ [e] }) := by
  refine (lineStep_onLine p i _).keepsOf (fun _ => ?_) (.inr fun h => by rwa [line_onLine])
  rw [line_onLine, List.length_append]
  exact room

/-- A line takes window writes while a map is in force; it holds one in "ARMED" alone, in "SETTLE" or "DRIVE". -/
theorem keeps_windowArrives (p : Part) (lanes : Lanes) (d : Word) (a : HostAccess) (has : p.hasLine i = true) :
    Keeps p (p.windowArrives i lanes d a) := by
  unfold Part.windowArrives
  extract_lets l
  split
  · exact keeps_refused p a
  · next takes =>
    rw [not_or, not_or, not_not] at takes
    obtain ⟨notDisarming, holds, -⟩ := takes
    split
    · exact keeps_refused p a
    · next e _ =>
      split
      · next room =>
        have joined := (keeps_joins p e room).trans (keeps_forward _ a)
        exact joined.trans (.ite (keeps_advanceQueue _) (.refl _))
      · split
        · exact (calm_loseEntries p 1).keeps.trans (keeps_forward _ a)
        · refine ⟨rfl, id, fun mapped _ h held => ?_⟩
          obtain ⟨m, inMap⟩ := map_of_hasLine has
          have inForce : p.state.inForce = true := mapped (by rw [Part.bearing, inMap]; rfl)
          cases held
          exact ⟨((inForce_iff _).1 inForce).resolve_right notDisarming, has, holds⟩

/-! ### A host access (R1 to R9) -/

/-- `q` is `p` after the arrival of `a`: the bearing is kept, or the part enters "ARMING" (R25) or "DISARMING" (R34). -/
inductive Arrival (p : Part) (a : HostAccess) : Part → Prop
  | keeps {q : Part} (kept : Keeps p q) : Arrival p a q
  | arms (dormant : p.state = .dormant) (check : Word) : Arrival p a ((p.enterArming check).forward a)
  | disarms (armed : p.state = .armed) : Arrival p a (p.startDisarm.forward a)

theorem arrival_forward (p : Part) (a : HostAccess) : Arrival p a (p.forward a) := .keeps (keeps_forward p a)

theorem arrival_gate (p : Part) (lanes : Lanes) (v : Word) (a : HostAccess) : Arrival p a ((p.gateEvent lanes v).forward a) := by
  unfold Part.gateEvent
  split
  · next dormant =>
    split
    · exact .keeps (.same rfl rfl rfl)
    · split
      · exact .arms dormant.1 v
      · exact .keeps (.same rfl rfl rfl)
  · exact arrival_forward p a

theorem keeps_setAttentionEnable (p : Part) (v : Word) : Keeps p (p.setAttentionEnable v) := by
  unfold Part.setAttentionEnable
  exact .ite (.same rfl rfl rfl) (.ite (.same rfl rfl rfl) (.refl p))

theorem keeps_baseAcknowledge (p : Part) (m : Word) : Keeps p (p.baseAcknowledge m) := .same rfl rfl rfl

theorem arrival_baseWrite (p : Part) (w : Nat) (lanes : Lanes) (d : Word) (a : HostAccess) :
    Arrival p a (p.baseWrite w lanes d a) := by
  unfold Part.baseWrite
  split
  · exact .keeps (keeps_baseAcknowledge p _)
  split
  · exact arrival_forward p a
  split
  · exact .keeps ((keeps_setAttentionEnable p d).trans (keeps_forward _ a))
  split
  · exact .keeps ((keeps_forceWord p d).trans (keeps_forward _ a))
  split
  · next armed =>
    unfold Part.disarmWord
    split
    · exact .disarms armed.2
    · exact arrival_forward p a
  · exact arrival_forward p a

theorem keeps_lcbWrite (p : Part) (w : Nat) (lanes : Lanes) (d : Word) (a : HostAccess) : Keeps p (p.lcbWrite i w lanes d a) := by
  unfold Part.lcbWrite
  split
  · exact (keeps_takeRequest p _).trans (keeps_forward _ a)
  split
  · exact (keeps_takeCommand p _).trans (keeps_forward _ a)
  split
  · exact (calm_takeAcknowledge p _).keeps
  split
  · exact (calm_takeSetting p _ _).keeps.trans (keeps_forward _ a)
  · exact keeps_forward p a

theorem arrival_write (p : Part) (addr : Addr) (lanes : Lanes) (d : Word) :
    Arrival p ⟨addr, .write lanes d⟩ (p.writeArrives addr lanes d) := by
  unfold Part.writeArrives
  extract_lets a
  split
  · exact .keeps (keeps_recordBlocked p _ _)
  · split
    · exact arrival_gate p lanes d a
    · exact arrival_baseWrite p _ lanes d a
    · exact .keeps (keeps_lcbWrite p _ lanes d a)
    · next i window => exact .keeps (keeps_windowArrives p lanes d a ((hasLine_of_decode p addr).2 i window))
    · exact arrival_forward p a

theorem keeps_readArrives (p : Part) (addr : Addr) : Keeps p (p.readArrives addr) := by
  unfold Part.readArrives
  split
  · exact .same rfl rfl rfl
  · split
    · exact .same rfl rfl rfl
    · split
      · exact .same rfl rfl rfl
      · exact keeps_forward p _
  · exact keeps_forward p _

theorem arrival_host (p : Part) (a : HostAccess) : Arrival p a (p.hostArrives a) := by
  obtain ⟨addr, op⟩ := a
  cases op with
  | read => exact .keeps (keeps_readArrives p addr)
  | write lanes d => exact arrival_write p addr lanes d

/-! ### A completion of a host access (R11 to R13) -/

theorem keeps_readSize (p : Part) (r : Ring) (n : Nat) : Keeps p (p.readSize i r n) := by
  unfold Part.readSize
  extract_lets l
  split
  · exact .refl p
  split
  · exact .ite ((calm_setRing p _).trans (calm_unpark _)).keeps ((calm_setRing p _).keeps.trans (keeps_overtake _))
  · exact (calm_latch p _).keeps

theorem keeps_retire (p : Part) (r : Ring) (n : Nat) : Keeps p (p.retire i r n) :=
  (((calm_setRing p _).trans (calm_unpark _)).keeps.trans (keeps_overtake _)).trans
    (((calm_queueLcbs _ _).trans (calm_queueLcbIf _ _ _)).trans (calm_noteDue _ _)).keeps

theorem keeps_snoopRing (p : Part) (k : Nat) (d : Word) : Keeps p (p.snoopRing i k d) := by
  unfold Part.snoopRing
  split
  · exact .refl p
  · split
    · exact keeps_readSize p _ _
    · split
      · exact .ite (keeps_retire p _ _) (.refl p)
      · exact .refl p

theorem keeps_snoop (p : Part) (addr : Addr) (d : Word) : Keeps p (p.snoop addr d) := by
  unfold Part.snoop
  split
  · exact keeps_snoopRing p _ d
  · unfold Part.snoopProbe
    exact .ite (.ite (calm_changeFlags p _).keeps (.refl p)) (.refl p)
  · exact .refl p

theorem keeps_hostCompletes (p : Part) (a : HostAccess) (d : Word) : Keeps p (p.hostCompletes a d) := by
  unfold Part.hostCompletes
  split
  · have returned : Keeps p { p with readData := d, hostWait := false } := .same rfl rfl rfl
    exact returned.trans (keeps_snoop _ a.addr d)
  · exact .same rfl rfl rfl

end Sys2Proof.Machine

/-! PROOFS. The bounds of the queues and of the port, through every step (R15, R22, R138). -/

namespace Sys2Proof.Machine

variable {i : LineNo} {p q r : Part} {s t : State}

/-- The bounds of the port that `PortBounded` states (R15, R22). -/
def Part.InBounds (p : Part) : Prop :=
  p.port.passOver ≤ p.port.allowance ∧ 1 ≤ p.port.allowance ∧ p.port.allowance ≤ 64 ∧
    (p.servesInternal = true → p.port.passOver = 0)

/-- From `p` to `q` both bounds are kept. -/
structure Within (p q : Part) : Prop where
  room : p.Roomy → q.Roomy
  bounds : p.InBounds → q.InBounds

theorem Within.refl (p : Part) : Within p p := ⟨id, id⟩

theorem Within.trans (h : Within p q) (k : Within q r) : Within p r := ⟨k.room ∘ h.room, k.bounds ∘ h.bounds⟩

theorem Part.Roomy.of_lines (hl : q.lines = p.lines) (h : p.Roomy) : q.Roomy := fun j => line_of_lines _ _ hl j ▸ h j

theorem roomy_of_initial (h : ∀ i, (p.line i).queue = []) : p.Roomy := fun i => by
  rw [h i]
  exact Nat.zero_le 64

theorem servesInternal_congr (h : q.port.serving = p.port.serving) : q.servesInternal = p.servesInternal := by
  rw [Part.servesInternal, Part.servesInternal, h]

theorem inBounds_of (passed : q.port.passOver = p.port.passOver) (allowance : q.port.allowance = p.port.allowance)
    (serving : q.port.serving = p.port.serving) (h : p.InBounds) : q.InBounds := by
  rwa [Part.InBounds, servesInternal_congr serving, passed, allowance]

theorem Keeps.within (h : Keeps p q) : Within p q :=
  ⟨h.room, inBounds_of (congrArg Bearing.passOver h.bearing) (congrArg Bearing.allowance h.bearing)
    (congrArg Bearing.serving h.bearing)⟩

/-- A change beside the lines and the port. -/
theorem Within.same (hl : q.lines = p.lines) (hp : q.port = p.port) : Within p q :=
  ⟨.of_lines hl, inBounds_of (by rw [hp]) (by rw [hp]) (by rw [hp])⟩

/-! ### The port -/

theorem within_checkDisarmEnd (p : Part) : Within p p.checkDisarmEnd := by
  rw [Part.checkDisarmEnd]
  split
  · exact .same rfl rfl
  · exact .refl p

theorem inBounds_grantInternal (x : Serving) (h : p.InBounds) : (p.grantInternal x).InBounds :=
  ⟨Nat.zero_le _, h.2.1, h.2.2.1, fun _ => rfl⟩

theorem inBounds_grantHost (a : HostAccess) {n : Nat} (hn : n ≤ p.port.allowance) (h : p.InBounds) :
    (p.grantHost a n).InBounds :=
  ⟨hn, h.2.1, h.2.2.1, nofun⟩

theorem within_grant (p : Part) : Within p p.grant := by
  rw [Part.grant]
  split
  · exact .refl p
  · split
    · exact .refl p
    · exact ⟨.of_lines rfl, fun h => inBounds_grantHost _ h.1 h⟩
    · exact ⟨.of_lines rfl, inBounds_grantInternal _⟩
    · split
      · next passes => exact ⟨.of_lines rfl, inBounds_grantHost _ passes⟩
      · exact ⟨.of_lines rfl, inBounds_grantInternal _⟩

theorem within_arbitrate (p : Part) : Within p p.arbitrate :=
  (((within_checkDisarmEnd p).trans (within_grant _)).trans (within_checkDisarmEnd _)).trans (.same rfl rfl)

theorem within_freePort (p : Part) : Within p p.freePort :=
  ⟨.of_lines rfl, fun h => ⟨h.1, h.2.1, h.2.2.1, nofun⟩⟩

/-! ### Host accesses -/

theorem lines_enterArming (p : Part) (check : Word) :
    (p.enterArming check).lines = p.lines ∧ (p.enterArming check).port = p.port := by
  rw [Part.enterArming, queueChanged_eq]
  exact ⟨rfl, rfl⟩

/-- Disarming starts with the part state and word 32; the rest is each line's own (R34). -/
theorem keeps_disarmLines (p : Part) : Keeps ({ p with state := .disarming }.queueBase 32) p.startDisarm :=
  keeps_forLines _ _ fun _ q => keeps_disarmLine q

theorem within_forward (p : Part) (a : HostAccess) : Within p (p.forward a) := (keeps_forward p a).within

theorem within_arrival {a : HostAccess} (h : Arrival p a q) : Within p q := by
  cases h with
  | keeps kept => exact kept.within
  | arms dormant check =>
    obtain ⟨lines, port⟩ := lines_enterArming p check
    exact (Within.same lines port).trans (within_forward _ a)
  | disarms armed =>
    have started : Within p ({ p with state := .disarming }.queueBase 32) := .same rfl rfl
    exact (started.trans (keeps_disarmLines p).within).trans (within_forward _ a)

theorem within_hostArrives (p : Part) (a : HostAccess) : Within p (p.hostArrives a) := within_arrival (arrival_host p a)

theorem within_hostFollows (p : Part) (a : Option HostAccess) : Within p (p.hostFollows a) := by
  cases a with
  | none => exact .refl p
  | some a =>
    rw [Part.hostFollows]
    split
    · exact .refl p
    · exact within_hostArrives p a

theorem within_hostIssues (p : Part) (a : HostAccess) : Within p (p.hostIssues a) := by
  rw [Part.hostIssues]
  split
  · exact .refl p
  · exact (within_hostArrives p a).trans (within_arbitrate _)

theorem within_completeHost (s : State) (following : Option HostAccess) : Within s.part (s.completeHost following).part := by
  rw [State.completeHost]
  split
  · exact (((within_freePort _).trans (keeps_hostCompletes _ _ _).within).trans (within_hostFollows _ _)).trans
      (within_arbitrate _)
  · exact .refl _

/-! ### Resets, arming, the closing write -/

theorem roomy_replicate (h : p.lines = Vector.replicate 32 Line.initial) : p.Roomy :=
  roomy_of_initial fun i => by
    rw [Part.line, h, Fin.getElem_fin, Vector.getElem_replicate]
    rfl

theorem within_powerOn (p : Part) : Within p p.powerOn :=
  ⟨fun _ => roomy_replicate rfl, fun _ => ⟨Nat.zero_le 1, le_refl 1, Nat.le_of_ble_eq_true rfl, fun _ => rfl⟩⟩

theorem within_pinResetEffect (p : Part) : Within p p.pinResetEffect :=
  ⟨fun _ => roomy_replicate rfl, fun _ => ⟨Nat.zero_le 1, le_refl 1, Nat.le_of_ble_eq_true rfl, fun _ => rfl⟩⟩

theorem within_assertReset (p : Part) : Within p p.assertReset := by
  rw [Part.assertReset]
  split
  · exact .refl p
  · split
    · exact .same rfl rfl
    · have taken : Within p (p.takeReset true) := .same rfl rfl
      exact taken.trans (within_pinResetEffect _)

/-- What validation accepts: the bounds of R26. -/
theorem validateSetup_ok {copy : List Word} {check : Word} (h : validateSetup copy check = .ok) :
    copyRegion copy + 2559 ≤ 0x1FFEFF ∧ 1 ≤ copyWord copy 2 ∧ copyWord copy 2 ≤ 32 ∧ 1 ≤ copyWord copy 6 ∧
      copyWord copy 6 ≤ 64 := by
  unfold validateSetup at h
  split at h
  · cases h
  split at h
  · cases h
  split at h
  · cases h
  split at h
  · cases h
  split at h
  · cases h
  · omega

theorem keeps_armingReports (p : Part) : Keeps p.comeIntoForce p.enterArmed := by
  rw [Part.enterArmed]
  have result : Keeps p.comeIntoForce (p.comeIntoForce.queueValue (.base 33) SetupResult.ok.code) := .same rfl rfl rfl
  exact ((result.trans (keeps_queueBases _ _)).trans
    (keeps_forLines _ _ fun i q => (calm_queueLcbs q _).keeps)).trans (keeps_queueBase _ 32)

theorem roomy_comeIntoForce (p : Part) : p.comeIntoForce.Roomy :=
  roomy_of_initial fun i => by
    rw [line_comeIntoForce]
    rfl

theorem inBounds_comeIntoForce (passed : p.port.passOver = 0) (allowed : 1 ≤ copyWord p.setupCopy 6 ∧ copyWord p.setupCopy 6 ≤ 64) :
    p.comeIntoForce.InBounds :=
  ⟨passed ▸ Nat.zero_le _, allowed.1, allowed.2, fun _ => passed⟩

/-- The data of a setup read: the allowance that validation accepts comes into force with a pass-over count of 0 (R22, R26). -/
theorem within_setupData (d : Word) (internal : p.servesInternal = true) : Within p (p.freePort.setupData d) := by
  unfold Part.setupData
  extract_lets q
  have joined : Within p q := (within_freePort p).trans (.same rfl rfl)
  split
  · unfold Part.validated
    split
    · next accepted =>
      obtain ⟨-, -, -, allowed⟩ := validateSetup_ok accepted
      have armed := (keeps_armingReports q).within
      exact ⟨fun _ => armed.room (roomy_comeIntoForce q),
        fun h => armed.bounds (inBounds_comeIntoForce (h.2.2.2 internal) allowed)⟩
    · exact joined.trans (.same rfl rfl)
  · exact joined

theorem within_closingDone (reached : Within p q) (passed : p.InBounds → q.port.passOver = 0) : Within p q.closingDone := by
  rw [Part.closingDone]
  split
  · exact ⟨fun _ => roomy_replicate rfl, fun h =>
      ⟨(passed h).trans_le (Nat.zero_le 1), le_refl 1, Nat.le_of_ble_eq_true rfl, fun _ => passed h⟩⟩
  · exact reached.trans (.same rfl rfl)

/-- A host access served before the part sleeps is a completion like another (R19). -/
theorem keeps_serveWaiting (s : State) : Keeps s.part s.serveWaiting.part := by
  rw [State.serveWaiting]
  split
  · next a _ =>
    have taken : Keeps s.part { s.part with port := { s.part.port with waiting := none } } := .same rfl rfl rfl
    exact taken.trans (keeps_hostCompletes _ a (Memory.access s.mem (.host a)).2)
  · exact .refl _

/-! ### Every happening -/

theorem PartMove.within (move : PartMove p q) : Within p q := by
  cases move with
  | line move => exact move.keeps.within
  | powerOn => exact within_powerOn p
  | assertReset => exact within_assertReset p
  | resetEffect => exact within_pinResetEffect p
  | releaseReset => exact (keeps_releaseReset p).within
  | assertHandsOff => exact (keeps_assertHandsOff p).within
  | releaseHandsOff => exact (keeps_releaseHandsOff p).within
  | tick => exact (keeps_tick p).within
  | endMarkHold => exact (keeps_endMarkHold p).within
  | writerSelects => exact (keeps_writerSelects p).within
  | expireHold => exact (keeps_expireHold p).within

theorem RequesterMove.internal {d : Word} {a : Serving} (move : RequesterMove p d a q) (serving : p.port.serving = some a) :
    p.servesInternal = true := by
  rw [Part.servesInternal, serving]
  cases move <;> rfl

theorem keeps_nextWord (p : Part) (i : LineNo) (w : Writing) : Keeps p (p.nextWord i w) := keeps_setFlight p _

theorem RequesterMove.within {d : Word} {a : Serving} (move : RequesterMove p d a q) (serving : p.port.serving = some a) :
    Within p q := by
  have internal := move.internal serving
  have free := within_freePort p
  cases move with
  | setup w => exact within_setupData d internal
  | report => exact free
  | reclaim a i job noted overtaken => exact free.trans (keeps_reclaimReturns _ job noted overtaken d).within
  | word a v i w => exact free.trans (keeps_nextWord _ i w).within
  | commit a v i w => exact free.trans (keeps_commitRecord _ w).within
  | walk a i got abandoned => exact free.trans (keeps_walkReturns _ got abandoned d).within

/-- The state in which the closing write has just completed, the host access that waits with it served (R19, R28). -/
def State.closed (s : State) (a : Serving) : State :=
  let t := { s with part := s.part.freePort, mem := (Memory.access s.mem a).1 }
  if t.part.reports = [] then t.serveWaiting else t

theorem completeClosing_eq (a : Serving) (noReset : s.part.resetPending = false) :
    s.completeClosing a = { s.closed a with part := (s.closed a).part.closingDone.arbitrate } := by
  rw [State.completeClosing, noReset]
  rfl

theorem keeps_closed (s : State) (a : Serving) : Keeps s.part.freePort (s.closed a).part := by
  unfold State.closed
  extract_lets t
  split
  · exact keeps_serveWaiting t
  · exact .refl _

theorem servesInternal_of_closing (h : p.servesClosing = true) : p.servesInternal = true := by
  rw [Part.servesClosing] at h
  split at h
  · next serving => rw [Part.servesInternal, serving]
  · cases h

theorem within_completeClosing (a : Serving) (noReset : s.part.resetPending = false) (internal : s.part.servesInternal = true) :
    Within s.part (s.completeClosing a).part := by
  have kept := keeps_closed s a
  have passed : (s.closed a).part.port.passOver = s.part.port.passOver := congrArg Bearing.passOver kept.bearing
  have closed : Within s.part (s.closed a).part := (within_freePort _).trans kept.within
  rw [completeClosing_eq a noReset]
  exact (within_closingDone closed fun h => passed.trans (h.2.2.2 internal)).trans (within_arbitrate _)

theorem Happens.within (move : Happens s t) : Within s.part t.part := by
  cases move with
  | nothing => exact .refl _
  | event move => exact move.within.trans (within_arbitrate _)
  | arrives a => exact within_hostIssues _ a
  | together a => exact within_hostFollows s.part (some a)
  | hostDone following => exact within_completeHost s following
  | requester serving _ move => exact (move.within serving).trans (within_arbitrate _)
  | closing a _ noReset serves => exact within_completeClosing a noReset (servesInternal_of_closing serves)
  | reset a _ _ => exact ((within_freePort _).trans (within_pinResetEffect _)).trans (within_arbitrate _)

/-- Settles O59: each happening keeps both bounds; the port's own moves are the grants, the completions, and the changes of the
allowance at arming, at the closing write and at a reset, all made while no host access has been passed over. -/
theorem stepKeepsBounds : Obligations.StepKeepsBounds := fun _ _ next =>
  ⟨fun h => step_induction (P := QueuesBounded) (fun _ h => h) (fun _ _ h => h) (fun _ _ h move => move.within.room h) h next,
    fun h => step_induction (P := PortBounded) (fun _ h => h) (fun _ _ h => h) (fun _ _ h move => move.within.bounds h) h next⟩

end Sys2Proof.Machine

/-! PROOFS. The map in force, the held write, the setup reads, and what keeps "DORMANT" transparent, through every step (R2, R19,
R22, R28, R34, R148). -/

namespace Sys2Proof.Machine

variable {i : LineNo} {p q r : Part} {s t : State}

/-! ### What follows every event -/

/-- Everything of the part that `arbitrate` leaves alone. -/
def Part.beyondPort (p : Part) : Part := { p with port := ⟨0, 0, none, none⟩, reports := [], hostWait := false, closing := false }

theorem beyondPort_checkDisarmEnd (p : Part) : p.checkDisarmEnd.beyondPort = p.beyondPort := by
  rw [Part.checkDisarmEnd]
  split <;> rfl

theorem beyondPort_grant (p : Part) : p.grant.beyondPort = p.beyondPort := by
  rw [Part.grant]
  split
  · rfl
  · split
    · rfl
    · rfl
    · rfl
    · split <;> rfl

theorem beyondPort_arbitrate (p : Part) : p.arbitrate.beyondPort = p.beyondPort :=
  calc p.arbitrate.beyondPort = p.checkDisarmEnd.grant.checkDisarmEnd.beyondPort := rfl
    _ = p.beyondPort := by rw [beyondPort_checkDisarmEnd, beyondPort_grant, beyondPort_checkDisarmEnd]

theorem arbitrate_state (p : Part) : p.arbitrate.state = p.state :=
  (congrArg Part.state (beyondPort_arbitrate p) :)

theorem arbitrate_map (p : Part) : p.arbitrate.map = p.map :=
  (congrArg Part.map (beyondPort_arbitrate p) :)

theorem arbitrate_held (p : Part) : p.arbitrate.held = p.held :=
  (congrArg Part.held (beyondPort_arbitrate p) :)

theorem arbitrate_lines (p : Part) : p.arbitrate.lines = p.lines :=
  (congrArg Part.lines (beyondPort_arbitrate p) :)

theorem arbitrate_setupCopy (p : Part) : p.arbitrate.setupCopy = p.setupCopy :=
  (congrArg Part.setupCopy (beyondPort_arbitrate p) :)

/-- The closing write starts in "DISARMING" alone (R35). -/
theorem closing_checkDisarmEnd (h : p.checkDisarmEnd.closing = true) : p.closing = true ∨ p.state = .disarming := by
  rw [Part.checkDisarmEnd] at h
  split at h
  · next ends => exact .inr ends.1
  · exact .inl h

theorem closing_arbitrate (h : p.arbitrate.closing = true) : p.closing = true ∨ p.state = .disarming := by
  have state : p.checkDisarmEnd.grant.state = p.state :=
    (congrArg Part.state ((beyondPort_grant _).trans (beyondPort_checkDisarmEnd p)) :)
  rcases closing_checkDisarmEnd (p := p.checkDisarmEnd.grant) h with before | disarming
  · rw [grant_closing] at before
    exact closing_checkDisarmEnd before
  · exact .inr (state ▸ disarming)

/-- A setup read is presented in "ARMING" alone (R14). -/
theorem arming_of_setupRead {w : Nat} (h : p.internalRequest = some (.setupRead w)) : p.state = .arming := by
  rw [Part.internalRequest] at h
  split at h
  · cases h
  · rw [Part.otherRequest] at h
    split at h
    · next arming => exact arming.1
    · repeat' split at h
      all_goals cases h

theorem grant_setupRead {w : Nat} (h : p.grant.port.serving = some (.setupRead w)) :
    p.port.serving = some (.setupRead w) ∨ p.state = .arming := by
  rw [Part.grant] at h
  split at h
  · exact .inl h
  · split at h
    · exact .inl h
    · cases h
    · next q _ asks =>
      cases h
      exact .inr (arming_of_setupRead asks)
    · next q _ asks =>
      split at h
      · cases h
      · cases h
        exact .inr (arming_of_setupRead asks)

theorem port_checkDisarmEnd (p : Part) : p.checkDisarmEnd.port = p.port := by
  rw [Part.checkDisarmEnd]
  split <;> rfl

theorem arbitrate_setupRead {w : Nat} (h : p.arbitrate.port.serving = some (.setupRead w)) :
    p.port.serving = some (.setupRead w) ∨ p.state = .arming := by
  change p.checkDisarmEnd.grant.checkDisarmEnd.port.serving = _ at h
  rw [port_checkDisarmEnd] at h
  have granted := grant_setupRead h
  have state : p.checkDisarmEnd.state = p.state := (congrArg Part.state (beyondPort_checkDisarmEnd p) :)
  rwa [port_checkDisarmEnd, state] at granted

/-! ### The invariant -/

/-- What `AsleepInDormant` asks of a part in "DORMANT" (R19). -/
structure Part.Sleeps (p : Part) : Prop where
  reports : p.reports = []
  writer : p.writer = ⟨none, none⟩
  internal : p.servesInternal = false
  map : p.map = none
  closing : p.closing = false
  line : ∀ i, p.line i = Line.initial

/-- `MapInForce` and `DormantSound` of the part. -/
structure Part.Governed (p : Part) : Prop where
  map : p.MapSound
  inForce : p.map.isSome = true ↔ p.state.inForce = true
  setup : SetupSound p
  held : HeldSound p
  asleep : p.state = .dormant → p.Sleeps

theorem governed_iff (s : State) : MapInForce s ∧ DormantSound s ↔ s.part.Governed := by
  constructor
  · rintro ⟨⟨map, inForce⟩, asleep, held, setup⟩
    refine ⟨map, inForce, setup, held, fun dormant => ?_⟩
    obtain ⟨reports, writer, internal, map, closing, line⟩ := asleep dormant
    exact ⟨reports, writer, internal, map, closing, line⟩
  · rintro ⟨map, inForce, setup, held, asleep⟩
    refine ⟨⟨map, inForce⟩, fun dormant => ?_, held, setup⟩
    obtain ⟨reports, writer, internal, map, closing, line⟩ := asleep dormant
    exact ⟨reports, writer, internal, map, closing, line⟩

theorem mapSound_congr (h : q.map = p.map) (sound : p.MapSound) : q.MapSound := by
  rwa [Part.MapSound, h]

/-- No line exists while no map is in force. -/
theorem hasLine_of_noMap (h : p.map = none) (i : LineNo) : p.hasLine i = false := by
  rw [Part.hasLine, h]

namespace Part.Governed

theorem mapped (g : p.Governed) : p.bearing.Mapped := g.inForce.1

theorem not_held (g : p.Governed) (h : p.state ≠ .armed) : p.held = none := by
  cases held : p.held with
  | none => rfl
  | some w => exact absurd (g.held w held).1 h

theorem noMap (g : p.Governed) (h : p.state.inForce = false) : p.map = none := by
  cases map : p.map with
  | none => rfl
  | some m =>
    have inForce := g.inForce.1 (by rw [map]; rfl)
    rw [h] at inForce
    cases inForce

/-- While an internal access is served the part is awake. -/
theorem awake (g : p.Governed) (h : p.servesInternal = true) : p.state ≠ .dormant := fun dormant => by
  rw [(g.asleep dormant).internal] at h
  cases h

end Part.Governed

/-- From `p` to `q` the lines, the pending set and the writer stay. -/
structure Rests (p q : Part) : Prop where
  lines : q.lines = p.lines
  reports : q.reports = p.reports
  writer : q.writer = p.writer

theorem Rests.refl (p : Part) : Rests p p := ⟨rfl, rfl, rfl⟩

theorem Rests.trans (h : Rests p q) (k : Rests q r) : Rests p r :=
  ⟨k.lines.trans h.lines, k.reports.trans h.reports, k.writer.trans h.writer⟩

theorem setupSound_of (h : q.bearing = p.bearing) (sound : SetupSound p) : SetupSound q := by
  rwa [SetupSound, show q.port.serving = p.port.serving from congrArg Bearing.serving h,
    show q.state = p.state from congrArg Bearing.state h, show q.closing = p.closing from congrArg Bearing.closing h,
    show q.setupCopy = p.setupCopy from congrArg Bearing.setupCopy h]

theorem Part.Sleeps.rests (h : p.Sleeps) (b : q.bearing = p.bearing) (k : Rests p q) : q.Sleeps where
  reports := k.reports.trans h.reports
  writer := k.writer.trans h.writer
  internal := (servesInternal_congr (congrArg Bearing.serving b)).trans h.internal
  map := (congrArg Bearing.map b).trans h.map
  closing := (congrArg Bearing.closing b).trans h.closing
  line i := (line_of_lines _ _ k.lines i).trans (h.line i)

/-- A change that keeps the bearing and the held write sound keeps the rest, if it lets a sleeping part rest. -/
theorem Keeps.governed (k : Keeps p q) (rest : p.state = .dormant → p.Sleeps → Rests p q) (g : p.Governed) : q.Governed where
  map := mapSound_congr (congrArg Bearing.map k.bearing) g.map
  inForce := by
    rw [show q.map = p.map from congrArg Bearing.map k.bearing, show q.state = p.state from congrArg Bearing.state k.bearing]
    exact g.inForce
  setup := setupSound_of k.bearing g.setup
  held := k.hold g.mapped g.held
  asleep dormant := by
    have was : p.state = .dormant := (congrArg Bearing.state k.bearing).symm.trans dormant
    have sleeps := g.asleep was
    exact sleeps.rests k.bearing (rest was sleeps)

theorem Keeps.governedAwake (k : Keeps p q) (awake : p.state ≠ .dormant) (g : p.Governed) : q.Governed :=
  k.governed (fun dormant => absurd dormant awake) g

/-! ### The grant -/

theorem Part.Sleeps.noRequest (h : p.Sleeps) (dormant : p.state = .dormant) : p.internalRequest = none := by
  rw [Part.internalRequest, h.reports, Part.otherRequest, dormant, h.writer]
  rfl

/-- With nothing of its own to ask, the part serves the host alone. -/
theorem grant_of_noRequest (h : p.internalRequest = none) : p.grant = p ∨ ∃ a, p.grant = p.grantHost a p.port.passOver := by
  rw [Part.grant]
  split
  · exact .inl rfl
  · split
    · exact .inl rfl
    · next a _ _ => exact .inr ⟨a, rfl⟩
    · next asks => cases h.symm.trans asks
    · next asks => cases h.symm.trans asks

theorem checkDisarmEnd_of_state (h : p.state ≠ .disarming) : p.checkDisarmEnd = p := if_neg fun ends => h ends.1

theorem Part.Sleeps.arbitrate (h : p.Sleeps) (dormant : p.state = .dormant) : p.arbitrate.Sleeps := by
  have notDisarming {q : Part} (e : q.state = p.state) : q.state ≠ .disarming := by
    rw [e, dormant]
    exact nofun
  rw [Part.arbitrate, checkDisarmEnd_of_state (notDisarming rfl)]
  rcases grant_of_noRequest (h.noRequest dormant) with same | ⟨a, host⟩
  · rw [same, checkDisarmEnd_of_state (notDisarming rfl)]
    exact h.rests rfl ⟨rfl, rfl, rfl⟩
  · rw [host, checkDisarmEnd_of_state (p := p.grantHost a _) (notDisarming rfl)]
    exact ⟨h.reports, h.writer, rfl, h.map, h.closing, h.line⟩

theorem Part.Governed.arbitrate (g : p.Governed) : p.arbitrate.Governed where
  map := mapSound_congr (arbitrate_map p) g.map
  inForce := by
    rw [arbitrate_map, arbitrate_state]
    exact g.inForce
  setup := by
    refine ⟨fun w serving => ?_, fun closing => ?_⟩
    · rw [arbitrate_state]
      exact (arbitrate_setupRead serving).elim (g.setup.1 w) id
    · rw [arbitrate_state, arbitrate_setupCopy]
      exact (closing_arbitrate closing).elim g.setup.2 .inl
  held := heldSound_of (arbitrate_state p) (arbitrate_map p)
    (fun w held => ⟨(arbitrate_held p).symm.trans held, by rw [line_of_lines _ _ (arbitrate_lines p)]; exact id⟩) g.held
  asleep dormant := by
    rw [arbitrate_state] at dormant
    exact (g.asleep dormant).arbitrate dormant

/-! ### A sleeping part rests through every event -/

/-- An event of a line as it is before arming changes neither the line nor what is pending. -/
theorem LineMove.rests (initial : p.line i = Line.initial) (move : LineMove i p q) : Rests p q := by
  have notListening {x : Part} (e : x.lines = p.lines) : x.listening i = false := by
    rw [Part.listening, Part.active, line_of_lines _ _ e, initial]
    exact Bool.and_eq_false_imp.2 fun h => by simp [Line.initial] at h
  have notActive {x : Part} (e : x.lines = p.lines) : x.active i = false := by
    rw [Part.active, line_of_lines _ _ e, initial]
    simp [Line.initial]
  have falls (wait : Nat) : Rests p (p.rxFalls i wait) := by
    unfold Part.rxFalls
    split
    · exact .refl p
    · extract_lets x
      rw [notListening (x := x) rfl]
      exact ⟨rfl, rfl, rfl⟩
  cases move with
  | rxFalls wait => exact falls wait
  | rxRises wait =>
    unfold Part.rxRises
    split
    · exact .refl p
    · extract_lets x y
      rw [notListening (x := x) rfl]
      exact ⟨rfl, rfl, rfl⟩
  | signalFalls =>
    unfold Part.signalFalls
    split
    · extract_lets x
      rw [notActive (x := x) rfl]
      exact ⟨rfl, rfl, rfl⟩
    · exact .refl p
  | signalRises =>
    unfold Part.signalRises
    split
    · exact .refl p
    · extract_lets x
      rw [notActive (x := x) rfl]
      exact ⟨rfl, rfl, rfl⟩
  | probeExpires edge =>
    have idle : p.probeTimesOut i edge = p := by rw [Part.probeTimesOut, initial]; rfl
    rw [Part.probeExpires, idle]
    cases edge with
    | true => exact falls 0
    | false => exact .refl p
  | expireSettle => rw [Part.expireSettle, initial]; exact .refl p
  | expireRelease => rw [Part.expireRelease, initial]; exact .refl p
  | completeByte => rw [Part.completeByte, initial]; exact .refl p
  | endBreakSpace => rw [Part.endBreakSpace, initial]; exact .refl p
  | endBreakMark => rw [Part.endBreakMark, initial]; exact .refl p
  | endPause => rw [Part.endPause, initial]; exact .refl p
  | sampleStart => rw [Part.sampleStart, initial]; exact .refl p
  | byteArrives => rw [Part.byteArrives, initial]; exact .refl p
  | breakStarts => rw [Part.breakStarts, initial]; exact .refl p
  | gapExpires => rw [Part.gapExpires, initial]; exact .refl p
  | quietExpires => rw [Part.quietExpires, initial]; exact .refl p
  | lineOpens => rw [Part.lineOpens, initial]; exact .refl p
  | lineRestores => rw [Part.lineRestores, initial]; exact .refl p
  | becomesStuck => rw [Part.becomesStuck, initial]; exact .refl p
  | lapseLease => rw [Part.lapseLease, initial]; exact .refl p
  | expireCoalesce => rw [Part.expireCoalesce, initial]; exact .refl p

theorem forLines_of_noMap (f : LineNo → Part → Part) (h : p.map = none) : p.forLines f = p := by
  refine forLines_induction p f (fun _ q => q = p) rfl fun _ i q _ e => ?_
  rw [e, hasLine_of_noMap h, if_neg Bool.false_ne_true]

theorem rests_assertHandsOff (dormant : p.state = .dormant) (h : p.map = none) : Rests p p.assertHandsOff := by
  rw [Part.assertHandsOff, forLines_of_noMap _ (p := p.takeHandsOff true) h, Part.noteHandsOff]
  split
  · exact .refl p
  · rw [if_pos (show (p.takeHandsOff true).state = .dormant from dormant)]
    exact ⟨rfl, rfl, rfl⟩

theorem rests_releaseHandsOff (dormant : p.state = .dormant) (h : p.map = none) : Rests p p.releaseHandsOff := by
  rw [Part.releaseHandsOff, forLines_of_noMap _ (p := p.takeHandsOff false) h, Part.noteHandsOff]
  split
  · rw [if_pos (show (p.takeHandsOff false).state = .dormant from dormant)]
    exact ⟨rfl, rfl, rfl⟩
  · exact .refl p

theorem rests_writerSelects (h : p.map = none) : Rests p p.writerSelects := by
  have none : p.selected = none := List.find?_eq_none.2 fun i _ => by
    rw [Part.offersWork, hasLine_of_noMap h]
    exact Bool.false_ne_true
  rw [Part.writerSelects, none]
  split
  · next e => cases e
  · exact .refl p

theorem rests_tick (p : Part) : Rests p p.tick := by
  rw [Part.tick]
  split <;> exact ⟨rfl, rfl, rfl⟩

theorem rests_endMarkHold (p : Part) : Rests p (p.endMarkHold i) := by
  rw [Part.endMarkHold]
  split <;> exact ⟨rfl, rfl, rfl⟩

theorem rests_releaseReset (p : Part) : Rests p p.releaseReset := by
  rw [Part.releaseReset]
  split <;> exact ⟨rfl, rfl, rfl⟩

/-- What a pin reset and power-on leave: nothing is in force, nothing is under way on the internal side. -/
theorem governed_fresh (dormant : q.state = .dormant) (closing : q.closing = false) (held : q.held = none) (sleeps : q.Sleeps) :
    q.Governed where
  map := by rw [Part.MapSound, sleeps.map]; trivial
  inForce := by
    rw [sleeps.map, dormant]
    exact ⟨nofun, nofun⟩
  setup := by
    refine ⟨fun w serving => ?_, fun h => ?_⟩
    · have internal := sleeps.internal
      rw [Part.servesInternal, serving] at internal
      cases internal
    · cases closing.symm.trans h
  held w h := by cases held.symm.trans h
  asleep _ := sleeps

theorem line_replicate (h : q.lines = Vector.replicate 32 Line.initial) (i : LineNo) : q.line i = Line.initial := by
  rw [Part.line, h, Fin.getElem_fin, Vector.getElem_replicate]

theorem governed_powerOn (p : Part) : p.powerOn.Governed :=
  governed_fresh rfl rfl rfl ⟨rfl, rfl, rfl, rfl, rfl, line_replicate rfl⟩

theorem servesInternal_pinResetEffect (p : Part) : p.pinResetEffect.servesInternal = false := by
  change Part.servesInternal { p with port := p.hostAfterReset } = false
  cases serving : p.port.serving with
  | none => rw [Part.servesInternal, Part.hostAfterReset, serving]
  | some a => cases a <;> rw [Part.servesInternal, Part.hostAfterReset, serving]

theorem governed_pinResetEffect (p : Part) : p.pinResetEffect.Governed :=
  governed_fresh rfl rfl rfl ⟨rfl, rfl, servesInternal_pinResetEffect p, rfl, rfl, line_replicate rfl⟩

theorem governed_assertReset (g : p.Governed) : p.assertReset.Governed := by
  rw [Part.assertReset]
  split
  · exact g
  · split
    · have waits : Keeps p { p.takeReset true with resetPending := true } := .same rfl rfl rfl
      exact waits.governed (fun _ _ => ⟨rfl, rfl, rfl⟩) g
    · exact governed_pinResetEffect _

theorem PartMove.governed (move : PartMove p q) (g : p.Governed) : q.Governed := by
  cases move with
  | line move => exact move.keeps.governed (fun _ h => move.rests (h.line _)) g
  | powerOn => exact governed_powerOn p
  | assertReset => exact governed_assertReset g
  | resetEffect => exact governed_pinResetEffect p
  | releaseReset => exact (keeps_releaseReset p).governed (fun _ _ => rests_releaseReset p) g
  | assertHandsOff => exact (keeps_assertHandsOff p).governed (fun dormant h => rests_assertHandsOff dormant h.map) g
  | releaseHandsOff => exact (keeps_releaseHandsOff p).governed (fun dormant h => rests_releaseHandsOff dormant h.map) g
  | tick => exact (keeps_tick p).governed (fun _ _ => rests_tick p) g
  | endMarkHold => exact (keeps_endMarkHold p).governed (fun _ _ => rests_endMarkHold p) g
  | writerSelects => exact (keeps_writerSelects p).governed (fun _ h => rests_writerSelects h.map) g
  | expireHold =>
    refine (keeps_expireHold p).governed (fun dormant _ => ?_) g
    rw [Part.expireHold, g.not_held (by rw [dormant]; exact nofun)]
    exact .refl p

/-! ### Host accesses -/

/-- In "DORMANT" an address is the gate's or plain memory's (R2, R19). -/
theorem decode_dormant (dormant : p.state = .dormant) (h : p.map = none) (a : Addr) : p.decode a = .gate ∨ p.decode a = .plain := by
  rw [Part.decode]
  split
  · exact .inl rfl
  · rw [h]
    split <;> exact .inr rfl

/-- In "DORMANT" a host access is forwarded, after a gate event at the gate word (R19, R23). -/
theorem hostArrives_dormant (dormant : p.state = .dormant) (h : p.map = none) (a : HostAccess) :
    p.hostArrives a = p.forward a ∨ ∃ lanes v, p.hostArrives a = (p.gateEvent lanes v).forward a := by
  obtain ⟨addr, op⟩ := a
  cases op with
  | read =>
    change p.readArrives addr = _ ∨ ∃ lanes v, p.readArrives addr = _
    rw [Part.readArrives]
    rcases decode_dormant dormant h addr with gate | plain
    · rw [gate]
      exact .inl rfl
    · rw [plain]
      exact .inl rfl
  | write lanes d =>
    change p.writeArrives addr lanes d = _ ∨ ∃ lanes' v, p.writeArrives addr lanes d = _
    rw [Part.writeArrives, Part.writeBlocked]
    rcases decode_dormant dormant h addr with gate | plain
    · rw [gate]
      exact .inr ⟨lanes, d, rfl⟩
    · rw [plain]
      exact .inl rfl

theorem governed_forward (a : HostAccess) (g : p.Governed) : (p.forward a).Governed :=
  (keeps_forward p a).governed (fun _ _ => ⟨rfl, rfl, rfl⟩) g

/-- Entry to "ARMING": no map, no held write, no closing write (R25). -/
theorem governed_enterArming (dormant : p.state = .dormant) (check : Word) (g : p.Governed) : (p.enterArming check).Governed := by
  have noMap : p.map = none := (g.asleep dormant).map
  have notClosing : p.closing = false := (g.asleep dormant).closing
  have notHeld : p.held = none := g.not_held (by rw [dormant]; exact nofun)
  rw [Part.enterArming, queueChanged_eq]
  refine ⟨?_, ?_, ⟨fun _ _ => rfl, fun closing => ?_⟩, fun w held => ?_, nofun⟩
  · change (match p.map with | some m => _ | none => True)
    rw [noMap]
    trivial
  · change p.map.isSome = true ↔ _
    rw [noMap]
    exact ⟨nofun, nofun⟩
  · cases notClosing.symm.trans closing
  · cases notHeld.symm.trans held

theorem governed_gateEvent (lanes : Lanes) (v : Word) (g : p.Governed) : (p.gateEvent lanes v).Governed := by
  have progress (n : Nat) : Keeps p { p with gateProgress := n } := .same rfl rfl rfl
  rw [Part.gateEvent]
  split
  · next dormant =>
    split
    · exact (progress 0).governed (fun _ _ => ⟨rfl, rfl, rfl⟩) g
    · split
      · exact governed_enterArming dormant.1 v g
      · exact (progress _).governed (fun _ _ => ⟨rfl, rfl, rfl⟩) g
  · exact g

/-- Disarming starts from "ARMED" with no write held: an access arrives while none is under way (R1, R34). -/
theorem governed_startDisarm (armed : p.state = .armed) (notHeld : p.held = none) (g : p.Governed) : p.startDisarm.Governed := by
  refine (keeps_disarmLines p).governedAwake nofun ⟨g.map, ?_, ⟨fun w serving => ?_, fun _ => .inl rfl⟩, fun w held => ?_, nofun⟩
  · exact ⟨fun _ => rfl, fun _ => g.inForce.2 (by rw [armed]; rfl)⟩
  · cases armed.symm.trans (g.setup.1 w serving)
  · cases notHeld.symm.trans held

theorem governed_hostArrives (a : HostAccess) (notHeld : p.held = none) (g : p.Governed) : (p.hostArrives a).Governed := by
  by_cases dormant : p.state = .dormant
  · rcases hostArrives_dormant dormant (g.asleep dormant).map a with plain | ⟨lanes, v, gate⟩
    · rw [plain]
      exact governed_forward a g
    · rw [gate]
      exact governed_forward a (governed_gateEvent lanes v g)
  · have arrival := arrival_host p a
    generalize p.hostArrives a = q at arrival
    cases arrival with
    | keeps kept => exact kept.governedAwake dormant g
    | arms was => exact absurd was dormant
    | disarms armed => exact governed_forward a (governed_startDisarm armed notHeld g)

theorem held_of_free (h : p.busBusy = false) : p.held = none := held_of_ready (s := ⟨p, [], []⟩) h

theorem governed_hostFollows (a : Option HostAccess) (g : p.Governed) : (p.hostFollows a).Governed := by
  cases a with
  | none => exact g
  | some a =>
    rw [Part.hostFollows]
    split
    · exact g
    · next free => exact governed_hostArrives a (held_of_free (Bool.eq_false_iff.2 free)) g

theorem governed_hostIssues (a : HostAccess) (g : p.Governed) : (p.hostIssues a).Governed := by
  rw [Part.hostIssues]
  split
  · exact g
  · next free => exact (governed_hostArrives a (held_of_free (Bool.eq_false_iff.2 free)) g).arbitrate

theorem governed_freePort (g : p.Governed) : p.freePort.Governed :=
  ⟨g.map, g.inForce, ⟨nofun, g.setup.2⟩, g.held, fun dormant =>
    let h := g.asleep dormant
    ⟨h.reports, h.writer, rfl, h.map, h.closing, h.line⟩⟩

/-- In "DORMANT" no read is snooped (R19). -/
theorem rests_hostCompletes (dormant : p.state = .dormant) (h : p.map = none) (a : HostAccess) (d : Word) :
    Rests p (p.hostCompletes a d) := by
  rw [Part.hostCompletes]
  split
  · have decoded := decode_dormant (p := { p with readData := d, hostWait := false }) dormant h a.addr
    rw [Part.snoop]
    rcases decoded with gate | plain
    · rw [gate]
      exact ⟨rfl, rfl, rfl⟩
    · rw [plain]
      exact ⟨rfl, rfl, rfl⟩
  · exact ⟨rfl, rfl, rfl⟩

theorem governed_hostCompletes (a : HostAccess) (d : Word) (g : p.Governed) : (p.hostCompletes a d).Governed :=
  (keeps_hostCompletes p a d).governed (fun dormant h => rests_hostCompletes dormant h.map a d) g

theorem governed_completeHost (following : Option HostAccess) (g : s.part.Governed) : (s.completeHost following).part.Governed := by
  rw [State.completeHost]
  split
  · exact (governed_hostFollows _ (governed_hostCompletes _ _ (governed_freePort g))).arbitrate
  · exact g

/-! ### Arming, the closing write, the requesters -/

/-- The map that validation let in comes into force (R22, R26). -/
theorem governed_comeIntoForce {check : Word} (accepted : validateSetup p.setupCopy check = .ok) (notHeld : p.held = none)
    (notClosing : p.closing = false) (noRead : p.port.serving = none) : p.comeIntoForce.Governed := by
  obtain ⟨region, some, few, -⟩ := validateSetup_ok accepted
  refine ⟨⟨?_, some, few⟩, ⟨fun _ => rfl, fun _ => rfl⟩, ⟨fun w serving => ?_, fun closing => ?_⟩, fun w held => ?_, nofun⟩
  · rw [BitVec.toNat_ofNat, Nat.mod_eq_of_lt (by omega)]
    exact region
  · cases noRead.symm.trans serving
  · cases notClosing.symm.trans closing
  · cases notHeld.symm.trans held

/-- The data of a setup read that the port has served in "ARMING" (R25, R26, R28). -/
theorem governed_setupData (d : Word) (arming : p.state = .arming) (noRead : p.port.serving = none) (g : p.Governed) :
    (p.setupData d).Governed := by
  have notHeld : p.held = none := g.not_held (by rw [arming]; exact nofun)
  have counted : (p.setupCopy ++ [d]).length = p.setupCopy.length + 1 := List.length_append
  have enough (closing : p.closing = true) : 7 ≤ p.setupCopy.length :=
    (g.setup.2 closing).elim (fun e => nomatch arming.symm.trans e) And.right
  have joined : Part.Governed { p with setupCopy := p.setupCopy ++ [d] } :=
    ⟨g.map, g.inForce, ⟨fun _ _ => arming, fun closing => .inr ⟨arming, (enough closing).trans (by simp)⟩⟩, g.held,
      fun dormant => nomatch arming.symm.trans dormant⟩
  unfold Part.setupData
  extract_lets q
  split
  · next seven =>
    have six : p.setupCopy.length + 1 = 7 := counted.symm.trans seven
    unfold Part.validated
    split
    · next accepted =>
      have notClosing : p.closing = false := Bool.eq_false_iff.2 fun closing => by
        have := enough closing
        omega
      exact (keeps_armingReports q).governedAwake nofun (governed_comeIntoForce accepted notHeld notClosing noRead)
    · refine ⟨joined.map, joined.inForce, ⟨joined.setup.1, fun _ => .inr ⟨arming, ?_⟩⟩, joined.held, fun dormant => ?_⟩
      · exact seven.ge
      · cases arming.symm.trans dormant
  · exact joined

theorem RequesterMove.governed {d : Word} {a : Serving} (move : RequesterMove p d a q) (serving : p.port.serving = some a)
    (g : p.Governed) : q.Governed := by
  have free := governed_freePort g
  have awake : p.freePort.state ≠ .dormant := g.awake (move.internal serving)
  cases move with
  | setup w => exact governed_setupData d (g.setup.1 w serving) rfl free
  | report => exact free
  | reclaim a i job noted overtaken => exact (keeps_reclaimReturns _ job noted overtaken d).governedAwake awake free
  | word a v i w => exact (keeps_nextWord _ i w).governedAwake awake free
  | commit a v i w => exact (keeps_commitRecord _ w).governedAwake awake free
  | walk a i got abandoned => exact (keeps_walkReturns _ got abandoned d).governedAwake awake free

/-- The closing write queued again, or the entry to "DORMANT" (R28, R36). -/
theorem governed_closingDone (closing : p.closing = true) (noRead : p.servesInternal = false) (g : p.Governed) :
    p.closingDone.Governed := by
  have notHeld : p.held = none := g.not_held fun armed => by
    rcases g.setup.2 closing with disarming | ⟨arming, -⟩
    · cases armed.symm.trans disarming
    · cases armed.symm.trans arming
  rw [Part.closingDone]
  split
  · next empty => exact governed_fresh rfl rfl notHeld ⟨empty, rfl, noRead, rfl, rfl, line_replicate rfl⟩
  · refine ⟨g.map, g.inForce, ⟨g.setup.1, fun _ => g.setup.2 closing⟩, g.held, fun dormant => ?_⟩
    rcases g.setup.2 closing with disarming | ⟨arming, -⟩
    · cases disarming.symm.trans dormant
    · cases arming.symm.trans dormant

theorem closing_of_serves (h : p.servesClosing = true) : p.closing = true := by
  rw [Part.servesClosing] at h
  split at h
  · exact (Bool.and_eq_true_iff.1 h).1
  · cases h

theorem governed_completeClosing (a : Serving) (noReset : s.part.resetPending = false) (serves : s.part.servesClosing = true)
    (g : s.part.Governed) : (s.completeClosing a).part.Governed := by
  have kept := keeps_closed s a
  have was : s.part.closing = true := closing_of_serves serves
  have closing : (s.closed a).part.closing = true := (congrArg Bearing.closing kept.bearing).trans was
  have free : (s.closed a).part.servesInternal = false := servesInternal_congr (congrArg Bearing.serving kept.bearing)
  have awake : s.part.freePort.state ≠ .dormant := g.awake (servesInternal_of_closing serves)
  rw [completeClosing_eq a noReset]
  exact (governed_closingDone closing free (kept.governedAwake awake (governed_freePort g))).arbitrate

theorem Happens.governed (move : Happens s t) (g : s.part.Governed) : t.part.Governed := by
  cases move with
  | nothing => exact g
  | event move => exact (move.governed g).arbitrate
  | arrives a => exact governed_hostIssues a g
  | together a => exact governed_hostFollows (some a) g
  | hostDone following => exact governed_completeHost following g
  | requester serving _ move => exact (move.governed serving g).arbitrate
  | closing a _ noReset serves => exact governed_completeClosing a noReset serves g
  | reset => exact (governed_pinResetEffect _).arbitrate

/-- The passing of a period touches nothing that the invariants speak of. -/
theorem governed_idle (g : p.Governed) : Part.Governed { p with now := p.now + 1 } := by
  have later : Keeps p { p with now := p.now + 1 } := .same rfl rfl rfl
  exact later.governed (fun _ _ => ⟨rfl, rfl, rfl⟩) g

theorem step_governed (g : s.part.Governed) (h : step s = .next t) : t.part.Governed :=
  step_induction (P := fun s => s.part.Governed) (fun _ => governed_idle) (fun _ _ g => g) (fun _ _ g move => move.governed g) g h

/-- Settles O60: each happening keeps the five conditions together; a part in "DORMANT" rests through every event of its own, and
leaves that state through the gate alone. -/
theorem stepKeepsMapAndDormancy : Obligations.StepKeepsMapAndDormancy := fun s t holds next =>
  (governed_iff t).2 (step_governed ((governed_iff s).1 holds) next)

end Sys2Proof.Machine

/-! PROOFS. The pending set, through every step: what is pending is the value that a word has now, and no change of a report word
goes untold (R17, R27, R28). -/

namespace Sys2Proof.Machine

variable {i : LineNo} {p q r : Part} {s t : State}

/-! ### The relation -/

/-- From `p` to `q` the pending set stays sound, the absent lines stay as before arming, and each new value of a report word is
pending or being written, unless `q` is in "DORMANT". -/
structure Accounts (p q : Part) : Prop where
  sound : ReportsSound p → ReportsSound q
  absent : AbsentInitial p → AbsentInitial q
  told : q.state ≠ .dormant → ∀ w v, q.reportValue? w = some v →
    p.reportValue? w = some v ∨ (w, v) ∈ q.reports ∨ ∃ a, q.port.serving = some (.report w a v)

theorem Changes.accounts (h : Changes p q) : Accounts p q where
  sound s := h.reported.sound (h.keys s.1) h.closing s
  absent := h.absent
  told _ w v value := (h.reported w v value).elim (fun pending => .inr (.inl pending)) fun same => .inl same.1

/-- What follows the event takes pending words to the port alone (R15, R17). -/
theorem Accounts.arbitrate (h : Accounts p q) : Accounts p q.arbitrate := by
  have forwards := forwards_arbitrate q
  obtain ⟨state, map, line⟩ := forwards.outside
  refine ⟨fun s => forwards.sound (h.sound s), fun a j none => ?_, fun awake w v value => ?_⟩
  · rw [hasLine_of_map _ _ map] at none
    exact (line j).trans (h.absent a j none)
  · rw [forwards.value] at value
    rcases h.told (state ▸ awake) w v value with same | pending | ⟨a, served⟩
    · exact .inl same
    · exact .inr (forwards.pending w v pending)
    · exact .inr (.inr ⟨a, forwards.serving _ served⟩)

/-- A part in "DORMANT" with nothing pending and every line as before arming. -/
theorem accounts_dormant (dormant : q.state = .dormant) (empty : q.reports = []) (absent : AbsentInitial p → AbsentInitial q) :
    Accounts p q := by
  refine ⟨fun _ => ⟨?_, fun w u v pending => ?_⟩, absent, fun awake => absurd dormant awake⟩
  · rw [empty]
    exact List.nodup_nil
  · rw [empty] at pending
    cases pending

theorem accounts_initial (dormant : q.state = .dormant) (empty : q.reports = [])
    (lines : q.lines = Vector.replicate 32 Line.initial) : Accounts p q :=
  accounts_dormant dormant empty fun _ i _ => line_replicate lines i

theorem changes_freePort (p : Part) : Changes p p.freePort := .same rfl rfl rfl rfl rfl rfl rfl rfl rfl

theorem reportValue_32 (p : Part) : p.reportValue? (.base 32) = some p.state.code := by
  simp [Part.reportValue?, Part.baseReport]

/-- The closing write is queued as a value, apart from the value that word 32 has (R28). -/
theorem accounts_queueClosing (h : Changes p q) (state : q.state = p.state) : Accounts p q.queueClosing := by
  have kept (w : ReportWord) : q.queueClosing.reportValue? w = q.reportValue? w :=
    reportValue_part rfl rfl rfl rfl rfl rfl rfl w
  refine ⟨fun s => ?_, h.absent, fun awake w v value => ?_⟩
  · obtain ⟨keys, values⟩ := h.accounts.sound s
    refine ⟨nodup_queueUpdate _ _ _ keys, fun w u v pending value other => ?_⟩
    have notClosing : w ≠ .base 32 := fun e => other ⟨e, rfl⟩
    exact values w u v ((mem_queueUpdate_ne _ _ _ _ _ notClosing).1 pending) ((kept w).symm.trans value)
      fun excused => notClosing excused.1
  · rw [kept] at value
    by_cases e : w = .base 32
    · rw [e, reportValue_32, state, ← reportValue_32] at value
      exact .inl (e ▸ value)
    · rcases h.reported w v value with pending | same
      · exact .inr (.inl ((mem_queueUpdate_ne _ _ _ _ _ e).2 pending))
      · exact .inl same.1

/-! ### The events of the part -/

theorem changes_takeHandsOff {f : LineNo → Part → Part} (v : Bool) (each : ∀ i q, Affects i q (f i q)) (awake : p.state ≠ .dormant)
    (state : ((p.takeHandsOff v).forLines f).state = p.state) : Changes p (((p.takeHandsOff v).forLines f).noteHandsOff p) := by
  rw [Part.noteHandsOff, if_neg (state ▸ awake)]
  exact changes_noteSummary (p1 := p.takeHandsOff v)
    (fun w other => reportValue_ne_summary (p := p) (p1 := p.takeHandsOff v) rfl rfl rfl rfl rfl w other) rfl rfl id
    (changes_lines _ _ each)

theorem affects_handsOffLine (i : LineNo) (p : Part) : Affects i p (Part.handsOffLine i p) :=
  (Affects.of (noted_setHeld p i _ _)).trans (affects_quiesceLine _)

theorem affects_handsOnLine (i : LineNo) (p : Part) : Affects i p (Part.handsOnLine i p) := .of (noted_setHeld p i _ _)

theorem accounts_assertHandsOff (g : p.Governed) : Accounts p p.assertHandsOff := by
  by_cases dormant : p.state = .dormant
  · have sleeps := g.asleep dormant
    have rest := rests_assertHandsOff dormant sleeps.map
    have state : p.assertHandsOff.state = p.state := congrArg Bearing.state (keeps_assertHandsOff p).bearing
    exact accounts_dormant (state.trans dormant) (rest.reports.trans sleeps.reports) fun _ i _ =>
      (line_of_lines _ _ rest.lines i).trans (sleeps.line i)
  · have state : ((p.takeHandsOff true).forLines Part.handsOffLine).state = p.state :=
      congrArg Bearing.state (keeps_forLines (p.takeHandsOff true) _ keeps_handsOffLine).bearing
    rw [Part.assertHandsOff]
    split
    · exact (Changes.refl p).accounts
    · exact (changes_takeHandsOff true affects_handsOffLine dormant state).accounts

theorem accounts_releaseHandsOff (g : p.Governed) : Accounts p p.releaseHandsOff := by
  by_cases dormant : p.state = .dormant
  · have sleeps := g.asleep dormant
    have rest := rests_releaseHandsOff dormant sleeps.map
    have state : p.releaseHandsOff.state = p.state := congrArg Bearing.state (keeps_releaseHandsOff p).bearing
    exact accounts_dormant (state.trans dormant) (rest.reports.trans sleeps.reports) fun _ i _ =>
      (line_of_lines _ _ rest.lines i).trans (sleeps.line i)
  · have state : ((p.takeHandsOff false).forLines Part.handsOnLine).state = p.state :=
      congrArg Bearing.state
        (keeps_forLines (p.takeHandsOff false) Part.handsOnLine fun _ q => (calm_setHeld q _ _).keeps).bearing
    rw [Part.releaseHandsOff]
    split
    · exact (changes_takeHandsOff false affects_handsOnLine dormant state).accounts
    · exact (Changes.refl p).accounts

theorem LineMove.affectsLine (move : LineMove i p q) : AffectsLine i p q := by
  cases move with
  | expireSettle => exact affectsLine_expireSettle p
  | expireRelease => exact affectsLine_expireRelease p
  | completeByte => exact affectsLine_completeByte p
  | endBreakSpace => exact affectsLine_endBreakSpace p
  | endBreakMark => exact affectsLine_endBreakMark p
  | endPause => exact affectsLine_endPause p
  | rxFalls wait => exact affectsLine_rxFalls p wait
  | rxRises wait => exact affectsLine_rxRises p wait
  | sampleStart => exact affectsLine_sampleStart p
  | byteArrives => exact affectsLine_byteArrives p
  | breakStarts => exact affectsLine_breakStarts p
  | gapExpires => exact affectsLine_gapExpires p
  | quietExpires => exact affectsLine_quietExpires p
  | probeExpires edge => exact affectsLine_probeExpires p edge
  | signalFalls => exact affectsLine_signalFalls p
  | signalRises => exact affectsLine_signalRises p
  | lineOpens => exact affectsLine_lineOpens p
  | lineRestores => exact affectsLine_lineRestores p
  | becomesStuck => exact affectsLine_becomesStuck p
  | lapseLease => exact affectsLine_lapseLease p
  | expireCoalesce => exact affectsLine_expireCoalesce p

theorem changes_expireHold (g : p.Governed) : Changes p p.expireHold := by
  rw [Part.expireHold]
  split
  · next h held =>
    have has : (p.at h.expiry).hasLine h.line = true := (g.held h held).2.1
    have later : Changes p (p.at h.expiry) := .same rfl rfl rfl rfl rfl rfl rfl rfl rfl
    have lost : Changes (p.at h.expiry) ((p.at h.expiry).loseEntries h.line 1) :=
      .ofLine (.has (.of (noted_loseEntries _ _ 1)) has)
    generalize (p.at h.expiry).loseEntries h.line 1 = x at lost
    have dropped : Changes x ({ x with held := none }.forward h.access) := .same rfl rfl rfl rfl rfl rfl rfl rfl rfl
    exact (later.trans lost).trans dropped
  · exact .refl p

theorem changes_tick (p : Part) : Changes p p.tick := by
  rw [Part.tick]
  split <;> exact .same rfl rfl rfl rfl rfl rfl rfl rfl rfl

theorem changes_endMarkHold (p : Part) : Changes p (p.endMarkHold i) := by
  rw [Part.endMarkHold]
  split <;> exact .same rfl rfl rfl rfl rfl rfl rfl rfl rfl

theorem changes_releaseReset (p : Part) : Changes p p.releaseReset := by
  rw [Part.releaseReset]
  split <;> exact .same rfl rfl rfl rfl rfl rfl rfl rfl rfl

theorem accounts_assertReset (p : Part) : Accounts p p.assertReset := by
  rw [Part.assertReset]
  split
  · exact (Changes.refl p).accounts
  · split
    · have waits : Changes p { p.takeReset true with resetPending := true } := .same rfl rfl rfl rfl rfl rfl rfl rfl rfl
      exact waits.accounts
    · exact accounts_initial rfl rfl rfl

theorem PartMove.accounts (move : PartMove p q) (g : p.Governed) : Accounts p q := by
  cases move with
  | line move => exact (Changes.ofLine move.affectsLine).accounts
  | powerOn => exact accounts_initial rfl rfl rfl
  | assertReset => exact accounts_assertReset p
  | resetEffect => exact accounts_initial rfl rfl rfl
  | releaseReset => exact (changes_releaseReset p).accounts
  | assertHandsOff => exact accounts_assertHandsOff g
  | releaseHandsOff => exact accounts_releaseHandsOff g
  | tick => exact (changes_tick p).accounts
  | endMarkHold => exact (changes_endMarkHold p).accounts
  | writerSelects =>
    obtain ⟨j, affects⟩ := affectsLine_writerSelects p
    exact (Changes.ofLine affects).accounts
  | expireHold => exact (changes_expireHold g).accounts

/-! ### The completions at the port -/

theorem accounts_hostIssues (p : Part) (a : HostAccess) : Accounts p (p.hostIssues a) := by
  rw [Part.hostIssues]
  split
  · exact (Changes.refl p).accounts
  · exact (changes_hostArrives p a).accounts.arbitrate

theorem accounts_completeHost (s : State) (following : Option HostAccess) : Accounts s.part (s.completeHost following).part := by
  rw [State.completeHost]
  split
  · exact (((changes_freePort _).trans (changes_hostCompletes _ _ _)).trans (changes_hostFollows _ _)).accounts.arbitrate
  · exact (Changes.refl _).accounts

/-- The setup result is queued as a value: word 33 has none of its own (R17). -/
theorem changes_queueResult (p : Part) (v : Word) : Changes p (p.queueValue (.base 33) v) := by
  have none : p.reportValue? (.base 33) = none := by simp [Part.reportValue?]
  have queued : Queues [.base 33] p (p.queueValue (.base 33) v) := queues_of _ _ fun u value => by cases none.symm.trans value
  exact queued.changes rfl rfl id fun _ _ _ value => value

/-- The data of a setup read in "ARMING", where no line exists (R26 to R28). -/
theorem accounts_setupData (d : Word) (absent : ∀ i, p.line i = Line.initial) : Accounts p (p.setupData d) := by
  unfold Part.setupData
  extract_lets q
  have joined : Changes p q := .same rfl rfl rfl rfl rfl rfl rfl rfl rfl
  split
  · unfold Part.validated
    split
    · exact (joined.trans (changes_enterArmed q absent)).accounts
    · exact accounts_queueClosing (joined.trans (changes_queueResult q _)) rfl
  · exact joined.accounts

theorem changes_nextWord (p : Part) (i : LineNo) (w : Writing) : Changes p (p.nextWord i w) :=
  .same rfl rfl rfl rfl rfl rfl rfl rfl rfl

theorem RequesterMove.accounts {d : Word} {a : Serving} (move : RequesterMove p d a q) (serving : p.port.serving = some a)
    (g : p.Governed) (absent : AbsentInitial p) : Accounts p q := by
  have free := changes_freePort p
  cases move with
  | setup w =>
    have noMap : p.map = none := g.noMap (by rw [g.setup.1 w serving]; rfl)
    have arming := accounts_setupData (p := p.freePort) d fun i => absent i (hasLine_of_noMap noMap i)
    exact ⟨arming.sound, arming.absent, arming.told⟩
  | report => exact free.accounts
  | reclaim a i job noted overtaken => exact (free.trans (.ofLine (affectsLine_reclaimReturns _ job noted overtaken d))).accounts
  | word a v i w => exact (free.trans (changes_nextWord _ i w)).accounts
  | commit a v i w => exact (free.trans (.ofLine (affectsLine_commitRecord _ w))).accounts
  | walk a i got abandoned => exact (free.trans (.ofLine (affectsLine_walkReturns _ got abandoned d))).accounts

theorem changes_closed (s : State) (a : Serving) : Changes s.part (s.closed a).part := by
  refine (changes_freePort _).trans ?_
  unfold State.closed
  extract_lets t
  split
  · unfold State.serveWaiting
    split
    · next b _ =>
      have taken : Changes t.part { t.part with port := { t.part.port with waiting := none } } :=
        .same rfl rfl rfl rfl rfl rfl rfl rfl rfl
      exact taken.trans (changes_hostCompletes _ b (Memory.access t.mem (.host b)).2)
    · exact .refl _
  · exact .refl _

/-- A host access served before the part would sleep may queue a word, and then keeps the part awake (R28, log 11). -/
theorem accounts_closingDone (h : Changes p q) (state : q.state = p.state) : Accounts p q.closingDone := by
  rw [Part.closingDone]
  split
  · next empty => exact accounts_initial rfl empty rfl
  · exact accounts_queueClosing h state

theorem Happens.accounts (move : Happens s t) (g : s.part.Governed) (absent : AbsentInitial s.part) : Accounts s.part t.part := by
  cases move with
  | nothing => exact (Changes.refl _).accounts
  | event move => exact (move.accounts g).arbitrate
  | arrives a => exact accounts_hostIssues _ a
  | together a => exact (changes_hostFollows s.part (some a)).accounts
  | hostDone following => exact accounts_completeHost s following
  | requester serving _ move => exact (move.accounts serving g absent).arbitrate
  | closing a _ noReset =>
    rw [completeClosing_eq a noReset]
    exact (accounts_closingDone (changes_closed s a) (congrArg Bearing.state (keeps_closed s a).bearing)).arbitrate
  | reset => exact (accounts_initial rfl rfl rfl).arbitrate

/-- Settles O6: each happening accounts for the words that it changes; the closing write is queued beside the values, and the lines
of a part without a map are as before arming when they come into force. -/
theorem stepKeepsReports : Obligations.StepKeepsReports := by
  rintro s t ⟨map, dormancy, sound, absent⟩ next
  have g : s.part.Governed := (governed_iff s).1 ⟨map, dormancy⟩
  have accounts : Accounts s.part t.part := by
    rcases step_happens next with rfl | ⟨rest, move⟩
    · have later : Changes s.part { s.part with now := s.part.now + 1 } := .same rfl rfl rfl rfl rfl rfl rfl rfl rfl
      exact later.accounts
    · exact move.accounts g absent
  exact ⟨accounts.sound sound, accounts.absent absent, accounts.told⟩

end Sys2Proof.Machine

/-! PROOFS. The Memory Port: what follows every event, the arbitration, the pending set, the words of the reports (R14 to R17, R35,
11.2, 11.3, 11.6). -/

namespace Sys2Proof.Machine

variable {i : LineNo} {p q r : Part} {s t : State}

/-! ### The end of disarming (R35) -/

theorem disarmEnds_congr (h : q.beyondPort = p.beyondPort) :
    DisarmEnds q ↔ p.state = .disarming ∧ q.closing = false ∧ q.reports = [] ∧
      ∀ i, p.hasLine i = true → (p.line i).state = .off ∧ p.hasWork i = false := by
  have state : q.state = p.state := (congrArg Part.state h :)
  have has (i : LineNo) : q.hasLine i = p.hasLine i := (congrArg (Part.hasLine · i) h :)
  have line (i : LineNo) : q.line i = p.line i := (congrArg (Part.line · i) h :)
  have work (i : LineNo) : q.hasWork i = p.hasWork i := (congrArg (Part.hasWork · i) h :)
  simp only [DisarmEnds, state, has, line, work]

theorem DisarmEnds.drained (h : DisarmEnds p) :
    p.state = .disarming ∧ ∀ i, p.hasLine i = true → (p.line i).state = .off ∧ p.hasWork i = false := ⟨h.1, h.2.2.2⟩

theorem DisarmEnds.drained_of_grant (h : DisarmEnds p.grant) :
    p.state = .disarming ∧ ∀ i, p.hasLine i = true → (p.line i).state = .off ∧ p.hasWork i = false := by
  obtain ⟨state, -, -, lines⟩ := (disarmEnds_congr (beyondPort_grant p)).1 h
  exact ⟨state, lines⟩

/-- The part with the closing write queued: nothing else was pending (R28, R35). -/
def Part.closes (p : Part) : Part := { p with reports := [(.base 32, 1)], closing := true }

theorem checkDisarmEnd_of_closing (h : p.closing = true) : p.checkDisarmEnd = p :=
  if_neg fun ends => by cases h.symm.trans ends.2.1

theorem arbitrate_of_ends (h : DisarmEnds p) : p.arbitrate = p.closes.grant.updateWait := by
  have closing : p.closes.grant.closing = true := grant_closing p.closes
  rw [Part.arbitrate, checkDisarmEnd_of_ends h]
  exact congrArg Part.updateWait (checkDisarmEnd_of_closing closing)

theorem arbitrate_of_grantEnds (h : ¬DisarmEnds p) (k : DisarmEnds p.grant) : p.arbitrate = p.grant.closes.updateWait := by
  rw [Part.arbitrate, checkDisarmEnd_of_not_ends h, checkDisarmEnd_of_ends k]
  rfl

theorem arbitrate_of_not_ends (h : ¬DisarmEnds p) (k : ¬DisarmEnds p.grant) : p.arbitrate = p.grant.updateWait := by
  rw [Part.arbitrate, checkDisarmEnd_of_not_ends h, checkDisarmEnd_of_not_ends k]

theorem arbitrate_closing_iff (p : Part) : p.arbitrate.closing = true ↔ p.closing = true ∨ DisarmEnds p ∨ DisarmEnds p.grant := by
  by_cases h : DisarmEnds p
  · rw [arbitrate_of_ends h]
    exact ⟨fun _ => .inr (.inl h), fun _ => grant_closing p.closes⟩
  · by_cases k : DisarmEnds p.grant
    · rw [arbitrate_of_grantEnds h k]
      exact ⟨fun _ => .inr (.inr k), fun _ => rfl⟩
    · rw [arbitrate_of_not_ends h k]
      change p.grant.closing = true ↔ _
      rw [grant_closing]
      exact ⟨.inl, fun e => e.elim id fun e => e.elim (absurd · h) (absurd · k)⟩

/-- An event leaves the port free only when nothing asks for it (R15). -/
theorem arbitrate_free_iff (p : Part) : p.arbitrate.port.serving = none ↔
    p.port.serving = none ∧ p.port.waiting = none ∧ p.internalRequest = none ∧ ¬DisarmEnds p := by
  have port : p.arbitrate.port = p.checkDisarmEnd.grant.port := port_checkDisarmEnd _
  rw [port, grant_free_iff]
  by_cases h : DisarmEnds p
  · rw [checkDisarmEnd_of_ends h]
    exact ⟨fun e => (nomatch e.2.2), fun e => absurd h e.2.2.2⟩
  · rw [checkDisarmEnd_of_not_ends h]
    simp only [h, not_false_eq_true, and_true]

theorem grant_allowance (p : Part) : p.grant.port.allowance = p.port.allowance := by
  rw [Part.grant]
  split
  · rfl
  · split
    · rfl
    · rfl
    · rfl
    · split <;> rfl

theorem arbitrate_allowance (p : Part) : p.arbitrate.port.allowance = p.port.allowance := by
  have port : p.arbitrate.port = p.checkDisarmEnd.grant.port := port_checkDisarmEnd _
  rw [port, grant_allowance, port_checkDisarmEnd]

/-- The wait output holds, and is asserted while an access waits or is held (R13). -/
theorem arbitrate_hostWait (p : Part) :
    p.arbitrate.hostWait = (p.hostWait || p.arbitrate.port.waiting.isSome || p.held.isSome) := by
  have check (q : Part) : q.checkDisarmEnd.hostWait = q.hostWait ∧ q.checkDisarmEnd.held = q.held := by
    rw [Part.checkDisarmEnd]
    split <;> exact ⟨rfl, rfl⟩
  have grant (q : Part) : q.grant.hostWait = q.hostWait ∧ q.grant.held = q.held := by
    rw [Part.grant]
    repeat' split
    all_goals exact ⟨rfl, rfl⟩
  change (p.checkDisarmEnd.grant.checkDisarmEnd.hostWait || _ || p.checkDisarmEnd.grant.checkDisarmEnd.held.isSome) = _
  rw [(check _).1, (check _).2, (grant _).1, (grant _).2, (check _).1, (check _).2]
  rfl

/-- Settles O19: the three forms of `arbitrate` by whether disarming is due to end before the grant, after it, or not. -/
theorem disarmCompletes : Obligations.DisarmCompletes := by
  refine ⟨fun p => ⟨fun h => ?_, fun h k => ?_, fun h k => ?_, arbitrate_closing_iff p, arbitrate_free_iff p⟩,
    fun p => ⟨?_, arbitrate_allowance p, fun awake => ?_, fun closing => ?_, arbitrate_hostWait p⟩, fun p state notClosing => ?_⟩
  · exact arbitrate_of_ends h
  · exact arbitrate_of_grantEnds h k
  · exact arbitrate_of_not_ends h k
  · exact (congrArg (fun q : Part =>
      { q with port := p.port, reports := p.reports, hostWait := p.hostWait, closing := p.closing }) (beyondPort_arbitrate p) :)
  · have notEnds : ¬DisarmEnds p ∧ ¬DisarmEnds p.grant := ⟨fun h => awake h.1, fun h => awake h.drained_of_grant.1⟩
    rw [arbitrate_of_not_ends notEnds.1 notEnds.2]
    exact grant_closing p
  · rcases (arbitrate_closing_iff p).1 closing with before | ends | ends
    · exact .inl before
    · exact .inr ends.drained
    · exact .inr ends.drained_of_grant
  · by_cases h : DisarmEnds p
    · rw [checkDisarmEnd_of_ends h]
      exact ⟨⟨fun _ => h.2.2, fun _ => rfl⟩, fun _ => rfl⟩
    · rw [checkDisarmEnd_of_not_ends h]
      refine ⟨⟨fun same => ?_, fun e => absurd ⟨state, notClosing, e⟩ h⟩, fun changed => absurd rfl changed⟩
      have closing : p.closing = true := (congrArg Part.closing same :)
      cases notClosing.symm.trans closing

/-! ### What the internal side presents (R14 to R16) -/

/-- The part reads its setup words (R25). -/
def Part.ReadsSetup (p : Part) : Prop := p.state = .arming ∧ p.setupCopy.length < 7

theorem otherRequest_setup (h : p.ReadsSetup) : p.otherRequest = some (.setupRead p.setupCopy.length) := if_pos h

theorem otherRequest_idle (h : ¬p.ReadsSetup) (flight : p.writer.flight = none) : p.otherRequest = none := by
  rw [Part.otherRequest, flight]
  exact if_neg h

theorem otherRequest_reclaim {job : TakenJob} {noted : Nat} {o : Bool} (h : ¬p.ReadsSetup)
    (flight : p.writer.flight = some ⟨i, .reclaimRead job noted o⟩) :
    p.otherRequest = some (.reclaimRead (p.ringAddr i (noted + 1))) := by
  rw [Part.otherRequest, flight]
  exact if_neg h

theorem otherRequest_walk {got : List Word} (h : ¬p.ReadsSetup) (flight : p.writer.flight = some ⟨i, .walkStep got none⟩) :
    p.otherRequest = some (.walkRead (p.walkAddr i got.length)) := by
  rw [Part.otherRequest, flight]
  exact if_neg h

theorem otherRequest_abandoned {got : List Word} {a : Addr} (h : ¬p.ReadsSetup)
    (flight : p.writer.flight = some ⟨i, .walkStep got (some a)⟩) : p.otherRequest = some (.walkRead a) := by
  rw [Part.otherRequest, flight]
  exact if_neg h

theorem otherRequest_record {w : Writing} {k : Nat} {d : Word} {rest : List (Nat × Word)} (h : ¬p.ReadsSetup)
    (flight : p.writer.flight = some ⟨i, .writing w⟩) (todo : w.todo = (k, d) :: rest) :
    p.otherRequest = some (.recordWord (p.ringAddr i k) d) := by
  unfold Part.otherRequest
  split
  · next reads => exact absurd reads h
  · simp only [flight, todo]

theorem ofNat_add_toNat (a : Addr) (k : Nat) : BitVec.ofNat 21 (a.toNat + k) = a + BitVec.ofNat 21 k := by
  rw [BitVec.ofNat_add, BitVec.ofNat_toNat, BitVec.setWidth_eq]

theorem baseWordAddr_eq (w : Nat) : baseWordAddr w = BitVec.ofNat 21 (0x1FFF00 + w) := (ofNat_add_toNat baseAddr w).symm

theorem walkAddr_records {run : WalkRun} (h : (p.line i).walk = some (.records run)) (n : Nat) :
    p.walkAddr i n = p.ringAddr i (run.pos + n) := by
  rw [Part.walkAddr, h]

theorem reportAddr_lcb {m : AddressMap} (h : p.map = some m) (i : LineNo) (w : Nat) :
    p.reportAddr (.lcb i w) = BitVec.ofNat 21 (m.regionBase.toNat + 64 * i.val + w) := by
  rw [Part.reportAddr, h, Nat.add_assoc, ofNat_add_toNat]
  rfl

theorem walkAddr_pointers {m : AddressMap} {n w : Nat} (h : (p.line i).walk = some .pointers) (map : p.map = some m)
    (word : [37, 38, 40, 41, 42][n]? = some w) :
    p.walkAddr i n = BitVec.ofNat 21 (m.regionBase.toNat + 64 * i.val + w) := by
  rw [Part.walkAddr, h, ← reportAddr_lcb map, List.getD_eq_getElem?_getD, word]
  rfl

/-! ### The grant (R15) -/

theorem grant_serving {x : Serving} (h : p.port.serving = some x) : p.grant = p := by rw [Part.grant, h]

theorem grant_idle (free : p.port.serving = none) (noHost : p.port.waiting = none) (none : p.internalRequest = none) :
    p.grant = p := by
  rw [Part.grant, free, noHost, none]

theorem grant_host {a : HostAccess} (free : p.port.serving = none) (host : p.port.waiting = some a)
    (none : p.internalRequest = none) : p.grant = p.grantHost a p.port.passOver := by
  rw [Part.grant, free, host, none]

theorem grant_passes {a : HostAccess} {x : Serving} (free : p.port.serving = none) (host : p.port.waiting = some a)
    (asks : p.internalRequest = some x) (burst : p.port.passOver < p.port.allowance) :
    p.grant = p.grantHost a (p.port.passOver + 1) := by
  rw [Part.grant, free, host, asks]
  exact if_pos burst

theorem grant_internal {x : Serving} (free : p.port.serving = none) (asks : p.internalRequest = some x)
    (turn : p.port.waiting = none ∨ p.port.passOver = p.port.allowance) : p.grant = p.grantInternal x := by
  rw [Part.grant, free, asks]
  cases host : p.port.waiting with
  | none => rfl
  | some a =>
    have even : p.port.passOver = p.port.allowance := turn.resolve_left (by rw [host]; exact nofun)
    exact if_neg (by rw [even]; exact lt_irrefl _)

/-- What the grant of the internal side takes: the oldest pending word, or nothing of the pending set. -/
theorem grantInternal_takes {x : Serving} (asks : p.internalRequest = some x) :
    (∀ w v k, p.reports = (w, v) :: k → x = .report w (p.reportAddr w) v ∧ (p.grantInternal x).reports = k) ∧
      (p.reports = [] → (p.grantInternal x).reports = [] ∧ p.otherRequest = some x) := by
  rw [Part.internalRequest] at asks
  refine ⟨fun w v k pending => ?_, fun empty => ?_⟩
  · rw [pending] at asks
    cases asks
    exact ⟨rfl, congrArg List.tail pending⟩
  · rw [empty] at asks
    refine ⟨?_, asks⟩
    cases x with
    | report => exact congrArg List.tail empty
    | _ => exact empty

/-- Settles O18: what each requester presents, what an access does to the bank, and the grant by what asks for the port. -/
theorem portArbitration : Obligations.PortArbitration := by
  refine ⟨?_, fun m a w n d => ⟨?_, rfl, rfl, rfl, rfl⟩, fun p => ⟨fun x => grant_serving, grant_idle, fun a => grant_host,
    fun a x => grant_passes, fun x free asks turn => ?_⟩⟩
  · rintro p other rfl
    refine ⟨otherRequest_setup, otherRequest_idle, fun i job noted o => otherRequest_reclaim, fun i got a => otherRequest_abandoned,
      fun i got run none flight walk => ?_, fun i got m w none flight walk map word => ?_, fun i w k d rest => otherRequest_record,
      fun w => ?_, fun m i w map => reportAddr_lcb map i w⟩
    · rw [otherRequest_walk none flight, walkAddr_records walk]
      rfl
    · rw [otherRequest_walk none flight, walkAddr_pointers walk map word]
    · exact baseWordAddr_eq w
  · rw [← baseWordAddr_eq]
    rfl
  · exact ⟨(p.grantInternal x).reports, grant_internal free asks turn, grantInternal_takes asks⟩

/-! ### The pending set (R17) -/

theorem queueUpdate_absent (w : ReportWord) (v : Word) {r : List (ReportWord × Word)} (h : ∀ u, (w, u) ∉ r) :
    queueUpdate w v r = r ++ [(w, v)] := by
  induction r with
  | nil => rfl
  | cons x rest ih =>
    obtain ⟨k, u⟩ := x
    have other : k ≠ w := fun e => h u (e ▸ List.mem_cons_self)
    rw [queueUpdate, if_neg other, ih fun u pending => h u (List.mem_cons_of_mem _ pending)]
    rfl

theorem queueUpdate_pending (w : ReportWord) (u v : Word) (k : List (ReportWord × Word)) {l : List (ReportWord × Word)}
    (h : ∀ x, (w, x) ∉ l) : queueUpdate w v (l ++ (w, u) :: k) = l ++ (w, v) :: k := by
  induction l with
  | nil => exact if_pos rfl
  | cons y rest ih =>
    obtain ⟨j, x⟩ := y
    have other : j ≠ w := fun e => h x (e ▸ List.mem_cons_self)
    rw [List.cons_append, queueUpdate, if_neg other, ih fun x pending => h x (List.mem_cons_of_mem _ pending)]
    rfl

theorem exec_reportWriteComplete {w : ReportWord} {a : Addr} {v : Word} (noReset : s.part.resetPending = false)
    (serving : s.part.port.serving = some (.report w a v)) (plain : s.part.servesClosing = false) :
    exec .reportWriteComplete s =
      .next { s with part := s.part.freePort.arbitrate, mem := Memory.writeLanes s.mem a .both v } := by
  change execReportWriteComplete s = _
  unfold execReportWriteComplete
  simp only [serving, plain, Bool.false_eq_true, if_false, State.complete, Part.completed, noReset]
  rfl

/-! ### The words of the reports (11.2, 11.3, 11.6) -/

/-- The value of a flag at bit `n`. -/
def bitValue (b : Bool) (n : Nat) : Nat := if b then 2 ^ n else 0

theorem stateWord_toNat (x : LineState) (a b c d : Bool) :
    (x.code ||| bitIf a 4 ||| bitIf b 5 ||| bitIf c 8 ||| bitIf d 9).toNat =
      (match x with | .off => 0 | .listen => 1 | .drive => 3 | .settle => 4 | .drain => 5 | .release => 6) +
        bitValue a 4 + bitValue b 5 + bitValue c 8 + bitValue d 9 := by
  revert a b c d
  cases x <;> decide

theorem conditions_toNat (a b c d : Bool) :
    (bitIf a 0 ||| bitIf b 1 ||| bitIf c 2 ||| bitIf d 3).toNat = bitValue a 0 + bitValue b 1 + bitValue c 2 + bitValue d 3 := by
  revert a b c d
  decide

/-- Two fields of a word that do not overlap add up. -/
theorem or_shiftLeft_toNat (low high : Word) (k : Nat) (fits : low.toNat < 2 ^ k) (room : high.toNat * 2 ^ k < 65536) :
    (low ||| (high <<< k)).toNat = low.toNat + high.toNat * 2 ^ k := by
  rw [BitVec.toNat_or, BitVec.toNat_shiftLeft, Nat.shiftLeft_eq, Nat.mod_eq_of_lt room, Nat.or_comm, Nat.mul_comm,
    ← Nat.two_pow_add_eq_or_of_lt fits, Nat.add_comm]

/-- The code of a request's outcome as a number (11.3). -/
def RequestOutcome.number : RequestOutcome → Nat
  | .none => 0
  | .accepted => 1
  | .done => 2
  | .refusedState => 3
  | .refusedBusy => 4
  | .refusedHeld => 5
  | .badSettings => 6
  | .unknown => 7

theorem RequestOutcome.code_toNat (o : RequestOutcome) : o.code.toNat = o.number ∧ o.number < 8 := by
  cases o <;> decide

theorem byte_toNat_zeroExtend (b : Byte) : (b.zeroExtend 16).toNat = b.toNat :=
  BitVec.toNat_setWidth_of_le (by decide)

theorem commandStatus_toNat (m : CommandStatus) : m.toWord.toNat = m.command.toNat + 256 * m.outcome.number := by
  obtain ⟨code, small⟩ := m.outcome.code_toNat
  have byte : m.command.toNat < 256 := m.command.isLt
  rw [CommandStatus.toWord, or_shiftLeft_toNat _ _ 8 (by rwa [byte_toNat_zeroExtend]) (by omega), byte_toNat_zeroExtend, code]
  omega

theorem modeStatus_toNat (m : ModeStatus) (short : m.offset < 32) :
    m.toWord.toNat = m.request.toNat + 256 * m.outcome.number + 2048 * m.offset := by
  obtain ⟨code, small⟩ := m.outcome.code_toNat
  have byte : m.request.toNat < 256 := m.request.isLt
  have offset : (word m.offset).toNat = m.offset := by rw [word, BitVec.toNat_ofNat, Nat.mod_eq_of_lt (by omega)]
  have low : (m.request.zeroExtend 16 ||| (m.outcome.code <<< 8)).toNat = m.request.toNat + 256 * m.outcome.number := by
    rw [or_shiftLeft_toNat _ _ 8 (by rwa [byte_toNat_zeroExtend]) (by omega), byte_toNat_zeroExtend, code]
    omega
  rw [ModeStatus.toWord, or_shiftLeft_toNat _ _ 11 (by omega) (by omega), low, offset]
  omega

/-- The code of a probe's result as a number (11.3). -/
def ProbeResult.number : ProbeResult → Nat
  | .found => 1
  | .tooFew => 2
  | .noMatch => 3
  | .abandoned => 4

theorem probeResult_toNat (r : ProbeResult) (k : Nat) (h : k < 16) : (r.toWord k).toNat = k + 256 * r.number := by
  have index : (word k).toNat = k := by rw [word, BitVec.toNat_ofNat, Nat.mod_eq_of_lt (by omega)]
  have code : r.code.toNat = r.number ∧ r.number < 5 := by cases r <;> decide
  rw [ProbeResult.toWord, or_shiftLeft_toNat _ _ 8 (by omega) (by omega), index, code.1]
  omega

theorem ring_reports {l : Line} {x : Ring} (h : l.ring = .present x) :
    [37, 38, 39, 40, 41, 42].map l.report = [word x.w, word x.r, word x.count, x.nextSeq, padWord x.padStart, word x.occupied] := by
  simp [Line.report, Ring.report, h]

/-- A counter's word is its place after word 46 (R56). -/
theorem report_counter (l : Line) (c : Counter) : l.report (46 + c.index.val) = l.counter c := by
  cases c <;> simp [Line.report, Line.counter, Counter.index]

theorem reports_counters (l : Line) (cs : List Counter) : (cs.map fun c => 46 + c.index.val).map l.report = cs.map l.counter := by
  rw [List.map_map]
  exact List.map_congr_left fun c _ => report_counter l c

theorem addr_low_toNat (a : Addr) : (a.truncate 16 : Word).toNat = a.toNat % 65536 := BitVec.toNat_setWidth ..

theorem addr_high_toNat (a : Addr) : ((a >>> 16).truncate 16 : Word).toNat = a.toNat / 65536 := by
  have small : a.toNat / 65536 < 65536 := by have := a.isLt; omega
  rw [BitVec.truncate_eq_setWidth, BitVec.toNat_setWidth, BitVec.toNat_ushiftRight, Nat.shiftRight_eq_div_pow]
  exact Nat.mod_eq_of_lt small

/-- Settles O20: the pending set as a list of keys, the completion of a report write, and each report word as a sum of its
fields. -/
theorem reportQueue : Obligations.ReportQueue := by
  refine ⟨fun w v r => ⟨queueUpdate_absent w v, ?_, nodup_queueUpdate w v r⟩, ?_, fun l => ?_, fun p => ?_⟩
  · rintro l k u rfl absent
    exact queueUpdate_pending w u v k absent
  · intro s w a v canonical noReset serving plain
    exact ⟨_, exec_reportWriteComplete noReset serving plain, readWord_writeLanes_both a v canonical, fun b other =>
      readWord_writeLanes_ne s.mem a b .both v other⟩
  · refine ⟨stateWord_toNat _ _ _ _ _, modeStatus_toNat _, commandStatus_toNat _, rfl, conditions_toNat _ _ _ _, fun x ring => ?_,
      rfl, rfl, rfl, probeResult_toNat, ?_, byte_toNat_zeroExtend _⟩
    · exact ring_reports ring
    · exact reports_counters l
        [.overrunBytes, .recordsDiscarded, .recordsReclaimed, .bytesSent, .entriesLost, .entriesRefused, .breaksRefused]
  · refine ⟨?_, ?_, rfl, rfl, rfl, addr_high_toNat _, addr_low_toNat _, ?_⟩
    · change p.state.code.toNat = _
      cases p.state <;> rfl
    · change p.resetCause.code.toNat = _
      cases p.resetCause <;> rfl
    · change p.blocked.reason.code.toNat = _
      cases p.blocked.reason <;> rfl

end Sys2Proof.Machine

/-! PROOFS. The paths of a host access: arrival, the wait for its turn, blocked and forwarded accesses, completion (R1 to
R13, R19). -/

namespace Sys2Proof.Machine

variable {i : LineNo} {p q r : Part} {s t : State}

/-! ### An access that meets another under way (R1) -/

theorem host_busy (h : s.part.busBusy = true) (a : HostAccess) : s.host a = .next s := by
  rw [State.host, Part.hostIssues, if_pos h]

theorem hostIf_busy {c : Prop} [Decidable c] (h : s.part.busBusy = true) (a : HostAccess) :
    (if c then s.host a else .next s) = .next s := by
  rw [host_busy h, ite_self]

theorem lcbHost_busy (h : s.part.busBusy = true) (i : LineNo) (w : Fin 22) (lanes : Lanes) (d : Word) (ok : Word → Bool) :
    s.lcbHost i w lanes d ok = .next s := hostIf_busy h _

theorem together_busy (h : s.part.busBusy = true) (a : HostAccess) :
    exec (.hostAccessComplete (.arrivesTogether a)) s = .next s := by
  change Host.Outcome.next { s with part := if s.part.busBusy then s.part else s.part.hostArrives a } = _
  rw [if_pos h]

theorem settingsWrite_busy (h : s.part.busBusy = true) (i : LineNo) (k : Fin 22) (lanes : Lanes) (d : Word) :
    exec (.settingsWrite i k lanes d) s = .next s := by
  change (if plainSettingsWord k then s.lcbHost i k lanes d anyValue else .next s) = _
  rw [lcbHost_busy h, ite_self]

/-- Settles O21: the commands in the order of the statement, each a host access of the base block, a line's LCB or its window. -/
theorem hostWaitsItsTurn : Obligations.HostWaitsItsTurn := by
  intro s busy i w k lanes a d
  have host := host_busy busy
  have lcb := lcbHost_busy busy
  simp only [List.cons_append, List.nil_append, List.forall_mem_cons, List.not_mem_nil, false_imp_iff, implies_true, and_true]
  dsimp only [exec, execModeRequestOff, execModeRequestListen, execModeRequestListenResume, execModeRequestDrive,
    execModeRequestUnknown, execClose, execFlush, execProbe, execProbeApply, execDiscardTx, execResetCounts, execCommandUnknown]
  exact ⟨host _, host _, host _, host _, host _, host _, host _, host _, host _, together_busy busy a, hostIf_busy busy _,
    lcb .., lcb .., lcb .., lcb .., lcb .., lcb .., lcb .., lcb .., lcb .., lcb .., lcb .., lcb ..,
    lcb i 2 lanes d _, settingsWrite_busy busy i k lanes d, lcb i 3 lanes d _, lcb i 4 lanes d _, lcb i 5 lanes d _,
    lcb i 6 lanes d _, lcb i 15 lanes d _, lcb i 16 lanes d _, lcb i 18 lanes d _, lcb i 21 lanes d _,
    hostIf_busy busy _, hostIf_busy busy _⟩

/-! ### Blocked writes (R4, R5, R7, R10) -/

theorem arrives_blocked {addr : Addr} {lanes : Lanes} {d : Word} {reason : BlockedReason}
    (h : p.writeBlocked addr lanes d = some reason) : p.hostArrives ⟨addr, .write lanes d⟩ = p.recordBlocked addr reason := by
  change p.writeArrives addr lanes d = _
  rw [Part.writeArrives, h]

/-- The record of a blocked write: the five words are queued with the values that they then have. -/
theorem recordBlocked_eq (p : Part) (addr : Addr) (reason : BlockedReason) :
    p.recordBlocked addr reason =
      { p with
        blocked := ⟨satAdd p.blocked.count 1, addr, reason, true⟩
        reports :=
          queueAll (BlockedRecord.updates ⟨satAdd p.blocked.count 1, addr, reason, true⟩ ++
            [(.base 37, Part.summaryFlags { p with blocked := ⟨satAdd p.blocked.count 1, addr, reason, true⟩ })]) p.reports } := by
  rw [Part.recordBlocked, queueBases_eq]
  rfl

/-- Settles O14: the arrival of a write that the present state blocks. -/
theorem blockedWriteRecorded : Obligations.BlockedWriteRecorded := by
  intro s addr lanes d reason ready blocked
  have arrived := (host_ready ready ⟨addr, .write lanes d⟩).trans (congrArg (answers s) (arrives_blocked blocked))
  refine ⟨s.part.recordBlocked addr reason, ?_, arrived, ?_⟩
  · change (if (s.part.writeBlocked addr lanes d).isSome then s.host ⟨addr, .write lanes d⟩ else .next s) = _
    rw [blocked]
    exact arrived
  · rw [recordBlocked_eq]
    exact ⟨rfl, rfl, rfl⟩

theorem writeBlocked_base (awake : p.state ≠ .dormant) {w : Nat} (hw : w < 255) (lanes : Lanes) (d : Word) :
    p.writeBlocked (baseWordAddr w) lanes d =
      if w ≤ 6 then some .setupLocked else if 32 ≤ w ∧ w ≤ 47 then some .reportWord else none := by
  rw [Part.writeBlocked, decode_base p w hw, if_neg awake]

theorem writeBlocked_lcb (has : p.hasLine i = true) (sound : p.MapSound) {w : Nat} (hw : w < 64) (lanes : Lanes) (d : Word) :
    p.writeBlocked (lcbAddr p.regionBase i w) lanes d = p.lcbBlocked i w lanes d := by
  rw [Part.writeBlocked, decode_lcb p i w hw has sound]

/-- A word of an LCB that is no settings word is blocked in the report half alone (R5). -/
theorem lcbBlocked_of_noSetting {w : Nat} (h : w < 3 ∨ 22 ≤ w) (lanes : Lanes) (d : Word) :
    p.lcbBlocked i w lanes d = if 32 ≤ w ∧ w ≤ 55 then some .reportWord else none := by
  have none : settingWord w = none := by
    rw [settingWord]
    split
    · exact if_neg (by omega)
    · rfl
  rw [Part.lcbBlocked, none]

theorem writeBlocked_plain {a : Addr} (h : p.decode a = .plain) (lanes : Lanes) (d : Word) : p.writeBlocked a lanes d = none := by
  rw [Part.writeBlocked, h]

/-- An address of a protected ring below the base block and outside the console region decodes to a ring (R7). -/
theorem decode_ring {a : Addr} (prot : p.isProtected i = true) (low : (p.line i).ringBase ≤ a.toNat)
    (high : a.toNat < (p.line i).ringBase + (p.line i).ringSize) (below : a.toNat < 0x1FFF00)
    (outside : a.toNat < p.regionBase.toNat ∨ p.regionBase.toNat + 2560 ≤ a.toNat) : ∃ j k, p.decode a = .ring j k := by
  have notGate : a ≠ gateAddr := fun e => by
    rw [e, gateAddr_toNat] at below
    omega
  have notBase : ¬baseAddr ≤ a := by
    rw [BitVec.le_def, baseAddr_toNat]
    omega
  have has : p.hasLine i = true := (Bool.and_eq_true_iff.1 prot).1
  obtain ⟨m, map⟩ := map_of_hasLine has
  rw [regionBase_of_map map] at outside
  have inRing : p.inRing a i = true := by
    rw [Part.inRing, prot, decide_eq_true low, decide_eq_true high]
    rfl
  rw [Part.decode, if_neg notGate, if_neg notBase, map]
  dsimp only
  rw [if_neg (by omega), Part.decodeRing]
  split
  · next j _ => exact ⟨j, _, rfl⟩
  · next none => exact absurd inRing (List.find?_eq_none.1 none i (List.mem_finRange i))

/-- Settles O15: each class of addresses by its decode. -/
theorem blockedClasses : Obligations.BlockedClasses := by
  intro p lanes d sound
  refine ⟨fun dormant noMap a => ?_, ?_, fun w hw awake => writeBlocked_base awake hw lanes d, fun i w has hw => ?_,
    fun i w has hw => ?_, fun i a prot low high below outside => ?_⟩
  · rcases decode_dormant dormant noMap a with gate | plain
    · rw [Part.writeBlocked, gate]
    · exact writeBlocked_plain plain lanes d
  · rw [Part.writeBlocked, decode_gate]
  · rw [writeBlocked_lcb has sound hw]
    refine ⟨fun report => ?_, fun other => ?_⟩
    · rw [lcbBlocked_of_noSetting (.inr (by omega)), if_pos report]
    · rw [lcbBlocked_of_noSetting (by omega), if_neg (by omega)]
  · rw [Part.writeBlocked, decode_window p i w hw has sound]
  · obtain ⟨j, k, ring⟩ := decode_ring prot low high below outside
    rw [Part.writeBlocked, ring]

/-! ### Forwarded accesses (R1, R8) -/

/-- What the two arrivals of an access make of the state, when it is forwarded. -/
theorem exec_forwarded {a : HostAccess} (ready : Ready s) (h : s.part.hostArrives a = s.part.forward a) :
    exec (.hostAccessComplete (.arrives a)) s = answers s (s.part.forward a) ∧
      exec (.hostAccessComplete (.arrivesTogether a)) s = .next { s with part := s.part.forward a } := by
  refine ⟨(host_ready ready a).trans (congrArg (answers s) h), ?_⟩
  change Host.Outcome.next { s with part := s.part.hostFollows (some a) } = _
  rw [hostFollows_free ready, h]

theorem arrives_plain {addr : Addr} {op : AccessOp} (h : p.decode addr = .plain) :
    p.hostArrives ⟨addr, op⟩ = p.forward ⟨addr, op⟩ := by
  cases op with
  | read =>
    change p.readArrives addr = _
    rw [Part.readArrives, h]
  | write lanes d =>
    change p.writeArrives addr lanes d = _
    rw [Part.writeArrives, writeBlocked_plain h, h]

/-- Every read but those of the windows and, in force, of words 46 and 47 is forwarded (R6, R39). -/
theorem arrives_read {addr : Addr} (noWindow : ∀ i, p.decode addr ≠ .window i)
    (noStamp : p.state.inForce = true → addr ≠ baseWordAddr 46 ∧ addr ≠ baseWordAddr 47) :
    p.hostArrives ⟨addr, .read⟩ = p.forward ⟨addr, .read⟩ := by
  change p.readArrives addr = _
  rw [Part.readArrives]
  split
  · next i window => exact absurd window (noWindow i)
  · next w base =>
    have addrIs := decode_base_eq p addr w base
    split
    · next high =>
      obtain ⟨rfl, inForce⟩ := high
      exact absurd addrIs (noStamp inForce).1
    · split
      · next low =>
        obtain ⟨rfl, inForce⟩ := low
        exact absurd addrIs (noStamp inForce).2
      · rfl
  · rfl

theorem arrives_gate (p : Part) (lanes : Lanes) (d : Word) :
    p.hostArrives ⟨gateAddr, .write lanes d⟩ = (p.gateEvent lanes d).forward ⟨gateAddr, .write lanes d⟩ := by
  change p.writeArrives gateAddr lanes d = _
  rw [Part.writeArrives, Part.writeBlocked, decode_gate]

/-- A word of the base block that is none of the control words 16 to 19 is plain (R4). -/
theorem baseWrite_plain {w : Nat} (h : w < 16 ∨ 19 < w) (lanes : Lanes) (d : Word) (a : HostAccess) :
    p.baseWrite w lanes d a = p.forward a := by
  have control (n : Nat) (k : 16 ≤ n ∧ n ≤ 19) : w ≠ n := by omega
  simp [Part.baseWrite, control]

theorem forceWord_other {v : Word} (h : v ≠ 0xF0F0) (k : v ≠ 0x0F0F) : p.forceWord v = p := by
  rw [Part.forceWord, if_neg h, if_neg k]

theorem disarmWord_other {v : Word} (h : v ≠ 0x2D71) : p.disarmWord v = p := if_neg h

/-- A write to word 17 that arrives: a full-word write in "ARMED" is a force word; every write is forwarded (R31). -/
theorem arrives_force (p : Part) (lanes : Lanes) (d : Word) : p.hostArrives (baseWriteTo 17 lanes d) =
    (if lanes = .both ∧ p.state = .armed then p.forceWord d else p).forward (baseWriteTo 17 lanes d) := by
  rw [arrives_base p 17 (by omega) (by omega) (by omega)]
  by_cases armed : p.state = .armed
  · by_cases both : lanes = .both <;> simp [Part.baseWrite, armed, both]
  · by_cases both : lanes = .both <;> simp [Part.baseWrite, armed, both]

/-- A write to word 18 that arrives: a full-word write in "ARMED" is a disarm word; every write is forwarded (R34). -/
theorem arrives_disarm (p : Part) (lanes : Lanes) (d : Word) : p.hostArrives (baseWriteTo 18 lanes d) =
    (if lanes = .both ∧ p.state = .armed then p.disarmWord d else p).forward (baseWriteTo 18 lanes d) := by
  rw [arrives_base p 18 (by omega) (by omega) (by omega)]
  by_cases armed : p.state = .armed
  · by_cases both : lanes = .both <;> simp [Part.baseWrite, armed, both]
  · by_cases both : lanes = .both <;> simp [Part.baseWrite, armed, both]

/-- A control word written on one lane, outside its part state, or with a value that is none of its own, is forwarded alone. -/
theorem forward_of_ite {c : Prop} [Decidable c] {a : HostAccess} (h : c → q = p) :
    (if c then q else p).forward a = p.forward a := by
  split
  · next holds => rw [h holds]
  · rfl

/-- The writes to the base block that R4 leaves plain, and those to a control word that are none of its own (R30 to R34). -/
theorem arrives_baseForwarded {w : Nat} {lanes : Lanes} {d : Word} (hw : w < 255)
    (h : 7 ≤ w ∧ w ≤ 15 ∨ 20 ≤ w ∧ w ≤ 31 ∨ 48 ≤ w ∨
      w = 16 ∧ (lanes ≠ .both ∨ ¬p.state.inForce = true ∨ d ≠ 0 ∧ d ≠ 1) ∨
      w = 17 ∧ (lanes ≠ .both ∨ p.state ≠ .armed ∨ d ≠ 0xF0F0 ∧ d ≠ 0x0F0F) ∨
      w = 18 ∧ (lanes ≠ .both ∨ p.state ≠ .armed ∨ d ≠ 0x2D71) ∨ w = 19 ∧ ¬p.state.inForce = true) :
    p.hostArrives (baseWriteTo w lanes d) = p.forward (baseWriteTo w lanes d) := by
  have plain (k : w < 16 ∨ 19 < w) (report : w < 32 ∨ 47 < w) (six : 6 < w) :
      p.hostArrives (baseWriteTo w lanes d) = p.forward (baseWriteTo w lanes d) := by
    rw [arrives_base p w hw six report, baseWrite_plain k, ite_self]
  rcases h with h | h | h | ⟨rfl, h⟩ | ⟨rfl, h⟩ | ⟨rfl, h⟩ | ⟨rfl, h⟩
  · exact plain (by omega) (by omega) (by omega)
  · exact plain (by omega) (by omega) (by omega)
  · exact plain (by omega) (by omega) (by omega)
  · rw [arrives_attentionEnable]
    refine forward_of_ite fun ⟨both, inForce⟩ => ?_
    obtain ⟨zero, one⟩ := (h.resolve_left (not_not.2 both)).resolve_left (not_not.2 inForce)
    exact setAttentionEnable_other p zero one
  · rw [arrives_force]
    refine forward_of_ite fun ⟨both, armed⟩ => ?_
    obtain ⟨set, clear⟩ := (h.resolve_left (not_not.2 both)).resolve_left (not_not.2 armed)
    exact forceWord_other set clear
  · rw [arrives_disarm]
    refine forward_of_ite fun ⟨both, armed⟩ => ?_
    exact disarmWord_other ((h.resolve_left (not_not.2 both)).resolve_left (not_not.2 armed))
  · rw [arrives_baseAcknowledge, if_neg h]

/-- A write to an LCB word that is neither a request, a setting nor a report word is plain (R5). -/
theorem arrives_lcbPlain (has : p.hasLine i = true) (sound : p.MapSound) {w : Nat} (h : 22 ≤ w ∧ w ≤ 31 ∨ 56 ≤ w ∧ w ≤ 63)
    (lanes : Lanes) (d : Word) : p.hostArrives ⟨lcbAddr p.regionBase i w, .write lanes d⟩ =
      p.forward ⟨lcbAddr p.regionBase i w, .write lanes d⟩ := by
  have notReport : ¬(32 ≤ w ∧ w ≤ 55) := by omega
  have none : settingWord w = none := dif_neg (by omega)
  change p.writeArrives _ lanes d = _
  rw [Part.writeArrives, writeBlocked_lcb has sound (by omega), lcbBlocked_of_noSetting (.inr (by omega)), if_neg notReport,
    decode_lcb p i w (by omega) has sound]
  dsimp only
  rw [Part.lcbWrite, if_neg (by omega), if_neg (by omega), if_neg (by omega), none]

/-- The port serves and queues nothing of the host while no host access is under way. -/
theorem port_of_free (h : p.busBusy = false) : (∀ a, p.port.serving ≠ some (.host a)) ∧ p.port.waiting = none ∧ p.held = none := by
  rw [Part.busBusy, Bool.or_eq_false_iff, Bool.or_eq_false_iff] at h
  obtain ⟨⟨serving, waiting⟩, held⟩ := h
  refine ⟨fun a e => ?_, Option.isSome_eq_false_iff.1 waiting |> Option.isNone_iff_eq_none.1,
    Option.isSome_eq_false_iff.1 held |> Option.isNone_iff_eq_none.1⟩
  rw [e] at serving
  cases serving

theorem serving_none_of (noHost : ∀ a, p.port.serving ≠ some (.host a)) (noInternal : p.servesInternal = false) :
    p.port.serving = none := by
  rw [Part.servesInternal] at noInternal
  split at noInternal
  · next none => exact none
  · next a host => exact absurd host (noHost a)
  · cases noInternal

/-- In "DORMANT" a forwarded access is served at once (R19). -/
theorem arbitrate_dormant {a : HostAccess} (dormant : p.state = .dormant) (sleeps : p.Sleeps) (free : p.busBusy = false)
    (noWait : p.hostWait = false) :
    (p.forward a).arbitrate = { p with port := { p.port with serving := some (.host a) } } := by
  obtain ⟨noHost, noneWaits, notHeld⟩ := port_of_free free
  have idle : p.port.serving = none := serving_none_of noHost sleeps.internal
  have awake {q : Part} (e : q.state = p.state) : q.state ≠ .disarming := by
    rw [e, dormant]
    exact nofun
  have noRequest : (p.forward a).internalRequest = none := (sleeps.rests (q := p.forward a) rfl ⟨rfl, rfl, rfl⟩).noRequest dormant
  have granted : (p.forward a).grant = (p.forward a).grantHost a p.port.passOver := grant_host idle rfl noRequest
  rw [Part.arbitrate, checkDisarmEnd_of_state (p := p.forward a) (awake rfl), granted,
    checkDisarmEnd_of_state (p := (p.forward a).grantHost a p.port.passOver) (awake rfl)]
  simp only [Part.updateWait, Part.grantHost, Part.forward, noWait, noneWaits, notHeld, Option.isSome_none, Bool.or_false]

theorem decode_dormant_ne (dormant : p.state = .dormant) (noMap : p.map = none) {a : Addr} (h : a ≠ gateAddr) :
    p.decode a = .plain := by
  rw [Part.decode, if_neg h, noMap]
  split
  all_goals rfl

/-- Settles O16: in "DORMANT" by the arrival there, elsewhere by the decode of the address. -/
theorem accessesForwarded : Obligations.AccessesForwarded := by
  refine ⟨fun s a ready dormant asleep noWait other => ?_, fun s a lanes d ready sound => ⟨fun windows stamps => ?_,
    fun e awake => ?_, fun below region rings => ?_, fun w hw e h => ?_, fun i w has e h => ?_, fun m i w map absent h => ?_⟩⟩
  · obtain ⟨reports, writer, internal, map, closing, line⟩ := asleep dormant
    have sleeps : s.part.Sleeps := ⟨reports, writer, internal, map, closing, line⟩
    have arrived : s.part.hostArrives a = s.part.forward a := by
      obtain ⟨addr, op⟩ := a
      cases op with
      | read =>
        refine arrives_read (fun i window => ?_) fun inForce => ?_
        · rcases decode_dormant dormant map addr with e | e <;> cases e.symm.trans window
        · rw [dormant] at inForce
          cases inForce
      | write lanes d => exact arrives_plain (decode_dormant_ne dormant map (other.resolve_right nofun))
    rw [(exec_forwarded ready arrived).1, answers, arbitrate_dormant dormant sleeps ready noWait]
  · refine exec_forwarded ready (arrives_read (fun i window => ?_) fun inForce => stamps ((inForce_iff _).1 inForce))
    obtain ⟨has, w, hw, e⟩ := window_of_decode s.part a i window sound
    exact windows i w has hw e
  · refine exec_forwarded ready ?_
    rw [e, arrives_gate, Part.gateEvent, if_neg fun h => awake h.1]
  · exact exec_forwarded ready (arrives_plain (decode_plain s.part a below region rings))
  · refine exec_forwarded ready ?_
    rw [← inForce_iff] at h
    rw [e]
    exact arrives_baseForwarded hw h
  · refine exec_forwarded ready ?_
    rw [e]
    exact arrives_lcbPlain has sound h lanes d
  · exact exec_forwarded ready (arrives_plain (decode_absent s.part m map sound i w absent a h))

/-! ### Completions (R11 to R13) -/

/-- What a write of lanes leaves of the bank (R1). -/
theorem readByte_writeLanes (m : Memory) (a : Addr) (lanes : Lanes) (d : Word) (canonical : Memory.wf m = true) :
    (∀ k, (k = lowCell a ∧ lanes ≠ .high ∨ k = highCell a ∧ lanes ≠ .low) ∨
      (Memory.writeLanes m a lanes d).readByte k = m.readByte k) ∧
    (lanes ≠ .high → (Memory.writeLanes m a lanes d).readByte (lowCell a) = loByte d) ∧
    (lanes ≠ .low → (Memory.writeLanes m a lanes d).readByte (highCell a) = hiByte d) := by
  have cells : lowCell a ≠ highCell a := by
    rw [lowCell, highCell]
    omega
  cases lanes with
  | low =>
    refine ⟨fun k => ?_, fun _ => readByte_writeByte _ _ canonical, fun h => absurd rfl h⟩
    by_cases e : k = lowCell a
    · exact .inl (.inl ⟨e, nofun⟩)
    · exact .inr (readByte_writeByte_ne _ _ _ _ e)
  | high =>
    refine ⟨fun k => ?_, fun h => absurd rfl h, fun _ => readByte_writeByte _ _ canonical⟩
    by_cases e : k = highCell a
    · exact .inl (.inr ⟨e, nofun⟩)
    · exact .inr (readByte_writeByte_ne _ _ _ _ e)
  | both =>
    refine ⟨fun k => ?_, fun _ => ?_, fun _ => readByte_writeByte _ _ (writeByte_wf _ _ canonical)⟩
    · by_cases low : k = lowCell a
      · exact .inl (.inl ⟨low, nofun⟩)
      · by_cases high : k = highCell a
        · exact .inl (.inr ⟨high, nofun⟩)
        · exact .inr ((readByte_writeByte_ne _ _ _ _ high).trans (readByte_writeByte_ne _ _ _ _ low))
    · exact (readByte_writeByte_ne _ _ _ _ cells).trans (readByte_writeByte _ _ canonical)

theorem completeHost_eq {a : HostAccess} (serving : s.part.port.serving = some (.host a)) (following : Option HostAccess) :
    s.completeHost following =
      { s with
        part := ((s.part.freePort.hostCompletes a (Memory.access s.mem (.host a)).2).hostFollows following).arbitrate
        mem := (Memory.access s.mem (.host a)).1 } := by
  have served : s.part.servedHost = some a := by rw [Part.servedHost, serving]
  rw [State.completeHost, served]

theorem free_of (idle : p.port.serving = none) (noneWaits : p.port.waiting = none) (notHeld : p.held = none) :
    p.busBusy = false := by
  rw [Part.busBusy, idle, noneWaits, notHeld]
  rfl

/-- A read of neither a live ring's word nor a probe result is not snooped (R12). -/
theorem snoop_none {a : Addr} (noRing : ∀ i k, p.decode a ≠ .ring i k) (noProbe : ∀ i, p.decode a ≠ .lcb i 45) (d : Word) :
    p.snoop a d = p := by
  rw [Part.snoop]
  split
  · next i k ring => exact absurd ring (noRing i k)
  · next i w lcb =>
    refine if_neg fun e => ?_
    rw [e] at lcb
    exact noProbe i lcb
  · rfl

/-- A completion leaves the state `t` and one grant; the host's next access meets `t` where no other waits (R15). -/
theorem completes_leaves {a : HostAccess} (serving : s.part.port.serving = some (.host a)) (t : State)
    (part : t.part = s.part.freePort.hostCompletes a (Memory.access s.mem (.host a)).2)
    (mem : t.mem = (Memory.access s.mem (.host a)).1) (pending : t.pending = s.pending)
    (free : s.part.port.waiting = none → s.part.held = none → t.part.busBusy = false) :
    exec (.hostAccessComplete (.completes none)) s = answers t t.part ∧
      ∀ b, s.part.port.waiting = none → s.part.held = none →
        exec (.hostAccessComplete (.completes (some b))) s = exec (.hostAccessComplete (.arrives b)) t := by
  refine ⟨?_, fun b noneWaits notHeld => ?_⟩
  · change Host.Outcome.next (s.completeHost none) = _
    rw [completeHost_eq serving, answers, mem.symm, pending.symm, part.symm]
    rfl
  · change Host.Outcome.next (s.completeHost (some b)) = t.host b
    rw [completeHost_eq serving, State.host, ← hostFollows_arbitrate (free noneWaits notHeld), mem.symm, pending.symm, part.symm]

/-- Settles O17: a write changes its lanes; a read that no block snoops returns the word as it stands. -/
theorem hostAccessCompletes : Obligations.HostAccessCompletes := by
  intro s a canonical leaves
  refine ⟨fun lanes d serving => ⟨Memory.writeLanes s.mem a lanes d, ?_, readByte_writeLanes s.mem a lanes d canonical⟩,
    fun serving noRing noProbe => ?_⟩
  · exact completes_leaves serving _ rfl rfl rfl (free_of (p := { s.part.freePort with hostWait := false }) rfl)
  · let q := { s.part.freePort with readData := s.mem.readWord a, hostWait := false }
    exact completes_leaves serving _ (snoop_none (p := q) noRing noProbe _).symm rfl rfl (free_of (p := q) rfl)

/-! ### A read of the probe result (R161) -/

theorem unlatchProbe_event (p : Part) (i : LineNo) :
    NotedEvent p (p.unlatch i .probeReady) i { p.line i with flags := (p.line i).flags &&& ~~~4 }
      (if (p.line i).flags.getLsbD 2 then [35] else []) := by
  refine notedEvent_of (noted_unlatch p i _) (line_changeFlags p i _) fun w word => ?_
  split at word
  · next ready =>
    obtain rfl := List.mem_singleton.1 word
    exact mem_unlatch_self p .probeReady ready
  · cases word

theorem unlatchProbe_clear (clear : (p.line i).flags.getLsbD 2 = false) : p.unlatch i .probeReady = p := by
  refine if_pos (BitVec.eq_of_getLsbD_eq fun k hk => ?_)
  have mask : ∀ k, k < 16 → Flag.probeReady.mask.getLsbD k = decide (k = 2) := by decide
  rw [BitVec.getLsbD_and, BitVec.getLsbD_not, mask k hk]
  by_cases e : k = 2
  · rw [e, clear]
    rfl
  · simp [e, hk]

theorem snoop_probe {a : Addr} (h : p.decode a = .lcb i 45) (d : Word) : p.snoop a d = p.snoopProbe i d := by
  rw [Part.snoop, h]
  rfl

theorem snoopProbe_result {d : Word} (h : d = (p.line i).probeResult) : p.snoopProbe i d = p.unlatch i .probeReady := if_pos h

theorem snoopProbe_other {d : Word} (h : d ≠ (p.line i).probeResult) : p.snoopProbe i d = p := if_neg h

/-- Settles O39: the read completes as every host access does; the probe result's word alone is looked at. -/
theorem probeResultRead : Obligations.ProbeResultRead := by
  rintro s i d p l has sound serving rfl rfl rfl
  have decoded := decode_lcb s.part i 45 (by omega) has sound
  have served : s.part.readsProbe = true := by
    simp only [Part.readsProbe, Part.servedRead, Part.servedHost, serving, decoded, beq_self_eq_true]
  have read : exec .probeResultRead s = .next (s.completeHost none) := by
    change Host.Outcome.next (if s.part.readsProbe then s.completeHost none else s) = _
    rw [if_pos served]
  refine ⟨?_, ?_, read.symm⟩
  all_goals rw [read, completeHost_read s _ serving, snoop_probe (p := s.part.hostRead _) decoded]
  · intro e
    exact ⟨_, by rw [snoopProbe_result (p := s.part.hostRead _) e]; rfl, unlatchProbe_event _ i⟩
  · intro other
    rw [snoopProbe_other (p := s.part.hostRead _) other]
    rfl

end Sys2Proof.Machine

/-! PROOFS. Reset: the values it leaves, power-on, the pin reset and the access it waits for (R20, R40, R78 to R80, R172). -/

namespace Sys2Proof.Machine

variable {i : LineNo} {p q r : Part} {s t : State}

/-! ### The values -/

theorem resetValues_powerOn (p : Part) : ResetValues .powerOn p.powerOn :=
  ⟨rfl, rfl, rfl, rfl, rfl, rfl, rfl, rfl, rfl, rfl, rfl, rfl, rfl, rfl, rfl, rfl, rfl, rfl, rfl, line_replicate rfl⟩

theorem resetValues_pinResetEffect (p : Part) : ResetValues .resetPin p.pinResetEffect :=
  ⟨rfl, rfl, rfl, rfl, rfl, rfl, rfl, rfl, rfl, rfl, rfl, rfl, rfl, rfl, rfl, rfl, rfl, rfl, rfl, line_replicate rfl⟩

/-- Power-on is reset, but for the inputs and the clock (R40). -/
theorem powerOn_reset : Part.reset.powerOn = Part.reset := rfl

theorem driverEnabled_powerOn (p : Part) (i : LineNo) : p.powerOn.markHold[i] = none ∧ p.powerOn.driverEnabled i = false := by
  have none : p.powerOn.markHold[i] = none := by
    change (Vector.replicate 32 none)[i.val] = none
    exact Vector.getElem_replicate ..
  refine ⟨none, ?_⟩
  rw [Part.driverEnabled, none, line_replicate (q := p.powerOn) rfl i]
  rfl

/-- Settles O2: the reset state is a state after power-on, and starts every invariant. -/
theorem resetState : Obligations.ResetState := by
  have governed : MapInForce State.reset ∧ DormantSound State.reset := (governed_iff _).2 (governed_powerOn Part.reset)
  exact ⟨resetValues_powerOn Part.reset, rfl, fun i => (driverEnabled_powerOn Part.reset i).2, rfl, rfl, rfl,
    roomy_replicate rfl, ⟨Nat.zero_le 1, le_refl 1, by decide, fun _ => rfl⟩, governed.1, governed.2,
    ⟨List.nodup_nil, nofun⟩, fun i _ => line_replicate rfl i⟩

/-- Nothing asks for the port after power-on. -/
theorem arbitrate_powerOn (p : Part) : p.powerOn.arbitrate = p.powerOn := rfl

/-- Settles O3: the values of power-on, which no grant follows. -/
theorem powerOnResets : Obligations.PowerOnResets := by
  intro s
  refine ⟨{ s with part := s.part.powerOn }, rfl,
    resetValues_powerOn s.part, rfl, rfl, rfl, rfl, driverEnabled_powerOn s.part, rfl, rfl, rfl, rfl, rfl, rfl, rfl, rfl⟩

/-! ### The pin reset -/

theorem pinResetOf_pinResetEffect (p : Part) : PinResetOf p p.pinResetEffect := by
  refine ⟨resetValues_pinResetEffect p, ?_, rfl, fun i => ?_, rfl, rfl, rfl, rfl, rfl, rfl, rfl, rfl⟩
  · change p.hostAfterReset.serving = _
    rw [Part.hostAfterReset, Part.servedHost]
    cases p.port.serving with
    | none => rfl
    | some a => cases a <;> rfl
  · change (Vector.ofFn p.holdAfterReset)[i.val] = _
    rw [Vector.getElem_ofFn]
    rfl

theorem firstTake_eq (last : Option Moment) (now : Moment) :
    firstTake last now = match last with | none => now | some u => max now (u + 2) := by
  cases last <;> rfl

/-- The driver after its mark-hold has ended: enabled by its line's state alone (R79). -/
theorem driverEnabled_endMarkHold {t : Moment} (h : p.markHold[i] = some t) :
    p.endMarkHold i = { p with now := max p.now t, markHold := p.markHold.set i none } ∧
      ((p.endMarkHold i).driverEnabled i = (p.line i).state.driving) := by
  have ended : p.endMarkHold i = { p with now := max p.now t, markHold := p.markHold.set i none } := by
    rw [Part.endMarkHold, h]
    rfl
  have free : (p.endMarkHold i).markHold[i] = none := by
    rw [ended]
    exact Vector.getElem_set_self ..
  refine ⟨ended, ?_⟩
  rw [Part.driverEnabled, free, line_of_lines (p := p) (q := p.endMarkHold i) (by rw [ended])]
  exact Bool.or_false _

theorem driving_iff (x : LineState) : x.driving = true ↔ x = .settle ∨ x = .drive ∨ x = .drain ∨ x = .release := by
  cases x <;> simp [LineState.driving]

theorem assertReset_waits (high : p.resetLow = false) (internal : p.servesInternal = true) :
    p.assertReset = { p.takeReset true with resetPending := true } := by
  rw [Part.assertReset, high, internal]
  rfl

theorem assertReset_atOnce (high : p.resetLow = false) (idle : p.servesInternal = false) :
    p.assertReset = (p.takeReset true).pinResetEffect := by
  rw [Part.assertReset, high, idle]
  rfl

/-- Settles O4: RST# by its level and the access in progress, and the end of a mark-hold. -/
theorem pinResetAndMarkHold : Obligations.PinResetAndMarkHold := by
  refine ⟨fun s t time => ?_, fun s i t holds => ?_⟩
  · obtain rfl : t = firstTake s.part.taken.reset s.part.now := time.trans (firstTake_eq _ _).symm
    refine ⟨fun high internal => ?_, fun high idle => ?_, fun low => ⟨?_, ?_⟩, fun high => ?_⟩
    · exact congrArg (answers s) (assertReset_waits high internal)
    · exact ⟨_, congrArg (answers s) (assertReset_atOnce high idle), pinResetOf_pinResetEffect _⟩
    · exact congrArg (answers s) (if_pos low)
    · exact congrArg (answers s) (if_pos low)
    · exact congrArg (answers s) (if_neg (Bool.eq_false_iff.1 high))
  · obtain ⟨ended, driver⟩ := driverEnabled_endMarkHold holds
    refine ⟨s.part.endMarkHold i, rfl, ended, ?_⟩
    rw [driver, driving_iff, ended]
    rfl

/-! ### The access that a pin reset waits for (R20, log 10) -/

/-- With a reset waiting, the completion of an access is its effect on the bank and the reset, whatever the requester's step. -/
theorem complete_reset (waits : s.part.resetPending = true) (a : Serving) (f : Word → Part → Part) :
    s.complete a f = { s with part := s.part.freePort.pinResetEffect.arbitrate, mem := (Memory.access s.mem a).1 } := by
  rw [State.complete, Part.completed, if_pos waits]

theorem completeClosing_reset (waits : s.part.resetPending = true) (a : Serving) :
    s.completeClosing a = { s with part := s.part.freePort.pinResetEffect.arbitrate, mem := (Memory.access s.mem a).1 } := by
  rw [State.completeClosing, if_pos waits]

theorem exec_pinResetEffect {a : Serving} (waits : s.part.resetPending = true) (serving : s.part.port.serving = some a) :
    exec .pinResetEffect s =
      .next { s with part := s.part.freePort.pinResetEffect.arbitrate, mem := (Memory.access s.mem a).1 } := by
  change execPinResetEffect s = _
  rw [execPinResetEffect, if_pos waits, serving]
  exact congrArg Host.Outcome.next (complete_reset waits a _)

/-- Settles O5: each row of a completion takes the waiting reset itself. -/
theorem pinResetOvertakesInternalAccess : Obligations.PinResetOvertakesInternalAccess := by
  intro s a waits serving internal
  have effect := exec_pinResetEffect waits serving
  have row (f : Word → Part → Part) : Host.Outcome.next (s.complete a f) = exec .pinResetEffect s := by
    rw [complete_reset waits, effect]
  refine ⟨_, pinResetOf_pinResetEffect _, effect, ?_, ?_, ?_, ?_, ?_⟩
  · rintro w rfl
    change execSetupReadComplete s = _
    rw [execSetupReadComplete, serving]
    exact row _
  · rintro w b v rfl
    refine ⟨fun plain => ?_, fun closing => ?_⟩
    · change execReportWriteComplete s = _
      rw [execReportWriteComplete, serving, plain]
      exact row _
    · change execClosingWriteComplete s = _
      rw [execClosingWriteComplete, serving, closing, effect]
      exact congrArg Host.Outcome.next (completeClosing_reset waits _)
  · rintro b d i w rfl flight
    refine ⟨fun more => ?_, fun last => ?_⟩
    · change execRecordWordComplete s = _
      rw [execRecordWordComplete, serving, flight]
      exact (if_pos more).trans (row _)
    · change execCommit s = _
      rw [execCommit, serving, flight]
      exact (if_pos last).trans (row _)
  · rintro b i job r o rfl flight
    change execReclaimReadReturn s = _
    rw [execReclaimReadReturn, serving, flight]
    exact row _
  · rintro b i got abandoned rfl flight
    refine ⟨fun more => ?_, fun last => ?_⟩
    · rw [← Option.isSome_iff_ne_none] at more
      change execWalkReadComplete s = _
      rw [execWalkReadComplete, serving, flight]
      exact (if_pos more).trans (row _)
    · rw [← Option.isSome_iff_ne_none] at last
      change execWalkReadReturn s = _
      rw [execWalkReadReturn, serving, flight]
      exact (if_pos last).trans (row _)

end Sys2Proof.Machine

/-! PROOFS. The events of every line: hands-off, forced quiesce, disarming (R31, R32, R34, R70 to R72). -/

namespace Sys2Proof.Machine

variable {i : LineNo} {p q r : Part} {s t : State}

/-! ### Going through the lines -/

/-- `f` at line `i` leaves the map, the other lines, and what is pending for words that do not concern the line. -/
structure LineOp (f : LineNo → Part → Part) : Prop where
  map : ∀ i q, (f i q).map = q.map
  others : ∀ i q j, j ≠ i → (f i q).line j = q.line j
  reports : ∀ i q w v, ReportWord.concerns i w = false → ((w, v) ∈ (f i q).reports ↔ (w, v) ∈ q.reports)

theorem LineOp.of_step {f : LineNo → Part → Part} (start : LineNo → Part → Part) (map : ∀ i q, (start i q).map = q.map)
    (lines : ∀ i q j, (start i q).line j = q.line j) (reports : ∀ i q, (start i q).reports = q.reports)
    (step : ∀ i q, LineStep i (start i q) (f i q)) : LineOp f where
  map i q := (step i q).map.trans (map i q)
  others i q j other := ((step i q).2.1 j other).trans (lines i q j)
  reports i q w v other := by rw [(step i q).2.2 w v other, reports]

/-- What line `j`, which `f` has done in `q`, has become: what `f` made of it in a part in which it was still as in `p`. -/
def DoneIn (f : LineNo → Part → Part) (F : Part → Prop) (p q : Part) (j : LineNo) : Prop :=
  ∃ x, F x ∧ x.line j = p.line j ∧ q.line j = (f j x).line j ∧
    ∀ w v, (ReportWord.lcb j w, v) ∈ q.reports ↔ (ReportWord.lcb j w, v) ∈ (f j x).reports

/-- Where going through the lines of `p` stands when those of `done` are gone through. -/
structure Gone (f : LineNo → Part → Part) (F : Part → Prop) (p : Part) (done : List LineNo) (q : Part) : Prop where
  kept : F q
  map : q.map = p.map
  rest : ∀ j, j ∉ done ∨ p.hasLine j = false → q.line j = p.line j
  lines : ∀ j ∈ done, p.hasLine j = true → DoneIn f F p q j
  pending : ∀ w v, (∀ j, p.hasLine j = true → ReportWord.concerns j w = false) → ((w, v) ∈ q.reports ↔ (w, v) ∈ p.reports)

theorem Gone.step {f : LineNo → Part → Part} {F : Part → Prop} (op : LineOp f) (kept : ∀ i q, F q → F (f i q)) {done : List LineNo}
    (new : i ∉ done) (g : Gone f F p done q) : Gone f F p (done ++ [i]) (if q.hasLine i then f i q else q) := by
  have has : q.hasLine i = p.hasLine i := hasLine_of_map _ _ g.map i
  split
  · next h =>
    have exists' : p.hasLine i = true := has.symm.trans h
    refine ⟨kept i q g.kept, (op.map i q).trans g.map, fun j hj => ?_, fun j hj hasJ => ?_, fun w v hw => ?_⟩
    · have other : j ≠ i := by
        rintro rfl
        exact hj.elim (fun h => h (List.mem_append_right _ List.mem_cons_self)) fun h => by cases exists'.symm.trans h
      exact (op.others i q j other).trans (g.rest j (hj.imp_left fun h k => h (List.mem_append_left _ k)))
    · by_cases e : j = i
      · exact ⟨q, g.kept, e ▸ g.rest i (.inl new), by rw [e], fun w v => by rw [e]⟩
      · have before : j ∈ done := (List.mem_append.1 hj).resolve_right fun k => e (List.mem_singleton.1 k)
        obtain ⟨x, hx, same, line, reports⟩ := g.lines j before hasJ
        refine ⟨x, hx, same, (op.others i q j e).trans line, fun w v => (op.reports i q _ v ?_).trans (reports w v)⟩
        exact decide_eq_false e
    · exact (op.reports i q w v (hw i exists')).trans (g.pending w v hw)
  · next h =>
    refine ⟨g.kept, g.map, fun j hj => g.rest j (hj.imp_left fun h k => h (List.mem_append_left _ k)), fun j hj hasJ => ?_,
      g.pending⟩
    have other : j ≠ i := by
      rintro rfl
      exact h (has.trans hasJ)
    exact g.lines j ((List.mem_append.1 hj).resolve_right fun k => other (List.mem_singleton.1 k)) hasJ

/-- Going through the lines by a step of each: the existing ones are done each as it was at first, and `F` is kept. -/
theorem forLines_gone {f : LineNo → Part → Part} (op : LineOp f) (p : Part) (F : Part → Prop) (base : F p)
    (kept : ∀ i q, F q → F (f i q)) : Gone f F p (List.finRange 32) (p.forLines f) :=
  forLines_induction p f (Gone f F p) ⟨base, rfl, fun _ _ => rfl, nofun, fun _ _ _ => Iff.rfl⟩
    fun _ _ _ new g => g.step op kept new

theorem Gone.absent {f : LineNo → Part → Part} {F : Part → Prop} {done : List LineNo} (g : Gone f F p done q) {j : LineNo}
    (h : p.hasLine j = false) : q.line j = p.line j := g.rest j (.inr h)

theorem Gone.line {f : LineNo → Part → Part} {F : Part → Prop} (g : Gone f F p (List.finRange 32) q) {j : LineNo}
    (h : p.hasLine j = true) : DoneIn f F p q j := g.lines j (List.mem_finRange j) h

theorem lineOp_setHeld (a b : LineNo → Part → Bool) : LineOp fun i q => q.setHeld i (a i q) (b i q) :=
  .of_step (fun _ q => q) (fun _ _ => rfl) (fun _ _ _ => rfl) (fun _ _ => rfl) fun i q => lineStep_setHeld q i _ _

theorem lineOp_quiesceHeld (a b : LineNo → Part → Bool) : LineOp fun i q => (q.setHeld i (a i q) (b i q)).quiesceLine i := by
  refine .of_step (fun i q => if (q.line i).state.quiesced then q.releaseHold i else q) (fun i q => ?_) (fun i q j => ?_)
    (fun i q => ?_) fun i q => lineStep_quiesceHeld q i _ _
  · split
    · exact map_releaseHold q i
    · rfl
  · split
    · exact line_releaseHold q i j
    · rfl
  · split
    · exact reports_releaseHold q i
    · rfl

/-! ### Word 37 (R33) -/

/-- `q` is `p` with word 37 queued at most. -/
structure Notes37 (p q : Part) : Prop where
  frame : { q with reports := [] } = { p with reports := [] }
  rest : ∀ w v, w ≠ .base 37 → ((w, v) ∈ q.reports ↔ (w, v) ∈ p.reports)

theorem Notes37.refl (p : Part) : Notes37 p p := ⟨rfl, fun _ _ _ => Iff.rfl⟩

theorem notes37_noteSummary (p before : Part) : Notes37 p (p.noteSummary before) := by
  rw [Part.noteSummary]
  split
  · exact .refl p
  · exact ⟨rfl, fun w v other => mem_queueUpdate_ne _ _ _ _ _ other⟩

theorem Notes37.line (h : Notes37 p q) (j : LineNo) : q.line j = p.line j := (congrArg (Part.line · j) h.frame :)

theorem Notes37.lcb (h : Notes37 p q) (j : LineNo) (w : Nat) (v : Word) :
    (ReportWord.lcb j w, v) ∈ q.reports ↔ (ReportWord.lcb j w, v) ∈ p.reports := h.rest _ v nofun

theorem Notes37.held (h : Notes37 p q) : q.held = p.held := (congrArg Part.held h.frame :)

theorem Notes37.port (h : Notes37 p q) : q.port = p.port := (congrArg Part.port h.frame :)

/-- Everything but the lines and the pending set. -/
theorem Notes37.beside {base : Part} (note : Notes37 q r) (frame : q.outside = base.outside) :
    { r with lines := base.lines, reports := base.reports } = base := by
  have outside : r.outside = base.outside :=
    (congrArg (fun x : Part => { x with lines := Vector.replicate 32 Line.initial }) note.frame :).trans frame
  exact (congrArg (fun x : Part => { x with lines := base.lines, reports := base.reports }) outside :)

theorem keepsPending_of {f : LineNo → Part → Part} {F : Part → Prop} {done : List LineNo} {base : Part} (g : Gone f F p done q)
    (map : p.map = base.map) (reports : p.reports = base.reports) (note : Notes37 q r) : KeepsPending base r [37] := by
  intro w v none other
  have has (j : LineNo) : p.hasLine j = base.hasLine j := hasLine_of_map _ _ map j
  rw [note.rest w v (other 37 List.mem_cons_self), g.pending w v fun j hj => none j ((has j).symm.trans hj), reports]

theorem keepsPending_lines {f : LineNo → Part → Part} {F : Part → Prop} {done : List LineNo} {base : Part} (g : Gone f F p done q)
    (map : p.map = base.map) (reports : p.reports = base.reports) : KeepsPending base q [] := by
  intro w v none _
  have has (j : LineNo) : p.hasLine j = base.hasLine j := hasLine_of_map _ _ map j
  rw [g.pending w v fun j hj => none j ((has j).symm.trans hj), reports]

/-! ### A quiesce of every line (R70) -/

/-- A quiesce of line `i` that gives it the held reasons `a` and `b`. -/
def quiesceWith (a b : Line → Bool) (i : LineNo) (q : Part) : Part := (q.setHeld i (a (q.line i)) (b (q.line i))).quiesceLine i

variable (a b : Line → Bool)

/-- The lines whose word 32 a quiesce changes: those that leave their state, and those whose held reasons change. -/
def Changed32 (l : Line) : Prop := l.state.quiesced = true ∨ a l ≠ l.heldHandsOff ∨ b l ≠ l.heldForced

theorem mem32_quiesceWith (h : Changed32 a b (q.line i)) :
    (ReportWord.lcb i 32, ((quiesceWith a b i q).line i).stateWord) ∈ (quiesceWith a b i q).reports := by
  rcases h with quiesced | reasons
  · have state : ((q.setHeld i (a (q.line i)) (b (q.line i))).line i).state.quiesced = true := by rwa [line_setHeld]
    have release : quiesceWith a b i q = (q.setHeld i (a (q.line i)) (b (q.line i))).enterRelease i .listen .quiesce := if_pos state
    rw [release]
    exact mem_enterRelease _ i _ _
  · exact mem32_quiesceHeld q i _ _ reasons

/-- Where a quiesce of every line leaves the part. -/
theorem quiesceWith_all (p : Part) :
    QInv p (fun i => p.quiesced i (a (p.line i)) (b (p.line i))) (fun i => Changed32 a b (p.line i)) (List.finRange 32)
      (p.forLines (quiesceWith a b)) := by
  refine qinv_all p _ _ _ (fun i q => lineStep_quiesceHeld q i _ _) (fun i q line now count => ?_) fun i q line changed => ?_
  · rw [← line]
    exact (line_quiesceHeld p q i _ _ line now count).trans (by rw [line])
  · exact mem32_quiesceWith a b (line ▸ changed)

theorem quiesced_released (h : (p.line i).state.quiesced = true) (x y : Bool) : p.quiesced i x y =
    Line.released { p.line i with heldHandsOff := x, heldForced := y } p.now .listen .quiesce (p.heldCount i) :=
  if_pos ((quiesced_iff _).1 h)

theorem reported_quiesceWith (p : Part) : Reported p (p.forLines (quiesceWith a b)) :=
  reported_forLines p _ fun i q => reported_quiesceHeld q i _ _

/-- The words of an existing line that a quiesce changes are pending: word 32 and the counts that the discard raises (R67, R150). -/
theorem pending_quiesceWith (has : p.hasLine i = true) (h : (p.line i).state.quiesced = true) {w : Nat}
    (hw : w ∈ 32 :: (p.line i).dropReports (p.heldCount i)) :
    (ReportWord.lcb i w, ((p.forLines (quiesceWith a b)).line i).report w) ∈ (p.forLines (quiesceWith a b)).reports := by
  have all := quiesceWith_all a b p
  rcases List.mem_cons.1 hw with rfl | drop
  · exact all.pend i (List.mem_finRange i) has (.inl h)
  · have line := all.doneLine i (List.mem_finRange i)
    rw [if_pos has, quiesced_released h] at line
    obtain ⟨counts, changed⟩ := dropReports_changed
      (l := { p.line i with heldHandsOff := a (p.line i), heldForced := b (p.line i) }) drop p.now .listen .quiesce
    have plain : (32 ≤ w ∧ w ≤ 53) ∧ (w < 37 ∨ 42 < w) := by omega
    have was : (p.line i).Reports w := reports_plain _ plain.1 plain.2
    refine (reported_quiesceWith a b p).mem (w := .lcb i w) (reports_plain _ plain.1 plain.2) fun e => ?_
    have same : (p.line i).report w = ((p.forLines (quiesceWith a b)).line i).report w := Option.some.inj (was.symm.trans e)
    rw [line] at same
    refine changed (same.symm.trans ?_)
    rcases counts with rfl | rfl
    · rfl
    · rfl

/-! ### Hands-off (R32) -/

theorem lineOp_quiesceWith : LineOp (quiesceWith a b) := lineOp_quiesceHeld (fun i q => a (q.line i)) fun i q => b (q.line i)

theorem noteHandsOff_dormant (h : p.state = .dormant) (before : Part) : p.noteHandsOff before = p := if_pos h

theorem noteHandsOff_awake (h : p.state ≠ .dormant) (before : Part) : p.noteHandsOff before = p.noteSummary before := if_neg h

theorem notes37_noteHandsOff (p before : Part) : Notes37 p (p.noteHandsOff before) := by
  rw [Part.noteHandsOff]
  split
  · exact .refl p
  · exact notes37_noteSummary p before

theorem summary_ne_of_handsOff (h : p.handsOff ≠ q.handsOff) : p.summaryFlags ≠ q.summaryFlags := fun e => h (by
  rw [← hoff_bit p, ← hoff_bit q, e])

theorem summary_ne_of_forced (h : p.forced ≠ q.forced) : p.summaryFlags ≠ q.summaryFlags := fun e => h (by
  rw [← forced_bit p, ← forced_bit q, e])

/-- What becomes pending beside the lines when the hands-off flag changes (R32, R33). -/
theorem keepsPending_handsOff {f : LineNo → Part → Part} {F : Part → Prop} {done : List LineNo} {v : Bool}
    (g : Gone f F (p.takeHandsOff v) done q) (state : q.state = p.state) :
    KeepsPending p (q.noteHandsOff p) (if p.state = .dormant then [] else [37]) := by
  split
  · next dormant =>
    rw [noteHandsOff_dormant (state.trans dormant)]
    exact keepsPending_lines g rfl rfl
  · exact keepsPending_of g rfl rfl (notes37_noteHandsOff q p)

/-- Word 37 is pending once the hands-off flag has changed outside "DORMANT" (R32). -/
theorem mem37_noteHandsOff (awake : q.state ≠ .dormant) (changed : q.handsOff ≠ p.handsOff) :
    (ReportWord.base 37, (q.noteHandsOff p).summaryFlags) ∈ (q.noteHandsOff p).reports := by
  rw [noteHandsOff_awake awake]
  exact noteSummary_37 q p (summary_ne_of_handsOff changed)

theorem assertHandsOff_eq (h : p.handsOff = false) :
    p.assertHandsOff = ((p.takeHandsOff true).forLines (quiesceWith (fun _ => true) Line.heldForced)).noteHandsOff p := by
  rw [Part.assertHandsOff, h]
  rfl

theorem releaseHandsOff_eq (h : p.handsOff = true) :
    p.releaseHandsOff = ((p.takeHandsOff false).forLines Part.handsOnLine).noteHandsOff p := if_pos h

/-- Everything but the lines, the pending set, the held write and the port. -/
theorem QInv.beside {tgt : LineNo → Line} {ch : LineNo → Prop} {done : List LineNo} (inv : QInv p tgt ch done q)
    (note : Notes37 q r) : { r with lines := p.lines, reports := p.reports, held := p.held, port := p.port } = p :=
  (congrArg (fun x : Part => { x with lines := p.lines, reports := p.reports, held := p.held, port := p.port }) note.frame :).trans
    inv.frame

/-- The write that a quiesced line holds is released to the port (R70, R148). -/
theorem QInv.released {tgt : LineNo → Line} {ch : LineNo → Prop} (inv : QInv p tgt ch (List.finRange 32) q) {h : HeldWrite}
    (held : p.held = some h) (has : p.hasLine h.line = true) (quiesced : (p.line h.line).state.quiesced = true) :
    q.held = none ∧ q.port = { p.port with waiting := some h.access } := by
  rcases inv.hold with ⟨_, _, stays⟩ | ⟨k, is, _, gone, port⟩
  · have not := stays h held (List.mem_finRange _) has
    cases quiesced.symm.trans not
  · cases is.symm.trans held
    exact ⟨gone, port⟩

theorem QInv.unheld {tgt : LineNo → Line} {ch : LineNo → Prop} {done : List LineNo} (inv : QInv p tgt ch done q)
    (unheld : p.held = none) : q.held = none ∧ q.port = p.port := by
  rcases inv.hold with ⟨held, port, _⟩ | ⟨k, is, _⟩
  · exact ⟨held.trans unheld, port⟩
  · cases unheld.symm.trans is

/-- With no write held the port is as it was too. -/
theorem QInv.besideUnheld {tgt : LineNo → Line} {ch : LineNo → Prop} {done : List LineNo} (inv : QInv p tgt ch done q)
    (note : Notes37 q r) (unheld : p.held = none) : { r with lines := p.lines, reports := p.reports } = p := by
  obtain ⟨none, port⟩ := inv.unheld unheld
  have held' : r.held = p.held := note.held.trans (none.trans unheld.symm)
  have port' : r.port = p.port := note.port.trans port
  calc { r with lines := p.lines, reports := p.reports }
      = { r with lines := p.lines, reports := p.reports, held := p.held, port := p.port } := by rw [held', port']
    _ = p := inv.beside note

theorem lineOp_handsOnLine : LineOp Part.handsOnLine := lineOp_setHeld (fun _ _ => false) fun i q => (q.line i).heldForced

/-- A line that loses held reasons: it goes on as it is otherwise, word 32 queued where a reason went (R71). -/
theorem doneIn_setHeld {f : LineNo → Part → Part} {F : Part → Prop} {a b : Line → Bool}
    (is : ∀ i q, f i q = q.setHeld i (a (q.line i)) (b (q.line i))) (d : DoneIn f F p q i) :
    q.line i = { p.line i with heldHandsOff := a (p.line i), heldForced := b (p.line i) } ∧
      (a (p.line i) ≠ (p.line i).heldHandsOff ∨ b (p.line i) ≠ (p.line i).heldForced →
        (ReportWord.lcb i 32, (q.line i).stateWord) ∈ q.reports) := by
  obtain ⟨x, -, same, line, reports⟩ := d
  rw [is] at line reports
  refine ⟨?_, fun reasons => ?_⟩
  · rw [line, line_setHeld, same]
  · rw [reports, line]
    rw [← same] at reasons
    exact mem32_setHeld x i _ _ reasons

/-- Settles O7: the quiesce of every line, then word 37; the release of the held reason, then word 37. -/
theorem handsOffInput : Obligations.HandsOffInput := by
  refine ⟨fun s t p low time is => ?_, fun s t high time => ?_, fun s => ⟨fun high => ?_, fun low => ?_⟩⟩
  · obtain rfl : t = firstTake s.part.taken.handsOff s.part.now := time.trans (firstTake_eq _ _).symm
    obtain rfl : p = s.part.takeHandsOff true := is
    have inv := quiesceWith_all (fun _ => true) Line.heldForced (s.part.takeHandsOff true)
    have pending (i : LineNo) (has : s.part.hasLine i = true) (quiesced : (s.part.line i).state.quiesced = true) (w : Nat) :=
      pending_quiesceWith (p := s.part.takeHandsOff true) (fun _ => true) Line.heldForced has quiesced (w := w)
    have gone := forLines_gone (lineOp_quiesceWith (fun _ => true) Line.heldForced) (s.part.takeHandsOff true) (fun _ => True)
      trivial fun _ _ _ => trivial
    have state : ((s.part.takeHandsOff true).forLines (quiesceWith (fun _ => true) Line.heldForced)).state = s.part.state :=
      (congrArg Part.state inv.frame :)
    have handsOff : ((s.part.takeHandsOff true).forLines (quiesceWith (fun _ => true) Line.heldForced)).handsOff = true :=
      (congrArg Part.handsOff inv.frame :)
    have changes (awake : s.part.state ≠ .dormant) : Changes s.part
        (((s.part.takeHandsOff true).forLines (quiesceWith (fun _ => true) Line.heldForced)).noteHandsOff s.part) :=
      changes_takeHandsOff true affects_handsOffLine awake state
    refine ⟨_, congrArg (answers s) (assertHandsOff_eq low), ?_⟩
    generalize (s.part.takeHandsOff true).forLines (quiesceWith (fun _ => true) Line.heldForced) = r at *
    have note := notes37_noteHandsOff r s.part
    refine ⟨fun i => (note.line i).trans (inv.doneLine i (List.mem_finRange i)), fun i has unheld => ?_,
      fun i has quiesced w hw => ?_, fun awake => ⟨?_, (changes awake).reported⟩, keepsPending_handsOff gone state,
      fun h held has quiesced => ?_, fun unheld => ?_, inv.beside note⟩
    · rw [note.lcb, note.line]
      exact inv.pend i (List.mem_finRange i) has (.inr (.inl fun e => nomatch (e.trans unheld : true = false)))
    · rw [note.lcb, note.line]
      exact pending i has quiesced w hw
    · refine mem37_noteHandsOff (by rwa [state]) ?_
      rw [handsOff, low]
      exact nofun
    · have released := inv.released held has quiesced
      exact ⟨note.held.trans released.1, note.port.trans released.2⟩
    · have kept := inv.unheld unheld
      exact ⟨note.held.trans kept.1, note.port.trans kept.2⟩
  · obtain rfl : t = firstTake s.part.taken.handsOff s.part.now := time.trans (firstTake_eq _ _).symm
    have gone := forLines_gone lineOp_handsOnLine (s.part.takeHandsOff false)
      (fun q => q.outside = (s.part.takeHandsOff false).outside) rfl fun i q same => (lineStep_setHeld q i _ _).1.trans same
    have frame := gone.kept
    have changes (awake : s.part.state ≠ .dormant) (state : ((s.part.takeHandsOff false).forLines Part.handsOnLine).state = _) :
        Changes s.part (((s.part.takeHandsOff false).forLines Part.handsOnLine).noteHandsOff s.part) :=
      changes_takeHandsOff false affects_handsOnLine awake state
    refine ⟨_, congrArg (answers s) (releaseHandsOff_eq high), ?_⟩
    generalize (s.part.takeHandsOff false).forLines Part.handsOnLine = r at *
    have note := notes37_noteHandsOff r s.part
    have state : r.state = s.part.state := (congrArg Part.state frame :)
    have handsOff : r.handsOff = false := (congrArg Part.handsOff frame :)
    have line (i : LineNo) (has : s.part.hasLine i = true) :=
      doneIn_setHeld (a := fun _ => false) (b := Line.heldForced) (fun _ _ => rfl) (gone.line (j := i) has)
    refine ⟨fun i => (note.line i).trans ?_, fun i has holds => ?_, fun awake => ⟨?_, (changes awake state).reported⟩,
      keepsPending_handsOff gone state, ?_⟩
    · split
      · next has => exact (line i has).1
      · next none => exact gone.absent (Bool.eq_false_iff.2 none)
    · rw [note.lcb, note.line]
      exact (line i has).2 (.inl fun e => nomatch (e.trans holds : false = true))
    · refine mem37_noteHandsOff (by rwa [state]) ?_
      rw [handsOff, high]
      exact nofun
    · exact note.beside frame
  · exact congrArg (answers s) (if_pos high)
  · exact congrArg (answers s) (if_neg (Bool.eq_false_iff.1 low))

/-! ### Forced quiesce (R31) -/

theorem exec_forceSet (ready : Ready s) : exec .forceSet s =
    answers s ((if s.part.state = .armed then s.part.setForced else s.part).forward (baseWriteTo 17 .both 0xF0F0)) := by
  refine (host_ready ready _).trans (congrArg (answers s) ((arrives_force s.part .both 0xF0F0).trans ?_))
  simp only [true_and, Part.forceWord, if_true]

theorem exec_forceClear (ready : Ready s) : exec .forceClear s =
    answers s ((if s.part.state = .armed then s.part.clearForced else s.part).forward (baseWriteTo 17 .both 0x0F0F)) := by
  refine (host_ready ready _).trans (congrArg (answers s) ((arrives_force s.part .both 0x0F0F).trans ?_))
  have other : (0x0F0F : Word) ≠ 0xF0F0 := by decide
  simp only [true_and, Part.forceWord, if_neg other, if_true]

theorem changes_setForced (p : Part) : Changes p p.setForced := changes_forceWord p 0xF0F0

theorem changes_clearForced (p : Part) : Changes p p.clearForced := changes_forceWord p 0x0F0F

theorem heldCount_of_none (h : p.held = none) (i : LineNo) : p.heldCount i = 0 := by
  rw [Part.heldCount, Part.heldFor, h]
  rfl

theorem lineOp_unforceLine : LineOp Part.unforceLine := lineOp_setHeld (fun i q => (q.line i).heldHandsOff) fun _ _ => false

theorem mem37_noteSummary (changed : q.forced ≠ p.forced) :
    (ReportWord.base 37, (q.noteSummary p).summaryFlags) ∈ (q.noteSummary p).reports :=
  noteSummary_37 q p (summary_ne_of_forced changed)

/-- Settles O8: the quiesce of every line, then word 37; the release of the held reason, then word 37. -/
theorem forceWord : Obligations.ForceWord := by
  intro s ready
  have notHeld : s.part.held = none := held_of_ready ready
  refine ⟨fun armed => ?_, fun armed => ?_, fun other => ?_⟩
  · let p := { s.part with forced := true }
    have inv := quiesceWith_all Line.heldHandsOff (fun _ => true) p
    have pending (i : LineNo) (has : p.hasLine i = true) (quiesced : (p.line i).state.quiesced = true) (w : Nat) :=
      pending_quiesceWith Line.heldHandsOff (fun _ => true) has quiesced (w := w)
    have gone := forLines_gone (lineOp_quiesceWith Line.heldHandsOff fun _ => true) p (fun _ => True) trivial fun _ _ _ => trivial
    have changes : Changes s.part ((p.forLines (quiesceWith Line.heldHandsOff fun _ => true)).noteSummary s.part) :=
      changes_setForced s.part
    have run : exec .forceSet s = answers s
        (((p.forLines (quiesceWith Line.heldHandsOff fun _ => true)).noteSummary s.part).forward
          (baseWriteTo 17 .both 0xF0F0)) := by
      rw [exec_forceSet ready, if_pos armed]
      rfl
    refine ⟨_, run, ?_⟩
    generalize p.forLines (quiesceWith Line.heldHandsOff fun _ => true) = r at *
    have note := notes37_noteSummary r s.part
    have forced : r.forced = true := (congrArg Part.forced inv.frame :)
    have kept := inv.unheld notHeld
    refine ⟨fun i => (note.line i).trans (inv.doneLine i (List.mem_finRange i)), fun i has unheld => ?_,
      fun i has quiesced w hw => ?_, fun clear => mem37_noteSummary (by rw [forced, clear]; exact nofun), changes.reported,
      keepsPending_of gone rfl rfl note, ?_⟩
    · rw [note.lcb, note.line]
      exact inv.pend i (List.mem_finRange i) has (.inr (.inr fun e => nomatch (e.trans unheld : true = false)))
    · rw [note.lcb, note.line]
      have count : p.heldCount i = 0 := heldCount_of_none notHeld i
      exact pending i has quiesced w (count ▸ hw)
    · exact inv.besideUnheld note notHeld
  · let p := { s.part with forced := false }
    have gone := forLines_gone lineOp_unforceLine p (fun q => q.outside = p.outside) rfl fun i q same =>
      (lineStep_setHeld q i _ _).1.trans same
    have changes : Changes s.part ((p.forLines Part.unforceLine).noteSummary s.part) := changes_clearForced s.part
    have run : exec .forceClear s = answers s
        (((p.forLines Part.unforceLine).noteSummary s.part).forward (baseWriteTo 17 .both 0x0F0F)) := by
      rw [exec_forceClear ready, if_pos armed]
      rfl
    have frame := gone.kept
    refine ⟨_, run, ?_⟩
    generalize p.forLines Part.unforceLine = r at *
    have note := notes37_noteSummary r s.part
    have forced : r.forced = false := (congrArg Part.forced frame :)
    have line (i : LineNo) (has : s.part.hasLine i = true) :=
      doneIn_setHeld (a := Line.heldHandsOff) (b := fun _ => false) (fun _ _ => rfl) (gone.line (j := i) has)
    refine ⟨fun i => (note.line i).trans ?_, fun i has holds => ?_,
      fun set => mem37_noteSummary (by rw [forced, set]; exact nofun), changes.reported, keepsPending_of gone rfl rfl note,
      note.beside (base := p) frame⟩
    · split
      · next has => exact (line i has).1
      · next none => exact gone.absent (Bool.eq_false_iff.2 none)
    · rw [note.lcb, note.line]
      exact (line i has).2 (.inr fun e => nomatch (e.trans holds : false = true))
  · rw [exec_forceSet ready, exec_forceClear ready, if_neg other, if_neg other]
    exact ⟨rfl, rfl⟩

end Sys2Proof.Machine

/-! PROOFS. Disarming starts (R34, R72, R133). -/

namespace Sys2Proof.Machine

variable {i : LineNo} {p q r : Part} {s t : State}

/-! ### One line (R72) -/

theorem disarmLine_off (h : (p.line i).state = .off) : p.disarmLine i = p := by rw [Part.disarmLine, h]

theorem disarmLine_listen (h : (p.line i).state = .listen) : p.disarmLine i = p.listenToOff i .disarm := by rw [Part.disarmLine, h]

theorem disarmLine_release (h : (p.line i).state = .release) : p.disarmLine i = p.retarget i .off .disarm := by
  rw [Part.disarmLine, h]

theorem disarmLine_quiesced (h : (p.line i).state.quiesced = true) : p.disarmLine i = p.enterRelease i .off .disarm := by
  rw [Part.disarmLine]
  rcases (quiesced_iff _).1 h with e | e | e <;> rw [e]

/-- The line states, as disarming tells them apart. -/
theorem state_cases (x : LineState) : x = .off ∨ x = .listen ∨ x = .release ∨ x.quiesced = true := by
  cases x <;> decide

/-- From where the event of line `i` is one of the line alone: a step of its walk dropped, its held write released. -/
def disarmStart (i : LineNo) (q : Part) : Part :=
  if (q.line i).state = .listen then q.stepDropped i else if (q.line i).state.quiesced then q.releaseHold i else q

theorem lineStep_disarmLine (p : Part) (i : LineNo) : LineStep i (disarmStart i p) (p.disarmLine i) := by
  rw [disarmStart]
  rcases state_cases (p.line i).state with h | h | h | h
  · rw [disarmLine_off h, h]
    exact .refl i p
  · rw [disarmLine_listen h, if_pos h]
    exact lineStep_listenToOff p _
  · rw [disarmLine_release h, h]
    exact lineStep_onLine p i _
  · have notListen : (p.line i).state ≠ .listen := fun e => by
      rw [e] at h
      cases h
    rw [disarmLine_quiesced h, if_neg notListen, if_pos h]
    exact lineStep_enterRelease p i _ _

theorem disarmStart_same (i : LineNo) (q : Part) : (disarmStart i q).map = q.map ∧ (∀ j, (disarmStart i q).line j = q.line j) ∧
    (disarmStart i q).reports = q.reports := by
  rw [disarmStart]
  split
  · obtain ⟨w, dropped⟩ := stepDropped_eq (i := i) q
    rw [dropped]
    exact ⟨rfl, fun _ => rfl, rfl⟩
  · split
    · exact ⟨map_releaseHold q i, line_releaseHold q i, reports_releaseHold q i⟩
    · exact ⟨rfl, fun _ => rfl, rfl⟩

theorem lineOp_disarmLine : LineOp fun i q => q.disarmLine i :=
  .of_step disarmStart (fun i q => (disarmStart_same i q).1) (fun i q => (disarmStart_same i q).2.1)
    (fun i q => (disarmStart_same i q).2.2) fun i q => lineStep_disarmLine q i

theorem line_retarget (p : Part) (t : Target) (c : ModeCause) :
    (p.retarget i t c).line i = { p.line i with target := t, releaseCause := c } := line_onLine ..

/-- No line listens once it is disarmed. -/
theorem disarmLine_notListening (p : Part) (i : LineNo) : ((p.disarmLine i).line i).state ≠ .listen := by
  rcases state_cases (p.line i).state with h | h | h | h
  · rw [disarmLine_off h, h]
    exact nofun
  · rw [disarmLine_listen h, line_listenToOff]
    exact nofun
  · rw [disarmLine_release h, line_retarget]
    exact fun e => nomatch h.symm.trans e
  · rw [disarmLine_quiesced h, line_enterRelease]
    exact nofun

/-! ### The step in flight (R133, log 22) -/

theorem stepDropped_other (h : ∀ f, p.writer.flight = some f → f.line ≠ i) : p.stepDropped i = p := by
  rw [Part.stepDropped]
  split
  · next k got flight => exact if_neg fun e => h _ flight e.1
  · rfl

/-- The step dropped is of the same line. -/
theorem stepDropped_flight {f : Flight} (h : p.writer.flight = some f) (i : LineNo) :
    ∃ g, (p.stepDropped i).writer.flight = some g ∧ g.line = f.line := by
  rw [Part.stepDropped]
  split
  · next k got flight =>
    cases h.symm.trans flight
    split
    · exact ⟨_, rfl, rfl⟩
    · exact ⟨_, h, rfl⟩
  · exact ⟨f, h, rfl⟩

/-- The writer once the lines that `q` shows are disarmed: the step of a line that listened in `p` is dropped. -/
def disarmedWriter (p q : Part) : Writer :=
  match p.writer.flight with
  | some f => if (p.line f.line).state = .listen ∧ (q.line f.line).state ≠ .listen then (p.stepDropped f.line).writer else p.writer
  | none => p.writer

theorem disarmedWriter_congr (h : ∀ j, (q.line j).state = .listen ↔ (r.line j).state = .listen) :
    disarmedWriter p q = disarmedWriter p r := by
  simp only [disarmedWriter, ne_eq, h]

theorem disarmedWriter_flight {f : Flight} (h : (disarmedWriter p q).flight = some f) : ∃ g, p.writer.flight = some g ∧
    f.line = g.line := by
  rw [disarmedWriter] at h
  split at h
  · next g flight =>
    split at h
    · obtain ⟨d, dropped, line⟩ := stepDropped_flight flight g.line
      cases dropped.symm.trans h
      exact ⟨g, flight, line⟩
    · exact ⟨f, h, rfl⟩
  · exact ⟨f, h, rfl⟩

/-! ### Every line -/

/-- Everything of the part but its lines, its pending reports and its writer. -/
def Part.beyondLines (p : Part) : Part := { p.outside with writer := ⟨none, none⟩ }

/-- Where disarming the lines of `p`, none of which holds a write, stands in `q`. -/
structure Disarms (p q : Part) : Prop where
  frame : q.beyondLines = p.beyondLines
  listens : ∀ j, (q.line j).state = .listen → q.line j = p.line j
  writer : q.writer = disarmedWriter p q

theorem Disarms.map (h : Disarms p q) : q.map = p.map := (congrArg Part.map h.frame :)

theorem Disarms.held (h : Disarms p q) : q.held = p.held := (congrArg Part.held h.frame :)

theorem beyondLines_disarmStart (notHeld : q.held = none) (i : LineNo) : (disarmStart i q).beyondLines = q.beyondLines := by
  rw [disarmStart]
  split
  · obtain ⟨w, dropped⟩ := stepDropped_eq (i := i) q
    rw [dropped]
    rfl
  · split
    · rw [releaseHold_none (by rw [Part.heldFor, notHeld])]
    · rfl

theorem LineStep.beyondLines (h : LineStep i p q) : q.beyondLines = p.beyondLines :=
  (congrArg (fun x : Part => { x with writer := ⟨none, none⟩ }) h.1 :)

theorem disarms_start (p : Part) : Disarms p p := by
  refine ⟨rfl, fun _ _ => rfl, ?_⟩
  rw [disarmedWriter]
  split
  · rw [if_neg fun h => h.2 h.1]
  · rfl

/-- The writer through the disarming of one line: of a line that listens its own step is dropped; no other line's is. -/
theorem disarms_writer (h : Disarms p q) (i : LineNo) : (q.disarmLine i).writer = disarmedWriter p (q.disarmLine i) := by
  have others (j : LineNo) (other : j ≠ i) : (q.disarmLine i).line j = q.line j := lineOp_disarmLine.others i q j other
  have stops := disarmLine_notListening q i
  rw [(lineStep_disarmLine q i).writer, disarmStart]
  split
  · next listens =>
    cases flight : p.writer.flight with
    | none =>
      have idle : q.writer = p.writer := by rw [h.writer, disarmedWriter, flight]
      have noStep : q.stepDropped i = q := stepDropped_other fun f e => by
        rw [idle, flight] at e
        cases e
      rw [noStep, idle, disarmedWriter, flight]
    | some f =>
      by_cases own : f.line = i
      · have listened : (p.line f.line).state = .listen := by rw [own, ← h.listens i listens]; exact listens
        have before : q.writer = p.writer := by
          rw [h.writer, disarmedWriter, flight]
          exact if_neg fun e => e.2 (own ▸ listens)
        rw [stepDropped_writer_congr h.map (h.listens i listens) before, disarmedWriter, flight]
        exact ((if_pos ⟨listened, own ▸ stops⟩).trans (by rw [own])).symm
      · have noStep : q.stepDropped i = q := stepDropped_other fun g e => by
          rw [h.writer] at e
          obtain ⟨f', is, line⟩ := disarmedWriter_flight e
          cases flight.symm.trans is
          rwa [line]
        rw [noStep, h.writer, disarmedWriter, disarmedWriter, flight]
        simp only [others f.line own]
  · next notListening =>
    have kept : disarmedWriter p (q.disarmLine i) = disarmedWriter p q := disarmedWriter_congr fun j => by
      by_cases e : j = i
      · rw [e]
        exact iff_of_false stops notListening
      · rw [others j e]
    have writer : (if (q.line i).state.quiesced then q.releaseHold i else q).writer = q.writer := by
      split
      · rw [Part.releaseHold]
        split <;> rfl
      · rfl
    rw [writer, kept, h.writer]

theorem Disarms.step (h : Disarms p q) (notHeld : p.held = none) (i : LineNo) : Disarms p (q.disarmLine i) := by
  refine ⟨?_, fun j listens => ?_, disarms_writer h i⟩
  · rw [(lineStep_disarmLine q i).beyondLines, beyondLines_disarmStart (h.held.trans notHeld)]
    exact h.frame
  · by_cases e : j = i
    · exact absurd listens (e ▸ disarmLine_notListening q i)
    · rw [lineOp_disarmLine.others i q j e] at listens ⊢
      exact h.listens j listens

/-! ### The disarm word (R34) -/

theorem exec_disarm (ready : Ready s) : exec .disarm s =
    answers s ((if s.part.state = .armed then s.part.startDisarm else s.part).forward (baseWriteTo 18 .both 0x2D71)) := by
  refine (host_ready ready _).trans (congrArg (answers s) ((arrives_disarm s.part .both 0x2D71).trans ?_))
  simp only [true_and, Part.disarmWord, if_true]

/-- The part in "DISARMING" with word 32 queued, its lines still as they were. -/
def Part.disarming (p : Part) : Part := { p with state := .disarming }.queueBase 32

/-- What disarming makes of a line, and the words that it queues (R72). -/
theorem disarmed_line {x : Part} (same : x.line i = p.line i) (now : x.now = p.now) (counter : x.counter = p.counter)
    (held : x.held = p.held) :
    ((p.line i).state.quiesced = true → (x.disarmLine i).line i = (p.line i).released p.now .off .disarm (p.heldCount i) ∧
      ∀ w ∈ 32 :: (p.line i).dropReports (p.heldCount i), (x.disarmLine i).Pends i w) ∧
    ((p.line i).state = .release → (x.disarmLine i).line i = { p.line i with target := .off, releaseCause := .disarm }) ∧
    ((p.line i).state = .listen →
      (x.disarmLine i).line i = (((p.line i).unprobed p.now p.counter).unwalked).wentOff .disarm p.counter ∧
        ∀ w ∈ (p.line i).offReports, (x.disarmLine i).Pends i w) := by
  rw [← same, ← now, ← counter, ← heldCount_congr held]
  refine ⟨fun quiesced => ?_, fun release => ?_, fun listen => ?_⟩
  · rw [disarmLine_quiesced quiesced]
    exact ⟨line_enterRelease x i _ _, fun w hw => (enterRelease_event x .off .disarm).pends hw⟩
  · rw [disarmLine_release release, line_retarget]
  · rw [disarmLine_listen listen]
    exact ⟨line_listenToOff x _, fun w hw => pends_listenToOff x _ hw⟩

/-- Settles O9: word 32, then each line from the state in which it stood. -/
theorem disarmStarts : Obligations.DisarmStarts := by
  intro s ready
  have notHeld : s.part.held = none := held_of_ready ready
  refine ⟨fun armed => ?_, fun other => ?_⟩
  · have gone := forLines_gone lineOp_disarmLine s.part.disarming (Disarms s.part.disarming) (disarms_start _)
      fun i q h => h.step notHeld i
    have changes : Changes s.part s.part.startDisarm := changes_disarm s.part
    have run : exec .disarm s = answers s (s.part.startDisarm.forward (baseWriteTo 18 .both 0x2D71)) := by
      rw [exec_disarm ready, if_pos armed]
    refine ⟨s.part.startDisarm, run, ?_⟩
    change Gone _ _ _ _ s.part.startDisarm at gone
    generalize s.part.startDisarm = q at *
    have frame := gone.kept.frame
    refine ⟨(congrArg Part.state frame :), ?_, changes.reported, ?_, fun i h => ?_, fun i has => ?_, ?_, ?_, ?_⟩
    · refine (gone.pending _ _ fun _ _ => rfl).2 ?_
      exact mem_queueUpdate_self (.base 32) PartState.disarming.code s.part.reports
    · intro w v none only
      rw [gone.pending w v none]
      exact mem_queueUpdate_ne _ _ _ _ _ (only 32 List.mem_cons_self)
    · rcases h with absent | off
      · exact gone.absent absent
      · cases has : s.part.hasLine i with
        | false => exact gone.absent has
        | true =>
          obtain ⟨x, -, same, line, -⟩ := gone.line (j := i) has
          have stays : x.disarmLine i = x := disarmLine_off (by rw [same]; exact off)
          exact line.trans ((congrArg (Part.line · i) stays).trans same)
    · obtain ⟨x, disarms, same, line, reports⟩ := gone.line (j := i) has
      have made := disarmed_line (i := i) same (congrArg Part.now disarms.frame :)
        (congrArg Part.counter disarms.frame :) disarms.held
      simp only [Part.Pends, ← line, ← reports] at made
      exact made
    · exact (congrArg (fun x : Part =>
        { x with lines := s.part.lines, reports := s.part.reports, writer := s.part.writer }) frame :)
    · intro f flight has listen
      obtain ⟨x, -, -, line, -⟩ := gone.line (j := f.line) has
      have stops : (q.line f.line).state ≠ .listen := line ▸ disarmLine_notListening x f.line
      rw [gone.kept.writer, disarmedWriter, show s.part.disarming.writer.flight = some f from flight]
      exact (if_pos ⟨listen, stops⟩).trans (stepDropped_writer_congr rfl rfl rfl)
    · intro none
      rw [gone.kept.writer, disarmedWriter]
      split
      · next f flight =>
        refine if_neg fun e => ?_
        rcases none f flight with absent | notListening
        · have same := gone.absent (j := f.line) absent
          rw [same] at e
          exact e.2 e.1
        · exact notListening e.1
      · rfl
  · rw [exec_disarm ready, if_neg other]

end Sys2Proof.Machine

/-! PROOFS. The gate sequence and the closing write (R19, R23 to R25, R28, R36). -/

namespace Sys2Proof.Machine

variable {i : LineNo} {p q r : Part} {s t : State}

/-! ### Entry to "ARMING" (R25) -/

theorem baseReport_intoArming (p : Part) (check : Word) : ∀ w ∈ [42, 43, 44, 45], (p.intoArming check).baseReport w = 0 := by
  simp [Part.baseReport, Part.intoArming, BlockedRecord.initial, BlockedReason.code]

/-- The words of the record that the zeroing changes, with their new values (R17, R25). -/
theorem changed_intoArming (p : Part) (check : Word) :
    (([42, 43, 44, 45].filter fun w => (p.intoArming check).baseReport w != p.baseReport w).map fun w =>
      (ReportWord.base w, (p.intoArming check).baseReport w)) = p.blocked.zeroing := by
  have zero := baseReport_intoArming p check
  have updates : p.blocked.updates = [42, 43, 44, 45].map fun w => (ReportWord.base w, p.baseReport w) := rfl
  have changed : ([42, 43, 44, 45].filter fun w => (p.intoArming check).baseReport w != p.baseReport w) =
      [42, 43, 44, 45].filter fun w => p.baseReport w != 0 :=
    List.filter_congr fun w hw => by rw [zero w hw, bne_comm]
  rw [BlockedRecord.zeroing, updates, List.filter_map, List.map_map, changed]
  exact List.map_congr_left fun w hw => by rw [zero w (List.mem_of_mem_filter hw)]; rfl

theorem summary_intoArming (p : Part) (check : Word) :
    (p.intoArming check).summaryFlags = bitIf p.handsOff 0 ||| bitIf p.forced 1 ||| bitIf p.lineFault 2 ||| bitIf false 3 := rfl

/-- Zeroing the record changes word 37 exactly where "BLOCKED_WRITE" was set (R25, R33). -/
theorem summary_intoArming_ne (p : Part) (check : Word) :
    ((p.intoArming check).summaryFlags != p.summaryFlags) = p.blocked.latched := by
  have latched : ∀ a b c d : Bool, ((bitIf a 0 ||| bitIf b 1 ||| bitIf c 2 ||| bitIf false 3) !=
      (bitIf a 0 ||| bitIf b 1 ||| bitIf c 2 ||| bitIf d 3)) = d := by decide
  rw [summary_intoArming, Part.summaryFlags, latched]

/-- Entry to "ARMING" in the words of R25: what it changes, and the updates that it queues. -/
theorem enterArming_eq (p : Part) (check : Word) : p.enterArming check =
    { p.intoArming check with
      reports := queueAll
        (p.blocked.zeroing ++ (if p.blocked.latched then [(ReportWord.base 37, (p.intoArming check).summaryFlags)] else []) ++
          [(ReportWord.base 32, 2)]) p.reports } := by
  have words : ([42, 43, 44, 45, 37].filter fun w => (p.intoArming check).baseReport w != p.baseReport w).map
      (fun w => (ReportWord.base w, (p.intoArming check).baseReport w)) =
        p.blocked.zeroing ++ (if p.blocked.latched then [(ReportWord.base 37, (p.intoArming check).summaryFlags)] else []) := by
    rw [show [42, 43, 44, 45, 37] = [42, 43, 44, 45] ++ [37] from rfl, List.filter_append, List.map_append,
      changed_intoArming, List.filter_singleton, Bool.cond_eq_ite, baseReport_37, baseReport_37, summary_intoArming_ne]
    split
    · rw [List.map_singleton, baseReport_37]
    · rfl
  calc p.enterArming check = ((p.intoArming check).queueChanged p [42, 43, 44, 45, 37]).queueBase 32 := rfl
    _ = { p.intoArming check with reports := queueUpdate (.base 32) 2 (queueAll (p.blocked.zeroing ++
          (if p.blocked.latched then [(ReportWord.base 37, (p.intoArming check).summaryFlags)] else [])) p.reports) } := by
      rw [queueChanged_eq, words]
      rfl
    _ = _ := by
      rw [queueAll_append _ [(.base 32, 2)]]
      rfl

theorem gateEvent_arms {d : Word} (dormant : p.state = .dormant) (high : p.resetLow = false) (third : p.gateProgress = 3) :
    p.gateEvent .both d = p.enterArming d := by
  rw [Part.gateEvent, if_pos ⟨dormant, high⟩, if_neg (not_not.2 rfl), if_pos third]

/-- Settles O10: the gate event by the state, the lanes and the progress. -/
theorem gateSequence : Obligations.GateSequence := by
  intro s lanes d ready
  have run : exec (.gateWrite lanes d) s = answers s ((s.part.gateEvent lanes d).forward ⟨gateAddr, .write lanes d⟩) :=
    (host_ready ready _).trans (congrArg (answers s) (arrives_gate s.part lanes d))
  refine ⟨fun still => ?_, fun dormant high => ⟨fun oneLane => ?_, fun both early => ?_, fun both third => ?_⟩⟩
  · rw [run, Part.gateEvent, if_neg fun h => still.elim (absurd h.1) fun low => by cases low.symm.trans h.2]
  · rw [run, Part.gateEvent, if_pos ⟨dormant, high⟩, if_pos oneLane]
  · have notThird : s.part.gateProgress ≠ 3 := by omega
    rw [run, Part.gateEvent, if_pos ⟨dormant, high⟩, if_neg (not_not.2 both), if_neg notThird]
    rfl
  · obtain rfl := both
    rw [run, gateEvent_arms dormant high third, enterArming_eq]
    rfl

/-! ### The closing write (R28, R36) -/

theorem queueClosing_eq (closing : p.closing = true) : p.queueClosing = { p with reports := queueUpdate (.base 32) 1 p.reports } :=
  calc p.queueClosing = { p with reports := queueUpdate (.base 32) 1 p.reports, closing := true } := rfl
    _ = { p with reports := queueUpdate (.base 32) 1 p.reports, closing := p.closing } := by rw [closing]

theorem closingDone_sleeps (empty : p.reports = []) : p.closingDone = p.asleep := if_pos empty

theorem closingDone_again (pending : p.reports ≠ []) (closing : p.closing = true) :
    p.closingDone = { p with reports := queueUpdate (.base 32) 1 p.reports } :=
  (if_neg pending).trans (queueClosing_eq closing)

/-- The closing write completes in the state that the access and what waits for it leave. -/
theorem exec_closingWrite {a : Addr} {x : Part} {m : Memory} (noReset : s.part.resetPending = false)
    (closing : s.part.closing = true) (serving : s.part.port.serving = some (.report (.base 32) a 1))
    (closed : s.closed (.report (.base 32) a 1) = { s with part := x, mem := m }) :
    exec .closingWriteComplete s = .next { s with part := x.closingDone.arbitrate, mem := m } := by
  have serves : s.part.servesClosing = true := by
    rw [Part.servesClosing, serving]
    exact Bool.and_eq_true_iff.2 ⟨closing, rfl⟩
  have completed := completeClosing_eq (.report (.base 32) a 1) noReset
  rw [closed] at completed
  change execClosingWriteComplete s = _
  rw [execClosingWriteComplete, serving]
  exact (if_pos serves).trans (congrArg Host.Outcome.next completed)

theorem closed_pending (h : s.part.reports ≠ []) (a : Serving) :
    s.closed a = { s with part := s.part.freePort, mem := (Memory.access s.mem a).1 } := if_neg h

theorem closed_alone (h : s.part.port.waiting = none) (a : Serving) :
    s.closed a = { s with part := s.part.freePort, mem := (Memory.access s.mem a).1 } := by
  unfold State.closed
  extract_lets t
  have alone : t.serveWaiting = t := by
    have none : t.part.port.waiting = none := h
    rw [State.serveWaiting, none]
  rw [alone, ite_self]

/-- A host access that waits for the closing write, with nothing pending, is served in the same step (R19, log 11). -/
theorem closed_serves {b : HostAccess} (empty : s.part.reports = []) (waits : s.part.port.waiting = some b) (a : Serving) :
    s.closed a =
      { s with
        part := Part.hostCompletes { s.part.freePort with port := { s.part.port with serving := none, waiting := none } } b
          (Memory.access (Memory.access s.mem a).1 (.host b)).2
        mem := (Memory.access (Memory.access s.mem a).1 (.host b)).1 } := by
  unfold State.closed
  extract_lets t
  have some : t.part.port.waiting = some b := waits
  rw [if_pos (show t.part.reports = [] from empty), State.serveWaiting, some]
  rfl

/-- The part that the closing write leaves to a read it serves: the read completes, both accesses are off the port. -/
theorem closed_read {b : Addr} {m : Memory} {a : Addr} (empty : s.part.reports = []) (waits : s.part.port.waiting = some ⟨b, .read⟩)
    (isM : m = Memory.writeLanes s.mem a .both 1)
    (isP : p = { s.part with
      hostWait := false, readData := m.readWord b, port := { s.part.port with serving := none, waiting := none } }) :
    s.closed (.report (.base 32) a 1) = { s with part := p.snoop b (m.readWord b), mem := m } := by
  rw [closed_serves empty waits, isP, isM]
  rfl

/-- A read that meets no latched probe result under way to it changes nothing (R7, R12). -/
theorem snoop_idle {b : Addr} {d : Word} (noRing : ∀ i k, p.decode b ≠ .ring i k)
    (noClear : ∀ i, ¬ (p.decode b = .lcb i 45 ∧ d = (p.line i).probeResult ∧ (p.line i).flags.getLsbD 2 = true)) :
    p.snoop b d = p := by
  by_cases probe : ∃ i, p.decode b = .lcb i 45
  · obtain ⟨i, here⟩ := probe
    rw [snoop_probe here]
    by_cases result : d = (p.line i).probeResult
    · rw [snoopProbe_result result]
      exact unlatchProbe_clear (Bool.eq_false_iff.2 fun ready => noClear i ⟨here, result, ready⟩)
    · exact snoopProbe_other result
  · exact snoop_none noRing (fun i here => probe ⟨i, here⟩) d

/-- Settles O13: the closing write by what is pending and what waits. -/
theorem closingWrite : Obligations.ClosingWrite := by
  intro s a noReset closing serving
  refine ⟨fun pending => ?_, fun empty noneWaits => ?_, fun b lanes d empty waits => ?_, fun b m p empty waits noRing isM isP => ?_⟩
  · rw [exec_closingWrite noReset closing serving (closed_pending pending _),
      closingDone_again (p := s.part.freePort) pending closing]
    rfl
  · rw [exec_closingWrite noReset closing serving (closed_alone noneWaits _), closingDone_sleeps (p := s.part.freePort) empty]
    rfl
  · let q : Part := { s.part with hostWait := false, port := { s.part.port with serving := none, waiting := none } }
    have served : s.closed (.report (.base 32) a 1) =
        { s with part := q, mem := Memory.writeLanes (Memory.writeLanes s.mem a .both 1) b lanes d } := closed_serves empty waits _
    rw [exec_closingWrite noReset closing serving served, closingDone_sleeps (p := q) empty]
    rfl
  · have completed := exec_closingWrite noReset closing serving (closed_read empty waits isM isP)
    have decodes : p.decode b = s.part.decode b := by rw [isP]; rfl
    have line : ∀ i, p.line i = s.part.line i := fun i => by rw [isP]; rfl
    have still : p.reports = [] ∧ p.closing = true := by rw [isP]; exact ⟨empty, closing⟩
    refine ⟨fun noClear => ?_, fun i clears => ?_⟩
    · have idle : p.snoop b (m.readWord b) = p :=
        snoop_idle (fun i k => decodes ▸ noRing i k) fun i => by
          rw [decodes, line]
          exact noClear i
      rw [completed, idle, closingDone_sleeps still.1]
    · obtain ⟨here, result, ready⟩ := clears
      have event := unlatchProbe_event p i
      rw [line, ready] at event
      refine ⟨p.unlatch i .probeReady, event, ?_⟩
      have pending : (p.unlatch i .probeReady).reports ≠ [] := List.ne_nil_of_mem (event.1.2.2 35 List.mem_cons_self)
      have again : (p.unlatch i .probeReady).closing = true :=
        (congrArg Bearing.closing event.1.1.bearing :).trans still.2
      rw [completed, snoop_probe (decodes.trans here), snoopProbe_result (result.trans (by rw [line])),
        closingDone_again pending again]

end Sys2Proof.Machine
